-- ==== Sys2Proof/Word.lean ====
section
/-! DEFINITION. The word types of RSCORE: a byte lane (R85), a 16-bit entry (R37, R49) and a port word (R80). -/

namespace Sys2Proof

/-- One byte lane of the port (R85). -/
abbrev Byte := BitVec 8

/-- One 16-bit register or file entry: an element or an index (R17, R37, R38, R49). -/
abbrev Half := BitVec 16

/-- One word of the host port, and one 32-bit register or entry (R80, R51, R58). -/
abbrev Word := BitVec 32

end Sys2Proof
end

