-- ==== Sys2Proof/Config.lean ====
section
/-! DEFINITION. What an implementation of RSCORE fixes (`NROOTS_MAX`, `PAD_ROOT_POLICY`) and the free values
the spec leaves open (a read during BUSY, the length of a BUSY window). A constant with no body has no value
that a proof can see. -/

namespace Sys2Proof.Config

/-- `M_MAX` (R8): the largest symbol width. -/
def mMax : Nat := 16

/-- How far `NROOTS_MAX` lies above its lower bound 32 (R9). FREE VALUE (log entry 2): the spec leaves the capacity
open in `32 ≤ NROOTS_MAX ≤ 65534`, so nothing but those bounds is known of it. -/
opaque nrootsMaxAbove32 : Fin 65503

/-- `NROOTS_MAX` (R9): the capacity of PAR, ERAS, CORR and the working files. -/
def nrootsMax : Nat := nrootsMaxAbove32.val + 32

/-- The named parameter `PAD_ROOT_POLICY` (R10, R263). -/
inductive PadRootPolicy where
  | fail
  | drop
deriving DecidableEq, Repr

/-- RSCORE takes FAIL (R10). -/
def padRootPolicy : PadRootPolicy := .fail

/-- FREE VALUE (log entry 3): how many host accesses at most fall inside the BUSY window of the command issued
with draw number `k`. R363 and R370 give no number; it is finite. -/
opaque busySteps : Nat → Nat

/-- FREE VALUE (log entry 4): the word that a host read of an unspecified offset returns while BUSY is 1, for
draw number `k` (R87, R364, U1: any value, a fresh draw for each read). -/
opaque unspecifiedRead : Nat → Word

/-- One row of the preset list of R12: a configuration example, `nroots` left to the host. -/
structure Preset where
  n    : Nat
  poly : Nat
  fcr  : Nat
  prim : Nat
deriving DecidableEq, Repr

/-- The presets of R12. They are examples of a configuration, not a feature of the block (R5 (a)). -/
def presets : List Preset :=
  [⟨3, 0x7, 1, 1⟩, ⟨7, 0xb, 1, 1⟩, ⟨15, 0x13, 1, 1⟩, ⟨31, 0x25, 1, 1⟩, ⟨63, 0x43, 1, 1⟩, ⟨127, 0x89, 1, 1⟩,
    ⟨255, 0x11d, 1, 1⟩, ⟨255, 0x187, 112, 11⟩] ++
  [⟨511, 0x211, 1, 1⟩, ⟨1023, 0x409, 1, 1⟩, ⟨2047, 0x805, 1, 1⟩, ⟨4095, 0x1053, 1, 1⟩, ⟨8191, 0x201b, 1, 1⟩,
    ⟨16383, 0x4443, 1, 1⟩, ⟨32767, 0x8003, 1, 1⟩, ⟨65535, 0x1100b, 1, 1⟩]

end Sys2Proof.Config
end

