-- ==== Sys2Proof/Syntax.lean ====
section
/-! DEFINITION. The commands of RSCORE (R114), one constructor for each row of the opcode table, and the raw
fields of the one command format `CMDW` (R110). -/

namespace Sys2Proof

/-- The commands of R114. `e` and `c` are the flags `E` and `C` (R113); the other commands have no operand field
(R111, R112). -/
inductive Instr where
  | nop
  | config
  | encode
  | decode (e c : Bool)
  | softReset
  | decSyn (e c : Bool)
  | decEras
  | decBm
  | decChien
  | decForney
  | decApply
  | fldAlog
  | fldLog
  | fldModn
  | fldAdd
  | fldMul
  | fldDiv
deriving DecidableEq, Repr

/-- The fields of a command word as R110 lays them out, legal or not. -/
structure Cmdw where
  op  : BitVec 8
  e   : Bool
  c   : Bool
  rsv : BitVec 22
deriving DecidableEq, Repr

end Sys2Proof
end

