-- ==== Sys2Proof/WellFormed.lean ====
section
/-! DEFINITION. When the fields of a command word are legal (R112, R115, R116). The syntax `Instr` admits legal
commands only, so every `Instr` is well formed; the checks are on the raw fields `Cmdw`. -/

namespace Sys2Proof

/-- The 17 opcodes of R114. -/
def opcodes : List (BitVec 8) :=
  [0x00, 0x01, 0x02, 0x03, 0x04, 0x10, 0x11, 0x12, 0x13, 0x14, 0x15, 0x20, 0x21, 0x22, 0x23, 0x24, 0x25]

/-- The opcode is one of R114's, not one of the 239 reserved values (R116). -/
def Cmdw.opcodeAssigned (f : Cmdw) : Bool := opcodes.contains f.op

/-- Bits [31:10] are 0 (R112). -/
def Cmdw.reservedClear (f : Cmdw) : Bool := f.rsv == 0

/-- `E` and `C` are 0, or the opcode is DECODE or DEC_SYN (R112). -/
def Cmdw.flagsLegal (f : Cmdw) : Bool := f.op == 0x03 || f.op == 0x10 || (!f.e && !f.c)

/-- A command word is legal (R112, R115). -/
def Cmdw.wellFormed (f : Cmdw) : Bool := f.opcodeAssigned && f.reservedClear && f.flagsLegal

/-- The fields of a command (R110, R114). -/
def Instr.fields : Instr → Cmdw
  | .nop => ⟨0x00, false, false, 0⟩
  | .config => ⟨0x01, false, false, 0⟩
  | .encode => ⟨0x02, false, false, 0⟩
  | .decode e c => ⟨0x03, e, c, 0⟩
  | .softReset => ⟨0x04, false, false, 0⟩
  | .decSyn e c => ⟨0x10, e, c, 0⟩
  | .decEras => ⟨0x11, false, false, 0⟩
  | .decBm => ⟨0x12, false, false, 0⟩
  | .decChien => ⟨0x13, false, false, 0⟩
  | .decForney => ⟨0x14, false, false, 0⟩
  | .decApply => ⟨0x15, false, false, 0⟩
  | .fldAlog => ⟨0x20, false, false, 0⟩
  | .fldLog => ⟨0x21, false, false, 0⟩
  | .fldModn => ⟨0x22, false, false, 0⟩
  | .fldAdd => ⟨0x23, false, false, 0⟩
  | .fldMul => ⟨0x24, false, false, 0⟩
  | .fldDiv => ⟨0x25, false, false, 0⟩

/-- A command is well formed when its fields are legal; `Instr` admits no other. -/
def Instr.wellFormed (i : Instr) : Bool := i.fields.wellFormed

end Sys2Proof
end

