-- ==== Sys2Proof/Decode.lean ====
section
/-! DEFINITION. Decoding a command word (R115), total on every 32-bit word and rejecting by name, and the encoder
written from the same table (R110, R114). -/

namespace Sys2Proof

/-- Why a word is ILLEGAL (R115, R116); all three complete with ILLEGAL_CMD. -/
inductive Reject where
  /-- The opcode is one of the 239 reserved values. -/
  | reservedOpcode
  /-- A bit of [31:10] is 1. -/
  | reservedBits
  /-- `E` or `C` is 1 outside DECODE and DEC_SYN. -/
  | flagsNotAllowed
deriving DecidableEq, Repr

/-- The fields of a word (R110): `OP` [7:0], `E` [8], `C` [9], `RSV` [31:10]. -/
def cmdwOfWord (w : Word) : Cmdw :=
  { op := w.setWidth 8, e := w.getLsbD 8, c := w.getLsbD 9, rsv := (w >>> 10).setWidth 22 }

/-- The word with these fields (R110). -/
def wordOfCmdw (f : Cmdw) : Word :=
  BitVec.ofNat 32 (f.op.toNat + (if f.e then 2 ^ 8 else 0) + (if f.c then 2 ^ 9 else 0) + f.rsv.toNat * 2 ^ 10)

/-- The command of an opcode (R114). -/
def instrOfOpcode (op : Nat) (e c : Bool) : Option Instr :=
  match op with
  | 0x00 => some .nop
  | 0x01 => some .config
  | 0x02 => some .encode
  | 0x03 => some (.decode e c)
  | 0x04 => some .softReset
  | 0x10 => some (.decSyn e c)
  | 0x11 => some .decEras
  | 0x12 => some .decBm
  | 0x13 => some .decChien
  | 0x14 => some .decForney
  | 0x15 => some .decApply
  | 0x20 => some .fldAlog
  | 0x21 => some .fldLog
  | 0x22 => some .fldModn
  | 0x23 => some .fldAdd
  | 0x24 => some .fldMul
  | 0x25 => some .fldDiv
  | _ => none

/-- R115, in its order: the opcode, then bits [31:10], then the flags. -/
def decode (w : Word) : Except Reject Instr :=
  let f := cmdwOfWord w
  match instrOfOpcode f.op.toNat f.e f.c with
  | none => .error .reservedOpcode
  | some i =>
    if f.reservedClear = false then .error .reservedBits
    else if f.flagsLegal = false then .error .flagsNotAllowed
    else .ok i

/-- The word of a command (R110, R114, R119). -/
def encode (i : Instr) : Word := wordOfCmdw i.fields

/-- The host's view of the decoder: the command a table row's bits `w` decode to. A command is one 32-bit word (R117),
so bits above 31 belong to no command. -/
def decodeTableWord (nbits w : Nat) : Option Instr :=
  if nbits ≤ 32 ∧ w < 2 ^ 32 then
    match decode (BitVec.ofNat 32 w) with
    | .ok i => some i
    | .error _ => none
  else none

end Sys2Proof
end

