-- ==== Sys2Proof/Machine/State.lean ====
section
/-! DEFINITION. The state of RSCORE (10_state.md R30 to R64), the model's own fields for the host's side of the port
(log entries 5 to 8), the reasons a step can stop, and the state after reset (R63). -/

namespace Sys2Proof.Machine

/-- `STATUS.ERRCODE` (R322). Codes 9 to 15 are never produced, so they are not values here (log entry 12). -/
inductive ErrCode where
  | noError
  | illegalCmd
  | notConfigured
  | badConfig
  | nonPrimitive
  | length
  | erasure
  | sequence
  | domain
deriving DecidableEq, Repr

/-- `STATUS.DSTAGE` (R45). Encodings 6 and 7 never occur, so they are not values here (log entry 12). -/
inductive DStage where
  | idle
  | syn
  | eras
  | bm
  | chien
  | forney
deriving DecidableEq, Repr

/-- The register files behind the windows of R82. -/
inductive RegFile where
  | alphaTo
  | indexOf
  | genpoly
  | data
  | par
  | eras
  | corr
  | s
  | lambda
  | b
  | omega
  | root
  | loc
  | mag
deriving DecidableEq, Repr

/-- One thing the outside world does at the port or to the reset input. -/
inductive HostEvent where
  /-- `MemRead(off, 4)` (R15, R80): only address bits [21:0] are decoded. -/
  | read (off : BitVec 22)
  /-- `MemWrite(off, 4, data)` (R15, R80). -/
  | write (off : BitVec 22) (data : Word)
  /-- One turn of the loop `rd STATUS -> s; repeat while s[0] = 1` (R118 `wait`). -/
  | wait
  /-- The platform pulses the reset input (R360). -/
  | reset
deriving DecidableEq, Repr

/-- Why a step stops with a fault. None is an event of the hardware: each is a state or a read to which the spec
gives no value, and the model stops there (safe). -/
inductive Fault where
  /-- Raised by every engine or host read of an entry of DATA, PAR, ERAS, CORR, S, LAMBDA, B, OMEGA, ROOT, LOC or MAG
  not written since reset (R64, U3). Safe. -/
  | unwrittenEntry (f : RegFile) (i : Nat)
  /-- Raised by `GField.modnInt`: a negative argument to `modn` (R170, R328, U5). Safe; no run reaches it. -/
  | negativeModn
  /-- Raised by DEC_FORNEY and DECODE: `den = 0` (R271, R328, U6). Safe; no run reaches it. -/
  | zeroDenominator
  /-- Raised by the configuration check: CFG_VALID is 1 over an active configuration no CONFIG can commit (R34, R141).
  Safe; no run reaches it. -/
  | brokenConfig
  /-- Raised by DEC_BM, DEC_CHIEN, DEC_FORNEY and DECODE: no degree, or one outside what DEC_BM can leave (R250).
  Safe; no run reaches it. -/
  | degreeOutOfRange
  /-- Raised by DEC_FORNEY and DEC_APPLY: NROOTS_FOUND is above nroots (R280). Safe; no run reaches it. -/
  | countOutOfRange
  /-- Raised by DEC_APPLY: a located position outside the transmitted block that is to be corrected (R280). Safe;
  no run reaches it. -/
  | positionOutOfRange
deriving DecidableEq, Repr

/-- Why a step is refused. -/
inductive Refusal where
  /-- Raised by an arm of `exec` that has no meaning yet; no arm is left so. Safe. -/
  | notModelled (mnemonic : String)
deriving DecidableEq, Repr

/-- The staging configuration registers (R33). -/
structure Staging where
  cfgM      : BitVec 5
  cfgPoly   : BitVec 17
  cfgNroots : Half
  cfgFcr    : Half
  cfgPrim   : Half
deriving DecidableEq, Repr

/-- The active and derived configuration registers (R35, R36). -/
structure Active where
  actM      : BitVec 5
  actPoly   : BitVec 17
  actNroots : Half
  actFcr    : Half
  actPrim   : Half
  actN      : Half
  iprim     : Half
deriving DecidableEq, Repr

/-- The fields of `STATUS` (R41); its reserved bits are not stored. -/
structure Status where
  busy     : Bool
  done     : Bool
  err      : Bool
  werr     : Bool
  cfgValid : Bool
  errcode  : ErrCode
  dstage   : DStage
deriving DecidableEq, Repr

/-- The decode latch registers (R46). -/
structure Latches where
  dLen     : Half
  dPad     : Half
  dNoEras  : Half
  dFlags   : BitVec 2
  dInvmask : Half
deriving DecidableEq, Repr

/-- The decoder scalar registers (R48). -/
structure Scalars where
  synError    : Half
  degLambda   : Half
  el          : Half
  nrootsFound : Half
  degOmega    : Half
deriving DecidableEq, Repr

/-- The register files (R37 to R39, R49 to R58) as bytes by port offset: entry `i` of a file lies at its window's base
plus `4·i`, least significant byte first (R82, R85). In its canonical form (`Memory.wf`) the offsets rise strictly and
no cell holds what an unlisted offset reads as (`Memory.unlisted`). -/
abbrev Memory := List Host.Cell

/-- The state of RSCORE. The last four fields are the model's own: the host's side of the port. -/
structure State where
  staging  : Staging
  active   : Active
  status   : Status
  irqEn    : BitVec 3
  cmd      : Word
  len      : Half
  noEras   : Half
  invmask  : Half
  opa      : Word
  opb      : Word
  res      : Word
  result   : Word
  latches  : Latches
  scalars  : Scalars
  mem      : Memory
  /-- What the host does next, first event first (log entry 5). -/
  pending  : List HostEvent
  /-- The word the port's last host read returned (log entry 6). -/
  rdata    : Word
  /-- How many more steps the engine leaves to the host before the command in flight completes (log entry 3). -/
  slack    : Nat
  /-- How many free values have been drawn (log entries 3 and 4). -/
  draws    : Nat
deriving DecidableEq, Repr

/-- The state after reset (R63): every register 0, nothing written in any file, and a host that does nothing. -/
def State.reset : State where
  staging  := ⟨0, 0, 0, 0, 0⟩
  active   := ⟨0, 0, 0, 0, 0, 0, 0⟩
  status   := ⟨false, false, false, false, false, .noError, .idle⟩
  irqEn    := 0
  cmd      := 0
  len      := 0
  noEras   := 0
  invmask  := 0
  opa      := 0
  opb      := 0
  res      := 0
  result   := 0
  latches  := ⟨0, 0, 0, 0, 0⟩
  scalars  := ⟨0, 0, 0, 0, 0⟩
  mem      := []
  pending  := []
  rdata    := 0
  slack    := 0
  draws    := 0

end Sys2Proof.Machine
end

