-- ==== Sys2Proof/Machine/Memory.lean ====
section
/-! DEFINITION. The register files as memory: the windows of R82, what an unlisted byte reads as, reading and writing
a byte, an entry and a run of entries (R83, R85), and the two loop forms the commands use. -/

namespace Sys2Proof.Machine

/-- The base offset of a file's window (R82). -/
def RegFile.base : RegFile → Nat
  | .alphaTo => 0x040000
  | .indexOf => 0x080000
  | .genpoly => 0x0C0000
  | .data => 0x100000
  | .par => 0x140000
  | .eras => 0x180000
  | .corr => 0x1C0000
  | .s => 0x200000
  | .lambda => 0x240000
  | .b => 0x280000
  | .omega => 0x2C0000
  | .root => 0x300000
  | .loc => 0x340000
  | .mag => 0x380000

/-- How many entries a file has (R37 to R39, R49 to R58, R82). -/
def RegFile.cap : RegFile → Nat
  | .alphaTo | .indexOf | .data => 65536
  | .genpoly | .lambda | .b => Config.nrootsMax + 1
  | .par | .eras | .corr | .s | .omega | .root | .loc | .mag => Config.nrootsMax

/-- The files whose entries store 32 bits (R51, R58); the others store 16. -/
def RegFile.wide : RegFile → Bool
  | .eras | .mag => true
  | _ => false

/-- The field tables, which read 0 while CFG_VALID is 0 (R47). -/
def RegFile.isTable : RegFile → Bool
  | .alphaTo | .indexOf | .genpoly => true
  | _ => false

/-- The files the host may write (R82). -/
def RegFile.hostWritable : RegFile → Bool
  | .data | .par | .eras | .corr => true
  | _ => false

/-- The byte offset of entry `i` (R82). -/
def entryAddr (f : RegFile) (i : Nat) : Nat := f.base + 4 * i

/-- What a byte that no cell lists reads as. In the buffer and working-file windows a stored lane has no value until
it is written (R64); the upper lanes of a 16-bit entry store nothing and count as 0 (R83). A table entry that CONFIG has not set is 0 (R37, R38,
R47), and no file lies elsewhere (R84). -/
def Memory.unlisted (a : Nat) : Option Byte :=
  if a < 0x100000 ∨ 0x3C0000 ≤ a then some 0
  else if (0x180000 ≤ a ∧ a < 0x1C0000) ∨ 0x380000 ≤ a then none
  else if a % 4 < 2 then none else some 0

/-- Reads one byte. -/
def Memory.read : Memory → Nat → Option Byte
  | [], a => Memory.unlisted a
  | (b, v) :: rest, a => if b = a then some v else Memory.read rest a

/-- Lists a byte in address order. -/
def Memory.insert : Memory → Nat → Byte → Memory
  | [], a, v => [(a, v)]
  | (b, w) :: rest, a, v =>
    if a < b then (a, v) :: (b, w) :: rest
    else if a = b then (a, v) :: rest
    else (b, w) :: Memory.insert rest a v

/-- Unlists the bytes of `[lo, hi)`. -/
def Memory.clear (m : Memory) (lo hi : Nat) : Memory := m.filter fun c => !(decide (lo ≤ c.1) && decide (c.1 < hi))

/-- Writes one byte, keeping the canonical form. -/
def Memory.write (m : Memory) (a : Nat) (v : Byte) : Memory :=
  if Memory.unlisted a = some v then m.clear a (a + 1) else m.insert a v

/-- The canonical form: strictly rising offsets, and no cell that an unlisted byte would read as. -/
abbrev Memory.wf (m : Memory) : Prop :=
  m.Pairwise (fun c d => c.1 < d.1) ∧ ∀ c ∈ m, Memory.unlisted c.1 ≠ some c.2

/-- The 16 bits at `a`, least significant byte first (R85). -/
def Memory.half (m : Memory) (a : Nat) : Option Half :=
  match m.read a, m.read (a + 1) with
  | some b0, some b1 => some (b1 ++ b0)
  | _, _ => none

/-- The 32 bits at `a`, least significant byte first (R85). -/
def Memory.word (m : Memory) (a : Nat) : Option Word :=
  match m.half a, m.half (a + 2) with
  | some h0, some h1 => some (h1 ++ h0)
  | _, _ => none

/-- Stores 16 bits at `a`. -/
def Memory.setHalf (m : Memory) (a : Nat) (v : Half) : Memory :=
  (m.write a (v.setWidth 8)).write (a + 1) ((v >>> 8).setWidth 8)

/-- Stores 32 bits at `a`. -/
def Memory.setWord (m : Memory) (a : Nat) (v : Word) : Memory :=
  (m.setHalf a (v.setWidth 16)).setHalf (a + 2) ((v >>> 16).setWidth 16)

/-- The value of entry `i` as a port word, a 16-bit one zero-extended (R83); none where it was never written (R64). -/
def Memory.entry (m : Memory) (f : RegFile) (i : Nat) : Option Word :=
  if f.wide then m.word (entryAddr f i) else (m.half (entryAddr f i)).map (·.setWidth 32)

/-- Stores an entry: all 32 bits of a wide one, bits [15:0] of the others (R83). -/
def Memory.setEntry (m : Memory) (f : RegFile) (i : Nat) (v : Word) : Memory :=
  if f.wide then m.setWord (entryAddr f i) v else m.setHalf (entryAddr f i) (v.setWidth 16)

/-- The entry of a field table; a table has no unwritten entry (R37 to R39). -/
def Memory.tableEntry (m : Memory) (f : RegFile) (i : Nat) : Half := (m.half (entryAddr f i)).getD 0

/-- The engine's read of a 16-bit entry; an unwritten one is a fault of the run (R64). -/
def Memory.getHalf (m : Memory) (f : RegFile) (i : Nat) : Except Fault Half :=
  match m.half (entryAddr f i) with
  | some v => .ok v
  | none => .error (.unwrittenEntry f i)

/-- The read of an entry as a port word; an unwritten one is a fault of the run (R64). -/
def Memory.getWord (m : Memory) (f : RegFile) (i : Nat) : Except Fault Word :=
  match m.entry f i with
  | some v => .ok v
  | none => .error (.unwrittenEntry f i)

/-- `for a in l: collect f a`, stopping at the first fault. -/
def mapE {α β : Type} (f : α → Except Fault β) : List α → Except Fault (List β)
  | [] => .ok []
  | a :: l =>
    match f a with
    | .error e => .error e
    | .ok b =>
      match mapE f l with
      | .error e => .error e
      | .ok bs => .ok (b :: bs)

/-- `for a in l: x <- f x a`, stopping at the first fault. -/
def foldE {α σ : Type} (f : σ → α → Except Fault σ) : σ → List α → Except Fault σ
  | x, [] => .ok x
  | x, a :: l =>
    match f x a with
    | .error e => .error e
    | .ok y => foldE f y l

/-- Entries `[0, k)` of a 16-bit file. -/
def Memory.getHalves (m : Memory) (f : RegFile) (k : Nat) : Except Fault (List Half) :=
  mapE (m.getHalf f) (List.range k)

/-- Entries `[0, k)` of a file as port words. -/
def Memory.getWords (m : Memory) (f : RegFile) (k : Nat) : Except Fault (List Word) :=
  mapE (m.getWord f) (List.range k)

/-- Writes `vs` to the entries of a 16-bit file from entry `i` on. -/
def Memory.putHalves (m : Memory) (f : RegFile) : Nat → List Half → Memory
  | _, [] => m
  | i, v :: vs => Memory.putHalves (m.setHalf (entryAddr f i) v) f (i + 1) vs

/-- Writes `vs` to the entries of a 32-bit file from entry `i` on. -/
def Memory.putWords (m : Memory) (f : RegFile) : Nat → List Word → Memory
  | _, [] => m
  | i, v :: vs => Memory.putWords (m.setWord (entryAddr f i) v) f (i + 1) vs

end Sys2Proof.Machine
end

