-- ==== Sys2Proof/Machine/Field.lean ====
section
/-! DEFINITION. The field arithmetic every command uses: the active tables as a field (R18, R174), the index reducer
`modn` (R170) and its iteration (R171), and the sums that the rules accumulate by XOR. -/

namespace Sys2Proof.Machine

/-- The active field as the rules use it (R18): `n`, `alpha(i)` and `log(x)`. `A0 = n` (R7). It is built anew from the
state by every command and is no part of the state. -/
structure GField where
  n     : Half
  alpha : Half → Half
  log   : Half → Half

/-- The field of the active configuration (R18, R35 to R38). -/
def State.field (s : State) : GField where
  n     := s.active.actN
  alpha := fun i => s.mem.tableEntry .alphaTo i.toNat
  log   := fun x => s.mem.tableEntry .indexOf x.toNat

/-- `GENPOLY[i]` (R39). CONFIG fills the entries above `nroots` with `A0` (R147); they are not stored, because what they
hold is `ACT_N` for as long as CFG_VALID is 1 (log entry 9). -/
def State.genpoly (s : State) (i : Nat) : Half :=
  if i ≤ s.active.actNroots.toNat then s.mem.tableEntry .genpoly i else s.active.actN

/-- `modn(x)` for `x ≥ 0` (R170): `x mod n`. The sum `x` is exact (R11, R13). -/
def GField.modn (F : GField) (x : Nat) : Half := BitVec.ofNat 16 (x % F.n.toNat)

/-- `modn` where the argument is a difference; a negative one is a fault of the model (R170, R173, R328). -/
def GField.modnInt (F : GField) (x : Int) : Except Fault Half :=
  if x < 0 then .error .negativeModn else .ok (F.modn x.toNat)

/-- The reducer's iteration (R171), at most `fuel` times: while `x ≥ n`, subtract `n` and fold. -/
def modnIter (m n : Nat) : Nat → Nat → Nat
  | 0, x => x
  | fuel + 1, x => if x < n then x else modnIter m n fuel (((x - n) >>> m) + ((x - n) &&& n))

/-- How many iterations R171 takes on `x`, counting at most `fuel`. -/
def modnIterCount (m n : Nat) : Nat → Nat → Nat
  | 0, _ => 0
  | fuel + 1, x => if x < n then 0 else modnIterCount m n fuel (((x - n) >>> m) + ((x - n) &&& n)) + 1

/-- `ALPHA_TO[modn(x)]`. -/
def GField.pow (F : GField) (x : Nat) : Half := F.alpha (F.modn x)

/-- `t <- 0; for v in l: t <- t XOR v`. -/
def xorSum (l : List Half) : Half := l.foldl (· ^^^ ·) 0

/-- Entry `i` of a command-local list; the rules index only inside it. -/
def nth (l : List Half) (i : Nat) : Half := l.getD i 0

/-- Field multiplication through the tables (R174, R184). -/
def GField.mul (F : GField) (a b : Half) : Half :=
  if a = 0 ∨ b = 0 then 0 else F.pow ((F.log a).toNat + (F.log b).toNat)

/-- Field division through the tables for a non-zero divisor (R185). -/
def GField.div (F : GField) (a b : Half) : Except Fault Half :=
  if a = 0 then .ok 0
  else
    match F.modnInt ((F.log a).toNat + F.n.toNat - (F.log b).toNat : Int) with
    | .error e => .error e
    | .ok i => .ok (F.alpha i)

end Sys2Proof.Machine
end

