-- ==== Sys2Proof/Machine/Flags.lean ====
section
/-! DEFINITION. `STATUS` as the host reads and writes it (R41), the codes of its fields (R45, R322), and the interrupt
output (R330). -/

namespace Sys2Proof.Machine

/-- The value of `STATUS.ERRCODE` (R322). -/
def ErrCode.code : ErrCode → Nat
  | .noError => 0
  | .illegalCmd => 1
  | .notConfigured => 2
  | .badConfig => 3
  | .nonPrimitive => 4
  | .length => 5
  | .erasure => 6
  | .sequence => 7
  | .domain => 8

/-- The value of `STATUS.DSTAGE` (R45). -/
def DStage.code : DStage → Nat
  | .idle => 0
  | .syn => 1
  | .eras => 2
  | .bm => 3
  | .chien => 4
  | .forney => 5

/-- The word a read of `STATUS` returns (R41); the reserved bits read 0. -/
def Status.word (t : Status) : Word :=
  BitVec.ofNat 32 (t.busy.toNat + 2 * t.done.toNat + 4 * t.err.toNat + 8 * t.werr.toNat + 16 * t.cfgValid.toNat
    + 256 * t.errcode.code + 65536 * t.dstage.code)

/-- A host write to `STATUS` (R41): a 1 in DONE, ERR or WERR clears that bit, every other bit is ignored. -/
def Status.w1c (t : Status) (v : Word) : Status :=
  { t with
    done := t.done && !v.getLsbD 1
    err := t.err && !v.getLsbD 2
    werr := t.werr && !v.getLsbD 3 }

/-- The interrupt output (R330): level-sensitive, a function of `STATUS` and `IRQ_EN`. -/
def State.irq (s : State) : Bool :=
  (s.status.done && s.irqEn.getLsbD 0) || (s.status.err && s.irqEn.getLsbD 1) || (s.status.werr && s.irqEn.getLsbD 2)

end Sys2Proof.Machine
end

