-- ==== Sys2Proof/Machine/Ops.lean ====
section
/-! DEFINITION. The shared operations of the commands: the named updates of the state, the issue of a command (R362), its
completion with or without an error (R324), the checks (R326), and the two resets (R301, R360). -/

namespace Sys2Proof.Machine

/-- Replaces the register files. -/
def State.setMem (s : State) (m : Memory) : State := { s with mem := m }

/-- Writes `STATUS.DSTAGE`. -/
def State.setStage (s : State) (d : DStage) : State := { s with status := { s.status with dstage := d } }

/-- Writes `RESULT` (R44). -/
def State.setResult (s : State) (r : Word) : State := { s with result := r }

/-- Writes `RES` (R44). -/
def State.setRes (s : State) (r : Word) : State := { s with res := r }

/-- Writes the decode latches (R46). -/
def State.setLatches (s : State) (l : Latches) : State := { s with latches := l }

/-- Writes the decoder scalars (R48). -/
def State.setScalars (s : State) (c : Scalars) : State := { s with scalars := c }

/-- Commits an active configuration (R148): `ACT_*`, `ACT_N`, `IPRIM` and CFG_VALID. -/
def State.setActive (s : State) (a : Active) : State :=
  { s with active := a, status := { s.status with cfgValid := true } }

/-- The issue of a command word (R110, R362): `CMD` holds it, BUSY becomes 1, and the length of the BUSY window is drawn
(R363). -/
def State.issue (s : State) (w : Word) : State :=
  { s with
    cmd := w
    status := { s.status with busy := true }
    slack := Config.busySteps s.draws
    draws := s.draws + 1 }

/-- The completion of a command (R324), and with a code other than NONE the one way RSCORE signals an error (R320): no
vector, saved context or mode exists, and nothing returns from it (R329). -/
def complete (c : ErrCode) (s : State) : State :=
  { s with
    status := { s.status with
      errcode := c
      err := s.status.err || c != .noError
      done := true
      busy := false } }

/-- A command (R320, R325): the checks, then either the error completion with nothing else changed, or the body and the
completion without error. -/
def command (check : State → Except Fault (Option ErrCode)) (body : State → Except Fault State) (s : State) :
    Host.Outcome State Fault Refusal :=
  match check s with
  | .error f => .fault f
  | .ok (some c) => .next (complete c s)
  | .ok none =>
    match body s with
    | .error f => .fault f
    | .ok t => .next (complete .noError t)

/-- The active configuration is one a CONFIG can commit, as far as the rules need it (R141, R146). -/
def Active.usable (a : Active) : Bool :=
  decide (0 < a.actN.toNat) && decide (1 ≤ a.actNroots.toNat) && decide (a.actNroots.toNat < a.actN.toNat)
    && decide (a.actNroots.toNat ≤ Config.nrootsMax) && decide (1 ≤ a.iprim.toNat)

/-- The check `CFG_VALID = 1` (R326), then the checks `k`. A valid configuration that no CONFIG can commit is a fault of
the model (R34, log entry 11). -/
def checkConfigured (s : State) (k : Except Fault (Option ErrCode)) : Except Fault (Option ErrCode) :=
  if s.status.cfgValid = false then .ok (some .notConfigured)
  else if s.active.usable = false then .error .brokenConfig
  else k

/-- The checks of a stage command (R326): CFG_VALID, then DSTAGE, then `k`. -/
def checkStage (need : DStage) (s : State) (k : Except Fault (Option ErrCode)) : Except Fault (Option ErrCode) :=
  checkConfigured s (if s.status.dstage = need then k else .ok (some .sequence))

/-- The registers SOFT_RESET writes (R301): every register of R63 but `ID`, `PARAM` and `CMD`; the files keep their
contents. -/
def State.softReset (s : State) : State :=
  { State.reset with
    cmd := s.cmd, mem := s.mem, pending := s.pending, rdata := s.rdata, slack := s.slack, draws := s.draws }

/-- The reset input (R360): the state after reset; what the host does next and what it has read are no part of RSCORE. -/
def State.platformReset (s : State) : State :=
  { State.reset with pending := s.pending, rdata := s.rdata, draws := s.draws }

end Sys2Proof.Machine
end

