-- ==== Sys2Proof/Machine/Operands.lean ====
section
/-! DEFINITION. The operand forms: the parameters of the active configuration (R6), the block geometry (R7, R221), the
symbols of a block (R59, R94, R202), the erasure vector (R222) and the field-operation operands (41_field_ops.md). -/

namespace Sys2Proof.Machine

/-- `n` (R6, R36). -/
def State.n (s : State) : Nat := s.active.actN.toNat

/-- `nroots` (R6). -/
def State.nroots (s : State) : Nat := s.active.actNroots.toNat

/-- `fcr` (R6). -/
def State.fcr (s : State) : Nat := s.active.actFcr.toNat

/-- `prim` (R6). -/
def State.prim (s : State) : Nat := s.active.actPrim.toNat

/-- `len ≤ n − nroots`, as integers (R200, R221). -/
def State.lenFits (s : State) : Bool := decide (s.len.toNat + s.nroots ≤ s.n)

/-- `pad = n − nroots − len` (R7, R221). -/
def State.pad (s : State) : Nat := s.n - s.nroots - s.len.toNat

/-- The effective erasure count (R222): `NO_ERAS` if `E = 1`, else 0. -/
def State.effectiveErasures (s : State) (e : Bool) : Nat := if e then s.noEras.toNat else 0

/-- `INVMASK AND n` (R59, R202). -/
def State.mask (s : State) : Half := s.invmask &&& s.active.actN

/-- The effective message `(DATA[i] AND n) XOR mask` for `i < len` (R59, R202). -/
def State.message (s : State) (len : Nat) (mask : Half) : Except Fault (List Half) :=
  match s.mem.getHalves .data len with
  | .error e => .error e
  | .ok ds => .ok (ds.map fun d => (d &&& s.active.actN) ^^^ mask)

/-- The parity symbols `PAR[j] AND n` for `j < nroots` (R59); the mask is never applied to parity (R202). -/
def State.parity (s : State) : Except Fault (List Half) :=
  match s.mem.getHalves .par s.nroots with
  | .error e => .error e
  | .ok ps => .ok (ps.map fun p => p &&& s.active.actN)

/-- `sext_32(ERAS[k])` (R14, R51). -/
def State.erasure (s : State) (k : Nat) : Except Fault Int :=
  match s.mem.getWord .eras k with
  | .error e => .error e
  | .ok w => .ok w.toInt

/-- The loop of `erasures_valid` (R222) over the indices `ks`. -/
def State.erasuresInBlock (s : State) (len : Nat) : List Nat → Except Fault Bool
  | [] => .ok true
  | k :: ks =>
    match s.erasure k with
    | .error e => .error e
    | .ok e => if e < 0 ∨ (len + s.nroots : Int) ≤ e then .ok false else s.erasuresInBlock len ks

/-- `erasures_valid(ne, len)` (R222). -/
def State.erasuresValid (s : State) (ne len : Nat) : Except Fault Bool :=
  if s.nroots < ne then .ok false else s.erasuresInBlock len (List.range ne)

/-- The check of the erasure vector (R326). -/
def State.checkErasures (s : State) (ne len : Nat) : Except Fault (Option ErrCode) :=
  match s.erasuresValid ne len with
  | .error e => .error e
  | .ok true => .ok none
  | .ok false => .ok (some .erasure)

/-- A field-operation operand is an element or an index: `v ≤ n` (R180 to R185), `v` an unsigned 32-bit value. -/
def State.inField (s : State) (v : Word) : Bool := decide (v.toNat ≤ s.n)

/-- The check of a field operation (R326): CFG_VALID, then the domain `ok`. -/
def State.checkDomain (s : State) (ok : Bool) : Except Fault (Option ErrCode) :=
  checkConfigured s (.ok (if ok then none else some .domain))

/-- `tc_32` (R14). -/
def tc32 (x : Int) : Word := BitVec.ofInt 32 x

end Sys2Proof.Machine
end

