-- ==== Sys2Proof/Machine/Control.lean ====
section
/-! DEFINITION. The control commands (45_control.md): NOP and SOFT_RESET. -/

namespace Sys2Proof.Machine

/-- NOP (R300): no effect but its completion. -/
def execNop (s : State) : Host.Outcome State Fault Refusal := command (fun _ => .ok none) .ok s

/-- SOFT_RESET (R301). -/
def execSoftReset (s : State) : Host.Outcome State Fault Refusal :=
  command (fun _ => .ok none) (fun s => .ok s.softReset) s

end Sys2Proof.Machine
end

