-- ==== Sys2Proof/Machine/DecoderFront.lean ====
section
/-! DEFINITION. The decoder front end (43_decoder_front.md): DEC_SYN (R220), DEC_ERAS (R230) and DEC_BM (R240, R250). -/

namespace Sys2Proof.Machine

/-- One accumulation step of a syndrome (R220) for the root exponent `x = (fcr + i)·prim`. -/
def syndromeStep (F : GField) (x : Nat) (acc c : Half) : Half :=
  if acc = 0 then c else c ^^^ F.pow ((F.log acc).toNat + x)

/-- The element-form syndrome of a block in transmission order (R220, R223). -/
def syndrome (F : GField) (x : Nat) (block : List Half) : Half := block.foldl (syndromeStep F x) 0

/-- The element-form syndromes `s[0..nroots)` (R220). -/
def syndromes (F : GField) (nroots fcr prim : Nat) (block : List Half) : List Half :=
  (List.range nroots).map fun i => syndrome F ((fcr + i) * prim) block

/-- `SYN_ERROR` (R220): the OR of the element-form syndromes. -/
def orAll (l : List Half) : Half := l.foldl (· ||| ·) 0

/-- The block as DEC_SYN reads it (R94, R220): the effective message, then the parity. -/
def State.block (s : State) (len : Nat) (mask : Half) : Except Fault (List Half) :=
  match s.message len mask with
  | .error e => .error e
  | .ok msg =>
    match s.parity with
    | .error e => .error e
    | .ok par => .ok (msg ++ par)

/-- The latches DEC_SYN writes (R46, R220): `D_FLAGS` is `(C << 1) OR E`. -/
def State.latched (s : State) (e c : Bool) : Latches where
  dLen     := s.len
  dPad     := BitVec.ofNat 16 s.pad
  dNoEras  := BitVec.ofNat 16 (s.effectiveErasures e)
  dFlags   := BitVec.ofNat 2 (2 * c.toNat + e.toNat)
  dInvmask := s.mask

/-- The checks of DEC_SYN and DECODE (R326): CFG_VALID, then LEN, then the erasure vector. -/
def decSynCheck (e : Bool) (s : State) : Except Fault (Option ErrCode) :=
  checkConfigured s
    (if s.lenFits then s.checkErasures (s.effectiveErasures e) s.len.toNat else .ok (some .length))

/-- The effect of DEC_SYN (R220). -/
def decSynBody (e c : Bool) (s : State) : Except Fault State :=
  match s.block s.len.toNat s.mask with
  | .error f => .error f
  | .ok block =>
    let syn := syndromes s.field s.nroots s.fcr s.prim block
    let t := ((s.setLatches (s.latched e c)).setScalars { s.scalars with synError := orAll syn }).setMem
      (s.mem.putHalves .s 0 (syn.map s.field.log))
    .ok (if orAll syn = 0 then (t.setResult 0).setStage .idle else t.setStage .syn)

/-- DEC_SYN (R220). -/
def execDecSyn (e c : Bool) (s : State) : Host.Outcome State Fault Refusal :=
  command (decSynCheck e) (decSynBody e c) s

/-- `u(k)` (R231): the locator exponent of the erasure at shortened-block position `ERAS[k]`. -/
def State.erasureExponent (s : State) (k : Nat) : Except Fault Half :=
  match s.erasure k with
  | .error e => .error e
  | .ok pos => s.field.modnInt (s.prim * (s.n - 1 - (s.latches.dPad.toNat + pos)) : Int)

/-- The turn of DEC_ERAS's loop (R230) that multiplies Λ, of degree at most `k`, by `(1 + α^u·x)`. Each entry reads the values
from before the turn, since the rule's loop runs downward. -/
def locatorStep (F : GField) (lam : List Half) (k : Nat) (u : Half) : List Half :=
  (List.range lam.length).map fun j =>
    if 1 ≤ j ∧ j ≤ k + 1 ∧ F.log (nth lam (j - 1)) ≠ F.n then
      nth lam j ^^^ F.pow (u.toNat + (F.log (nth lam (j - 1))).toNat)
    else nth lam j

/-- The turns `k, k+1, …` of DEC_ERAS's loop (R230). -/
def locatorLoop (F : GField) : List Half → Nat → List Half → List Half
  | lam, _, [] => lam
  | lam, k, u :: us => locatorLoop F (locatorStep F lam k u) (k + 1) us

/-- The erasure locator Λ in element form (R230) for the exponents `us`. -/
def erasureLocator (F : GField) (nroots : Nat) (us : List Half) : List Half :=
  match us with
  | [] => 1 :: List.replicate nroots 0
  | u :: rest => locatorLoop F ((1 :: List.replicate nroots 0).set 1 (F.alpha u)) 1 rest

/-- The checks of DEC_ERAS (R230, R326): the erasure vector is checked again, with the latched length. -/
def decErasCheck (s : State) : Except Fault (Option ErrCode) :=
  checkStage .syn s (s.checkErasures s.latches.dNoEras.toNat s.latches.dLen.toNat)

/-- The effect of DEC_ERAS (R230). -/
def decErasBody (s : State) : Except Fault State :=
  match mapE s.erasureExponent (List.range s.latches.dNoEras.toNat) with
  | .error e => .error e
  | .ok us =>
    .ok ((s.setMem (s.mem.putHalves .lambda 0 (erasureLocator s.field s.nroots us))).setStage .eras)

/-- DEC_ERAS (R230). -/
def execDecEras (s : State) : Host.Outcome State Fault Refusal := command decErasCheck decErasBody s

/-- What DEC_BM's loop carries (R240, R60): `lam` in element form, `b` in index form, and `el`. -/
structure BmVars where
  lam : List Half
  b   : List Half
  el  : Nat
deriving DecidableEq, Repr

/-- `b ← x·b` (R240): `A0` comes in, the last entry is dropped. -/
def shiftB (F : GField) (b : List Half) : List Half := F.n :: b.dropLast

/-- The discrepancy `d` at step `r` (R240). -/
def discrepancy (F : GField) (syn lam : List Half) (r : Nat) : Half :=
  xorSum ((List.range r).map fun i =>
    if nth lam i ≠ 0 ∧ nth syn (r - i - 1) ≠ F.n then
      F.pow ((F.log (nth lam i)).toNat + (nth syn (r - i - 1)).toNat)
    else 0)

/-- `T` at a step with discrepancy `Δ ≠ A0` (R240). -/
def bmT (F : GField) (v : BmVars) (delta : Half) : List Half :=
  (List.range v.lam.length).map fun i =>
    if i = 0 then nth v.lam 0
    else nth v.lam i ^^^ (if nth v.b (i - 1) ≠ F.n then F.pow (delta.toNat + (nth v.b (i - 1)).toNat) else 0)

/-- The new `b` of a step that lengthens the register (R240). -/
def bmNewB (F : GField) (lam : List Half) (delta : Half) : Except Fault (List Half) :=
  mapE (fun l => if l = 0 then .ok F.n else F.modnInt ((F.log l).toNat - delta.toNat + F.n.toNat : Int)) lam

/-- Step `r` of the Berlekamp-Massey loop (R240). -/
def bmStep (F : GField) (syn : List Half) (ne : Nat) (v : BmVars) (r : Nat) : Except Fault BmVars :=
  let delta := F.log (discrepancy F syn v.lam r)
  if delta = F.n then .ok { v with b := shiftB F v.b }
  else if 2 * v.el ≤ r + ne - 1 then
    match bmNewB F v.lam delta with
    | .error e => .error e
    | .ok b => .ok { lam := bmT F v delta, b := b, el := r + ne - v.el }
  else .ok { v with lam := bmT F v delta, b := shiftB F v.b }

/-- The loop `for r in [ne + 1, nroots]` (R240, R241). -/
def bmLoop (F : GField) (syn : List Half) (ne nroots : Nat) (v : BmVars) : Except Fault BmVars :=
  foldE (bmStep F syn ne) v (List.range' (ne + 1) (nroots - ne))

/-- The largest index whose entry is not `A0` (R250); none if there is none. -/
def degree? (F : GField) (lam : List Half) : Option Nat :=
  ((List.range lam.length).filter fun i => nth lam i != F.n).getLast?

/-- The checks of DEC_BM (R326). -/
def decBmCheck (s : State) : Except Fault (Option ErrCode) := checkStage .eras s (.ok none)

/-- The effect of DEC_BM (R240) with its finalisation (R250). -/
def decBmBody (s : State) : Except Fault State :=
  match s.mem.getHalves .lambda (s.nroots + 1), s.mem.getHalves .s s.nroots with
  | .error e, _ => .error e
  | _, .error e => .error e
  | .ok lam, .ok syn =>
    let F := s.field
    let ne := s.latches.dNoEras.toNat
    match bmLoop F syn ne s.nroots { lam := lam, b := lam.map F.log, el := ne } with
    | .error e => .error e
    | .ok v =>
      let logs := v.lam.map F.log
      match degree? F logs with
      | none => .error .degreeOutOfRange
      | some deg =>
        .ok (((s.setScalars
            { s.scalars with degLambda := BitVec.ofNat 16 deg, el := BitVec.ofNat 16 v.el }).setMem
          ((s.mem.putHalves .lambda 0 logs).putHalves .b 0 v.b)).setStage .bm)

/-- DEC_BM (R240). -/
def execDecBm (s : State) : Host.Outcome State Fault Refusal := command decBmCheck decBmBody s

end Sys2Proof.Machine
end

