-- ==== Sys2Proof/Machine/DecoderBack.lean ====
section
/-! DEFINITION. The decoder back end (44_decoder_back.md): DEC_CHIEN (R260 to R263), DEC_FORNEY (R270, R271), DEC_APPLY
(R280 to R282) and DECODE (R290). -/

namespace Sys2Proof.Machine

/-- The update of `reg` at one Chien step (R260). -/
def chienAdvance (F : GField) (deg : Nat) (reg : List Half) : List Half :=
  (List.range reg.length).map fun j =>
    if 1 ≤ j ∧ j ≤ deg ∧ nth reg j ≠ F.n then F.modn ((nth reg j).toNat + j) else nth reg j

/-- `q` at a Chien step, from `reg` as the step has advanced it (R260); a term whose `reg` entry is `A0` is skipped. -/
def chienSum (F : GField) (deg : Nat) (reg : List Half) : Half :=
  1 ^^^ xorSum ((List.range deg).map fun j => if nth reg (j + 1) ≠ F.n then F.alpha (nth reg (j + 1)) else 0)

/-- The Chien loop (R260), `fuel` steps from step `i` on: the pairs `(ROOT, LOC)` found, in order. It stops early when
`deg` roots are found. -/
def chienLoop (F : GField) (deg iprim : Nat) : Nat → Nat → List Half → Half → List (Half × Half) → List (Half × Half)
  | 0, _, _, _, found => found
  | fuel + 1, i, reg, k, found =>
    let reg := chienAdvance F deg reg
    let next := F.modn (k.toNat + iprim)
    if chienSum F deg reg = 0 then
      let found := found ++ [(BitVec.ofNat 16 i, k)]
      if found.length = deg then found else chienLoop F deg iprim fuel (i + 1) reg next found
    else chienLoop F deg iprim fuel (i + 1) reg next found

/-- The roots of Λ that the search over `i ∈ [1, n]` finds (R260), Λ in index form. -/
def chienSearch (F : GField) (deg iprim : Nat) (lam : List Half) : List (Half × Half) :=
  chienLoop F deg iprim F.n.toNat 1 lam (BitVec.ofNat 16 (iprim - 1)) []

/-- The three cases of R262 for what the search found; (c) applies under FAIL only (R263). -/
def uncorrectable (policy : Config.PadRootPolicy) (deg pad : Nat) (found : List (Half × Half)) : Bool :=
  deg == 0 || found.length != deg ||
    (policy == .fail && found.any fun p => decide (p.2.toNat < pad))

/-- The checks of DEC_CHIEN (R326). -/
def decChienCheck (s : State) : Except Fault (Option ErrCode) := checkStage .bm s (.ok none)

/-- The effect of DEC_CHIEN (R260) under a pad-root policy (R10, R263). -/
def decChienBody (policy : Config.PadRootPolicy) (s : State) : Except Fault State :=
  let deg := s.scalars.degLambda.toNat
  if s.nroots < deg then .error .degreeOutOfRange
  else
    match s.mem.getHalves .lambda (s.nroots + 1) with
    | .error e => .error e
    | .ok lam =>
      let found := if deg = 0 then [] else chienSearch s.field deg s.active.iprim.toNat lam
      let t := (s.setScalars { s.scalars with nrootsFound := BitVec.ofNat 16 found.length }).setMem
        ((s.mem.putHalves .root 0 (found.map Prod.fst)).putHalves .loc 0 (found.map Prod.snd))
      .ok (if uncorrectable policy deg s.latches.dPad.toNat found then (t.setResult 0xFFFFFFFF).setStage .idle
        else t.setStage .chien)

/-- DEC_CHIEN (R260). -/
def execDecChien (s : State) : Host.Outcome State Fault Refusal :=
  command decChienCheck (decChienBody Config.padRootPolicy) s

/-- `OMEGA[i]` before its conversion to index form (R270). -/
def omegaElement (F : GField) (syn lam : List Half) (i : Nat) : Half :=
  xorSum ((List.range (i + 1)).map fun j =>
    if nth syn (i - j) ≠ F.n ∧ nth lam j ≠ F.n then F.pow ((nth syn (i - j)).toNat + (nth lam j).toNat) else 0)

/-- The evaluator Ω of degree `deg − 1` in index form (R270). -/
def omegaList (F : GField) (syn lam : List Half) (deg : Nat) : List Half :=
  (List.range deg).map fun i => F.log (omegaElement F syn lam i)

/-- `num1 = Ω(α^root)` (R270). -/
def forneyNum1 (F : GField) (omega : List Half) (root : Nat) : Half :=
  xorSum ((List.range omega.length).map fun i =>
    if nth omega i ≠ F.n then F.pow ((nth omega i).toNat + i * root) else 0)

/-- `den = Λ'(α^root)` (R270, R271): the sum over the even `i ≤ min(deg, nroots − 1)`. -/
def forneyDen (F : GField) (lam : List Half) (deg nroots root : Nat) : Half :=
  xorSum ((List.range (min deg (nroots - 1) / 2 + 1)).map fun h =>
    if nth lam (2 * h + 1) ≠ F.n then F.pow ((nth lam (2 * h + 1)).toNat + 2 * h * root) else 0)

/-- `MAG[j]` (R58, R270) for the root `root` at position `loc`: the APPLY flag in bit 31 over the magnitude. A denominator that is
0 is a fault of the model (R271, R328), whatever `num1` is. -/
def forneyMag (F : GField) (omega lam : List Half) (deg nroots fcr pad root loc : Nat) : Except Fault Word :=
  let num1 := forneyNum1 F omega root
  let den := forneyDen F lam deg nroots root
  match F.modnInt (root * (fcr - 1) + F.n.toNat : Int) with
  | .error e => .error e
  | .ok k =>
    if den = 0 then .error .zeroDenominator
    else if num1 = 0 then .ok 0
    else
      match F.modnInt ((F.log num1).toNat + (F.log (F.alpha k)).toNat + F.n.toNat - (F.log den).toNat : Int) with
      | .error e => .error e
      | .ok i => .ok (BitVec.ofNat 32 ((if pad ≤ loc then 2 ^ 31 else 0) + (F.alpha i).toNat))

/-- The checks of DEC_FORNEY (R326). -/
def decForneyCheck (s : State) : Except Fault (Option ErrCode) := checkStage .chien s (.ok none)

/-- The effect of DEC_FORNEY (R270). -/
def decForneyBody (s : State) : Except Fault State :=
  let deg := s.scalars.degLambda.toNat
  let count := s.scalars.nrootsFound.toNat
  if deg = 0 ∨ s.nroots < deg then .error .degreeOutOfRange
  else if s.nroots < count then .error .countOutOfRange
  else
    match s.mem.getHalves .s s.nroots, s.mem.getHalves .lambda (s.nroots + 1), s.mem.getHalves .root count,
      s.mem.getHalves .loc count with
    | .ok syn, .ok lam, .ok roots, .ok locs =>
      let omega := omegaList s.field syn lam deg
      match mapE (fun j => forneyMag s.field omega lam deg s.nroots s.fcr s.latches.dPad.toNat (nth roots j).toNat
          (nth locs j).toNat) (List.range count) with
      | .error e => .error e
      | .ok mags =>
        .ok (((s.setScalars { s.scalars with degOmega := BitVec.ofNat 16 (deg - 1) }).setMem
          ((s.mem.putHalves .omega 0 omega).putWords .mag 0 mags)).setStage .forney)
    | .error e, _, _, _ => .error e
    | _, .error e, _, _ => .error e
    | _, _, .error e, _ => .error e
    | _, _, _, .error e => .error e

/-- DEC_FORNEY (R270). -/
def execDecForney (s : State) : Host.Outcome State Fault Refusal := command decForneyCheck decForneyBody s

/-- The symbol at full-block position `pos ≥ pad` (R94, R280): `DATA[pos − pad]` or `PAR[pos − (n − nroots)]`. -/
def symbolAt (n nroots pad pos : Nat) : Except Fault (RegFile × Nat) :=
  if pos < pad ∨ n ≤ pos then .error .positionOutOfRange
  else if pos < n - nroots then .ok (.data, pos - pad)
  else .ok (.par, pos - (n - nroots))

/-- `apply = 1` in an entry of MAG (R58). -/
def magApply (mag : Word) : Bool := mag.getLsbD 31

/-- `cor` in an entry of MAG (R58). -/
def magCor (mag : Word) : Half := mag.setWidth 16

/-- The XOR of one correction into its symbol (R280), which leaves the bits above m as they are (R59). -/
def applyCorrection (n nroots pad : Nat) (mem : Memory) (pos : Nat) (mag : Word) : Except Fault Memory :=
  if magApply mag then
    match symbolAt n nroots pad pos with
    | .error e => .error e
    | .ok (f, i) =>
      match mem.getHalf f i with
      | .error e => .error e
      | .ok v => .ok (mem.setHalf (entryAddr f i) (v ^^^ magCor mag))
  else .ok mem

/-- One turn `j` of DEC_APPLY's loop (R280, R281). -/
def applyStep (n nroots pad : Nat) (c : Bool) (locs : List Half) (mags : List Word) (mem : Memory) (j : Nat) :
    Except Fault Memory :=
  let mag := mags.getD j 0
  match applyCorrection n nroots pad mem (nth locs j).toNat mag with
  | .error e => .error e
  | .ok mem =>
    .ok (if c then mem.setHalf (entryAddr .corr j) (if magApply mag then magCor mag else 0) else mem)

/-- The checks of DEC_APPLY (R326). -/
def decApplyCheck (s : State) : Except Fault (Option ErrCode) := checkStage .forney s (.ok none)

/-- The effect of DEC_APPLY (R280, R281): the loop runs from `count − 1` down to 0, then `ERAS` is written in Chien order. -/
def decApplyBody (s : State) : Except Fault State :=
  let count := s.scalars.nrootsFound.toNat
  let pad := s.latches.dPad.toNat
  if s.nroots < count then .error .countOutOfRange
  else
    match s.mem.getHalves .loc count, s.mem.getWords .mag count with
    | .ok locs, .ok mags =>
      match foldE (applyStep s.n s.nroots pad (s.latches.dFlags.getLsbD 1) locs mags) s.mem (List.range count).reverse with
      | .error e => .error e
      | .ok mem =>
        let mem := if s.latches.dFlags.getLsbD 0 then
            mem.putWords .eras 0 (locs.map fun l => tc32 (l.toNat - pad))
          else mem
        .ok (((s.setMem mem).setResult (tc32 count)).setStage .idle)
    | .error e, _ => .error e
    | _, .error e => .error e

/-- DEC_APPLY (R280). -/
def execDecApply (s : State) : Host.Outcome State Fault Refusal := command decApplyCheck decApplyBody s

/-- The part of DECODE after DEC_CHIEN (R290): nothing if the block is uncorrectable. -/
def decodeCorrect (s : State) : Except Fault State :=
  if s.status.dstage = .idle then .ok s
  else
    match decForneyBody s with
    | .error e => .error e
    | .ok t => decApplyBody t

/-- The part of DECODE after DEC_SYN (R290): nothing if the block is clean. -/
def decodeLocate (policy : Config.PadRootPolicy) (s : State) : Except Fault State :=
  if s.status.dstage = .idle then .ok s
  else
    match decErasBody s with
    | .error e => .error e
    | .ok t =>
      match decBmBody t with
      | .error e => .error e
      | .ok u =>
        match decChienBody policy u with
        | .error e => .error e
        | .ok v => decodeCorrect v

/-- The effect of DECODE (R290): the stages' effects in order, without their completions. -/
def decodeBody (policy : Config.PadRootPolicy) (e c : Bool) (s : State) : Except Fault State :=
  match decSynBody e c s with
  | .error f => .error f
  | .ok t => decodeLocate policy t

/-- DECODE (R290): the checks are those of its DEC_SYN part. -/
def execDecode (e c : Bool) (s : State) : Host.Outcome State Fault Refusal :=
  command (decSynCheck e) (decodeBody Config.padRootPolicy e c) s

end Sys2Proof.Machine
end

