-- ==== Sys2Proof/Machine/Encoder.lean ====
section
/-! DEFINITION. The encoder (42_encoder.md): ENCODE (R200). -/

namespace Sys2Proof.Machine

/-- One turn of the LFSR (R200) on the parity `par` for the effective symbol `c`, with `g = GENPOLY[0..nroots]`: the feedback,
the XOR of the taps, the shift left by one (R201) and the last slot. -/
def encodeStep (F : GField) (g : List Half) (par : List Half) (c : Half) : List Half :=
  let nroots := par.length
  let fb := F.log (c ^^^ nth par 0)
  let tapped (j : Nat) : Half :=
    if fb ≠ F.n then nth par j ^^^ F.pow (fb.toNat + (nth g (nroots - j)).toNat) else nth par j
  (List.range (nroots - 1)).map (fun k => tapped (k + 1)) ++
    [if fb ≠ F.n then F.pow (fb.toNat + (nth g 0).toNat) else 0]

/-- The parity of the effective message `msg` (R200): the LFSR from all zeros. -/
def encodeParity (F : GField) (g : List Half) (nroots : Nat) (msg : List Half) : List Half :=
  msg.foldl (encodeStep F g) (List.replicate nroots 0)

/-- `GENPOLY[0..nroots]`. -/
def State.genpolyList (s : State) : List Half := (List.range (s.nroots + 1)).map s.genpoly

/-- The checks of ENCODE (R326): CFG_VALID, then LEN. -/
def encodeCheck (s : State) : Except Fault (Option ErrCode) :=
  checkConfigured s (.ok (if s.lenFits then none else some .length))

/-- The effect of ENCODE (R200, R204): `PAR[0..nroots)` and nothing else. -/
def encodeBody (s : State) : Except Fault State :=
  match s.message s.len.toNat s.mask with
  | .error e => .error e
  | .ok msg => .ok (s.setMem (s.mem.putHalves .par 0 (encodeParity s.field s.genpolyList s.nroots msg)))

/-- ENCODE (R200). -/
def execEncode (s : State) : Host.Outcome State Fault Refusal := command encodeCheck encodeBody s

end Sys2Proof.Machine
end

