-- ==== Sys2Proof/Machine/FieldOps.lean ====
section
/-! DEFINITION. The field-operation commands (41_field_ops.md R180 to R185). -/

namespace Sys2Proof.Machine

/-- FLD_ALOG (R180). -/
def execFldAlog (s : State) : Host.Outcome State Fault Refusal :=
  command (fun s => s.checkDomain (s.inField s.opa))
    (fun s => .ok (s.setRes ((s.field.alpha (s.opa.setWidth 16)).setWidth 32))) s

/-- FLD_LOG (R181). -/
def execFldLog (s : State) : Host.Outcome State Fault Refusal :=
  command (fun s => s.checkDomain (s.inField s.opa))
    (fun s => .ok (s.setRes ((s.field.log (s.opa.setWidth 16)).setWidth 32))) s

/-- FLD_MODN (R182): every 32-bit value is in the domain. -/
def execFldModn (s : State) : Host.Outcome State Fault Refusal :=
  command (fun s => s.checkDomain true)
    (fun s => .ok (s.setRes ((s.field.modn s.opa.toNat).setWidth 32))) s

/-- FLD_ADD (R183). -/
def execFldAdd (s : State) : Host.Outcome State Fault Refusal :=
  command (fun s => s.checkDomain (s.inField s.opa && s.inField s.opb))
    (fun s => .ok (s.setRes (s.opa ^^^ s.opb))) s

/-- FLD_MUL (R184). -/
def execFldMul (s : State) : Host.Outcome State Fault Refusal :=
  command (fun s => s.checkDomain (s.inField s.opa && s.inField s.opb))
    (fun s => .ok (s.setRes ((s.field.mul (s.opa.setWidth 16) (s.opb.setWidth 16)).setWidth 32))) s

/-- FLD_DIV (R185): a zero divisor is outside the domain. -/
def execFldDiv (s : State) : Host.Outcome State Fault Refusal :=
  command (fun s => s.checkDomain (s.inField s.opa && s.inField s.opb && s.opb != 0))
    (fun s =>
      match s.field.div (s.opa.setWidth 16) (s.opb.setWidth 16) with
      | .error e => .error e
      | .ok q => .ok (s.setRes (q.setWidth 32))) s

end Sys2Proof.Machine
end

