-- ==== Sys2Proof/Machine/FieldTables.lean ====
section
/-! DEFINITION. The field-table builder (40_field_tables.md): the legality of a configuration (R141), the field generator
(R143), the primitivity check (R145), the tables (R144), `iprim` (R146), the generator polynomial (R147) and CONFIG (R148). -/

namespace Sys2Proof.Machine

/-- `check_config` (R141): none of its tests fails. The first failure raises BAD_CONFIG, whichever it is. -/
def Staging.legal (c : Staging) : Bool :=
  let m := c.cfgM.toNat
  let n := 2 ^ m - 1
  decide (2 ≤ m) && decide (m ≤ Config.mMax) &&
    (decide (2 ^ m ≤ c.cfgPoly.toNat) && decide (c.cfgPoly.toNat < 2 ^ (m + 1))) &&
    (decide (1 ≤ c.cfgNroots.toNat) && decide (c.cfgNroots.toNat ≤ n - 1) && decide (c.cfgNroots.toNat ≤ Config.nrootsMax)) &&
    decide (c.cfgFcr.toNat ≤ n - 1) &&
    (decide (1 ≤ c.cfgPrim.toNat) && decide (c.cfgPrim.toNat ≤ n - 1)) &&
    decide (Nat.gcd c.cfgPrim.toNat n = 1)

/-- `step(sr)` (R143): the advance by α, with `n = 2^m − 1`. -/
def fieldStep (m poly sr : Nat) : Nat :=
  if sr = 0 then 1
  else
    let t := sr <<< 1
    (if t.testBit m then t ^^^ poly else t) &&& (2 ^ m - 1)

/-- The loop of `primitive` (R145) from the value `sr` on, `k` steps long: its last value, none if it came back to 1 or left
the group. -/
def primitiveLoop (m poly : Nat) : Nat → Nat → Option Nat
  | 0, sr => some sr
  | k + 1, sr =>
    let t := fieldStep m poly sr
    if t = 0 ∨ t = 1 then none else primitiveLoop m poly k t

/-- `primitive(m, n, poly)` (R145), `n = 2^m − 1`. -/
def primitive (m poly : Nat) : Bool :=
  match primitiveLoop m poly (2 ^ m - 1 - 1) 1 with
  | none => false
  | some sr => fieldStep m poly sr == 1

/-- The loop of `build_tables` (R144), `k` entries from entry `i` on. -/
def tableLoop (m poly : Nat) : Nat → Nat → Nat → Memory → Memory
  | 0, _, _, mem => mem
  | k + 1, i, sr, mem =>
    tableLoop m poly k (i + 1) (fieldStep m poly sr)
      ((mem.setHalf (entryAddr .indexOf sr) (BitVec.ofNat 16 i)).setHalf (entryAddr .alphaTo i) (BitVec.ofNat 16 sr))

/-- `build_tables(m, n, poly)` (R144), `n = 2^m − 1`; its last line clears the entries above `n`. -/
def buildTables (m poly : Nat) (mem : Memory) : Memory :=
  let n := 2 ^ m - 1
  let start := (mem.setHalf (entryAddr .indexOf 0) (BitVec.ofNat 16 n)).setHalf (entryAddr .alphaTo n) 0
  let filled := tableLoop m poly n 0 (fieldStep m poly 0) start
  (filled.clear (entryAddr .alphaTo (n + 1)) (entryAddr .alphaTo 65536)).clear
    (entryAddr .indexOf (n + 1)) (entryAddr .indexOf 65536)

/-- The loop of `compute_iprim` (R146), at most `fuel` turns. -/
def iprimLoop (n prim : Nat) : Nat → Nat → Nat
  | 0, x => x
  | fuel + 1, x => if x % prim = 0 then x else iprimLoop n prim fuel (x + n)

/-- `compute_iprim(n, prim)` (R146). At most `prim` turns are needed, since `gcd(prim, n) = 1`. -/
def computeIprim (n prim : Nat) : Nat := iprimLoop n prim prim 1 / prim

/-- Step `i` of the loop of `build_genpoly` (R147): the polynomial of degree `i` in `g` times `(x + α^root)`. Each entry reads
the values from before the step, since the rule's loop runs downward. -/
def genpolyStep (F : GField) (fcr prim : Nat) (g : List Half) (i : Nat) : List Half :=
  let root := fcr * prim + i * prim
  (List.range g.length).map fun j =>
    if j = 0 then F.pow ((F.log (nth g 0)).toNat + root)
    else if j ≤ i then
      if nth g j ≠ 0 then nth g (j - 1) ^^^ F.pow ((F.log (nth g j)).toNat + root) else nth g (j - 1)
    else if j = i + 1 then 1
    else nth g j

/-- `build_genpoly()` (R147): the generator polynomial in element form, `g[0..nroots]`. -/
def genpolyElements (F : GField) (nroots fcr prim : Nat) : List Half :=
  (List.range nroots).foldl (genpolyStep F fcr prim) (1 :: List.replicate nroots 0)

/-- The configuration CONFIG commits (R148). -/
def Staging.activated (c : Staging) : Active :=
  let n := 2 ^ c.cfgM.toNat - 1
  { actM := c.cfgM
    actPoly := c.cfgPoly
    actNroots := c.cfgNroots
    actFcr := c.cfgFcr
    actPrim := c.cfgPrim
    actN := BitVec.ofNat 16 n
    iprim := BitVec.ofNat 16 (computeIprim n c.cfgPrim.toNat) }

/-- The checks of CONFIG (R148, R326): `check_config`, then `primitive`. -/
def configCheck (s : State) : Except Fault (Option ErrCode) :=
  if s.staging.legal = false then .ok (some .badConfig)
  else if primitive s.staging.cfgM.toNat s.staging.cfgPoly.toNat = false then .ok (some .nonPrimitive)
  else .ok none

/-- The commit of CONFIG (R148): the configuration and the tables, then the generator polynomial over them. -/
def configBody (s : State) : Except Fault State :=
  let t := (s.setMem (buildTables s.staging.cfgM.toNat s.staging.cfgPoly.toNat s.mem)).setActive s.staging.activated
  let g := genpolyElements t.field t.nroots t.fcr t.prim
  .ok ((t.setMem (t.mem.putHalves .genpoly 0 (g.map t.field.log))).setStage .idle)

/-- CONFIG (R148). -/
def execConfig (s : State) : Host.Outcome State Fault Refusal := command configCheck configBody s

end Sys2Proof.Machine
end

