-- ==== Sys2Proof/Machine/Dispatch.lean ====
section
/-! DEFINITION. One arm for each command (R114): its meaning, from the checks to the completion. -/

namespace Sys2Proof.Machine

def exec (i : Instr) (s : State) : Host.Outcome State Fault Refusal :=
  match i with
  | .nop => Sys2Proof.Machine.execNop s
  | .config => Sys2Proof.Machine.execConfig s
  | .encode => Sys2Proof.Machine.execEncode s
  | .decode e c => Sys2Proof.Machine.execDecode e c s
  | .softReset => Sys2Proof.Machine.execSoftReset s
  | .decSyn e c => Sys2Proof.Machine.execDecSyn e c s
  | .decEras => Sys2Proof.Machine.execDecEras s
  | .decBm => Sys2Proof.Machine.execDecBm s
  | .decChien => Sys2Proof.Machine.execDecChien s
  | .decForney => Sys2Proof.Machine.execDecForney s
  | .decApply => Sys2Proof.Machine.execDecApply s
  | .fldAlog => Sys2Proof.Machine.execFldAlog s
  | .fldLog => Sys2Proof.Machine.execFldLog s
  | .fldModn => Sys2Proof.Machine.execFldModn s
  | .fldAdd => Sys2Proof.Machine.execFldAdd s
  | .fldMul => Sys2Proof.Machine.execFldMul s
  | .fldDiv => Sys2Proof.Machine.execFldDiv s

end Sys2Proof.Machine
end

