-- ==== Sys2Proof/Machine/Port.lean ====
section
/-! DEFINITION. The host port (20_memory.md): the address map (R82), the reads and writes of registers and windows (R83, R84,
R86), the BUSY hazard (R364), and the host-program notation of R118. -/

namespace Sys2Proof.Machine

/-- The registers of R82. -/
inductive PortReg where
  | id | param | cmd | status | irqEn | result | res | opa | opb | len | noEras | invmask
  | cfgM | cfgPoly | cfgNroots | cfgFcr | cfgPrim
  | actM | actPoly | actNroots | actFcr | actPrim | actN | iprim
  | dLen | dPad | dNoEras | dFlags | dInvmask
  | synError | degLambda | degOmega | el | nrootsFound
deriving DecidableEq, Repr

/-- The byte offset of a register (R82). -/
def PortReg.offset : PortReg → Nat
  | .id => 0x00
  | .param => 0x04
  | .cmd => 0x08
  | .status => 0x0C
  | .irqEn => 0x10
  | .result => 0x14
  | .res => 0x18
  | .opa => 0x1C
  | .opb => 0x20
  | .len => 0x24
  | .noEras => 0x28
  | .invmask => 0x2C
  | .cfgM => 0x40
  | .cfgPoly => 0x44
  | .cfgNroots => 0x48
  | .cfgFcr => 0x4C
  | .cfgPrim => 0x50
  | .actM => 0x60
  | .actPoly => 0x64
  | .actNroots => 0x68
  | .actFcr => 0x6C
  | .actPrim => 0x70
  | .actN => 0x74
  | .iprim => 0x78
  | .dLen => 0x80
  | .dPad => 0x84
  | .dNoEras => 0x88
  | .dFlags => 0x8C
  | .dInvmask => 0x90
  | .synError => 0x94
  | .degLambda => 0x98
  | .degOmega => 0x9C
  | .el => 0xA0
  | .nrootsFound => 0xA4

/-- All registers of R82. -/
def portRegs : List PortReg :=
  [.id, .param, .cmd, .status, .irqEn, .result, .res, .opa, .opb, .len, .noEras, .invmask,
    .cfgM, .cfgPoly, .cfgNroots, .cfgFcr, .cfgPrim, .actM, .actPoly, .actNroots, .actFcr, .actPrim, .actN, .iprim,
    .dLen, .dPad, .dNoEras, .dFlags, .dInvmask, .synError, .degLambda, .degOmega, .el, .nrootsFound]

/-- All files of R82, in the order of their windows. -/
def regFiles : List RegFile :=
  [.alphaTo, .indexOf, .genpoly, .data, .par, .eras, .corr, .s, .lambda, .b, .omega, .root, .loc, .mag]

/-- What a port access reaches (R82 to R84). -/
inductive Target where
  | reg (r : PortReg)
  | entry (f : RegFile) (i : Nat)
  | unmapped
deriving DecidableEq, Repr

/-- The aligned offset of an access (R81): bits [1:0] are ignored. -/
def wordOffset (off : BitVec 22) : Nat := off.toNat / 4 * 4

/-- The file whose window, `0x40000` bytes long, holds the offset `a` (R82). -/
def windowAt (a : Nat) : Option RegFile := regFiles.find? fun f => decide (f.base ≤ a) && decide (a < f.base + 0x40000)

/-- What an access at `off` reaches (R81 to R84); an entry beyond its file's capacity is unmapped. -/
def portTarget (off : BitVec 22) : Target :=
  let a := wordOffset off
  match portRegs.find? fun r => decide (r.offset = a) with
  | some r => .reg r
  | none =>
    match windowAt a with
    | some f => if (a - f.base) / 4 < f.cap then .entry f ((a - f.base) / 4) else .unmapped
    | none => .unmapped

/-- The offset of entry `i` of a file, as the host writes it (R82, R118). -/
def entryOffset (f : RegFile) (i : Nat) : BitVec 22 := BitVec.ofNat 22 (entryAddr f i)

/-- The offset of a register, as the host writes it (R82, R118). -/
def PortReg.portOffset (r : PortReg) : BitVec 22 := BitVec.ofNat 22 r.offset

/-- `ID` (R31). -/
def idWord : Word := 0x52530001

/-- `PARAM` (R32): `M_MAX` in [4:0], `PAD_ROOT_POLICY` in bit 5, `NROOTS_MAX` in [31:16]. -/
def paramWord : Word :=
  BitVec.ofNat 32 (Config.mMax + (if Config.padRootPolicy = .drop then 32 else 0) + 65536 * Config.nrootsMax)

/-- What a read of a register returns (R31 to R48); bits that are not stored read 0. -/
def State.readReg (s : State) : PortReg → Word
  | .id => idWord
  | .param => paramWord
  | .cmd => s.cmd
  | .status => s.status.word
  | .irqEn => s.irqEn.setWidth 32
  | .result => s.result
  | .res => s.res
  | .opa => s.opa
  | .opb => s.opb
  | .len => s.len.setWidth 32
  | .noEras => s.noEras.setWidth 32
  | .invmask => s.invmask.setWidth 32
  | .cfgM => s.staging.cfgM.setWidth 32
  | .cfgPoly => s.staging.cfgPoly.setWidth 32
  | .cfgNroots => s.staging.cfgNroots.setWidth 32
  | .cfgFcr => s.staging.cfgFcr.setWidth 32
  | .cfgPrim => s.staging.cfgPrim.setWidth 32
  | .actM => s.active.actM.setWidth 32
  | .actPoly => s.active.actPoly.setWidth 32
  | .actNroots => s.active.actNroots.setWidth 32
  | .actFcr => s.active.actFcr.setWidth 32
  | .actPrim => s.active.actPrim.setWidth 32
  | .actN => s.active.actN.setWidth 32
  | .iprim => s.active.iprim.setWidth 32
  | .dLen => s.latches.dLen.setWidth 32
  | .dPad => s.latches.dPad.setWidth 32
  | .dNoEras => s.latches.dNoEras.setWidth 32
  | .dFlags => s.latches.dFlags.setWidth 32
  | .dInvmask => s.latches.dInvmask.setWidth 32
  | .synError => s.scalars.synError.setWidth 32
  | .degLambda => s.scalars.degLambda.setWidth 32
  | .degOmega => s.scalars.degOmega.setWidth 32
  | .el => s.scalars.el.setWidth 32
  | .nrootsFound => s.scalars.nrootsFound.setWidth 32

/-- A host write to a register while BUSY is 0 (R33, R40 to R43, R86): only the listed bits are stored, a write to a
read-only register is ignored, and a write to `CMD` issues its word. -/
def State.writeReg (s : State) (v : Word) : PortReg → State
  | .cmd => s.issue v
  | .status => { s with status := s.status.w1c v }
  | .irqEn => { s with irqEn := v.setWidth 3 }
  | .opa => { s with opa := v }
  | .opb => { s with opb := v }
  | .len => { s with len := v.setWidth 16 }
  | .noEras => { s with noEras := v.setWidth 16 }
  | .invmask => { s with invmask := v.setWidth 16 }
  | .cfgM => { s with staging := { s.staging with cfgM := v.setWidth 5 } }
  | .cfgPoly => { s with staging := { s.staging with cfgPoly := v.setWidth 17 } }
  | .cfgNroots => { s with staging := { s.staging with cfgNroots := v.setWidth 16 } }
  | .cfgFcr => { s with staging := { s.staging with cfgFcr := v.setWidth 16 } }
  | .cfgPrim => { s with staging := { s.staging with cfgPrim := v.setWidth 16 } }
  | .id | .param | .result | .res => s
  | .actM | .actPoly | .actNroots | .actFcr | .actPrim | .actN | .iprim => s
  | .dLen | .dPad | .dNoEras | .dFlags | .dInvmask => s
  | .synError | .degLambda | .degOmega | .el | .nrootsFound => s

/-- The registers a host read reaches at any time (R87, R364). -/
def PortReg.readableWhileBusy : PortReg → Bool
  | .id | .param | .cmd | .status | .irqEn => true
  | _ => false

/-- The registers a host write reaches at any time (R364). -/
def PortReg.writableWhileBusy : PortReg → Bool
  | .status | .irqEn => true
  | _ => false

/-- A host read of an entry while BUSY is 0: a table reads 0 without a valid configuration (R47), and an entry that was never
written is a fault of the run (R64). -/
def State.readFile (s : State) (f : RegFile) (i : Nat) : Except Fault Word :=
  if f.isTable then
    .ok (if s.status.cfgValid = false then 0
      else if f = .genpoly then (s.genpoly i).setWidth 32
      else (s.mem.tableEntry f i).setWidth 32)
  else s.mem.getWord f i

/-- A host read while BUSY is 0 (R83, R84). -/
def State.readTarget (s : State) : Target → Except Fault Word
  | .reg r => .ok (s.readReg r)
  | .entry f i => s.readFile f i
  | .unmapped => .ok 0

/-- A host write while BUSY is 0 (R83, R84). -/
def State.writeTarget (s : State) (v : Word) : Target → State
  | .reg r => s.writeReg v r
  | .entry f i => if f.hostWritable then s.setMem (s.mem.setEntry f i v) else s
  | .unmapped => s

/-- A host write that falls in a BUSY window and is dropped (R364). -/
def State.dropWrite (s : State) : State := { s with status := { s.status with werr := true } }

/-- A host write while BUSY is 1 (R364): STATUS and IRQ_EN take it, every other mapped offset drops it with WERR, an unmapped
one ignores it. -/
def State.writeTargetBusy (s : State) (v : Word) : Target → State
  | .reg r => if r.writableWhileBusy then s.writeReg v r else s.dropWrite
  | .entry _ _ => s.dropWrite
  | .unmapped => s

/-- Answers the host's read with a word (log entry 6). -/
def State.answer (s : State) (v : Word) : State := { s with rdata := v }

/-- Answers a read of an unspecified offset during BUSY (R87, R364, U1) with a fresh free value. -/
def State.answerUnspecified (s : State) : State :=
  { s with rdata := Config.unspecifiedRead s.draws, draws := s.draws + 1 }

/-- A host read (R86, R87, R364): the word answered is its only effect. DESIGN CHOICE (log entry 19): a table entry read while BUSY
is 1 and CFG_VALID is 0, where R47 says 0 and R364 any value, answers with a free value. -/
def State.portRead (s : State) (off : BitVec 22) : Except Fault State :=
  if s.status.busy then
    match portTarget off with
    | .reg r => .ok (if r.readableWhileBusy then s.answer (s.readReg r) else s.answerUnspecified)
    | _ => .ok s.answerUnspecified
  else
    match s.readTarget (portTarget off) with
    | .error e => .error e
    | .ok v => .ok (s.answer v)

/-- A host write (R86, R364). -/
def State.portWrite (s : State) (off : BitVec 22) (v : Word) : State :=
  if s.status.busy then s.writeTargetBusy v (portTarget off) else s.writeTarget v (portTarget off)

/-- The host's next event (R89: one access at a time, in order). `wait` reads STATUS and stays for another turn while BUSY is 1
(R118). -/
def hostEvent (s : State) : Except Fault State :=
  match s.pending with
  | [] => .ok s
  | .read off :: rest => { s with pending := rest }.portRead off
  | .write off v :: rest => .ok ({ s with pending := rest }.portWrite off v)
  | .wait :: rest =>
    .ok ({ s with pending := if s.status.busy then s.pending else rest }.answer s.status.word)
  | .reset :: rest => .ok { s with pending := rest }.platformReset

/-- `wr NAME, v` (R118) for a register. -/
def hostWr (r : PortReg) (v : Word) : HostEvent := .write r.portOffset v

/-- `wr FILE[i], v` (R118). -/
def hostWrEntry (f : RegFile) (i : Nat) (v : Word) : HostEvent := .write (entryOffset f i) v

/-- `rd NAME -> x` (R118) for a register. -/
def hostRd (r : PortReg) : HostEvent := .read r.portOffset

/-- `rd FILE[i] -> x` (R118). -/
def hostRdEntry (f : RegFile) (i : Nat) : HostEvent := .read (entryOffset f i)

/-- `cmd MNEMONIC` and `cmd MNEMONIC E,C` (R118). -/
def hostCmd (i : Instr) : HostEvent := .write PortReg.cmd.portOffset (encode i)

/-- `ack` (R118): clears DONE, ERR and WERR. -/
def hostAck : HostEvent := .write PortReg.status.portOffset 0x0000000E

end Sys2Proof.Machine
end

