-- ==== Sys2Proof/Machine/Engine.lean ====
section
/-! DEFINITION. What a step calls: the engine's turn on the word in `CMD` (R110, R115), the host's turn, and the placing of a
command word where the next step runs it. -/

namespace Sys2Proof.Machine

/-- The engine's turn (R110, R115, R362): the command in `CMD` runs and completes; an illegal word completes with ILLEGAL_CMD
and changes nothing else (R325). -/
def engineTurn (s : State) : Host.Outcome State Fault Refusal :=
  match decode s.cmd with
  | .ok i => exec i s
  | .error _ => .next (complete .illegalCmd s)

/-- The host's turn (R89); with nothing pending every piece of state is held (R337). -/
def hostTurn (s : State) : Host.Outcome State Fault Refusal :=
  match hostEvent s with
  | .error f => .fault f
  | .ok t => .next t

/-- Whose turn it is (R30, R363): the engine's when a command is in flight and the window leaves the host no more steps. -/
def engineMoves (s : State) : Bool := s.status.busy && s.slack == 0

/-- A turn of the BUSY window passes (R363). -/
def State.tick (s : State) : State := { s with slack := s.slack - 1 }

/-- One step of the host and the engine (R30, R363, R364). -/
def machineStep (s : State) : Host.Outcome State Fault Refusal :=
  if engineMoves s then engineTurn s
  else if s.status.busy then hostTurn s.tick
  else hostTurn s

/-- A command word just issued, at the end of its BUSY window: the next step runs it (log entry 7). -/
def State.placeCommand (s : State) (w : Word) : State :=
  { s with cmd := w, status := { s.status with busy := true }, slack := 0 }

end Sys2Proof.Machine
end

