-- ==== Sys2Proof/Machine/Step.lean ====
section
/-! DEFINITION. One step of the machine, and the placing of a command word for the host's checks. -/

namespace Sys2Proof.Machine

/-- One step (R30): see `machineStep`. -/
def step (s : State) : Host.Outcome State Fault Refusal := machineStep s

/-- The state in which the next step runs the command word `w`: the word stands in `CMD` with BUSY 1 and the window over
(log entry 7). A command has 32 bits (R117). -/
def State.withFetchWord (s : State) (_nbits w : Nat) : State := s.placeCommand (BitVec.ofNat 32 w)

end Sys2Proof.Machine
end

