-- ==== Sys2Proof/Safety.lean ====
section
/-! DEFINITION. The terms claims are made in: a configured state, written entries, the bytes of an entry, the committed
configuration and its tables (R141, R150), and the invariant `Inv` that every step keeps. -/

namespace Sys2Proof.Machine

/-- A configuration is valid, and it is one the rules can use (R34, R141). -/
def State.configured (s : State) : Prop := s.status.cfgValid = true ∧ s.active.usable = true

/-- Entry `i` of a file has been written since reset (R64). -/
def Memory.entryWritten (m : Memory) (f : RegFile) (i : Nat) : Prop :=
  if f.wide then (m.word (entryAddr f i)).isSome = true else (m.half (entryAddr f i)).isSome = true

/-- Entries `[0, k)` of a file have been written since reset. -/
def Memory.written (m : Memory) (f : RegFile) (k : Nat) : Prop := ∀ i < k, m.entryWritten f i

/-- Byte `a` is one of the bytes that entry `i` of a file stores: two, or four in a wide file (R83). -/
def entryByte (f : RegFile) (i a : Nat) : Prop := entryAddr f i ≤ a ∧ a < entryAddr f i + (if f.wide then 4 else 2)

/-- Byte `a` is stored by one of the entries `[0, k)` of a file. -/
def runByte (f : RegFile) (k a : Nat) : Prop := ∃ i < k, entryByte f i a

/-- The machine can take a step. -/
def stepsSafely (s : State) : Prop := ∃ t, step s = .next t

/-- The active configuration is one that a CONFIG commits (R36, R141, R146). -/
structure Active.Committed (a : Active) : Prop where
  m_range     : 2 ≤ a.actM.toNat ∧ a.actM.toNat ≤ Config.mMax
  n_eq        : a.actN.toNat = 2 ^ a.actM.toNat - 1
  poly_degree : 2 ^ a.actM.toNat ≤ a.actPoly.toNat ∧ a.actPoly.toNat < 2 ^ (a.actM.toNat + 1)
  nroots_range : 1 ≤ a.actNroots.toNat ∧ a.actNroots.toNat < a.actN.toNat ∧ a.actNroots.toNat ≤ Config.nrootsMax
  fcr_range   : a.actFcr.toNat < a.actN.toNat
  prim_range  : 1 ≤ a.actPrim.toNat ∧ a.actPrim.toNat < a.actN.toNat ∧ Nat.gcd a.actPrim.toNat a.actN.toNat = 1
  iprim_range : 1 ≤ a.iprim.toNat ∧ a.iprim.toNat < a.actN.toNat
  iprim_inv   : a.iprim.toNat * a.actPrim.toNat % a.actN.toNat = 1

/-- The tables of a field are those of R144 for the primitive polynomial `poly` of degree `m` (R37, R38, R145, R150). -/
structure GField.Tables (F : GField) (m poly : Nat) : Prop where
  n_eq        : F.n.toNat = 2 ^ m - 1
  /-- `ALPHA_TO[i] = step^i(1)`. -/
  alpha_iter  : ∀ i : Half, i.toNat < F.n.toNat → (F.alpha i).toNat = (fieldStep m poly)^[i.toNat] 1
  /-- Back at `α^0` after `n` steps. -/
  cycle       : (fieldStep m poly)^[F.n.toNat] 1 = 1
  /-- `ALPHA_TO[A0] = 0`. -/
  alpha_a0    : F.alpha F.n = 0
  /-- `INDEX_OF[0] = A0`. -/
  log_zero    : F.log 0 = F.n
  alpha_range : ∀ i : Half, i.toNat < F.n.toNat → F.alpha i ≠ 0 ∧ (F.alpha i).toNat ≤ F.n.toNat
  log_range   : ∀ x : Half, x ≠ 0 → x.toNat ≤ F.n.toNat → (F.log x).toNat < F.n.toNat
  alpha_log   : ∀ x : Half, x ≠ 0 → x.toNat ≤ F.n.toNat → F.alpha (F.log x) = x
  log_alpha   : ∀ i : Half, i.toNat < F.n.toNat → F.log (F.alpha i) = i
  above       : ∀ x : Half, F.n.toNat < x.toNat → F.alpha x = 0 ∧ F.log x = 0

/-- The value at the point `α^x` of the polynomial with coefficients `c[0..]` in element form, added up term by term (R224, R261);
a zero coefficient adds nothing. -/
def evalAt (F : GField) (c : List Half) (x : Nat) : Half :=
  xorSum ((List.range c.length).map fun j => if nth c j = 0 then 0 else F.pow ((F.log (nth c j)).toNat + j * x))

/-- The same for coefficients in index form (R261). -/
def evalIndexAt (F : GField) (lam : List Half) (x : Nat) : Half :=
  xorSum ((List.range lam.length).map fun j => if nth lam j = F.n then 0 else F.pow ((nth lam j).toNat + j * x))

/-- Entries `[0, k)` of a 16-bit file, an unwritten one counted as 0. -/
def State.halves (s : State) (f : RegFile) (k : Nat) : List Half :=
  (List.range k).map fun i => (s.mem.half (entryAddr f i)).getD 0

/-- `LAMBDA[0..nroots]` (R54). -/
def State.locator (s : State) : List Half := s.halves .lambda (s.nroots + 1)

/-- `ROOT[0..count)` (R57). -/
def State.roots (s : State) : List Half := s.halves .root s.scalars.nrootsFound.toNat

/-- `LOC[0..count)` (R57). -/
def State.positions (s : State) : List Half := s.halves .loc s.scalars.nrootsFound.toNat

/-- LAMBDA holds a locator in index form of the degree in DEG_LAMBDA, with the constant coefficient 1 (R54, R61, R240, R250). -/
structure State.LocatorDone (s : State) : Prop where
  degree   : s.scalars.degLambda.toNat ≤ s.nroots
  constant : nth s.locator 0 = 0
  range    : ∀ l ∈ s.locator, l.toNat ≤ s.n
  leading  : nth s.locator s.scalars.degLambda.toNat ≠ s.active.actN
  above    : ∀ j, s.scalars.degLambda.toNat < j → j ≤ s.nroots → nth s.locator j = s.active.actN

/-- ROOT and LOC hold as many distinct roots of the locator as its degree is, at distinct positions of the transmitted block (R260
to R262, R280). -/
structure State.AllLocated (s : State) : Prop where
  count    : 1 ≤ s.scalars.degLambda.toNat ∧ s.scalars.nrootsFound = s.scalars.degLambda
  entries  : ∀ j < s.scalars.nrootsFound.toNat, ∃ root loc : Half,
    s.mem.half (entryAddr .root j) = some root ∧ s.mem.half (entryAddr .loc j) = some loc ∧
    1 ≤ root.toNat ∧ root.toNat ≤ s.n ∧ s.latches.dPad.toNat ≤ loc.toNat ∧ loc.toNat < s.n
  distinct : s.roots.Nodup
  apart    : s.positions.Nodup
  vanish   : ∀ root ∈ s.roots, evalIndexAt s.field s.locator root.toNat = 0

/-- What a decode in progress has left behind (R45, R46, R48, R53 to R58): the latched geometry, and the entries the stages
that are still to come read. -/
structure State.DecodeInProgress (s : State) : Prop where
  valid        : s.status.cfgValid = true
  geometry     : s.latches.dLen.toNat + s.latches.dPad.toNat + s.nroots = s.n
  erasures     : s.latches.dNoEras.toNat ≤ s.nroots
  data_written : s.mem.written .data s.latches.dLen.toNat
  par_written  : s.mem.written .par s.nroots
  eras_written : s.mem.written .eras s.latches.dNoEras.toNat
  s_written    : s.mem.written .s s.nroots
  lam_written  : s.status.dstage ≠ .syn → s.mem.written .lambda (s.nroots + 1)
  lam_one      : s.status.dstage = .eras → s.mem.half (entryAddr .lambda 0) = some 1
  locator      : s.status.dstage = .bm ∨ s.status.dstage = .chien ∨ s.status.dstage = .forney → s.LocatorDone
  located      : s.status.dstage = .chien ∨ s.status.dstage = .forney → s.AllLocated
  mag_written  : s.status.dstage = .forney → s.mem.written .mag s.scalars.nrootsFound.toNat

/-- The invariant of the machine: the memory is canonical, a valid configuration is one CONFIG commits with its tables built
(R34), and a decode in progress has left what its stages leave (R45). -/
structure State.Inv (s : State) : Prop where
  memory    : s.mem.wf
  committed : s.status.cfgValid = true → s.active.Committed
  tables    : s.status.cfgValid = true → s.field.Tables s.active.actM.toNat s.active.actPoly.toNat
  decode    : s.status.dstage ≠ .idle → s.DecodeInProgress

/-- The erasure vector is valid (R222): not longer than `nroots`, every position written and in the shortened block. -/
def State.ErasuresGood (s : State) (ne len : Nat) : Prop :=
  ne ≤ s.nroots ∧ ∀ k < ne, ∃ w : Word, s.mem.word (entryAddr .eras k) = some w ∧ 0 ≤ w.toInt ∧ w.toInt < len + s.nroots

/-- What DEC_SYN and DECODE need to run (R220, R222, R365): a valid configuration, a block length that fits, a valid erasure
vector if `E = 1`, and the block written. -/
structure State.BlockReady (s : State) (e : Bool) : Prop where
  configured   : s.configured
  len_fits     : s.len.toNat + s.nroots ≤ s.n
  erasures     : s.ErasuresGood (s.effectiveErasures e) s.len.toNat
  data_written : s.mem.written .data s.len.toNat
  par_written  : s.mem.written .par s.nroots

/-- The symbols of the block as they stand in `DATA` and `PAR` (R59, R94, R202), an unwritten one counted as 0: the effective
message, then the parity. -/
def State.blockSymbols (s : State) : List Half :=
  (s.halves .data s.len.toNat).map (fun d => (d &&& s.active.actN) ^^^ (s.invmask &&& s.active.actN)) ++
  (s.halves .par s.nroots).map fun p => p &&& s.active.actN

/-- The shortened-block positions that are erasures of a decode with the flag `E` (R222, R292). -/
def State.erasedPositions (s : State) (e : Bool) : List Nat :=
  (List.range (s.effectiveErasures e)).map fun k => ((s.mem.word (entryAddr .eras k)).getD 0).toNat

/-- The shortened-block positions whose symbol differs from the block `sent` (R292). -/
def State.wrongPositions (s : State) (sent : List Half) : List Nat :=
  (List.range sent.length).filter fun p => nth s.blockSymbols p != nth sent p

/-- The number of errors that are not erasures (R292). -/
def State.unmarkedErrors (s : State) (e : Bool) (sent : List Half) : Nat :=
  ((s.wrongPositions sent).filter fun p => !(s.erasedPositions e).contains p).length

end Sys2Proof.Machine
end

