-- ==== Sys2Proof/Certificates/Slice0/Obligations.lean ====
section
/-! DEFINITION. The statements for the provers, from the numbered rules of the spec. -/

open Sys2Proof Sys2Proof.Machine

/-! ### Encoding (30_encoding.md) -/

/-- R119: the example words are the encodings of their commands and decode to them; the three illegal examples are rejected. -/
def Obligations.EncodingExamplesDecode : Prop :=
  (encode .nop = 0x00000000 ∧ encode .config = 0x00000001 ∧ encode .encode = 0x00000002 ∧
    encode (.decode false false) = 0x00000003 ∧ encode (.decode true false) = 0x00000103 ∧
    encode (.decode false true) = 0x00000203 ∧ encode (.decode true true) = 0x00000303 ∧
    encode (.decSyn true true) = 0x00000310 ∧ encode .fldMul = 0x00000024) ∧
  (decode 0x00000000 = .ok .nop ∧ decode 0x00000001 = .ok .config ∧ decode 0x00000002 = .ok .encode ∧
    decode 0x00000003 = .ok (.decode false false) ∧ decode 0x00000103 = .ok (.decode true false) ∧
    decode 0x00000203 = .ok (.decode false true) ∧ decode 0x00000303 = .ok (.decode true true) ∧
    decode 0x00000310 = .ok (.decSyn true true) ∧ decode 0x00000024 = .ok .fldMul) ∧
  decode 0x00000102 = .error .flagsNotAllowed ∧ decode 0x00000400 = .error .reservedBits ∧
  decode 0x00000005 = .error .reservedOpcode

/-- R112: bits [31:10] must be 0, bits [9:8] may be 1 only in DECODE and DEC_SYN, and the opcode must be one of R114's; a word
decodes exactly when this holds, with the opcode and flags that stand in it. -/
def Obligations.LegalWordsAreExactlyThoseDecoded : Prop :=
  ∀ w : Word,
    ((∃ i, decode w = .ok i) ↔
      w.toNat % 256 ∈ [0x00, 0x01, 0x02, 0x03, 0x04, 0x10, 0x11, 0x12, 0x13, 0x14, 0x15, 0x20, 0x21, 0x22, 0x23, 0x24, 0x25] ∧
      w.toNat / 1024 = 0 ∧ (w.toNat % 256 ≠ 0x03 → w.toNat % 256 ≠ 0x10 → w.toNat / 256 % 4 = 0)) ∧
    ∀ i, decode w = .ok i →
      i.fields.op.toNat = w.toNat % 256 ∧ i.fields.e = w.getLsbD 8 ∧ i.fields.c = w.getLsbD 9

/-- Every command is well formed, and a word decodes to a command exactly when it is that command's encoding: no bit of a word
is dropped (R110, R114, R117). -/
def Obligations.DecodeInvertsEncode : Prop :=
  (∀ i : Instr, i.wellFormed = true) ∧ ∀ (w : Word) (i : Instr), decode w = .ok i ↔ w = encode i

/-! ### Steps, issue and completion (R40, R110, R324, R362) -/

/-- When it is the engine's turn and the word in `CMD` decodes to a command, the step is that command's meaning. -/
def Obligations.StepRunsTheDecodedCommand : Prop :=
  ∀ (s : State) (i : Instr), s.status.busy = true → s.slack = 0 → decode s.cmd = .ok i → step s = exec i s

/-- R115: an ILLEGAL word completes with ILLEGAL_CMD and no other state changes; every other word is a command with the opcode
and flags that stand in it. -/
def Obligations.IllegalWordCompletesWithIllegalCmd : Prop :=
  ∀ s : State, s.status.busy = true → s.slack = 0 →
    if s.cmd.toNat % 256 ∉
        [0x00, 0x01, 0x02, 0x03, 0x04, 0x10, 0x11, 0x12, 0x13, 0x14, 0x15, 0x20, 0x21, 0x22, 0x23, 0x24, 0x25] ∨
      s.cmd.toNat / 1024 ≠ 0 ∨
      (s.cmd.toNat % 256 ≠ 0x03 ∧ s.cmd.toNat % 256 ≠ 0x10 ∧ s.cmd.toNat / 256 % 4 ≠ 0) then
      step s = .next { s with
        status := { s.status with errcode := .illegalCmd, err := true, done := true, busy := false } }
    else
      ∃ i, step s = exec i s ∧ i.fields.op.toNat = s.cmd.toNat % 256 ∧ i.fields.e = s.cmd.getLsbD 8 ∧
        i.fields.c = s.cmd.getLsbD 9

/-- R40: `CMD` is 0 after reset; a host write to `CMD` while BUSY is 0 issues the written word, legal or not; a read returns it
at any time; a write while BUSY is 1 is dropped and sets WERR; nothing else but the reset input changes `CMD`. The model's choice
beside the rule: the length of the BUSY window is drawn at the issue and each access in it is one turn (log entries 3 and 8), and
`pending` and `rdata` are the host's side (log entries 5 and 6). -/
def Obligations.CmdHoldsTheLastIssuedWord : Prop :=
  State.reset.cmd = 0 ∧
  (∀ (s : State) (off : BitVec 22) (v : Word) (rest : List HostEvent),
    s.status.busy = false → s.pending = .write off v :: rest → off.toNat / 4 = 2 →
    step s = .next { s with
      pending := rest, cmd := v, status := { s.status with busy := true }
      slack := Config.busySteps s.draws, draws := s.draws + 1 }) ∧
  (∀ (s : State) (off : BitVec 22) (rest : List HostEvent),
    engineMoves s = false → s.pending = .read off :: rest → off.toNat / 4 = 2 →
    step s = .next { s with
      pending := rest, rdata := s.cmd, slack := if s.status.busy then s.slack - 1 else s.slack }) ∧
  (∀ (s : State) (off : BitVec 22) (v : Word) (rest : List HostEvent),
    s.status.busy = true → 0 < s.slack → s.pending = .write off v :: rest → off.toNat / 4 = 2 →
    step s = .next { s with pending := rest, slack := s.slack - 1, status := { s.status with werr := true } }) ∧
  ∀ s t : State, step s = .next t → t.cmd ≠ s.cmd →
    (∃ rest, s.pending = .reset :: rest) ∨
    (s.status.busy = false ∧ ∃ off v rest, s.pending = .write off v :: rest ∧ off.toNat / 4 = 2 ∧ t.cmd = v)

/-- R324: every word the engine runs to its completion, a command or not, leaves BUSY 0 and DONE 1, and ERR 1 if its code is not
NONE. ERR is sticky: a completion without error keeps it, and only SOFT_RESET, a W1C write or the reset input clears it. -/
def Obligations.EveryCommandCompletesItsHandshake : Prop :=
  (∀ s t : State, engineMoves s = true → step s = .next t →
    t.status.busy = false ∧ t.status.done = true ∧
    (t.status.errcode ≠ .noError → t.status.err = true) ∧
    (decode s.cmd ≠ .ok .softReset → t.status.errcode = .noError → t.status.err = s.status.err)) ∧
  ∀ s t : State, step s = .next t → s.status.err = true → t.status.err = false →
    (engineMoves s = true ∧ decode s.cmd = .ok .softReset) ∨
    (∃ off v rest, s.pending = .write off v :: rest ∧ portTarget off = .reg .status ∧ v.getLsbD 2 = true) ∨
    ∃ rest, s.pending = .reset :: rest

/-- R325: a command, or an illegal word, that completes with an error has changed nothing but ERRCODE, ERR, DONE and BUSY. -/
def Obligations.FailedCommandChangesOnlyCompletionFields : Prop :=
  ∀ s t : State, engineMoves s = true → step s = .next t → t.status.errcode ≠ .noError →
    t = { s with status := { s.status with errcode := t.status.errcode, err := true, done := true, busy := false } }

/-! ### The checks of the commands (R326, R327) -/

/-- R326, R327: while CFG_VALID is 0 every command but NOP, CONFIG and SOFT_RESET completes with NOT_CONFIGURED, before any other
check; a stage command after DEC_SYN completes with SEQUENCE when DSTAGE is not the stage it needs; ENCODE, DECODE and DEC_SYN
complete with LENGTH when `LEN > n − nroots`, whatever the erasure vector is. -/
def Obligations.FirstFailingCheckDecidesTheErrorCode : Prop :=
  (∀ (i : Instr) (s : State), i ≠ .nop → i ≠ .config → i ≠ .softReset → s.status.cfgValid = false →
    exec i s = .next (complete .notConfigured s)) ∧
  (∀ (i : Instr) (need : DStage) (s : State),
    (i, need) ∈ [(Instr.decEras, DStage.syn), (.decBm, .eras), (.decChien, .bm), (.decForney, .chien), (.decApply, .forney)] →
    s.configured → s.status.dstage ≠ need → exec i s = .next (complete .sequence s)) ∧
  ∀ (s : State) (e c : Bool), s.configured → s.n < s.len.toNat + s.nroots →
    exec .encode s = .next (complete .length s) ∧ exec (.decode e c) s = .next (complete .length s) ∧
    exec (.decSyn e c) s = .next (complete .length s)

/-- R222: an erasure vector longer than `nroots`, or with a position outside the shortened block, raises ERASURE in DEC_SYN and
DECODE with `E = 1`, and in DEC_ERAS against the latched length; with `E = 0` the vector is not looked at. -/
def Obligations.InvalidErasureVectorRaisesErasure : Prop :=
  (∀ (s : State) (c : Bool), s.configured → s.len.toNat + s.nroots ≤ s.n →
    (s.nroots < s.noEras.toNat ∨
      ∃ k < s.noEras.toNat, s.ErasuresGood k s.len.toNat ∧
        ∃ w : Word, s.mem.word (entryAddr .eras k) = some w ∧ (w.toInt < 0 ∨ s.len.toNat + s.nroots ≤ w.toInt)) →
    exec (.decSyn true c) s = .next (complete .erasure s) ∧ exec (.decode true c) s = .next (complete .erasure s)) ∧
  (∀ s : State, s.configured → s.status.dstage = .syn →
    (s.nroots < s.latches.dNoEras.toNat ∨
      ∃ k < s.latches.dNoEras.toNat, s.ErasuresGood k s.latches.dLen.toNat ∧
        ∃ w : Word, s.mem.word (entryAddr .eras k) = some w ∧
          (w.toInt < 0 ∨ s.latches.dLen.toNat + s.nroots ≤ w.toInt)) →
    exec .decEras s = .next (complete .erasure s)) ∧
  (∀ (s t : State) (c : Bool), exec (.decSyn false c) s = .next t → t.status.errcode ≠ .erasure) ∧
  (∀ (s t : State) (c : Bool), exec (.decode false c) s = .next t → t.status.errcode ≠ .erasure)

/-- R141, R149: CONFIG completes with BAD_CONFIG exactly when one of the tests of `check_config` fails, whatever the order of the
polynomial is; when they pass and the polynomial is not primitive it completes with NON_PRIMITIVE. Either way nothing but the
completion fields changes: the active configuration, the tables, CFG_VALID and DSTAGE stay. -/
def Obligations.ConfigErrorsAreTransactional : Prop :=
  ∀ s : State,
    (exec .config s = .next { s with
        status := { s.status with errcode := .badConfig, err := true, done := true, busy := false } } ↔
      ¬(2 ≤ s.staging.cfgM.toNat ∧ s.staging.cfgM.toNat ≤ 16 ∧
        2 ^ s.staging.cfgM.toNat ≤ s.staging.cfgPoly.toNat ∧ s.staging.cfgPoly.toNat < 2 ^ (s.staging.cfgM.toNat + 1) ∧
        1 ≤ s.staging.cfgNroots.toNat ∧
        s.staging.cfgNroots.toNat ≤ min (2 ^ s.staging.cfgM.toNat - 1 - 1) Config.nrootsMax ∧
        s.staging.cfgFcr.toNat ≤ 2 ^ s.staging.cfgM.toNat - 1 - 1 ∧
        1 ≤ s.staging.cfgPrim.toNat ∧ s.staging.cfgPrim.toNat ≤ 2 ^ s.staging.cfgM.toNat - 1 - 1 ∧
        Nat.gcd s.staging.cfgPrim.toNat (2 ^ s.staging.cfgM.toNat - 1) = 1)) ∧
    (s.staging.legal = true → primitive s.staging.cfgM.toNat s.staging.cfgPoly.toNat = false →
      exec .config s = .next { s with
        status := { s.status with errcode := .nonPrimitive, err := true, done := true, busy := false } })

/-- R145: `primitive` holds exactly when the values `step^i(1)` for `i < n` are `n` distinct non-zero elements and
`step^n(1) = 1`. -/
def Obligations.PrimitiveMeansPowersAreDistinct : Prop :=
  ∀ m poly : Nat, 2 ≤ m →
    (primitive m poly = true ↔
      (∀ i < 2 ^ m - 1, (fieldStep m poly)^[i] 1 ≠ 0) ∧
      (∀ i < 2 ^ m - 1, ∀ j < 2 ^ m - 1, (fieldStep m poly)^[i] 1 = (fieldStep m poly)^[j] 1 → i = j) ∧
      (fieldStep m poly)^[2 ^ m - 1] 1 = 1)

/-! ### CONFIG (40_field_tables.md) -/

/-- R148: a CONFIG over legal staging values with a primitive polynomial completes; it commits the staging values and `n`, sets
CFG_VALID and DSTAGE IDLE, writes nothing but the tables, and leaves every other register. -/
def Obligations.ConfigCommitsTheStagingRegisters : Prop :=
  ∀ s : State, s.staging.legal = true → primitive s.staging.cfgM.toNat s.staging.cfgPoly.toNat = true →
    ∃ t, exec .config s = .next t ∧
      t = { s with
        active :=
          { actM := s.staging.cfgM, actPoly := s.staging.cfgPoly, actNroots := s.staging.cfgNroots
            actFcr := s.staging.cfgFcr, actPrim := s.staging.cfgPrim
            actN := BitVec.ofNat 16 (2 ^ s.staging.cfgM.toNat - 1), iprim := t.active.iprim }
        status :=
          { s.status with errcode := .noError, done := true, busy := false, cfgValid := true, dstage := .idle }
        mem := t.mem } ∧
      ∀ a, ¬(0x040000 ≤ a ∧ a < 0x100000) → t.mem.read a = s.mem.read a

/-- R146: after a successful CONFIG, IPRIM is the smallest positive integer with `IPRIM · prim ≡ 1 (mod n)`. -/
def Obligations.IprimIsTheSmallestInverse : Prop :=
  ∀ s t : State, exec .config s = .next t → t.status.errcode = .noError →
    0 < t.active.iprim.toNat ∧ t.active.iprim.toNat * t.prim % t.n = 1 ∧
    ∀ k : Nat, 0 < k → k * t.prim % t.n = 1 → t.active.iprim.toNat ≤ k

/-- R150: the post-conditions (a) to (f) of the tables after a successful CONFIG. -/
def Obligations.ConfigTablesMeetTheirPostconditions : Prop :=
  ∀ s t : State, exec .config s = .next t → t.status.errcode = .noError →
    (∀ x : Half, 1 ≤ x.toNat → x.toNat ≤ t.n → t.field.alpha (t.field.log x) = x) ∧
    (∀ i : Half, i.toNat ≤ t.n - 1 → t.field.log (t.field.alpha i) = i) ∧
    (t.field.log 0 = t.active.actN ∧ t.field.alpha t.active.actN = 0) ∧
    (∀ x : Half, (∃ i : Half, i.toNat ≤ t.n - 1 ∧ t.field.alpha i = x) ↔ 1 ≤ x.toNat ∧ x.toNat ≤ t.n) ∧
    t.active.iprim.toNat * t.prim % t.n = 1 ∧
    (∀ i ≤ t.nroots, (t.genpoly i).toNat ≤ t.n) ∧ t.genpoly 0 ≠ t.active.actN ∧ t.genpoly t.nroots = 0

/-- R47, R37 to R39: while CFG_VALID is 0 a host read of a table entry returns 0. After a successful CONFIG the entries of ALPHA_TO
and INDEX_OF above `n` read 0, and those of GENPOLY above `nroots` read `A0`. -/
def Obligations.TableWindowsReadTheirFill : Prop :=
  (∀ (s : State) (f : RegFile) (i : Nat) (rest : List HostEvent), s.status.busy = false → s.status.cfgValid = false →
    f ∈ [RegFile.alphaTo, .indexOf, .genpoly] → i < f.cap → s.pending = hostRdEntry f i :: rest →
    step s = .next { s with pending := rest, rdata := 0 }) ∧
  ∀ s t : State, exec .config s = .next t → t.status.errcode = .noError →
    (∀ i, t.n < i → i < 65536 →
      t.readTarget (.entry .alphaTo i) = .ok 0 ∧ t.readTarget (.entry .indexOf i) = .ok 0) ∧
    ∀ i, t.nroots < i → i ≤ Config.nrootsMax → t.readTarget (.entry .genpoly i) = .ok (t.active.actN.setWidth 32)

/-! ### The index reducer and the field operations (41_field_ops.md) -/

/-- R170, R171: the reducer's iteration ends and gives `x mod n`, in at most 2 iterations for `x ≤ 3n` and at most 3 for
`x < 2n²`. -/
def Obligations.ReducerIterationGivesTheRemainder : Prop :=
  ∀ m x : Nat, 2 ≤ m →
    modnIter m (2 ^ m - 1) x x = x % (2 ^ m - 1) ∧
    (x ≤ 3 * (2 ^ m - 1) → modnIterCount m (2 ^ m - 1) x x ≤ 2) ∧
    (x < 2 * (2 ^ m - 1) ^ 2 → modnIterCount m (2 ^ m - 1) x x ≤ 3)

/-- R180, R181: FLD_ALOG answers `ALPHA_TO[OPA]` and FLD_LOG `INDEX_OF[OPA]` for `OPA ≤ n`; both raise DOMAIN above. The antilog of
`A0` is 0 and that of 0 is 1; the log of 0 is `A0` and that of 1 is 0. -/
def Obligations.FldAlogAndLogReadTheTables : Prop :=
  ∀ s : State,
    (s.status.cfgValid = false →
      exec .fldAlog s = .next (complete .notConfigured s) ∧ exec .fldLog s = .next (complete .notConfigured s)) ∧
    (s.configured → s.n < s.opa.toNat →
      exec .fldAlog s = .next (complete .domain s) ∧ exec .fldLog s = .next (complete .domain s)) ∧
    (s.configured → s.opa.toNat ≤ s.n →
      exec .fldAlog s =
        .next (complete .noError { s with res := (s.mem.tableEntry .alphaTo s.opa.toNat).setWidth 32 }) ∧
      exec .fldLog s =
        .next (complete .noError { s with res := (s.mem.tableEntry .indexOf s.opa.toNat).setWidth 32 })) ∧
    (s.Inv → s.configured →
      (s.opa.toNat = s.n → exec .fldAlog s = .next (complete .noError { s with res := 0 })) ∧
      (s.opa = 0 →
        exec .fldAlog s = .next (complete .noError { s with res := 1 }) ∧
        exec .fldLog s = .next (complete .noError { s with res := s.active.actN.setWidth 32 })) ∧
      (s.opa = 1 → exec .fldLog s = .next (complete .noError { s with res := 0 })))

/-- R182: FLD_MODN answers `OPA mod n` for every 32-bit value; only NOT_CONFIGURED stops it. -/
def Obligations.FldModnReducesEveryWord : Prop :=
  ∀ s : State,
    (s.status.cfgValid = false → exec .fldModn s = .next (complete .notConfigured s)) ∧
    (s.configured →
      exec .fldModn s = .next (complete .noError { s with res := BitVec.ofNat 32 (s.opa.toNat % s.n) }))

/-- R183: FLD_ADD answers the XOR of its operands for elements and raises DOMAIN for any other; `a + a = 0` and `a + 0 = a`, and
the sum of two elements of a committed field is one again. -/
def Obligations.FldAddIsExclusiveOr : Prop :=
  ∀ s : State,
    (s.status.cfgValid = false → exec .fldAdd s = .next (complete .notConfigured s)) ∧
    (s.configured → s.n < s.opa.toNat ∨ s.n < s.opb.toNat → exec .fldAdd s = .next (complete .domain s)) ∧
    (s.configured → s.opa.toNat ≤ s.n → s.opb.toNat ≤ s.n →
      exec .fldAdd s = .next (complete .noError { s with res := s.opa ^^^ s.opb }) ∧
      (s.opa = s.opb → exec .fldAdd s = .next (complete .noError { s with res := 0 })) ∧
      (s.opb = 0 → exec .fldAdd s = .next (complete .noError { s with res := s.opa })) ∧
      (s.active.Committed → (s.opa ^^^ s.opb).toNat ≤ s.n))

/-- R184: FLD_MUL answers 0 for a zero factor and otherwise `ALPHA_TO[modn(INDEX_OF[OPA] + INDEX_OF[OPB])]`, and raises DOMAIN for
an operand above `n`; `1·a = a` and `a·b = b·a`. -/
def Obligations.FldMulMultipliesThroughTheTables : Prop :=
  ∀ s : State,
    (s.status.cfgValid = false → exec .fldMul s = .next (complete .notConfigured s)) ∧
    (s.configured → s.n < s.opa.toNat ∨ s.n < s.opb.toNat → exec .fldMul s = .next (complete .domain s)) ∧
    (s.configured → s.opa.toNat ≤ s.n → s.opb.toNat ≤ s.n →
      (s.opa = 0 ∨ s.opb = 0 → exec .fldMul s = .next (complete .noError { s with res := 0 })) ∧
      (s.opa ≠ 0 → s.opb ≠ 0 →
        exec .fldMul s = .next (complete .noError { s with
          res := (s.mem.tableEntry .alphaTo
            (((s.mem.tableEntry .indexOf s.opa.toNat).toNat + (s.mem.tableEntry .indexOf s.opb.toNat).toNat) %
              s.n)).setWidth 32 })) ∧
      (s.Inv → s.opa = 1 → exec .fldMul s = .next (complete .noError { s with res := s.opb })) ∧
      (∃ r : Word, exec .fldMul s = .next (complete .noError { s with res := r }) ∧
        exec .fldMul { s with opa := s.opb, opb := s.opa } =
          .next (complete .noError { s with opa := s.opb, opb := s.opa, res := r })))

/-- R185: in a state that meets the invariant FLD_DIV answers 0 for a zero dividend and otherwise
`ALPHA_TO[modn(INDEX_OF[OPA] + n − INDEX_OF[OPB])]`; it raises DOMAIN for an operand above `n` and for a zero divisor;
`a / a = 1`. -/
def Obligations.FldDivDividesThroughTheTables : Prop :=
  ∀ s : State,
    (s.status.cfgValid = false → exec .fldDiv s = .next (complete .notConfigured s)) ∧
    (s.configured → s.n < s.opa.toNat ∨ s.n < s.opb.toNat ∨ s.opb = 0 → exec .fldDiv s = .next (complete .domain s)) ∧
    (s.Inv → s.configured → s.opa.toNat ≤ s.n → s.opb.toNat ≤ s.n → s.opb ≠ 0 →
      (s.opa = 0 → exec .fldDiv s = .next (complete .noError { s with res := 0 })) ∧
      (s.opa ≠ 0 →
        exec .fldDiv s = .next (complete .noError { s with
          res := (s.mem.tableEntry .alphaTo
            (((s.mem.tableEntry .indexOf s.opa.toNat).toNat + s.n - (s.mem.tableEntry .indexOf s.opb.toNat).toNat) %
              s.n)).setWidth 32 })) ∧
      (s.opa = s.opb → exec .fldDiv s = .next (complete .noError { s with res := 1 })))

/-- The multiplication of the tables (R174, R184, R185) is that of a field with the XOR as its addition: it stays in the field, is
commutative and associative, has the unit 1, distributes over XOR, and division undoes it. -/
def Obligations.TableMultiplicationIsAFieldMultiplication : Prop :=
  ∀ (F : GField) (m poly : Nat), F.Tables m poly → 2 ≤ m → 2 ^ m ≤ poly → poly < 2 ^ (m + 1) →
    ∀ a b c : Half, a.toNat ≤ F.n.toNat → b.toNat ≤ F.n.toNat → c.toNat ≤ F.n.toNat →
      (F.mul a b).toNat ≤ F.n.toNat ∧ F.mul a b = F.mul b a ∧ F.mul (F.mul a b) c = F.mul a (F.mul b c) ∧
      F.mul 1 a = a ∧ F.mul a (b ^^^ c) = F.mul a b ^^^ F.mul a c ∧ (b ≠ 0 → F.div (F.mul a b) b = .ok a)

/-! ### The encoder (42_encoder.md) -/

/-- R200, R204: ENCODE on a written message that fits completes; `PAR[0..nroots)` holds the LFSR's parity of the effective
message, every other byte of memory reads as before, and every register but STATUS is unchanged. -/
def Obligations.EncodeWritesTheParityAndNothingElse : Prop :=
  ∀ s : State, s.configured → s.len.toNat + s.nroots ≤ s.n → s.mem.written .data s.len.toNat →
    ∃ t, exec .encode s = .next t ∧
      t = { s with mem := t.mem, status := { s.status with errcode := .noError, done := true, busy := false } } ∧
      (∀ j < s.nroots, t.mem.half (entryAddr .par j) =
        (encodeParity s.field s.genpolyList s.nroots (s.blockSymbols.take s.len.toNat))[j]?) ∧
      (encodeParity s.field s.genpolyList s.nroots (s.blockSymbols.take s.len.toNat)).length = s.nroots ∧
      ∀ a, ¬runByte .par s.nroots a → t.mem.read a = s.mem.read a

/-- R203: after a CONFIG that succeeded, ENCODE of any message that fits completes, and a DEC_SYN or a DECODE of the block as it left
it finds `SYN_ERROR = 0` and answers RESULT 0, with DSTAGE IDLE and no error. -/
def Obligations.EncodedBlockIsClean : Prop :=
  ∀ (r s : State) (len invmask : Half) (data : List Half) (c : Bool), exec .config r = .next s → s.status.errcode = .noError →
    data.length = len.toNat → len.toNat + s.nroots ≤ s.n →
    ∃ t u, exec .encode { s with len := len, invmask := invmask, mem := s.mem.putHalves .data 0 data } = .next t ∧
      t.status.errcode = .noError ∧
      exec (.decSyn false c) t = .next u ∧ exec (.decode false c) t = .next u ∧
      u.status.errcode = .noError ∧ u.scalars.synError = 0 ∧ u.result = 0 ∧ u.status.dstage = .idle

/-! ### The decoder front end (43_decoder_front.md) -/

/-- R220: DEC_SYN on a block that is ready completes; it latches the parameters, writes the syndromes in index form and
SYN_ERROR, and leaves RESULT 0 and DSTAGE IDLE for a clean block, DSTAGE SYN for a dirty one. Everything else is unchanged. -/
def Obligations.DecSynComputesTheSyndromes : Prop :=
  ∀ (s : State) (e c : Bool), s.BlockReady e →
    ∃ t, exec (.decSyn e c) s = .next t ∧
      t = { s with
        latches :=
          { dLen := s.len, dPad := BitVec.ofNat 16 (s.n - s.nroots - s.len.toNat)
            dNoEras := if e then s.noEras else 0
            dFlags := BitVec.ofNat 2 ((if c then 2 else 0) + if e then 1 else 0)
            dInvmask := s.invmask &&& s.active.actN }
        scalars := { s.scalars with synError := t.scalars.synError }
        result := if t.scalars.synError = 0 then 0 else s.result
        mem := t.mem
        status :=
          { s.status with
            errcode := .noError, done := true, busy := false
            dstage := if t.scalars.synError = 0 then .idle else .syn } } ∧
      t.scalars.synError = orAll (syndromes s.field s.nroots s.fcr s.prim s.blockSymbols) ∧
      (∀ i < s.nroots, t.mem.half (entryAddr .s i) =
        some (s.field.log (syndrome s.field ((s.fcr + i) * s.prim) s.blockSymbols))) ∧
      ∀ a, ¬runByte .s s.nroots a → t.mem.read a = s.mem.read a

/-- R224: the syndrome of a block is the value of its polynomial at `α^x`, the last symbol being the constant coefficient. -/
def Obligations.SyndromeEvaluatesTheBlock : Prop :=
  ∀ (F : GField) (m poly : Nat), F.Tables m poly → 2 ≤ m → 2 ^ m ≤ poly → poly < 2 ^ (m + 1) →
    ∀ (x : Nat) (block : List Half), (∀ c ∈ block, c.toNat ≤ F.n.toNat) →
      syndrome F x block = evalAt F block.reverse x

/-- R230, R231: in a state that meets the invariant, with DSTAGE SYN and a valid erasure vector, DEC_ERAS completes; LAMBDA holds
the erasure locator in element form for the exponents `modn(prim · (n − 1 − (pad + ERAS[k])))`, DSTAGE becomes ERAS, and
everything else is unchanged. -/
def Obligations.DecErasSeedsTheLocator : Prop :=
  ∀ s : State, s.Inv → s.status.dstage = .syn → s.ErasuresGood s.latches.dNoEras.toNat s.latches.dLen.toNat →
    ∃ t us, exec .decEras s = .next t ∧
      t = { s with
        mem := t.mem
        status := { s.status with errcode := .noError, done := true, busy := false, dstage := .eras } } ∧
      us.length = s.latches.dNoEras.toNat ∧
      (∀ k (h : k < us.length) (w : Word), s.mem.word (entryAddr .eras k) = some w →
        us[k].toNat = s.prim * (s.n - 1 - (s.latches.dPad.toNat + w.toNat)) % s.n) ∧
      (∀ j ≤ s.nroots, t.mem.half (entryAddr .lambda j) = (erasureLocator s.field s.nroots us)[j]?) ∧
      (erasureLocator s.field s.nroots us).length = s.nroots + 1 ∧
      ∀ a, ¬runByte .lambda (s.nroots + 1) a → t.mem.read a = s.mem.read a

/-- R230: the erasure locator is the product of the factors `(1 − α^u(k)·x)`: it vanishes at `α^y` exactly when some `u(k) + y` is
a multiple of `n`. -/
def Obligations.ErasureLocatorVanishesAtTheErasures : Prop :=
  ∀ (F : GField) (m poly : Nat), F.Tables m poly → 2 ≤ m → 2 ^ m ≤ poly → poly < 2 ^ (m + 1) →
    ∀ (nroots : Nat) (us : List Half), us.length ≤ nroots → (∀ u ∈ us, u.toNat < F.n.toNat) →
      ∀ y : Nat, evalAt F (erasureLocator F nroots us) y = 0 ↔ ∃ u ∈ us, (u.toNat + y) % F.n.toNat = 0

/-- R240, R250: in a state that meets the invariant, with DSTAGE ERAS, DEC_BM completes; LAMBDA and B hold in index form what the
loop leaves, DEG_LAMBDA the largest index whose entry is not `A0`, EL the final `el`; `lam[0]` stays 1 and `ne ≤ el ≤ nroots`.
Everything else is unchanged. -/
def Obligations.DecBmRunsTheIteration : Prop :=
  ∀ s : State, s.Inv → s.status.dstage = .eras →
    ∃ t v, exec .decBm s = .next t ∧
      bmLoop s.field (s.halves .s s.nroots) s.latches.dNoEras.toNat s.nroots
        { lam := s.locator, b := s.locator.map s.field.log, el := s.latches.dNoEras.toNat } = .ok v ∧
      t = { s with
        mem := t.mem
        scalars := { s.scalars with degLambda := t.scalars.degLambda, el := BitVec.ofNat 16 v.el }
        status := { s.status with errcode := .noError, done := true, busy := false, dstage := .bm } } ∧
      (∀ j ≤ s.nroots, t.mem.half (entryAddr .lambda j) = (v.lam.map s.field.log)[j]? ∧
        t.mem.half (entryAddr .b j) = v.b[j]?) ∧
      v.lam.length = s.nroots + 1 ∧ v.b.length = s.nroots + 1 ∧ nth v.lam 0 = 1 ∧
      s.latches.dNoEras.toNat ≤ v.el ∧ v.el ≤ s.nroots ∧
      t.scalars.degLambda.toNat ≤ s.nroots ∧ s.field.log (nth v.lam t.scalars.degLambda.toNat) ≠ s.active.actN ∧
      (∀ j ≤ s.nroots, t.scalars.degLambda.toNat < j → s.field.log (nth v.lam j) = s.active.actN) ∧
      ∀ a, ¬runByte .lambda (s.nroots + 1) a → ¬runByte .b (s.nroots + 1) a → t.mem.read a = s.mem.read a

/-- What the iteration achieves (R240, R271): over the tables of a primitive polynomial and from a Λ of degree at most `ne` with
constant coefficient 1, the loop ends in a Λ of degree at most `el` whose product with the syndromes, mod `x^nroots`, has no term
of degree `el` or more, and which still vanishes wherever the first Λ did. -/
def Obligations.BerlekampMasseySolvesTheKeyEquation : Prop :=
  ∀ (F : GField) (m poly : Nat), F.Tables m poly → 2 ≤ m → 2 ^ m ≤ poly → poly < 2 ^ (m + 1) →
    ∀ (syn lam : List Half) (ne nroots : Nat), syn.length = nroots → lam.length = nroots + 1 → ne ≤ nroots →
      (∀ x ∈ syn, x.toNat ≤ F.n.toNat) → (∀ l ∈ lam, l.toNat ≤ F.n.toNat) → nth lam 0 = 1 →
      (∀ j, ne < j → j ≤ nroots → nth lam j = 0) →
      ∃ v, bmLoop F syn ne nroots { lam := lam, b := lam.map F.log, el := ne } = .ok v ∧
        (∀ j, v.el < j → nth v.lam j = 0) ∧
        (∀ i, v.el ≤ i → i < nroots → omegaElement F syn (v.lam.map F.log) i = 0) ∧
        ∀ y : Nat, evalAt F lam y = 0 → evalAt F v.lam y = 0

/-! ### The decoder back end (44_decoder_back.md) -/

/-- R260, R262: in a state that meets the invariant, with DSTAGE BM, DEC_CHIEN completes; ROOT, LOC and NROOTS_FOUND hold what the
search found. In the three cases of R262 the outcome is RESULT −1 and DSTAGE IDLE without an error; otherwise DSTAGE becomes
CHIEN. Everything else, the buffers among it, is unchanged. -/
def Obligations.DecChienLocatesOrGivesUp : Prop :=
  ∀ s : State, s.Inv → s.status.dstage = .bm →
    ∃ t found, exec .decChien s = .next t ∧
      found = (if s.scalars.degLambda = 0 then []
        else chienSearch s.field s.scalars.degLambda.toNat s.active.iprim.toNat s.locator) ∧
      found.length ≤ s.scalars.degLambda.toNat ∧
      (∀ j < found.length, t.mem.half (entryAddr .root j) = (found[j]?).map Prod.fst ∧
        t.mem.half (entryAddr .loc j) = (found[j]?).map Prod.snd) ∧
      (∀ a, ¬runByte .root found.length a → ¬runByte .loc found.length a → t.mem.read a = s.mem.read a) ∧
      (if s.scalars.degLambda = 0 ∨ found.length ≠ s.scalars.degLambda.toNat ∨
          ∃ p ∈ found, p.2.toNat < s.latches.dPad.toNat then
        t = { s with
          mem := t.mem, result := 0xFFFFFFFF
          scalars := { s.scalars with nrootsFound := BitVec.ofNat 16 found.length }
          status := { s.status with errcode := .noError, done := true, busy := false, dstage := .idle } }
      else
        t = { s with
          mem := t.mem
          scalars := { s.scalars with nrootsFound := BitVec.ofNat 16 found.length }
          status := { s.status with errcode := .noError, done := true, busy := false, dstage := .chien } })

/-- R261: the search finds, in increasing order, the first `deg` of the steps `i ∈ [1, n]` at which Λ vanishes at `α^i`, each with
the position `modn(i·iprim + n − 1)`. -/
def Obligations.ChienFindsExactlyTheRoots : Prop :=
  ∀ (F : GField) (deg iprim : Nat) (lam : List Half), 1 ≤ deg → deg < lam.length → 1 ≤ iprim → iprim ≤ F.n.toNat - 1 →
    nth lam 0 = 0 → F.alpha 0 = 1 → (∀ j, deg < j → j < lam.length → nth lam j = F.n) →
    chienSearch F deg iprim lam =
      (((List.range' 1 F.n.toNat).filter fun i => evalIndexAt F lam i == 0).map fun i =>
        (BitVec.ofNat 16 i, F.modn (i * iprim + F.n.toNat - 1))).take deg

/-- R270, R271: in a state that meets the invariant, with DSTAGE CHIEN, DEC_FORNEY completes, no denominator being 0; OMEGA holds Ω,
DEG_OMEGA is `deg − 1`, MAG holds the magnitudes with their APPLY flags, and DSTAGE becomes FORNEY. Everything else is
unchanged. -/
def Obligations.DecForneyComputesTheMagnitudes : Prop :=
  ∀ s : State, s.Inv → s.status.dstage = .chien →
    ∃ t, exec .decForney s = .next t ∧
      t = { s with
        mem := t.mem
        scalars := { s.scalars with degOmega := s.scalars.degLambda - 1 }
        status := { s.status with errcode := .noError, done := true, busy := false, dstage := .forney } } ∧
      (∀ i < s.scalars.degLambda.toNat, t.mem.half (entryAddr .omega i) =
        some (s.field.log (omegaElement s.field (s.halves .s s.nroots) s.locator i))) ∧
      (∀ j < s.scalars.nrootsFound.toNat, ∃ mag : Word, t.mem.word (entryAddr .mag j) = some mag ∧
        forneyMag s.field (omegaList s.field (s.halves .s s.nroots) s.locator s.scalars.degLambda.toNat) s.locator
          s.scalars.degLambda.toNat s.nroots s.fcr s.latches.dPad.toNat (nth s.roots j).toNat
          (nth (s.halves .loc s.scalars.nrootsFound.toNat) j).toNat = .ok mag) ∧
      ∀ a, ¬runByte .omega s.scalars.degLambda.toNat a → ¬runByte .mag s.scalars.nrootsFound.toNat a →
        t.mem.read a = s.mem.read a

/-- R271: at distinct roots of a locator of degree `deg` that has `deg` roots, the denominator does not vanish. -/
def Obligations.DenominatorNeverVanishes : Prop :=
  ∀ (F : GField) (m poly : Nat), F.Tables m poly → 2 ≤ m → 2 ^ m ≤ poly → poly < 2 ^ (m + 1) →
    ∀ (lam : List Half) (deg nroots : Nat) (roots : List Nat),
      lam.length = nroots + 1 → 1 ≤ deg → deg ≤ nroots → (∀ l ∈ lam, l.toNat ≤ F.n.toNat) →
      nth lam deg ≠ F.n → (∀ j, deg < j → j ≤ nroots → nth lam j = F.n) →
      roots.length = deg → roots.Nodup → (∀ r ∈ roots, 1 ≤ r ∧ r ≤ F.n.toNat ∧ evalIndexAt F lam r = 0) →
      ∀ r ∈ roots, forneyDen F lam deg nroots r ≠ 0

/-- R280, R281, R282: in a state that meets the invariant, with DSTAGE FORNEY, DEC_APPLY completes with RESULT the located count and
DSTAGE IDLE. ERAS holds the located positions when E is latched and CORR the applied patterns when C is, aligned with ROOT and LOC;
each magnitude that is to be applied is XORed into the symbol at its position. Every other register is unchanged. The memory
frame (R88): whenever DEC_APPLY answers a next state, a byte that changes belongs to the symbol at a located position whose
magnitude is applied, or to CORR[0..count) when C is latched, or to ERAS[0..count) when E is latched. -/
def Obligations.DecApplyCorrectsTheBlock : Prop :=
  (∀ s : State, s.Inv → s.status.dstage = .forney →
    ∃ t, exec .decApply s = .next t ∧
      t = { s with
        mem := t.mem, result := s.scalars.nrootsFound.setWidth 32
        status := { s.status with errcode := .noError, done := true, busy := false, dstage := .idle } } ∧
      ∀ j < s.scalars.nrootsFound.toNat, ∃ (loc : Half) (mag : Word),
        s.mem.half (entryAddr .loc j) = some loc ∧ s.mem.word (entryAddr .mag j) = some mag ∧
        (t.mem.word (entryAddr .eras j) =
          if s.latches.dFlags.getLsbD 0 then some (tc32 (loc.toNat - s.latches.dPad.toNat))
          else s.mem.word (entryAddr .eras j)) ∧
        (t.mem.half (entryAddr .corr j) =
          if s.latches.dFlags.getLsbD 1 then some (if mag.getLsbD 31 then mag.setWidth 16 else 0)
          else s.mem.half (entryAddr .corr j)) ∧
        (mag.getLsbD 31 = true → loc.toNat < s.n - s.nroots → ∃ old : Half,
          s.mem.half (entryAddr .data (loc.toNat - s.latches.dPad.toNat)) = some old ∧
          t.mem.half (entryAddr .data (loc.toNat - s.latches.dPad.toNat)) = some (old ^^^ mag.setWidth 16)) ∧
        (mag.getLsbD 31 = true → s.n - s.nroots ≤ loc.toNat → ∃ old : Half,
          s.mem.half (entryAddr .par (loc.toNat - (s.n - s.nroots))) = some old ∧
          t.mem.half (entryAddr .par (loc.toNat - (s.n - s.nroots))) = some (old ^^^ mag.setWidth 16))) ∧
  ∀ s t : State, exec .decApply s = .next t →
    ∀ a, (∀ j < s.scalars.nrootsFound.toNat, ∀ (loc : Half) (mag : Word) (f : RegFile) (i : Nat),
        s.mem.half (entryAddr .loc j) = some loc → s.mem.word (entryAddr .mag j) = some mag → magApply mag = true →
        symbolAt s.n s.nroots s.latches.dPad.toNat loc.toNat = .ok (f, i) → ¬entryByte f i a) →
      (s.latches.dFlags.getLsbD 1 = true → ¬runByte .corr s.scalars.nrootsFound.toNat a) →
      (s.latches.dFlags.getLsbD 0 = true → ¬runByte .eras s.scalars.nrootsFound.toNat a) →
      t.mem.read a = s.mem.read a

/-- R290, R271: in a state that meets the invariant, DECODE of a ready block completes, whatever its symbols are, with DSTAGE IDLE and
`RESULT ∈ {−1} ∪ [0, nroots]`; every register but the latches, the decoder scalars, RESULT and STATUS is unchanged. -/
def Obligations.DecodeOfAReadyBlockCompletes : Prop :=
  ∀ (s : State) (e c : Bool), s.Inv → s.BlockReady e →
    ∃ t, exec (.decode e c) s = .next t ∧
      t = { s with
        mem := t.mem, latches := s.latched e c, scalars := t.scalars, result := t.result
        status := { s.status with errcode := .noError, done := true, busy := false, dstage := .idle } } ∧
      (t.result = 0xFFFFFFFF ∨ t.result.toNat ≤ s.nroots)

/-- R292: if the block received differs from a block `sent` of the code in `e` symbols that are not erasures, and `2e + ne ≤ nroots`
for the `ne` erasures, all at different positions, DECODE completes without error and leaves the block sent; RESULT is `e + ne`
(R282: an erased symbol that was right counts too), or 0 if no symbol was wrong. A block of the code is one whose polynomial
vanishes at the roots `α^((fcr+i)·prim)` (R203). -/
def Obligations.DecodeRestoresTheBlockSent : Prop :=
  ∀ (s : State) (e c : Bool) (sent : List Half), s.Inv → s.BlockReady e →
    sent.length = s.len.toNat + s.nroots → (∀ x ∈ sent, x.toNat ≤ s.n) →
    (∀ i < s.nroots, evalAt s.field sent.reverse ((s.fcr + i) * s.prim) = 0) →
    (s.erasedPositions e).Nodup → 2 * s.unmarkedErrors e sent + s.effectiveErasures e ≤ s.nroots →
    ∃ t, exec (.decode e c) s = .next t ∧ t.status.errcode = .noError ∧ t.blockSymbols = sent ∧
      t.result.toNat = if s.wrongPositions sent = [] then 0 else s.unmarkedErrors e sent + s.effectiveErasures e

/-- R291: issuing the stage commands in order gives exactly the state that DECODE with the same flags gives, whether the block is
clean, uncorrectable or corrected. -/
def Obligations.StagedDecodeEqualsDecode : Prop :=
  ∀ (s s1 : State) (e c : Bool), exec (.decSyn e c) s = .next s1 → s1.status.errcode = .noError →
    (s1.status.dstage = .idle → exec (.decode e c) s = .next s1) ∧
    ∀ s2 s3 s4 : State, exec .decEras s1 = .next s2 → s2.status.errcode = .noError → exec .decBm s2 = .next s3 →
      exec .decChien s3 = .next s4 → s1.status.dstage = .syn →
      (s4.status.dstage = .idle → exec (.decode e c) s = .next s4) ∧
      ∀ s5 s6 : State, exec .decForney s4 = .next s5 → exec .decApply s5 = .next s6 → s4.status.dstage = .chien →
        exec (.decode e c) s = .next s6

/-- R90, R292: whatever the input, DECODE changes no byte outside DATA[0..len), PAR[0..nroots), ERAS[0..count) when E = 1,
CORR[0..count) when C = 1, and the working files. R323: a decode that ends uncorrectable, in DECODE or in DEC_CHIEN, is no error,
leaves ERR, and changes no byte of DATA, PAR, ERAS or CORR. -/
def Obligations.DecodeMutatesOnlyItsBuffers : Prop :=
  (∀ (s t : State) (e c : Bool), exec (.decode e c) s = .next t →
    ∀ a, a < 0x200000 ∨ 0x3C0000 ≤ a → ¬runByte .data s.len.toNat a → ¬runByte .par s.nroots a →
      (e = true → ¬runByte .eras t.scalars.nrootsFound.toNat a) →
      (c = true → ¬runByte .corr t.scalars.nrootsFound.toNat a) → t.mem.read a = s.mem.read a) ∧
  ∀ (s t : State) (i : Instr), (i = .decChien ∨ ∃ e c, i = .decode e c) → exec i s = .next t →
    t.status.errcode = .noError → t.status.dstage = .idle → t.result = 0xFFFFFFFF →
    t.status.err = s.status.err ∧ ∀ a, a < 0x200000 → t.mem.read a = s.mem.read a

/-- R45: how each command moves DSTAGE. -/
def Obligations.CommandsMoveDstageAsListed : Prop :=
  ∀ (i : Instr) (s t : State), exec i s = .next t →
    (t.status.errcode ≠ .noError → t.status.dstage = s.status.dstage) ∧
    (t.status.errcode = .noError →
      match i with
      | .nop | .encode | .fldAlog | .fldLog | .fldModn | .fldAdd | .fldMul | .fldDiv => t.status.dstage = s.status.dstage
      | .config | .softReset | .decode _ _ => t.status.dstage = .idle
      | .decSyn _ _ => t.status.dstage = .idle ∨ t.status.dstage = .syn
      | .decEras => s.status.dstage = .syn ∧ t.status.dstage = .eras
      | .decBm => s.status.dstage = .eras ∧ t.status.dstage = .bm
      | .decChien => s.status.dstage = .bm ∧ (t.status.dstage = .idle ∨ t.status.dstage = .chien)
      | .decForney => s.status.dstage = .chien ∧ t.status.dstage = .forney
      | .decApply => s.status.dstage = .forney ∧ t.status.dstage = .idle)

/-- R46, R366: the stages after DEC_SYN read the latches and not LEN, NO_ERAS or INVMASK: with other values in those registers the
stage does the same. -/
def Obligations.LaterStagesIgnoreTheOperandRegisters : Prop :=
  ∀ (i : Instr) (s t : State) (len noEras invmask : Half),
    i ∈ [Instr.decEras, .decBm, .decChien, .decForney, .decApply] → exec i s = .next t →
    exec i { s with len := len, noEras := noEras, invmask := invmask } =
      .next { t with len := len, noEras := noEras, invmask := invmask }

/-- R35, R37 to R39: only CONFIG and SOFT_RESET change the active configuration or CFG_VALID, and only CONFIG writes a table;
no command writes a staging register but SOFT_RESET. -/
def Obligations.OnlyConfigAndSoftResetChangeTheConfiguration : Prop :=
  ∀ (i : Instr) (s t : State), exec i s = .next t →
    (i ≠ .config → i ≠ .softReset →
      t.active = s.active ∧ t.status.cfgValid = s.status.cfgValid) ∧
    (i ≠ .config → ∀ a, a < 0x100000 → t.mem.read a = s.mem.read a) ∧
    (i ≠ .softReset → t.staging = s.staging ∧ t.irqEn = s.irqEn ∧ t.len = s.len ∧ t.noEras = s.noEras ∧
      t.invmask = s.invmask ∧ t.opa = s.opa ∧ t.opb = s.opb) ∧
    t.cmd = s.cmd ∧ t.pending = s.pending ∧ t.rdata = s.rdata ∧ t.slack = s.slack ∧ t.draws = s.draws

/-! ### Control and reset (45_control.md, 70_reset_and_hazards.md) -/

/-- R300: NOP has no effect but its completion. -/
def Obligations.NopOnlyCompletes : Prop :=
  ∀ s : State, exec .nop s = .next { s with status := { s.status with errcode := .noError, done := true, busy := false } }

/-- R301: SOFT_RESET returns every register but ID, PARAM and CMD to its reset value, keeps the files, and completes with DONE set. -/
def Obligations.SoftResetClearsRegistersAndKeepsFiles : Prop :=
  ∀ s : State, ∃ t, exec .softReset s = .next t ∧ t.mem = s.mem ∧ t.cmd = s.cmd ∧
    t.status = ⟨false, true, false, false, false, .noError, .idle⟩ ∧ t.status.word = 0x00000002 ∧
    t.irqEn = 0 ∧ t.staging = ⟨0, 0, 0, 0, 0⟩ ∧ t.active = ⟨0, 0, 0, 0, 0, 0, 0⟩ ∧ t.latches = ⟨0, 0, 0, 0, 0⟩ ∧
    t.scalars = ⟨0, 0, 0, 0, 0⟩ ∧ t.len = 0 ∧ t.noEras = 0 ∧ t.invmask = 0 ∧ t.opa = 0 ∧ t.opb = 0 ∧ t.res = 0 ∧
    t.result = 0 ∧ t.irq = false ∧
    ∀ f ∈ [RegFile.alphaTo, .indexOf, .genpoly], ∀ i, t.readTarget (.entry f i) = .ok 0

/-- R361: after reset STATUS reads 0, every interrupt source is masked, and only NOP, CONFIG and SOFT_RESET complete without
NOT_CONFIGURED. -/
def Obligations.ResetStateIsUnconfigured : Prop :=
  State.reset.status.word = 0x00000000 ∧ State.reset.irqEn = 0 ∧ State.reset.irq = false ∧
  ∀ (i : Instr) (t : State), exec i State.reset = .next t →
    (t.status.errcode = .notConfigured ↔ i ≠ .nop ∧ i ≠ .config ∧ i ≠ .softReset)

/-- R360: the reset input gives every piece of state its reset value at any time the host may act, a command in flight being
abandoned; only the host's own side is kept. -/
def Obligations.ResetInputRestoresTheResetState : Prop :=
  ∀ (s : State) (rest : List HostEvent), engineMoves s = false → s.pending = .reset :: rest →
    step s = .next { State.reset with pending := rest, rdata := s.rdata, draws := s.draws }

/-! ### The host port (20_memory.md) -/

/-- R81, R82: the offsets of the registers and of the windows' entries; bits [1:0] of an offset are ignored. -/
def Obligations.AddressMapIsThatOfTheSpec : Prop :=
  (∀ off : BitVec 22, portTarget off = portTarget (off &&& 0x3FFFFC)) ∧
  (∀ p ∈ [((0x000000 : BitVec 22), PortReg.id), (0x000004, .param), (0x000008, .cmd), (0x00000C, .status), (0x000010, .irqEn),
      (0x000014, .result), (0x000018, .res), (0x00001C, .opa), (0x000020, .opb), (0x000024, .len), (0x000028, .noEras),
      (0x00002C, .invmask), (0x000040, .cfgM), (0x000044, .cfgPoly), (0x000048, .cfgNroots), (0x00004C, .cfgFcr),
      (0x000050, .cfgPrim), (0x000060, .actM), (0x000064, .actPoly), (0x000068, .actNroots), (0x00006C, .actFcr),
      (0x000070, .actPrim), (0x000074, .actN), (0x000078, .iprim), (0x000080, .dLen), (0x000084, .dPad), (0x000088, .dNoEras),
      (0x00008C, .dFlags), (0x000090, .dInvmask), (0x000094, .synError), (0x000098, .degLambda), (0x00009C, .degOmega),
      (0x0000A0, .el), (0x0000A4, .nrootsFound)],
    portTarget p.1 = .reg p.2) ∧
  ∀ p ∈ [(0x040000, RegFile.alphaTo, 65536), (0x080000, .indexOf, 65536), (0x0C0000, .genpoly, Config.nrootsMax + 1),
      (0x100000, .data, 65536), (0x140000, .par, Config.nrootsMax), (0x180000, .eras, Config.nrootsMax),
      (0x1C0000, .corr, Config.nrootsMax), (0x200000, .s, Config.nrootsMax), (0x240000, .lambda, Config.nrootsMax + 1),
      (0x280000, .b, Config.nrootsMax + 1), (0x2C0000, .omega, Config.nrootsMax), (0x300000, .root, Config.nrootsMax),
      (0x340000, .loc, Config.nrootsMax), (0x380000, .mag, Config.nrootsMax)],
    ∀ i < p.2.2, portTarget (BitVec.ofNat 22 (p.1 + 4 * i)) = .entry p.2.1 i

/-- R84: at a reserved, unlisted or out-of-capacity offset a read returns 0 and a write is ignored, and a write to a read-only
register or window is ignored; no WERR, no error. -/
def Obligations.UnmappedAndReadOnlyOffsetsIgnoreWrites : Prop :=
  (∀ (s : State) (off : BitVec 22) (v : Word) (rest : List HostEvent), s.status.busy = false →
    (0xA8 ≤ off.toNat ∧ off.toNat < 0x040000 ∨ 0x3C0000 ≤ off.toNat ∨
      0x30 ≤ off.toNat ∧ off.toNat < 0x40 ∨ 0x54 ≤ off.toNat ∧ off.toNat < 0x60 ∨ 0x7C ≤ off.toNat ∧ off.toNat < 0x80 ∨
      ∃ (f : RegFile) (i : Nat), f.cap ≤ i ∧ i < 65536 ∧ off.toNat / 4 * 4 = entryAddr f i) →
    (s.pending = .read off :: rest → step s = .next { s with pending := rest, rdata := 0 }) ∧
    (s.pending = .write off v :: rest → step s = .next { s with pending := rest })) ∧
  ∀ (s : State) (off : BitVec 22) (v : Word) (rest : List HostEvent), s.status.busy = false →
    (off.toNat < 8 ∨ 0x14 ≤ off.toNat ∧ off.toNat < 0x1C ∨ 0x60 ≤ off.toNat ∧ off.toNat < 0x100000 ∨
      0x200000 ≤ off.toNat) →
    s.pending = .write off v :: rest → step s = .next { s with pending := rest }

/-- R83: an entry the host writes reads back, with bits [15:0] in a 16-bit file and all 32 in ERAS, and no other byte changes. A host
read of any written entry, the read-only files among them, returns its 32 bits in ERAS and MAG and its 16 bits zero-extended in
the others; a table entry is read the same way under a valid configuration, in GENPOLY up to `nroots` (the fill above is the
subject of another statement). -/
def Obligations.WrittenEntryReadsBack : Prop :=
  (∀ (s : State) (f : RegFile) (i : Nat) (v : Word) (rest : List HostEvent), s.status.busy = false →
    f ∈ [RegFile.data, .par, .eras, .corr] → i < f.cap → s.pending = hostWrEntry f i v :: hostRdEntry f i :: rest →
    ∃ t, step s = .next t ∧
      t = { s with pending := hostRdEntry f i :: rest, mem := t.mem } ∧
      (∀ a, ¬entryByte f i a → t.mem.read a = s.mem.read a) ∧
      step t = .next { t with
        pending := rest, rdata := if f = .eras then v else (v.setWidth 16).setWidth 32 }) ∧
  ∀ (s : State) (f : RegFile) (i : Nat) (rest : List HostEvent), s.status.busy = false → i < f.cap →
    s.pending = hostRdEntry f i :: rest →
    (f ∈ [RegFile.eras, .mag] → ∀ w : Word, s.mem.word (entryAddr f i) = some w →
      step s = .next { s with pending := rest, rdata := w }) ∧
    (f ∈ [RegFile.data, .par, .corr, .s, .lambda, .b, .omega, .root, .loc] → ∀ h : Half,
      s.mem.half (entryAddr f i) = some h → step s = .next { s with pending := rest, rdata := h.setWidth 32 }) ∧
    (f ∈ [RegFile.alphaTo, .indexOf, .genpoly] → s.status.cfgValid = true → (f = .genpoly → i ≤ s.nroots) →
      step s = .next { s with pending := rest, rdata := (s.mem.tableEntry f i).setWidth 32 })

/-- R86: a host read has no effect on any register or file, at any offset. -/
def Obligations.HostReadsHaveNoSideEffect : Prop :=
  ∀ (s t : State) (off : BitVec 22) (rest : List HostEvent), engineMoves s = false → s.pending = .read off :: rest →
    step s = .next t →
    t = { s with pending := rest, rdata := t.rdata, slack := t.slack, draws := t.draws }

/-- R33, R42, R43: a read/write register stores the listed bits of any value written and reads them back, the other bits reading 0;
no other register, no file and nothing of the engine changes. R31, R32, R35, R36, R40, R41, R44, R46, R48: what a read of each
register that is not plainly read/write returns, at its offset. -/
def Obligations.RegistersReadAndStoreAsListed : Prop :=
  (∀ (s : State) (v : Word), s.status.busy = false →
    ∀ p ∈ [((0x10 : BitVec 22), 3), (0x1C, 32), (0x20, 32), (0x24, 16), (0x28, 16), (0x2C, 16), (0x40, 5), (0x44, 17),
        (0x48, 16), (0x4C, 16), (0x50, 16)],
      (s.portWrite p.1 v).portRead p.1 =
        .ok { (s.portWrite p.1 v) with rdata := BitVec.ofNat 32 (v.toNat % 2 ^ p.2) } ∧
      (∀ r : PortReg, r.portOffset ≠ p.1 → (s.portWrite p.1 v).readReg r = s.readReg r) ∧
      (s.portWrite p.1 v).status = s.status ∧ (s.portWrite p.1 v).mem = s.mem ∧
      (s.portWrite p.1 v).pending = s.pending ∧ (s.portWrite p.1 v).rdata = s.rdata ∧
      (s.portWrite p.1 v).slack = s.slack ∧ (s.portWrite p.1 v).draws = s.draws) ∧
  ∀ s : State, s.status.busy = false →
    ∀ p ∈ [((0x00 : BitVec 22), (0x52530001 : Word)), (0x04, BitVec.ofNat 32 (16 + 65536 * Config.nrootsMax)), (0x08, s.cmd),
        (0x0C, s.status.word), (0x14, s.result), (0x18, s.res),
        (0x60, s.active.actM.setWidth 32), (0x64, s.active.actPoly.setWidth 32), (0x68, s.active.actNroots.setWidth 32),
        (0x6C, s.active.actFcr.setWidth 32), (0x70, s.active.actPrim.setWidth 32), (0x74, s.active.actN.setWidth 32),
        (0x78, s.active.iprim.setWidth 32),
        (0x80, s.latches.dLen.setWidth 32), (0x84, s.latches.dPad.setWidth 32), (0x88, s.latches.dNoEras.setWidth 32),
        (0x8C, s.latches.dFlags.setWidth 32), (0x90, s.latches.dInvmask.setWidth 32),
        (0x94, s.scalars.synError.setWidth 32), (0x98, s.scalars.degLambda.setWidth 32),
        (0x9C, s.scalars.degOmega.setWidth 32), (0xA0, s.scalars.el.setWidth 32), (0xA4, s.scalars.nrootsFound.setWidth 32)],
      s.portRead p.1 = .ok { s with rdata := p.2 }

/-- R364: host accesses during BUSY. The model's choice beside the rule: each access is one turn of the window (log entry 3), an
unspecified read is a fresh free value (log entries 4 and 8), also of a table without a configuration (log entry 19), and
`pending` and `rdata` are the host's side (log entries 5 and 6). -/
def Obligations.BusyWindowFollowsItsRules : Prop :=
  ∀ (s : State) (off : BitVec 22) (rest : List HostEvent), s.status.busy = true → 0 < s.slack →
    (∀ v, s.pending = .write off v :: rest →
      (portTarget off = .reg .status →
        step s = .next { s with
          pending := rest, slack := s.slack - 1
          status := { s.status with
            done := s.status.done && !v.getLsbD 1, err := s.status.err && !v.getLsbD 2
            werr := s.status.werr && !v.getLsbD 3 } }) ∧
      (portTarget off = .reg .irqEn →
        step s = .next { s with pending := rest, slack := s.slack - 1, irqEn := v.setWidth 3 }) ∧
      (portTarget off ≠ .reg .status → portTarget off ≠ .reg .irqEn → portTarget off ≠ .unmapped →
        step s = .next { s with
          pending := rest, slack := s.slack - 1, status := { s.status with werr := true } }) ∧
      (portTarget off = .unmapped → step s = .next { s with pending := rest, slack := s.slack - 1 })) ∧
    (s.pending = .read off :: rest →
      (∀ r ∈ [PortReg.id, .param, .cmd, .status, .irqEn], portTarget off = .reg r →
        step s = .next { s with pending := rest, slack := s.slack - 1, rdata := s.readReg r }) ∧
      ((∀ r ∈ [PortReg.id, .param, .cmd, .status, .irqEn], portTarget off ≠ .reg r) →
        step s = .next { s with
          pending := rest, slack := s.slack - 1, rdata := Config.unspecifiedRead s.draws, draws := s.draws + 1 }))

/-- R363: the BUSY window is finite: after the steps its slack gives, the host having done what it likes but a reset, it is the
engine's turn, and the command then finds every operand as it was: only the W1C bits, WERR and IRQ_EN can have changed. How many
steps a window has is the model's free value (log entry 3). -/
def Obligations.BusyWindowReachesTheEngine : Prop :=
  ∀ s : State, s.status.busy = true → HostEvent.reset ∉ s.pending →
    ∃ u : State, Host.Core.run Sys2Proof.core s.slack s = .next u ∧ engineMoves u = true ∧
      u = { s with
        status := { s.status with done := u.status.done, err := u.status.err, werr := u.status.werr }
        irqEn := u.irqEn, pending := u.pending, rdata := u.rdata, slack := 0, draws := u.draws }

/-- R41: the bits of STATUS as a read returns them, and what a write of ones clears. -/
def Obligations.StatusWordAndItsWriteOneToClear : Prop :=
  ∀ (t : Status) (v : Word),
    (t.word.getLsbD 0 = t.busy ∧ t.word.getLsbD 1 = t.done ∧ t.word.getLsbD 2 = t.err ∧ t.word.getLsbD 3 = t.werr ∧
      t.word.getLsbD 4 = t.cfgValid ∧ t.word.toNat / 2 ^ 5 % 2 ^ 3 = 0 ∧ t.word.toNat / 2 ^ 8 % 2 ^ 4 = t.errcode.code ∧
      t.word.toNat / 2 ^ 12 % 2 ^ 4 = 0 ∧ t.word.toNat / 2 ^ 16 % 2 ^ 3 = t.dstage.code ∧ t.word.toNat / 2 ^ 19 = 0) ∧
    (∀ s : State, s.portWrite 0x00000C v = { s with
      status := { s.status with
        done := s.status.done && !v.getLsbD 1, err := s.status.err && !v.getLsbD 2
        werr := s.status.werr && !v.getLsbD 3 } })

/-- R330, R331: IRQ is the OR of the three enabled pending bits, and a command that completes with DONE_IE set asserts it. -/
def Obligations.IrqFollowsStatusAndEnables : Prop :=
  (∀ s : State, s.irq = true ↔
    (s.status.done = true ∧ s.irqEn.getLsbD 0 = true) ∨ (s.status.err = true ∧ s.irqEn.getLsbD 1 = true) ∨
      (s.status.werr = true ∧ s.irqEn.getLsbD 2 = true)) ∧
  ∀ (i : Instr) (s t : State), exec i s = .next t → i ≠ .softReset → s.irqEn.getLsbD 0 = true → t.irq = true

/-- R64: a host read of an entry not written since reset stops the run with that entry; so do ENCODE, DEC_SYN and DECODE at the first
unwritten symbol of the block they read, and DEC_SYN, DECODE and DEC_ERAS at the first unwritten entry of the erasure vector they
check. SOFT_RESET keeps what was written. That every stop of a step is of this kind is the subject of another statement. -/
def Obligations.UnwrittenEntriesStopTheRun : Prop :=
  (∀ (s : State) (f : RegFile) (i : Nat) (rest : List HostEvent), s.status.busy = false → f.isTable = false → i < f.cap →
    s.pending = hostRdEntry f i :: rest → ¬s.mem.entryWritten f i → step s = .fault (.unwrittenEntry f i)) ∧
  (∀ (s : State) (i : Nat), s.configured → s.len.toNat + s.nroots ≤ s.n → i < s.len.toNat →
    s.mem.written .data i → ¬s.mem.entryWritten .data i → exec .encode s = .fault (.unwrittenEntry .data i)) ∧
  (∀ (s : State) (e c : Bool), s.configured → s.len.toNat + s.nroots ≤ s.n → s.effectiveErasures e ≤ s.nroots →
    (∀ k < s.effectiveErasures e, s.ErasuresGood k s.len.toNat → ¬s.mem.entryWritten .eras k →
      exec (.decSyn e c) s = .fault (.unwrittenEntry .eras k) ∧ exec (.decode e c) s = .fault (.unwrittenEntry .eras k)) ∧
    (s.ErasuresGood (s.effectiveErasures e) s.len.toNat →
      (∀ i < s.len.toNat, s.mem.written .data i → ¬s.mem.entryWritten .data i →
        exec (.decSyn e c) s = .fault (.unwrittenEntry .data i) ∧ exec (.decode e c) s = .fault (.unwrittenEntry .data i)) ∧
      (s.mem.written .data s.len.toNat → ∀ j < s.nroots, s.mem.written .par j → ¬s.mem.entryWritten .par j →
        exec (.decSyn e c) s = .fault (.unwrittenEntry .par j) ∧ exec (.decode e c) s = .fault (.unwrittenEntry .par j)))) ∧
  (∀ (s : State) (k : Nat), s.configured → s.status.dstage = .syn → s.latches.dNoEras.toNat ≤ s.nroots →
    k < s.latches.dNoEras.toNat → s.ErasuresGood k s.latches.dLen.toNat → ¬s.mem.entryWritten .eras k →
    exec .decEras s = .fault (.unwrittenEntry .eras k)) ∧
  ∀ s t : State, exec .softReset s = .next t → ∀ f i, t.mem.entryWritten f i ↔ s.mem.entryWritten f i

/-! ### The invariant -/

/-- The state after reset meets the invariant. -/
def Obligations.ResetMeetsTheInvariant : Prop := State.reset.Inv

/-- Every step keeps the invariant: the memory stays canonical, a valid configuration is one that CONFIG commits with its tables
built (R34), and a decode in progress has left what its stages leave. -/
def Obligations.EveryStepKeepsTheInvariant : Prop :=
  ∀ s t : State, s.Inv → step s = .next t → t.Inv

/-- R64, R173, R271, R328: from a state that meets the invariant, a step stops only at an entry never written since reset. No step
reaches a negative `modn` argument, a denominator that is 0, or any other stop. -/
def Obligations.OnlyUnwrittenEntriesStopAStep : Prop :=
  ∀ s : State, s.Inv →
    (∀ f, step s = .fault f → ∃ file i, f = .unwrittenEntry file i ∧ ¬s.mem.entryWritten file i) ∧
    ∀ r, step s ≠ .refused r
end

