-- ==== Sys2Proof/Laws/Memory.lean ====
section
/-! SUPPORT. What the memory operations do: reading back a byte, an entry and a run, the bytes they leave alone, and that each
keeps the canonical form; and what the two loop forms `mapE` and `foldE` answer. -/

namespace Sys2Proof.Machine

/-! ### Bytes -/

@[simp] theorem Memory.read_nil (a : Nat) : Memory.read [] a = Memory.unlisted a := rfl

theorem Memory.read_cons (b : Nat) (v : Byte) (m : Memory) (a : Nat) :
    Memory.read ((b, v) :: m) a = if b = a then some v else Memory.read m a := rfl

@[simp] theorem Memory.read_insert_self (m : Memory) (a : Nat) (v : Byte) : (m.insert a v).read a = some v := by
  induction m with
  | nil => simp [Memory.insert, Memory.read_cons]
  | cons c m ih =>
    obtain ⟨b, w⟩ := c
    unfold Memory.insert
    split
    · simp [Memory.read_cons]
    · split
      · simp [Memory.read_cons]
      · have hb : b ≠ a := by omega
        simp [Memory.read_cons, hb, ih]

theorem Memory.read_insert_of_ne (m : Memory) {a c : Nat} (v : Byte) (h : c ≠ a) : (m.insert a v).read c = m.read c := by
  have h' : a ≠ c := fun e => h e.symm
  induction m with
  | nil => simp [Memory.insert, Memory.read_cons, h']
  | cons d m ih =>
    obtain ⟨b, w⟩ := d
    unfold Memory.insert
    split
    · simp [Memory.read_cons, h']
    · split
      · have hb : b ≠ c := by omega
        simp [Memory.read_cons, h', hb]
      · simp [Memory.read_cons, ih]

theorem Memory.clear_cons (b : Nat) (v : Byte) (m : Memory) (lo hi : Nat) :
    Memory.clear ((b, v) :: m) lo hi = if lo ≤ b ∧ b < hi then m.clear lo hi else (b, v) :: m.clear lo hi := by
  unfold Memory.clear
  by_cases h : lo ≤ b ∧ b < hi
  · rw [List.filter_cons_of_neg, if_pos h]
    simp [h.1, h.2]
  · rw [List.filter_cons_of_pos, if_neg h]
    simp only [Bool.not_eq_true', Bool.and_eq_false_iff, decide_eq_false_iff_not]
    omega

/-- A cleared byte reads as an unlisted one. -/
theorem Memory.read_clear_inside (m : Memory) {lo hi a : Nat} (h : lo ≤ a ∧ a < hi) :
    (m.clear lo hi).read a = Memory.unlisted a := by
  induction m with
  | nil => rfl
  | cons c m ih =>
    obtain ⟨b, w⟩ := c
    rw [Memory.clear_cons]
    split
    · exact ih
    · have hb : b ≠ a := by rintro rfl; contradiction
      simp [Memory.read_cons, hb, ih]

/-- A byte outside the cleared range is left alone. -/
theorem Memory.read_clear_outside (m : Memory) {lo hi a : Nat} (h : ¬(lo ≤ a ∧ a < hi)) :
    (m.clear lo hi).read a = m.read a := by
  induction m with
  | nil => rfl
  | cons c m ih =>
    obtain ⟨b, w⟩ := c
    rw [Memory.clear_cons]
    split
    · have hb : b ≠ a := by rintro rfl; contradiction
      simp [Memory.read_cons, hb, ih]
    · simp [Memory.read_cons, ih]

@[simp] theorem Memory.read_write_self (m : Memory) (a : Nat) (v : Byte) : (m.write a v).read a = some v := by
  unfold Memory.write
  split
  · rename_i h
    rw [Memory.read_clear_inside m (by omega), h]
  · exact Memory.read_insert_self m a v

theorem Memory.read_write_of_ne (m : Memory) {a c : Nat} (v : Byte) (h : c ≠ a) : (m.write a v).read c = m.read c := by
  unfold Memory.write
  split
  · exact Memory.read_clear_outside m (by omega)
  · exact Memory.read_insert_of_ne m v h

/-! ### The canonical form -/

theorem Memory.wf_nil : Memory.wf [] := by simp [Memory.wf]

theorem Memory.clear_wf {m : Memory} (h : m.wf) (lo hi : Nat) : (m.clear lo hi).wf := by
  refine ⟨h.1.filter _, fun c hc => h.2 c ?_⟩
  exact (List.mem_filter.mp hc).1

theorem Memory.mem_insert {m : Memory} {a : Nat} {v : Byte} {c : Host.Cell} (h : c ∈ m.insert a v) :
    c = (a, v) ∨ c ∈ m := by
  induction m with
  | nil => simpa [Memory.insert] using h
  | cons d m ih =>
    obtain ⟨b, w⟩ := d
    unfold Memory.insert at h
    split at h
    · simpa using h
    · split at h
      · rcases List.mem_cons.mp h with rfl | h
        · exact .inl rfl
        · exact .inr (List.mem_cons_of_mem _ h)
      · rcases List.mem_cons.mp h with rfl | h
        · exact .inr List.mem_cons_self
        · exact (ih h).imp_right (List.mem_cons_of_mem _)

theorem Memory.insert_wf {m : Memory} (h : m.wf) {a : Nat} {v : Byte} (hv : Memory.unlisted a ≠ some v) :
    (m.insert a v).wf := by
  refine ⟨?_, fun c hc => ?_⟩
  · replace h := h.1
    induction m with
    | nil => simp [Memory.insert]
    | cons d m ih =>
      obtain ⟨b, w⟩ := d
      obtain ⟨h1, h2⟩ := List.pairwise_cons.mp h
      unfold Memory.insert
      split
      · rename_i hab
        refine List.pairwise_cons.mpr ⟨fun c hc => ?_, h⟩
        rcases List.mem_cons.mp hc with rfl | hc
        · exact hab
        · exact Nat.lt_trans hab (h1 c hc)
      · split
        · rename_i hab
          exact List.pairwise_cons.mpr ⟨fun c hc => hab ▸ h1 c hc, h2⟩
        · refine List.pairwise_cons.mpr ⟨fun c hc => ?_, ih h2⟩
          rcases Memory.mem_insert hc with rfl | hc
          · show b < a
            omega
          · exact h1 c hc
  · rcases Memory.mem_insert hc with rfl | hc
    · exact hv
    · exact h.2 c hc

theorem Memory.write_wf {m : Memory} (h : m.wf) (a : Nat) (v : Byte) : (m.write a v).wf := by
  unfold Memory.write
  split
  · exact Memory.clear_wf h _ _
  · exact Memory.insert_wf h ‹_›

theorem Memory.setHalf_wf {m : Memory} (h : m.wf) (a : Nat) (v : Half) : (m.setHalf a v).wf :=
  Memory.write_wf (Memory.write_wf h _ _) _ _

theorem Memory.setWord_wf {m : Memory} (h : m.wf) (a : Nat) (v : Word) : (m.setWord a v).wf :=
  Memory.setHalf_wf (Memory.setHalf_wf h _ _) _ _

theorem Memory.setEntry_wf {m : Memory} (h : m.wf) (f : RegFile) (i : Nat) (v : Word) : (m.setEntry f i v).wf := by
  unfold Memory.setEntry
  split
  · exact Memory.setWord_wf h _ _
  · exact Memory.setHalf_wf h _ _

theorem Memory.putHalves_wf {m : Memory} (h : m.wf) (f : RegFile) (i : Nat) (vs : List Half) : (m.putHalves f i vs).wf := by
  induction vs generalizing m i with
  | nil => exact h
  | cons v vs ih => exact ih (Memory.setHalf_wf h _ _) _

theorem Memory.putWords_wf {m : Memory} (h : m.wf) (f : RegFile) (i : Nat) (vs : List Word) : (m.putWords f i vs).wf := by
  induction vs generalizing m i with
  | nil => exact h
  | cons v vs ih => exact ih (Memory.setWord_wf h _ _) _

/-! ### Half words and words -/

theorem Memory.read_setHalf_of_ne (m : Memory) {a c : Nat} (v : Half) (h : c ≠ a) (h' : c ≠ a + 1) :
    (m.setHalf a v).read c = m.read c := by
  unfold Memory.setHalf
  rw [Memory.read_write_of_ne _ _ h', Memory.read_write_of_ne _ _ h]

@[simp] theorem Memory.half_setHalf_self (m : Memory) (a : Nat) (v : Half) : (m.setHalf a v).half a = some v := by
  unfold Memory.half Memory.setHalf
  rw [Memory.read_write_self, Memory.read_write_of_ne _ _ (by omega), Memory.read_write_self]
  simp only [Option.some.injEq]
  ext i hi
  simp only [BitVec.getElem_append, BitVec.getElem_setWidth, BitVec.getLsbD_ushiftRight]
  split
  · exact BitVec.getLsbD_eq_getElem hi
  · rw [show 8 + (i - 8) = i by omega]
    exact BitVec.getLsbD_eq_getElem hi

theorem Memory.half_setHalf_of_disjoint (m : Memory) {a c : Nat} (v : Half) (h : a + 2 ≤ c ∨ c + 2 ≤ a) :
    (m.setHalf a v).half c = m.half c := by
  unfold Memory.half
  rw [Memory.read_setHalf_of_ne _ _ (by omega) (by omega), Memory.read_setHalf_of_ne _ _ (by omega) (by omega)]

theorem Memory.read_setWord_of_lt (m : Memory) {a c : Nat} (v : Word) (h : c < a ∨ a + 4 ≤ c) :
    (m.setWord a v).read c = m.read c := by
  unfold Memory.setWord
  rw [Memory.read_setHalf_of_ne _ _ (by omega) (by omega), Memory.read_setHalf_of_ne _ _ (by omega) (by omega)]

@[simp] theorem Memory.word_setWord_self (m : Memory) (a : Nat) (v : Word) : (m.setWord a v).word a = some v := by
  unfold Memory.word Memory.setWord
  rw [Memory.half_setHalf_self, Memory.half_setHalf_of_disjoint _ _ (by omega), Memory.half_setHalf_self]
  simp only [Option.some.injEq]
  ext i hi
  simp only [BitVec.getElem_append, BitVec.getElem_setWidth, BitVec.getLsbD_ushiftRight]
  split
  · exact BitVec.getLsbD_eq_getElem hi
  · rw [show 16 + (i - 16) = i by omega]
    exact BitVec.getLsbD_eq_getElem hi

theorem Memory.half_setWord_of_disjoint (m : Memory) {a c : Nat} (v : Word) (h : a + 4 ≤ c ∨ c + 2 ≤ a) :
    (m.setWord a v).half c = m.half c := by
  unfold Memory.half
  rw [Memory.read_setWord_of_lt _ _ (by omega), Memory.read_setWord_of_lt _ _ (by omega)]

theorem Memory.word_setWord_of_disjoint (m : Memory) {a c : Nat} (v : Word) (h : a + 4 ≤ c ∨ c + 4 ≤ a) :
    (m.setWord a v).word c = m.word c := by
  unfold Memory.word
  rw [Memory.half_setWord_of_disjoint _ _ (by omega), Memory.half_setWord_of_disjoint _ _ (by omega)]

theorem Memory.word_setHalf_of_disjoint (m : Memory) {a c : Nat} (v : Half) (h : a + 2 ≤ c ∨ c + 4 ≤ a) :
    (m.setHalf a v).word c = m.word c := by
  unfold Memory.word
  rw [Memory.half_setHalf_of_disjoint _ _ (by omega), Memory.half_setHalf_of_disjoint _ _ (by omega)]

/-! ### Entries and runs -/

/-- Two entries whose indices lie inside a window are the same four bytes, or disjoint. -/
theorem entryAddr_disjoint {f g : RegFile} {i j : Nat} (hi : i < 65536) (hj : j < 65536) (h : f ≠ g ∨ i ≠ j) :
    entryAddr f i + 4 ≤ entryAddr g j ∨ entryAddr g j + 4 ≤ entryAddr f i := by
  unfold entryAddr
  cases f <;> cases g <;> simp only [RegFile.base, ne_eq, not_true_eq_false, false_or] at * <;> omega

theorem RegFile.cap_le (f : RegFile) : f.cap ≤ 65536 := by
  have := Config.nrootsMaxAbove32.isLt
  cases f <;> simp [RegFile.cap, Config.nrootsMax] <;> omega

/-- A run of 16-bit entries leaves every byte outside it alone. -/
theorem Memory.read_putHalves_outside (m : Memory) (f : RegFile) (i : Nat) (vs : List Half) {a : Nat}
    (h : ∀ k < vs.length, a ≠ entryAddr f (i + k) ∧ a ≠ entryAddr f (i + k) + 1) :
    (m.putHalves f i vs).read a = m.read a := by
  induction vs generalizing m i with
  | nil => rfl
  | cons v vs ih =>
    have h0 := h 0 (by simp)
    rw [show (m.putHalves f i (v :: vs)) = (m.setHalf (entryAddr f i) v).putHalves f (i + 1) vs from rfl, ih,
      Memory.read_setHalf_of_ne _ _ (by simpa using h0.1) (by simpa using h0.2)]
    intro k hk
    have := h (k + 1) (by simpa using hk)
    rwa [show i + (k + 1) = i + 1 + k by omega] at this

/-- A run of 32-bit entries leaves every byte outside it alone. -/
theorem Memory.read_putWords_outside (m : Memory) (f : RegFile) (i : Nat) (vs : List Word) {a : Nat}
    (h : ∀ k < vs.length, a < entryAddr f (i + k) ∨ entryAddr f (i + k) + 4 ≤ a) :
    (m.putWords f i vs).read a = m.read a := by
  induction vs generalizing m i with
  | nil => rfl
  | cons v vs ih =>
    have h0 := h 0 (by simp)
    rw [show (m.putWords f i (v :: vs)) = (m.setWord (entryAddr f i) v).putWords f (i + 1) vs from rfl, ih,
      Memory.read_setWord_of_lt _ _ (by simpa using h0)]
    intro k hk
    have := h (k + 1) (by simpa using hk)
    rwa [show i + (k + 1) = i + 1 + k by omega] at this

/-- Two memories that read alike at two bytes hold the same half word there. -/
theorem Memory.half_congr {m m' : Memory} {a : Nat} (h0 : m.read a = m'.read a) (h1 : m.read (a + 1) = m'.read (a + 1)) :
    m.half a = m'.half a := by
  unfold Memory.half
  rw [h0, h1]

/-- Two memories that read alike at four bytes hold the same word there. -/
theorem Memory.word_congr {m m' : Memory} {a : Nat} (h : ∀ k < 4, m.read (a + k) = m'.read (a + k)) :
    m.word a = m'.word a := by
  have h0 : m.half a = m'.half a := Memory.half_congr (h 0 (by omega)) (h 1 (by omega))
  have h2 : m.half (a + 2) = m'.half (a + 2) := Memory.half_congr (h 2 (by omega)) (h 3 (by omega))
  unfold Memory.word
  rw [h0, h2]

/-- A run of 16-bit entries reads back. -/
theorem Memory.half_putHalves_inside (m : Memory) (f : RegFile) (i : Nat) (vs : List Half) {k : Nat} (hk : k < vs.length)
    (hi : i + vs.length ≤ 65536) : (m.putHalves f i vs).half (entryAddr f (i + k)) = some vs[k] := by
  induction vs generalizing m i k with
  | nil => simp at hk
  | cons v vs ih =>
    rw [show (m.putHalves f i (v :: vs)) = (m.setHalf (entryAddr f i) v).putHalves f (i + 1) vs from rfl]
    simp only [List.length_cons] at hk hi
    cases k with
    | zero =>
      rw [show (v :: vs)[0] = v from rfl, ← Memory.half_setHalf_self m (entryAddr f i) v]
      refine Memory.half_congr ?_ ?_
      all_goals
        refine Memory.read_putHalves_outside _ _ _ _ fun k hk => ?_
        have := entryAddr_disjoint (f := f) (g := f) (i := i) (j := i + 1 + k) (by omega) (by omega) (by omega)
        simp only [Nat.add_zero]
        omega
    | succ k =>
      rw [List.getElem_cons_succ, show i + (k + 1) = i + 1 + k by omega]
      exact ih _ _ (by omega) (by omega)

/-- A run of 32-bit entries reads back. -/
theorem Memory.word_putWords_inside (m : Memory) (f : RegFile) (i : Nat) (vs : List Word) {k : Nat} (hk : k < vs.length)
    (hi : i + vs.length ≤ 65536) : (m.putWords f i vs).word (entryAddr f (i + k)) = some vs[k] := by
  induction vs generalizing m i k with
  | nil => simp at hk
  | cons v vs ih =>
    rw [show (m.putWords f i (v :: vs)) = (m.setWord (entryAddr f i) v).putWords f (i + 1) vs from rfl]
    simp only [List.length_cons] at hk hi
    cases k with
    | zero =>
      rw [show (v :: vs)[0] = v from rfl, ← Memory.word_setWord_self m (entryAddr f i) v]
      refine Memory.word_congr fun b hb => ?_
      refine Memory.read_putWords_outside _ _ _ _ fun k hk => ?_
      have := entryAddr_disjoint (f := f) (g := f) (i := i) (j := i + 1 + k) (by omega) (by omega) (by omega)
      rw [Nat.add_zero]
      omega
    | succ k =>
      rw [List.getElem_cons_succ, show i + (k + 1) = i + 1 + k by omega]
      exact ih _ _ (by omega) (by omega)

/-- A run of 16-bit entries leaves the entries outside it alone. -/
theorem Memory.half_putHalves_outside (m : Memory) {f g : RegFile} {i j : Nat} (vs : List Half)
    (hi : i + vs.length ≤ 65536) (hj : j < 65536) (h : f ≠ g ∨ j < i ∨ i + vs.length ≤ j) :
    (m.putHalves f i vs).half (entryAddr g j) = m.half (entryAddr g j) := by
  refine Memory.half_congr ?_ ?_
  all_goals
    refine Memory.read_putHalves_outside _ _ _ _ fun k hk => ?_
    have := entryAddr_disjoint (f := f) (g := g) (i := i + k) (j := j) (by omega) hj (h.imp_right (by omega))
    omega

/-- A run of 16-bit entries leaves the 32-bit entries outside it alone. -/
theorem Memory.word_putHalves_outside (m : Memory) {f g : RegFile} {i j : Nat} (vs : List Half)
    (hi : i + vs.length ≤ 65536) (hj : j < 65536) (h : f ≠ g ∨ j < i ∨ i + vs.length ≤ j) :
    (m.putHalves f i vs).word (entryAddr g j) = m.word (entryAddr g j) := by
  refine Memory.word_congr fun b hb => ?_
  refine Memory.read_putHalves_outside _ _ _ _ fun k hk => ?_
  have := entryAddr_disjoint (f := f) (g := g) (i := i + k) (j := j) (by omega) hj (h.imp_right (by omega))
  omega

/-- A run of 32-bit entries leaves the entries outside it alone. -/
theorem Memory.half_putWords_outside (m : Memory) {f g : RegFile} {i j : Nat} (vs : List Word)
    (hi : i + vs.length ≤ 65536) (hj : j < 65536) (h : f ≠ g ∨ j < i ∨ i + vs.length ≤ j) :
    (m.putWords f i vs).half (entryAddr g j) = m.half (entryAddr g j) := by
  refine Memory.half_congr ?_ ?_
  all_goals
    refine Memory.read_putWords_outside _ _ _ _ fun k hk => ?_
    have := entryAddr_disjoint (f := f) (g := g) (i := i + k) (j := j) (by omega) hj (h.imp_right (by omega))
    omega

/-- A run of 32-bit entries leaves the 32-bit entries outside it alone. -/
theorem Memory.word_putWords_outside (m : Memory) {f g : RegFile} {i j : Nat} (vs : List Word)
    (hi : i + vs.length ≤ 65536) (hj : j < 65536) (h : f ≠ g ∨ j < i ∨ i + vs.length ≤ j) :
    (m.putWords f i vs).word (entryAddr g j) = m.word (entryAddr g j) := by
  refine Memory.word_congr fun b hb => ?_
  refine Memory.read_putWords_outside _ _ _ _ fun k hk => ?_
  have := entryAddr_disjoint (f := f) (g := g) (i := i + k) (j := j) (by omega) hj (h.imp_right (by omega))
  omega

/-! ### The engine's reads -/

theorem Memory.getHalf_eq_ok {m : Memory} {f : RegFile} {i : Nat} {v : Half} :
    m.getHalf f i = .ok v ↔ m.half (entryAddr f i) = some v := by
  unfold Memory.getHalf
  split <;> simp_all

theorem Memory.getHalf_eq_error {m : Memory} {f : RegFile} {i : Nat} {e : Fault} :
    m.getHalf f i = .error e ↔ m.half (entryAddr f i) = none ∧ e = .unwrittenEntry f i := by
  unfold Memory.getHalf
  cases m.half (entryAddr f i) <;> simp [eq_comm]

@[simp] theorem Memory.entry_wide (m : Memory) {f : RegFile} (i : Nat) (h : f.wide = true) :
    m.entry f i = m.word (entryAddr f i) := by simp [Memory.entry, h]

@[simp] theorem Memory.entry_narrow (m : Memory) {f : RegFile} (i : Nat) (h : f.wide = false) :
    m.entry f i = (m.half (entryAddr f i)).map (·.setWidth 32) := by simp [Memory.entry, h]

theorem Memory.getWord_eq_ok {m : Memory} {f : RegFile} {i : Nat} {v : Word} :
    m.getWord f i = .ok v ↔ m.entry f i = some v := by
  unfold Memory.getWord
  split <;> simp_all

theorem Memory.getWord_eq_error {m : Memory} {f : RegFile} {i : Nat} {e : Fault} :
    m.getWord f i = .error e ↔ m.entry f i = none ∧ e = .unwrittenEntry f i := by
  unfold Memory.getWord
  cases m.entry f i <;> simp [eq_comm]

/-! ### The loop forms -/

/-- `mapE` answers exactly when every turn does, with the answers in order. -/
theorem mapE_eq_ok {α β : Type} {f : α → Except Fault β} {l : List α} {r : List β} :
    mapE f l = .ok r ↔ List.Forall₂ (fun a b => f a = .ok b) l r := by
  induction l generalizing r with
  | nil => cases r <;> simp [mapE]
  | cons a l ih =>
    unfold mapE
    cases hf : f a with
    | error e => cases r <;> simp [hf]
    | ok b =>
      cases hm : mapE f l with
      | error e =>
        cases r with
        | nil => simp
        | cons c r =>
          simp only [reduceCtorEq, List.forall₂_cons, hf, false_iff, not_and]
          intro _ hr
          simp [ih.mpr hr] at hm
      | ok bs =>
        cases r with
        | nil => simp
        | cons c r =>
          have := ih (r := r)
          simp only [hm, Except.ok.injEq] at this
          simp [List.forall₂_cons, hf, this]

theorem mapE_length {α β : Type} {f : α → Except Fault β} {l : List α} {r : List β} (h : mapE f l = .ok r) :
    r.length = l.length := (mapE_eq_ok.mp h).length_eq.symm

/-- `mapE` stops at a fault only if some turn does. -/
theorem mapE_eq_error {α β : Type} {f : α → Except Fault β} {l : List α} {e : Fault} (h : mapE f l = .error e) :
    ∃ a ∈ l, f a = .error e := by
  induction l with
  | nil => simp [mapE] at h
  | cons a l ih =>
    unfold mapE at h
    split at h
    · rename_i e' he
      exact ⟨a, List.mem_cons_self, by rw [he]; exact congrArg _ (Except.error.inj h)⟩
    · split at h
      · rename_i e' he
        obtain ⟨x, hx, hxe⟩ := ih (he.trans (congrArg _ (Except.error.inj h)))
        exact ⟨x, List.mem_cons_of_mem _ hx, hxe⟩
      · simp at h

/-- A turn that always answers makes `mapE` a `map`. -/
theorem mapE_ok {α β : Type} {f : α → Except Fault β} {g : α → β} {l : List α} (h : ∀ a ∈ l, f a = .ok (g a)) :
    mapE f l = .ok (l.map g) := by
  rw [mapE_eq_ok]
  induction l with
  | nil => simp
  | cons a l ih => simp_all

/-- An invariant that every turn of `foldE` keeps holds of its answer. -/
theorem foldE_invariant {α σ : Type} {f : σ → α → Except Fault σ} (P : σ → Prop) {l : List α} {x y : σ}
    (h : foldE f x l = .ok y) (hx : P x) (step : ∀ x a y, a ∈ l → P x → f x a = .ok y → P y) : P y := by
  induction l generalizing x with
  | nil =>
    simp only [foldE, Except.ok.injEq] at h
    exact h ▸ hx
  | cons a l ih =>
    unfold foldE at h
    split at h
    · simp at h
    · rename_i z hz
      exact ih h (step x a z List.mem_cons_self hx hz) fun x b y hb => step x b y (List.mem_cons_of_mem _ hb)

/-- `foldE` answers, with the invariant, when every turn keeps the invariant and answers. -/
theorem foldE_answers {α σ : Type} {f : σ → α → Except Fault σ} (P : σ → Prop) {l : List α} {x : σ} (hx : P x)
    (step : ∀ x a, a ∈ l → P x → ∃ y, f x a = .ok y ∧ P y) : ∃ y, foldE f x l = .ok y ∧ P y := by
  induction l generalizing x with
  | nil => exact ⟨x, rfl, hx⟩
  | cons a l ih =>
    obtain ⟨z, hz, hPz⟩ := step x a List.mem_cons_self hx
    obtain ⟨y, hy, hPy⟩ := ih hPz fun x b hb => step x b (List.mem_cons_of_mem _ hb)
    exact ⟨y, by simp [foldE, hz, hy], hPy⟩

/-- The entries a run of reads answers with. -/
theorem Memory.getHalves_eq_ok {m : Memory} {f : RegFile} {k : Nat} {r : List Half} :
    m.getHalves f k = .ok r ↔ r.length = k ∧ ∀ i < k, m.half (entryAddr f i) = r[i]? := by
  unfold Memory.getHalves
  rw [mapE_eq_ok, List.forall₂_iff_get]
  simp only [List.length_range, Memory.getHalf_eq_ok, List.get_eq_getElem, List.getElem_range]
  constructor
  · rintro ⟨h, h'⟩
    refine ⟨h.symm, fun i hi => ?_⟩
    rw [List.getElem?_eq_getElem (h ▸ hi)]
    exact h' i hi (h ▸ hi)
  · rintro ⟨h, h'⟩
    refine ⟨h.symm, fun i hi hr => ?_⟩
    rw [h' i hi, List.getElem?_eq_getElem hr]

/-- The words a run of reads answers with. -/
theorem Memory.getWords_eq_ok {m : Memory} {f : RegFile} {k : Nat} {r : List Word} :
    m.getWords f k = .ok r ↔ r.length = k ∧ ∀ i < k, m.entry f i = r[i]? := by
  unfold Memory.getWords
  rw [mapE_eq_ok, List.forall₂_iff_get]
  simp only [List.length_range, Memory.getWord_eq_ok, List.get_eq_getElem, List.getElem_range]
  constructor
  · rintro ⟨h, h'⟩
    refine ⟨h.symm, fun i hi => ?_⟩
    rw [List.getElem?_eq_getElem (h ▸ hi)]
    exact h' i hi (h ▸ hi)
  · rintro ⟨h, h'⟩
    refine ⟨h.symm, fun i hi hr => ?_⟩
    rw [h' i hi, List.getElem?_eq_getElem hr]

end Sys2Proof.Machine
end

