-- ==== Sys2Proof/Laws/Field.lean ====
section
/-! SUPPORT. The index reducer, the table lookups, and the sums by XOR. -/

namespace Sys2Proof.Machine

/-! ### The reducer -/

theorem GField.modn_toNat (F : GField) (x : Nat) (h : 0 < F.n.toNat) : (F.modn x).toNat = x % F.n.toNat := by
  have h1 : x % F.n.toNat < F.n.toNat := Nat.mod_lt _ h
  have h2 := F.n.isLt
  simp only [GField.modn, BitVec.toNat_ofNat]
  exact Nat.mod_eq_of_lt (by omega)

theorem GField.modn_lt (F : GField) (x : Nat) (h : 0 < F.n.toNat) : (F.modn x).toNat < F.n.toNat := by
  rw [F.modn_toNat x h]
  exact Nat.mod_lt _ h

theorem GField.modn_ne_sentinel (F : GField) (x : Nat) (h : 0 < F.n.toNat) : F.modn x ≠ F.n := by
  intro e
  have := F.modn_lt x h
  rw [e] at this
  omega

theorem GField.modn_of_lt (F : GField) {i : Half} (h : i.toNat < F.n.toNat) : F.modn i.toNat = i := by
  apply BitVec.eq_of_toNat_eq
  rw [F.modn_toNat _ (by omega), Nat.mod_eq_of_lt h]

theorem GField.modn_congr (F : GField) {x y : Nat} (h : x % F.n.toNat = y % F.n.toNat) : F.modn x = F.modn y := by
  simp [GField.modn, h]

theorem GField.pow_congr (F : GField) {x y : Nat} (h : x % F.n.toNat = y % F.n.toNat) : F.pow x = F.pow y := by
  simp [GField.pow, F.modn_congr h]

theorem GField.modnInt_of_nonneg (F : GField) {x : Int} (h : 0 ≤ x) : F.modnInt x = .ok (F.modn x.toNat) := by
  simp [GField.modnInt, Int.not_lt.mpr h]

/-- `modn` of a difference stops only at a negative argument. -/
theorem GField.modnInt_error (F : GField) {x : Int} {e : Fault} (h : F.modnInt x = .error e) :
    x < 0 ∧ e = .negativeModn := by
  unfold GField.modnInt at h
  split at h
  · exact ⟨‹_›, by simpa using h.symm⟩
  · simp at h

/-! ### The tables -/

namespace GField.Tables

variable {F : GField} {m poly : Nat}

theorem n_pos (T : F.Tables m poly) (hm : 2 ≤ m) : 2 < F.n.toNat := by
  have := T.n_eq
  have : 2 ^ 2 ≤ 2 ^ m := Nat.pow_le_pow_right (by omega) hm
  omega

theorem alpha_le (T : F.Tables m poly) (i : Half) : (F.alpha i).toNat ≤ F.n.toNat := by
  rcases lt_trichotomy i.toNat F.n.toNat with h | h | h
  · exact (T.alpha_range i h).2
  · rw [BitVec.eq_of_toNat_eq h, T.alpha_a0]
    simp
  · rw [(T.above i h).1]
    simp

theorem log_le (T : F.Tables m poly) (x : Half) : (F.log x).toNat ≤ F.n.toNat := by
  by_cases h0 : x = 0
  · rw [h0, T.log_zero]
  · by_cases h : x.toNat ≤ F.n.toNat
    · exact (T.log_range x h0 h).le
    · rw [(T.above x (by omega)).2]
      simp

theorem pow_ne_zero (T : F.Tables m poly) (hm : 2 ≤ m) (x : Nat) : F.pow x ≠ 0 := by
  have := T.n_pos hm
  exact (T.alpha_range _ (F.modn_lt x (by omega))).1

theorem pow_le (T : F.Tables m poly) (x : Nat) : (F.pow x).toNat ≤ F.n.toNat := T.alpha_le _

/-- An element's logarithm is the sentinel only for 0. -/
theorem log_eq_sentinel (T : F.Tables m poly) {x : Half} (h : x.toNat ≤ F.n.toNat) : F.log x = F.n ↔ x = 0 := by
  constructor
  · intro e
    by_contra h0
    have := T.log_range x h0 h
    rw [e] at this
    omega
  · rintro rfl
    exact T.log_zero

theorem log_one (T : F.Tables m poly) (hm : 2 ≤ m) : F.log 1 = 0 := by
  have hn := T.n_pos hm
  have h1 : F.alpha 0 = 1 := by
    apply BitVec.eq_of_toNat_eq
    rw [T.alpha_iter 0 (by simpa using by omega)]
    rfl
  rw [← h1]
  exact T.log_alpha 0 (by simpa using by omega)

end GField.Tables

/-! ### Sums by XOR -/

theorem foldl_xor (l : List Half) (x : Half) : l.foldl (· ^^^ ·) x = x ^^^ xorSum l := by
  induction l generalizing x with
  | nil => simp [xorSum]
  | cons a l ih =>
    simp only [xorSum, List.foldl_cons] at ih ⊢
    rw [ih, ih (0 ^^^ a)]
    simp [BitVec.xor_assoc]

@[simp] theorem xorSum_nil : xorSum [] = 0 := rfl

@[simp] theorem xorSum_cons (a : Half) (l : List Half) : xorSum (a :: l) = a ^^^ xorSum l := by
  simp only [xorSum, List.foldl_cons]
  rw [foldl_xor]
  simp [xorSum]

@[simp] theorem xorSum_append (l r : List Half) : xorSum (l ++ r) = xorSum l ^^^ xorSum r := by
  induction l with
  | nil => simp
  | cons a l ih => simp [ih, BitVec.xor_assoc]

/-- The elements `[0, 2^m − 1]` are closed under XOR. -/
theorem xor_lt_two_pow {a b : Half} {m : Nat} (ha : a.toNat < 2 ^ m) (hb : b.toNat < 2 ^ m) : (a ^^^ b).toNat < 2 ^ m := by
  rw [BitVec.toNat_xor]
  exact Nat.xor_lt_two_pow ha hb

theorem xorSum_lt_two_pow {l : List Half} {m : Nat} (h : ∀ a ∈ l, a.toNat < 2 ^ m) : (xorSum l).toNat < 2 ^ m := by
  induction l with
  | nil => simp
  | cons a l ih =>
    rw [xorSum_cons]
    exact xor_lt_two_pow (h a List.mem_cons_self) (ih fun b hb => h b (List.mem_cons_of_mem _ hb))

/-! ### Lists by index -/

@[simp] theorem nth_nil (i : Nat) : nth [] i = 0 := rfl
@[simp] theorem nth_cons_zero (a : Half) (l : List Half) : nth (a :: l) 0 = a := rfl
@[simp] theorem nth_cons_succ (a : Half) (l : List Half) (i : Nat) : nth (a :: l) (i + 1) = nth l i := rfl

theorem nth_of_lt {l : List Half} {i : Nat} (h : i < l.length) : nth l i = l[i] := by
  simp [nth, List.getD, List.getElem?_eq_getElem h]

/-- A list made index by index. -/
theorem nth_map_range {f : Nat → Half} {k i : Nat} (h : i < k) : nth ((List.range k).map f) i = f i := by
  simp [nth, List.getD, h]

@[simp] theorem chienAdvance_length (F : GField) (deg : Nat) (reg : List Half) :
    (chienAdvance F deg reg).length = reg.length := by simp [chienAdvance]

@[simp] theorem locatorStep_length (F : GField) (lam : List Half) (k : Nat) (u : Half) :
    (locatorStep F lam k u).length = lam.length := by simp [locatorStep]

@[simp] theorem genpolyStep_length (F : GField) (fcr prim : Nat) (g : List Half) (i : Nat) :
    (genpolyStep F fcr prim g i).length = g.length := by simp [genpolyStep]

theorem encodeStep_length (F : GField) (g par : List Half) (c : Half) (h : 1 ≤ par.length) :
    (encodeStep F g par c).length = par.length := by
  simp [encodeStep]
  omega

@[simp] theorem bmT_length (F : GField) (v : BmVars) (delta : Half) : (bmT F v delta).length = v.lam.length := by
  simp [bmT]

theorem shiftB_length (F : GField) (b : List Half) (h : 1 ≤ b.length) : (shiftB F b).length = b.length := by
  simp [shiftB]
  omega

end Sys2Proof.Machine
end

