-- ==== Sys2Proof/Laws/State.lean ====
section
/-! SUPPORT. What each named update of the state leaves in each field: one lemma per field per update. -/

namespace Sys2Proof.Machine

/-! `State.setMem` -/

@[simp] theorem State.setMem_staging (s : State) (m : Memory) : (s.setMem m).staging = s.staging := rfl
@[simp] theorem State.setMem_active (s : State) (m : Memory) : (s.setMem m).active = s.active := rfl
@[simp] theorem State.setMem_status (s : State) (m : Memory) : (s.setMem m).status = s.status := rfl
@[simp] theorem State.setMem_irqEn (s : State) (m : Memory) : (s.setMem m).irqEn = s.irqEn := rfl
@[simp] theorem State.setMem_cmd (s : State) (m : Memory) : (s.setMem m).cmd = s.cmd := rfl
@[simp] theorem State.setMem_len (s : State) (m : Memory) : (s.setMem m).len = s.len := rfl
@[simp] theorem State.setMem_noEras (s : State) (m : Memory) : (s.setMem m).noEras = s.noEras := rfl
@[simp] theorem State.setMem_invmask (s : State) (m : Memory) : (s.setMem m).invmask = s.invmask := rfl
@[simp] theorem State.setMem_opa (s : State) (m : Memory) : (s.setMem m).opa = s.opa := rfl
@[simp] theorem State.setMem_opb (s : State) (m : Memory) : (s.setMem m).opb = s.opb := rfl
@[simp] theorem State.setMem_res (s : State) (m : Memory) : (s.setMem m).res = s.res := rfl
@[simp] theorem State.setMem_result (s : State) (m : Memory) : (s.setMem m).result = s.result := rfl
@[simp] theorem State.setMem_latches (s : State) (m : Memory) : (s.setMem m).latches = s.latches := rfl
@[simp] theorem State.setMem_scalars (s : State) (m : Memory) : (s.setMem m).scalars = s.scalars := rfl
@[simp] theorem State.setMem_mem (s : State) (m : Memory) : (s.setMem m).mem = m := rfl
@[simp] theorem State.setMem_pending (s : State) (m : Memory) : (s.setMem m).pending = s.pending := rfl
@[simp] theorem State.setMem_rdata (s : State) (m : Memory) : (s.setMem m).rdata = s.rdata := rfl
@[simp] theorem State.setMem_slack (s : State) (m : Memory) : (s.setMem m).slack = s.slack := rfl
@[simp] theorem State.setMem_draws (s : State) (m : Memory) : (s.setMem m).draws = s.draws := rfl

/-! `State.setStage` -/

@[simp] theorem State.setStage_staging (s : State) (d : DStage) : (s.setStage d).staging = s.staging := rfl
@[simp] theorem State.setStage_active (s : State) (d : DStage) : (s.setStage d).active = s.active := rfl
@[simp] theorem State.setStage_status (s : State) (d : DStage) : (s.setStage d).status = { s.status with dstage := d } := rfl
@[simp] theorem State.setStage_irqEn (s : State) (d : DStage) : (s.setStage d).irqEn = s.irqEn := rfl
@[simp] theorem State.setStage_cmd (s : State) (d : DStage) : (s.setStage d).cmd = s.cmd := rfl
@[simp] theorem State.setStage_len (s : State) (d : DStage) : (s.setStage d).len = s.len := rfl
@[simp] theorem State.setStage_noEras (s : State) (d : DStage) : (s.setStage d).noEras = s.noEras := rfl
@[simp] theorem State.setStage_invmask (s : State) (d : DStage) : (s.setStage d).invmask = s.invmask := rfl
@[simp] theorem State.setStage_opa (s : State) (d : DStage) : (s.setStage d).opa = s.opa := rfl
@[simp] theorem State.setStage_opb (s : State) (d : DStage) : (s.setStage d).opb = s.opb := rfl
@[simp] theorem State.setStage_res (s : State) (d : DStage) : (s.setStage d).res = s.res := rfl
@[simp] theorem State.setStage_result (s : State) (d : DStage) : (s.setStage d).result = s.result := rfl
@[simp] theorem State.setStage_latches (s : State) (d : DStage) : (s.setStage d).latches = s.latches := rfl
@[simp] theorem State.setStage_scalars (s : State) (d : DStage) : (s.setStage d).scalars = s.scalars := rfl
@[simp] theorem State.setStage_mem (s : State) (d : DStage) : (s.setStage d).mem = s.mem := rfl
@[simp] theorem State.setStage_pending (s : State) (d : DStage) : (s.setStage d).pending = s.pending := rfl
@[simp] theorem State.setStage_rdata (s : State) (d : DStage) : (s.setStage d).rdata = s.rdata := rfl
@[simp] theorem State.setStage_slack (s : State) (d : DStage) : (s.setStage d).slack = s.slack := rfl
@[simp] theorem State.setStage_draws (s : State) (d : DStage) : (s.setStage d).draws = s.draws := rfl

/-! `State.setResult` -/

@[simp] theorem State.setResult_staging (s : State) (r : Word) : (s.setResult r).staging = s.staging := rfl
@[simp] theorem State.setResult_active (s : State) (r : Word) : (s.setResult r).active = s.active := rfl
@[simp] theorem State.setResult_status (s : State) (r : Word) : (s.setResult r).status = s.status := rfl
@[simp] theorem State.setResult_irqEn (s : State) (r : Word) : (s.setResult r).irqEn = s.irqEn := rfl
@[simp] theorem State.setResult_cmd (s : State) (r : Word) : (s.setResult r).cmd = s.cmd := rfl
@[simp] theorem State.setResult_len (s : State) (r : Word) : (s.setResult r).len = s.len := rfl
@[simp] theorem State.setResult_noEras (s : State) (r : Word) : (s.setResult r).noEras = s.noEras := rfl
@[simp] theorem State.setResult_invmask (s : State) (r : Word) : (s.setResult r).invmask = s.invmask := rfl
@[simp] theorem State.setResult_opa (s : State) (r : Word) : (s.setResult r).opa = s.opa := rfl
@[simp] theorem State.setResult_opb (s : State) (r : Word) : (s.setResult r).opb = s.opb := rfl
@[simp] theorem State.setResult_res (s : State) (r : Word) : (s.setResult r).res = s.res := rfl
@[simp] theorem State.setResult_result (s : State) (r : Word) : (s.setResult r).result = r := rfl
@[simp] theorem State.setResult_latches (s : State) (r : Word) : (s.setResult r).latches = s.latches := rfl
@[simp] theorem State.setResult_scalars (s : State) (r : Word) : (s.setResult r).scalars = s.scalars := rfl
@[simp] theorem State.setResult_mem (s : State) (r : Word) : (s.setResult r).mem = s.mem := rfl
@[simp] theorem State.setResult_pending (s : State) (r : Word) : (s.setResult r).pending = s.pending := rfl
@[simp] theorem State.setResult_rdata (s : State) (r : Word) : (s.setResult r).rdata = s.rdata := rfl
@[simp] theorem State.setResult_slack (s : State) (r : Word) : (s.setResult r).slack = s.slack := rfl
@[simp] theorem State.setResult_draws (s : State) (r : Word) : (s.setResult r).draws = s.draws := rfl

/-! `State.setRes` -/

@[simp] theorem State.setRes_staging (s : State) (r : Word) : (s.setRes r).staging = s.staging := rfl
@[simp] theorem State.setRes_active (s : State) (r : Word) : (s.setRes r).active = s.active := rfl
@[simp] theorem State.setRes_status (s : State) (r : Word) : (s.setRes r).status = s.status := rfl
@[simp] theorem State.setRes_irqEn (s : State) (r : Word) : (s.setRes r).irqEn = s.irqEn := rfl
@[simp] theorem State.setRes_cmd (s : State) (r : Word) : (s.setRes r).cmd = s.cmd := rfl
@[simp] theorem State.setRes_len (s : State) (r : Word) : (s.setRes r).len = s.len := rfl
@[simp] theorem State.setRes_noEras (s : State) (r : Word) : (s.setRes r).noEras = s.noEras := rfl
@[simp] theorem State.setRes_invmask (s : State) (r : Word) : (s.setRes r).invmask = s.invmask := rfl
@[simp] theorem State.setRes_opa (s : State) (r : Word) : (s.setRes r).opa = s.opa := rfl
@[simp] theorem State.setRes_opb (s : State) (r : Word) : (s.setRes r).opb = s.opb := rfl
@[simp] theorem State.setRes_res (s : State) (r : Word) : (s.setRes r).res = r := rfl
@[simp] theorem State.setRes_result (s : State) (r : Word) : (s.setRes r).result = s.result := rfl
@[simp] theorem State.setRes_latches (s : State) (r : Word) : (s.setRes r).latches = s.latches := rfl
@[simp] theorem State.setRes_scalars (s : State) (r : Word) : (s.setRes r).scalars = s.scalars := rfl
@[simp] theorem State.setRes_mem (s : State) (r : Word) : (s.setRes r).mem = s.mem := rfl
@[simp] theorem State.setRes_pending (s : State) (r : Word) : (s.setRes r).pending = s.pending := rfl
@[simp] theorem State.setRes_rdata (s : State) (r : Word) : (s.setRes r).rdata = s.rdata := rfl
@[simp] theorem State.setRes_slack (s : State) (r : Word) : (s.setRes r).slack = s.slack := rfl
@[simp] theorem State.setRes_draws (s : State) (r : Word) : (s.setRes r).draws = s.draws := rfl

/-! `State.setLatches` -/

@[simp] theorem State.setLatches_staging (s : State) (l : Latches) : (s.setLatches l).staging = s.staging := rfl
@[simp] theorem State.setLatches_active (s : State) (l : Latches) : (s.setLatches l).active = s.active := rfl
@[simp] theorem State.setLatches_status (s : State) (l : Latches) : (s.setLatches l).status = s.status := rfl
@[simp] theorem State.setLatches_irqEn (s : State) (l : Latches) : (s.setLatches l).irqEn = s.irqEn := rfl
@[simp] theorem State.setLatches_cmd (s : State) (l : Latches) : (s.setLatches l).cmd = s.cmd := rfl
@[simp] theorem State.setLatches_len (s : State) (l : Latches) : (s.setLatches l).len = s.len := rfl
@[simp] theorem State.setLatches_noEras (s : State) (l : Latches) : (s.setLatches l).noEras = s.noEras := rfl
@[simp] theorem State.setLatches_invmask (s : State) (l : Latches) : (s.setLatches l).invmask = s.invmask := rfl
@[simp] theorem State.setLatches_opa (s : State) (l : Latches) : (s.setLatches l).opa = s.opa := rfl
@[simp] theorem State.setLatches_opb (s : State) (l : Latches) : (s.setLatches l).opb = s.opb := rfl
@[simp] theorem State.setLatches_res (s : State) (l : Latches) : (s.setLatches l).res = s.res := rfl
@[simp] theorem State.setLatches_result (s : State) (l : Latches) : (s.setLatches l).result = s.result := rfl
@[simp] theorem State.setLatches_latches (s : State) (l : Latches) : (s.setLatches l).latches = l := rfl
@[simp] theorem State.setLatches_scalars (s : State) (l : Latches) : (s.setLatches l).scalars = s.scalars := rfl
@[simp] theorem State.setLatches_mem (s : State) (l : Latches) : (s.setLatches l).mem = s.mem := rfl
@[simp] theorem State.setLatches_pending (s : State) (l : Latches) : (s.setLatches l).pending = s.pending := rfl
@[simp] theorem State.setLatches_rdata (s : State) (l : Latches) : (s.setLatches l).rdata = s.rdata := rfl
@[simp] theorem State.setLatches_slack (s : State) (l : Latches) : (s.setLatches l).slack = s.slack := rfl
@[simp] theorem State.setLatches_draws (s : State) (l : Latches) : (s.setLatches l).draws = s.draws := rfl

/-! `State.setScalars` -/

@[simp] theorem State.setScalars_staging (s : State) (c : Scalars) : (s.setScalars c).staging = s.staging := rfl
@[simp] theorem State.setScalars_active (s : State) (c : Scalars) : (s.setScalars c).active = s.active := rfl
@[simp] theorem State.setScalars_status (s : State) (c : Scalars) : (s.setScalars c).status = s.status := rfl
@[simp] theorem State.setScalars_irqEn (s : State) (c : Scalars) : (s.setScalars c).irqEn = s.irqEn := rfl
@[simp] theorem State.setScalars_cmd (s : State) (c : Scalars) : (s.setScalars c).cmd = s.cmd := rfl
@[simp] theorem State.setScalars_len (s : State) (c : Scalars) : (s.setScalars c).len = s.len := rfl
@[simp] theorem State.setScalars_noEras (s : State) (c : Scalars) : (s.setScalars c).noEras = s.noEras := rfl
@[simp] theorem State.setScalars_invmask (s : State) (c : Scalars) : (s.setScalars c).invmask = s.invmask := rfl
@[simp] theorem State.setScalars_opa (s : State) (c : Scalars) : (s.setScalars c).opa = s.opa := rfl
@[simp] theorem State.setScalars_opb (s : State) (c : Scalars) : (s.setScalars c).opb = s.opb := rfl
@[simp] theorem State.setScalars_res (s : State) (c : Scalars) : (s.setScalars c).res = s.res := rfl
@[simp] theorem State.setScalars_result (s : State) (c : Scalars) : (s.setScalars c).result = s.result := rfl
@[simp] theorem State.setScalars_latches (s : State) (c : Scalars) : (s.setScalars c).latches = s.latches := rfl
@[simp] theorem State.setScalars_scalars (s : State) (c : Scalars) : (s.setScalars c).scalars = c := rfl
@[simp] theorem State.setScalars_mem (s : State) (c : Scalars) : (s.setScalars c).mem = s.mem := rfl
@[simp] theorem State.setScalars_pending (s : State) (c : Scalars) : (s.setScalars c).pending = s.pending := rfl
@[simp] theorem State.setScalars_rdata (s : State) (c : Scalars) : (s.setScalars c).rdata = s.rdata := rfl
@[simp] theorem State.setScalars_slack (s : State) (c : Scalars) : (s.setScalars c).slack = s.slack := rfl
@[simp] theorem State.setScalars_draws (s : State) (c : Scalars) : (s.setScalars c).draws = s.draws := rfl

/-! `State.setActive` -/

@[simp] theorem State.setActive_staging (s : State) (a : Active) : (s.setActive a).staging = s.staging := rfl
@[simp] theorem State.setActive_active (s : State) (a : Active) : (s.setActive a).active = a := rfl
@[simp] theorem State.setActive_status (s : State) (a : Active) : (s.setActive a).status = { s.status with cfgValid := true } := rfl
@[simp] theorem State.setActive_irqEn (s : State) (a : Active) : (s.setActive a).irqEn = s.irqEn := rfl
@[simp] theorem State.setActive_cmd (s : State) (a : Active) : (s.setActive a).cmd = s.cmd := rfl
@[simp] theorem State.setActive_len (s : State) (a : Active) : (s.setActive a).len = s.len := rfl
@[simp] theorem State.setActive_noEras (s : State) (a : Active) : (s.setActive a).noEras = s.noEras := rfl
@[simp] theorem State.setActive_invmask (s : State) (a : Active) : (s.setActive a).invmask = s.invmask := rfl
@[simp] theorem State.setActive_opa (s : State) (a : Active) : (s.setActive a).opa = s.opa := rfl
@[simp] theorem State.setActive_opb (s : State) (a : Active) : (s.setActive a).opb = s.opb := rfl
@[simp] theorem State.setActive_res (s : State) (a : Active) : (s.setActive a).res = s.res := rfl
@[simp] theorem State.setActive_result (s : State) (a : Active) : (s.setActive a).result = s.result := rfl
@[simp] theorem State.setActive_latches (s : State) (a : Active) : (s.setActive a).latches = s.latches := rfl
@[simp] theorem State.setActive_scalars (s : State) (a : Active) : (s.setActive a).scalars = s.scalars := rfl
@[simp] theorem State.setActive_mem (s : State) (a : Active) : (s.setActive a).mem = s.mem := rfl
@[simp] theorem State.setActive_pending (s : State) (a : Active) : (s.setActive a).pending = s.pending := rfl
@[simp] theorem State.setActive_rdata (s : State) (a : Active) : (s.setActive a).rdata = s.rdata := rfl
@[simp] theorem State.setActive_slack (s : State) (a : Active) : (s.setActive a).slack = s.slack := rfl
@[simp] theorem State.setActive_draws (s : State) (a : Active) : (s.setActive a).draws = s.draws := rfl

/-! `State.issue` -/

@[simp] theorem State.issue_staging (s : State) (w : Word) : (s.issue w).staging = s.staging := rfl
@[simp] theorem State.issue_active (s : State) (w : Word) : (s.issue w).active = s.active := rfl
@[simp] theorem State.issue_status (s : State) (w : Word) : (s.issue w).status = { s.status with busy := true } := rfl
@[simp] theorem State.issue_irqEn (s : State) (w : Word) : (s.issue w).irqEn = s.irqEn := rfl
@[simp] theorem State.issue_cmd (s : State) (w : Word) : (s.issue w).cmd = w := rfl
@[simp] theorem State.issue_len (s : State) (w : Word) : (s.issue w).len = s.len := rfl
@[simp] theorem State.issue_noEras (s : State) (w : Word) : (s.issue w).noEras = s.noEras := rfl
@[simp] theorem State.issue_invmask (s : State) (w : Word) : (s.issue w).invmask = s.invmask := rfl
@[simp] theorem State.issue_opa (s : State) (w : Word) : (s.issue w).opa = s.opa := rfl
@[simp] theorem State.issue_opb (s : State) (w : Word) : (s.issue w).opb = s.opb := rfl
@[simp] theorem State.issue_res (s : State) (w : Word) : (s.issue w).res = s.res := rfl
@[simp] theorem State.issue_result (s : State) (w : Word) : (s.issue w).result = s.result := rfl
@[simp] theorem State.issue_latches (s : State) (w : Word) : (s.issue w).latches = s.latches := rfl
@[simp] theorem State.issue_scalars (s : State) (w : Word) : (s.issue w).scalars = s.scalars := rfl
@[simp] theorem State.issue_mem (s : State) (w : Word) : (s.issue w).mem = s.mem := rfl
@[simp] theorem State.issue_pending (s : State) (w : Word) : (s.issue w).pending = s.pending := rfl
@[simp] theorem State.issue_rdata (s : State) (w : Word) : (s.issue w).rdata = s.rdata := rfl
@[simp] theorem State.issue_slack (s : State) (w : Word) : (s.issue w).slack = Config.busySteps s.draws := rfl
@[simp] theorem State.issue_draws (s : State) (w : Word) : (s.issue w).draws = s.draws + 1 := rfl

/-! `complete` -/

@[simp] theorem complete_staging (c : ErrCode) (s : State) : (complete c s).staging = s.staging := rfl
@[simp] theorem complete_active (c : ErrCode) (s : State) : (complete c s).active = s.active := rfl
@[simp] theorem complete_status (c : ErrCode) (s : State) : (complete c s).status = { s.status with errcode := c, err := s.status.err || c != .noError, done := true, busy := false } := rfl
@[simp] theorem complete_irqEn (c : ErrCode) (s : State) : (complete c s).irqEn = s.irqEn := rfl
@[simp] theorem complete_cmd (c : ErrCode) (s : State) : (complete c s).cmd = s.cmd := rfl
@[simp] theorem complete_len (c : ErrCode) (s : State) : (complete c s).len = s.len := rfl
@[simp] theorem complete_noEras (c : ErrCode) (s : State) : (complete c s).noEras = s.noEras := rfl
@[simp] theorem complete_invmask (c : ErrCode) (s : State) : (complete c s).invmask = s.invmask := rfl
@[simp] theorem complete_opa (c : ErrCode) (s : State) : (complete c s).opa = s.opa := rfl
@[simp] theorem complete_opb (c : ErrCode) (s : State) : (complete c s).opb = s.opb := rfl
@[simp] theorem complete_res (c : ErrCode) (s : State) : (complete c s).res = s.res := rfl
@[simp] theorem complete_result (c : ErrCode) (s : State) : (complete c s).result = s.result := rfl
@[simp] theorem complete_latches (c : ErrCode) (s : State) : (complete c s).latches = s.latches := rfl
@[simp] theorem complete_scalars (c : ErrCode) (s : State) : (complete c s).scalars = s.scalars := rfl
@[simp] theorem complete_mem (c : ErrCode) (s : State) : (complete c s).mem = s.mem := rfl
@[simp] theorem complete_pending (c : ErrCode) (s : State) : (complete c s).pending = s.pending := rfl
@[simp] theorem complete_rdata (c : ErrCode) (s : State) : (complete c s).rdata = s.rdata := rfl
@[simp] theorem complete_slack (c : ErrCode) (s : State) : (complete c s).slack = s.slack := rfl
@[simp] theorem complete_draws (c : ErrCode) (s : State) : (complete c s).draws = s.draws := rfl

/-! `State.dropWrite` -/

@[simp] theorem State.dropWrite_staging (s : State) : (s.dropWrite).staging = s.staging := rfl
@[simp] theorem State.dropWrite_active (s : State) : (s.dropWrite).active = s.active := rfl
@[simp] theorem State.dropWrite_status (s : State) : (s.dropWrite).status = { s.status with werr := true } := rfl
@[simp] theorem State.dropWrite_irqEn (s : State) : (s.dropWrite).irqEn = s.irqEn := rfl
@[simp] theorem State.dropWrite_cmd (s : State) : (s.dropWrite).cmd = s.cmd := rfl
@[simp] theorem State.dropWrite_len (s : State) : (s.dropWrite).len = s.len := rfl
@[simp] theorem State.dropWrite_noEras (s : State) : (s.dropWrite).noEras = s.noEras := rfl
@[simp] theorem State.dropWrite_invmask (s : State) : (s.dropWrite).invmask = s.invmask := rfl
@[simp] theorem State.dropWrite_opa (s : State) : (s.dropWrite).opa = s.opa := rfl
@[simp] theorem State.dropWrite_opb (s : State) : (s.dropWrite).opb = s.opb := rfl
@[simp] theorem State.dropWrite_res (s : State) : (s.dropWrite).res = s.res := rfl
@[simp] theorem State.dropWrite_result (s : State) : (s.dropWrite).result = s.result := rfl
@[simp] theorem State.dropWrite_latches (s : State) : (s.dropWrite).latches = s.latches := rfl
@[simp] theorem State.dropWrite_scalars (s : State) : (s.dropWrite).scalars = s.scalars := rfl
@[simp] theorem State.dropWrite_mem (s : State) : (s.dropWrite).mem = s.mem := rfl
@[simp] theorem State.dropWrite_pending (s : State) : (s.dropWrite).pending = s.pending := rfl
@[simp] theorem State.dropWrite_rdata (s : State) : (s.dropWrite).rdata = s.rdata := rfl
@[simp] theorem State.dropWrite_slack (s : State) : (s.dropWrite).slack = s.slack := rfl
@[simp] theorem State.dropWrite_draws (s : State) : (s.dropWrite).draws = s.draws := rfl

/-! `State.answer` -/

@[simp] theorem State.answer_staging (s : State) (v : Word) : (s.answer v).staging = s.staging := rfl
@[simp] theorem State.answer_active (s : State) (v : Word) : (s.answer v).active = s.active := rfl
@[simp] theorem State.answer_status (s : State) (v : Word) : (s.answer v).status = s.status := rfl
@[simp] theorem State.answer_irqEn (s : State) (v : Word) : (s.answer v).irqEn = s.irqEn := rfl
@[simp] theorem State.answer_cmd (s : State) (v : Word) : (s.answer v).cmd = s.cmd := rfl
@[simp] theorem State.answer_len (s : State) (v : Word) : (s.answer v).len = s.len := rfl
@[simp] theorem State.answer_noEras (s : State) (v : Word) : (s.answer v).noEras = s.noEras := rfl
@[simp] theorem State.answer_invmask (s : State) (v : Word) : (s.answer v).invmask = s.invmask := rfl
@[simp] theorem State.answer_opa (s : State) (v : Word) : (s.answer v).opa = s.opa := rfl
@[simp] theorem State.answer_opb (s : State) (v : Word) : (s.answer v).opb = s.opb := rfl
@[simp] theorem State.answer_res (s : State) (v : Word) : (s.answer v).res = s.res := rfl
@[simp] theorem State.answer_result (s : State) (v : Word) : (s.answer v).result = s.result := rfl
@[simp] theorem State.answer_latches (s : State) (v : Word) : (s.answer v).latches = s.latches := rfl
@[simp] theorem State.answer_scalars (s : State) (v : Word) : (s.answer v).scalars = s.scalars := rfl
@[simp] theorem State.answer_mem (s : State) (v : Word) : (s.answer v).mem = s.mem := rfl
@[simp] theorem State.answer_pending (s : State) (v : Word) : (s.answer v).pending = s.pending := rfl
@[simp] theorem State.answer_rdata (s : State) (v : Word) : (s.answer v).rdata = v := rfl
@[simp] theorem State.answer_slack (s : State) (v : Word) : (s.answer v).slack = s.slack := rfl
@[simp] theorem State.answer_draws (s : State) (v : Word) : (s.answer v).draws = s.draws := rfl

/-! `State.answerUnspecified` -/

@[simp] theorem State.answerUnspecified_staging (s : State) : (s.answerUnspecified).staging = s.staging := rfl
@[simp] theorem State.answerUnspecified_active (s : State) : (s.answerUnspecified).active = s.active := rfl
@[simp] theorem State.answerUnspecified_status (s : State) : (s.answerUnspecified).status = s.status := rfl
@[simp] theorem State.answerUnspecified_irqEn (s : State) : (s.answerUnspecified).irqEn = s.irqEn := rfl
@[simp] theorem State.answerUnspecified_cmd (s : State) : (s.answerUnspecified).cmd = s.cmd := rfl
@[simp] theorem State.answerUnspecified_len (s : State) : (s.answerUnspecified).len = s.len := rfl
@[simp] theorem State.answerUnspecified_noEras (s : State) : (s.answerUnspecified).noEras = s.noEras := rfl
@[simp] theorem State.answerUnspecified_invmask (s : State) : (s.answerUnspecified).invmask = s.invmask := rfl
@[simp] theorem State.answerUnspecified_opa (s : State) : (s.answerUnspecified).opa = s.opa := rfl
@[simp] theorem State.answerUnspecified_opb (s : State) : (s.answerUnspecified).opb = s.opb := rfl
@[simp] theorem State.answerUnspecified_res (s : State) : (s.answerUnspecified).res = s.res := rfl
@[simp] theorem State.answerUnspecified_result (s : State) : (s.answerUnspecified).result = s.result := rfl
@[simp] theorem State.answerUnspecified_latches (s : State) : (s.answerUnspecified).latches = s.latches := rfl
@[simp] theorem State.answerUnspecified_scalars (s : State) : (s.answerUnspecified).scalars = s.scalars := rfl
@[simp] theorem State.answerUnspecified_mem (s : State) : (s.answerUnspecified).mem = s.mem := rfl
@[simp] theorem State.answerUnspecified_pending (s : State) : (s.answerUnspecified).pending = s.pending := rfl
@[simp] theorem State.answerUnspecified_rdata (s : State) : (s.answerUnspecified).rdata = Config.unspecifiedRead s.draws := rfl
@[simp] theorem State.answerUnspecified_slack (s : State) : (s.answerUnspecified).slack = s.slack := rfl
@[simp] theorem State.answerUnspecified_draws (s : State) : (s.answerUnspecified).draws = s.draws + 1 := rfl

/-! `State.tick` -/

@[simp] theorem State.tick_staging (s : State) : (s.tick).staging = s.staging := rfl
@[simp] theorem State.tick_active (s : State) : (s.tick).active = s.active := rfl
@[simp] theorem State.tick_status (s : State) : (s.tick).status = s.status := rfl
@[simp] theorem State.tick_irqEn (s : State) : (s.tick).irqEn = s.irqEn := rfl
@[simp] theorem State.tick_cmd (s : State) : (s.tick).cmd = s.cmd := rfl
@[simp] theorem State.tick_len (s : State) : (s.tick).len = s.len := rfl
@[simp] theorem State.tick_noEras (s : State) : (s.tick).noEras = s.noEras := rfl
@[simp] theorem State.tick_invmask (s : State) : (s.tick).invmask = s.invmask := rfl
@[simp] theorem State.tick_opa (s : State) : (s.tick).opa = s.opa := rfl
@[simp] theorem State.tick_opb (s : State) : (s.tick).opb = s.opb := rfl
@[simp] theorem State.tick_res (s : State) : (s.tick).res = s.res := rfl
@[simp] theorem State.tick_result (s : State) : (s.tick).result = s.result := rfl
@[simp] theorem State.tick_latches (s : State) : (s.tick).latches = s.latches := rfl
@[simp] theorem State.tick_scalars (s : State) : (s.tick).scalars = s.scalars := rfl
@[simp] theorem State.tick_mem (s : State) : (s.tick).mem = s.mem := rfl
@[simp] theorem State.tick_pending (s : State) : (s.tick).pending = s.pending := rfl
@[simp] theorem State.tick_rdata (s : State) : (s.tick).rdata = s.rdata := rfl
@[simp] theorem State.tick_slack (s : State) : (s.tick).slack = s.slack - 1 := rfl
@[simp] theorem State.tick_draws (s : State) : (s.tick).draws = s.draws := rfl

/-! `State.placeCommand` -/

@[simp] theorem State.placeCommand_staging (s : State) (w : Word) : (s.placeCommand w).staging = s.staging := rfl
@[simp] theorem State.placeCommand_active (s : State) (w : Word) : (s.placeCommand w).active = s.active := rfl
@[simp] theorem State.placeCommand_status (s : State) (w : Word) : (s.placeCommand w).status = { s.status with busy := true } := rfl
@[simp] theorem State.placeCommand_irqEn (s : State) (w : Word) : (s.placeCommand w).irqEn = s.irqEn := rfl
@[simp] theorem State.placeCommand_cmd (s : State) (w : Word) : (s.placeCommand w).cmd = w := rfl
@[simp] theorem State.placeCommand_len (s : State) (w : Word) : (s.placeCommand w).len = s.len := rfl
@[simp] theorem State.placeCommand_noEras (s : State) (w : Word) : (s.placeCommand w).noEras = s.noEras := rfl
@[simp] theorem State.placeCommand_invmask (s : State) (w : Word) : (s.placeCommand w).invmask = s.invmask := rfl
@[simp] theorem State.placeCommand_opa (s : State) (w : Word) : (s.placeCommand w).opa = s.opa := rfl
@[simp] theorem State.placeCommand_opb (s : State) (w : Word) : (s.placeCommand w).opb = s.opb := rfl
@[simp] theorem State.placeCommand_res (s : State) (w : Word) : (s.placeCommand w).res = s.res := rfl
@[simp] theorem State.placeCommand_result (s : State) (w : Word) : (s.placeCommand w).result = s.result := rfl
@[simp] theorem State.placeCommand_latches (s : State) (w : Word) : (s.placeCommand w).latches = s.latches := rfl
@[simp] theorem State.placeCommand_scalars (s : State) (w : Word) : (s.placeCommand w).scalars = s.scalars := rfl
@[simp] theorem State.placeCommand_mem (s : State) (w : Word) : (s.placeCommand w).mem = s.mem := rfl
@[simp] theorem State.placeCommand_pending (s : State) (w : Word) : (s.placeCommand w).pending = s.pending := rfl
@[simp] theorem State.placeCommand_rdata (s : State) (w : Word) : (s.placeCommand w).rdata = s.rdata := rfl
@[simp] theorem State.placeCommand_slack (s : State) (w : Word) : (s.placeCommand w).slack = 0 := rfl
@[simp] theorem State.placeCommand_draws (s : State) (w : Word) : (s.placeCommand w).draws = s.draws := rfl

/-! `State.softReset` -/

@[simp] theorem State.softReset_staging (s : State) : s.softReset.staging = State.reset.staging := rfl
@[simp] theorem State.softReset_active (s : State) : s.softReset.active = State.reset.active := rfl
@[simp] theorem State.softReset_status (s : State) : s.softReset.status = State.reset.status := rfl
@[simp] theorem State.softReset_irqEn (s : State) : s.softReset.irqEn = State.reset.irqEn := rfl
@[simp] theorem State.softReset_cmd (s : State) : s.softReset.cmd = s.cmd := rfl
@[simp] theorem State.softReset_len (s : State) : s.softReset.len = State.reset.len := rfl
@[simp] theorem State.softReset_noEras (s : State) : s.softReset.noEras = State.reset.noEras := rfl
@[simp] theorem State.softReset_invmask (s : State) : s.softReset.invmask = State.reset.invmask := rfl
@[simp] theorem State.softReset_opa (s : State) : s.softReset.opa = State.reset.opa := rfl
@[simp] theorem State.softReset_opb (s : State) : s.softReset.opb = State.reset.opb := rfl
@[simp] theorem State.softReset_res (s : State) : s.softReset.res = State.reset.res := rfl
@[simp] theorem State.softReset_result (s : State) : s.softReset.result = State.reset.result := rfl
@[simp] theorem State.softReset_latches (s : State) : s.softReset.latches = State.reset.latches := rfl
@[simp] theorem State.softReset_scalars (s : State) : s.softReset.scalars = State.reset.scalars := rfl
@[simp] theorem State.softReset_mem (s : State) : s.softReset.mem = s.mem := rfl
@[simp] theorem State.softReset_pending (s : State) : s.softReset.pending = s.pending := rfl
@[simp] theorem State.softReset_rdata (s : State) : s.softReset.rdata = s.rdata := rfl
@[simp] theorem State.softReset_slack (s : State) : s.softReset.slack = s.slack := rfl
@[simp] theorem State.softReset_draws (s : State) : s.softReset.draws = s.draws := rfl

/-! `State.platformReset` -/

@[simp] theorem State.platformReset_staging (s : State) : s.platformReset.staging = State.reset.staging := rfl
@[simp] theorem State.platformReset_active (s : State) : s.platformReset.active = State.reset.active := rfl
@[simp] theorem State.platformReset_status (s : State) : s.platformReset.status = State.reset.status := rfl
@[simp] theorem State.platformReset_irqEn (s : State) : s.platformReset.irqEn = State.reset.irqEn := rfl
@[simp] theorem State.platformReset_cmd (s : State) : s.platformReset.cmd = State.reset.cmd := rfl
@[simp] theorem State.platformReset_len (s : State) : s.platformReset.len = State.reset.len := rfl
@[simp] theorem State.platformReset_noEras (s : State) : s.platformReset.noEras = State.reset.noEras := rfl
@[simp] theorem State.platformReset_invmask (s : State) : s.platformReset.invmask = State.reset.invmask := rfl
@[simp] theorem State.platformReset_opa (s : State) : s.platformReset.opa = State.reset.opa := rfl
@[simp] theorem State.platformReset_opb (s : State) : s.platformReset.opb = State.reset.opb := rfl
@[simp] theorem State.platformReset_res (s : State) : s.platformReset.res = State.reset.res := rfl
@[simp] theorem State.platformReset_result (s : State) : s.platformReset.result = State.reset.result := rfl
@[simp] theorem State.platformReset_latches (s : State) : s.platformReset.latches = State.reset.latches := rfl
@[simp] theorem State.platformReset_scalars (s : State) : s.platformReset.scalars = State.reset.scalars := rfl
@[simp] theorem State.platformReset_mem (s : State) : s.platformReset.mem = State.reset.mem := rfl
@[simp] theorem State.platformReset_pending (s : State) : s.platformReset.pending = s.pending := rfl
@[simp] theorem State.platformReset_rdata (s : State) : s.platformReset.rdata = s.rdata := rfl
@[simp] theorem State.platformReset_slack (s : State) : s.platformReset.slack = State.reset.slack := rfl
@[simp] theorem State.platformReset_draws (s : State) : s.platformReset.draws = s.draws := rfl

end Sys2Proof.Machine
end

