-- ==== Sys2Proof/Laws/Ops.lean ====
section
/-! SUPPORT. What each shared operation can do: the checks, a command, the engine's turn and a step. -/

namespace Sys2Proof.Machine

/-! ### The checks -/

theorem checkConfigured_of_configured {s : State} {k : Except Fault (Option ErrCode)} (hv : s.status.cfgValid = true)
    (hu : s.active.usable = true) : checkConfigured s k = k := by simp [checkConfigured, hv, hu]

theorem checkConfigured_of_not_valid {s : State} {k : Except Fault (Option ErrCode)} (hv : s.status.cfgValid = false) :
    checkConfigured s k = .ok (some .notConfigured) := by simp [checkConfigured, hv]

/-- The configuration check passes on to `k`, raises NOT_CONFIGURED, or stops over a broken configuration. -/
theorem checkConfigured_cases (s : State) (k : Except Fault (Option ErrCode)) :
    (s.status.cfgValid = false ∧ checkConfigured s k = .ok (some .notConfigured)) ∨
    (s.status.cfgValid = true ∧ s.active.usable = false ∧ checkConfigured s k = .error .brokenConfig) ∨
    (s.status.cfgValid = true ∧ s.active.usable = true ∧ checkConfigured s k = k) := by
  unfold checkConfigured
  cases s.status.cfgValid <;> cases s.active.usable <;> simp

theorem checkConfigured_eq_none {s : State} {k : Except Fault (Option ErrCode)} (h : checkConfigured s k = .ok none) :
    s.status.cfgValid = true ∧ s.active.usable = true ∧ k = .ok none := by
  rcases checkConfigured_cases s k with ⟨_, hk⟩ | ⟨_, _, hk⟩ | ⟨hv, hu, hk⟩ <;> rw [hk] at h
  · simp at h
  · simp at h
  · exact ⟨hv, hu, h⟩

theorem checkStage_of_stage {need : DStage} {s : State} {k : Except Fault (Option ErrCode)} (hv : s.status.cfgValid = true)
    (hu : s.active.usable = true) (hd : s.status.dstage = need) : checkStage need s k = k := by
  simp [checkStage, checkConfigured_of_configured hv hu, hd]

theorem checkStage_eq_none {need : DStage} {s : State} {k : Except Fault (Option ErrCode)}
    (h : checkStage need s k = .ok none) :
    s.status.cfgValid = true ∧ s.active.usable = true ∧ s.status.dstage = need ∧ k = .ok none := by
  obtain ⟨hv, hu, hk⟩ := checkConfigured_eq_none h
  split at hk
  · exact ⟨hv, hu, ‹_›, hk⟩
  · simp at hk

/-! ### A command -/

theorem command_of_error {check : State → Except Fault (Option ErrCode)} {body : State → Except Fault State} {s : State}
    {c : ErrCode} (h : check s = .ok (some c)) : command check body s = .next (complete c s) := by simp [command, h]

theorem command_of_ok {check : State → Except Fault (Option ErrCode)} {body : State → Except Fault State} {s t : State}
    (h : check s = .ok none) (hb : body s = .ok t) : command check body s = .next (complete .noError t) := by
  simp [command, h, hb]

/-- A command that answers a next state has either failed a check and completed with its code over the state it found, or
passed them all and completed without error over what its body leaves. -/
theorem command_next {check : State → Except Fault (Option ErrCode)} {body : State → Except Fault State} {s t : State}
    (h : command check body s = .next t) :
    (∃ c, check s = .ok (some c) ∧ t = complete c s) ∨
    (check s = .ok none ∧ ∃ u, body s = .ok u ∧ t = complete .noError u) := by
  unfold command at h
  split at h
  · simp at h
  · exact .inl ⟨_, ‹_›, by simpa using h.symm⟩
  · split at h
    · simp at h
    · exact .inr ⟨‹_›, _, ‹_›, by simpa using h.symm⟩

/-- A command stops only where its checks or its body stop. -/
theorem command_fault {check : State → Except Fault (Option ErrCode)} {body : State → Except Fault State} {s : State} {f : Fault}
    (h : command check body s = .fault f) : check s = .error f ∨ (check s = .ok none ∧ body s = .error f) := by
  unfold command at h
  split at h
  · injection h with h
    exact .inl (h ▸ ‹_›)
  · simp at h
  · split at h
    · injection h with h
      exact .inr ⟨‹_›, h ▸ ‹_›⟩
    · simp at h

theorem command_not_refused (check : State → Except Fault (Option ErrCode)) (body : State → Except Fault State) (s : State)
    (r : Refusal) : command check body s ≠ .refused r := by
  unfold command
  split
  · simp
  · simp
  · split <;> simp

/-- The checks of each command (R326), as its meaning makes them. -/
def Instr.check : Instr → State → Except Fault (Option ErrCode)
  | .nop | .softReset => fun _ => .ok none
  | .config => configCheck
  | .encode => encodeCheck
  | .decode e _ | .decSyn e _ => decSynCheck e
  | .decEras => decErasCheck
  | .decBm => decBmCheck
  | .decChien => decChienCheck
  | .decForney => decForneyCheck
  | .decApply => decApplyCheck
  | .fldAlog | .fldLog => fun s => s.checkDomain (s.inField s.opa)
  | .fldModn => fun s => s.checkDomain true
  | .fldAdd | .fldMul => fun s => s.checkDomain (s.inField s.opa && s.inField s.opb)
  | .fldDiv => fun s => s.checkDomain (s.inField s.opa && s.inField s.opb && s.opb != 0)

/-- The effect of each command, as its meaning has it. -/
def Instr.body : Instr → State → Except Fault State
  | .nop => .ok
  | .config => configBody
  | .encode => encodeBody
  | .decode e c => decodeBody Config.padRootPolicy e c
  | .softReset => fun s => .ok s.softReset
  | .decSyn e c => decSynBody e c
  | .decEras => decErasBody
  | .decBm => decBmBody
  | .decChien => decChienBody Config.padRootPolicy
  | .decForney => decForneyBody
  | .decApply => decApplyBody
  | .fldAlog => fun s => .ok (s.setRes ((s.field.alpha (s.opa.setWidth 16)).setWidth 32))
  | .fldLog => fun s => .ok (s.setRes ((s.field.log (s.opa.setWidth 16)).setWidth 32))
  | .fldModn => fun s => .ok (s.setRes ((s.field.modn s.opa.toNat).setWidth 32))
  | .fldAdd => fun s => .ok (s.setRes (s.opa ^^^ s.opb))
  | .fldMul => fun s => .ok (s.setRes ((s.field.mul (s.opa.setWidth 16) (s.opb.setWidth 16)).setWidth 32))
  | .fldDiv => fun s =>
    match s.field.div (s.opa.setWidth 16) (s.opb.setWidth 16) with
    | .error e => .error e
    | .ok q => .ok (s.setRes (q.setWidth 32))

/-- Every meaning has the shared form. -/
theorem exec_eq_command (i : Instr) (s : State) : exec i s = command (Instr.check i) (Instr.body i) s := by
  cases i <;> rfl

/-- Everything a command can answer. -/
theorem exec_next {i : Instr} {s t : State} (h : exec i s = .next t) :
    (∃ c, Instr.check i s = .ok (some c) ∧ t = complete c s) ∨
    (Instr.check i s = .ok none ∧ ∃ u, Instr.body i s = .ok u ∧ t = complete .noError u) :=
  command_next (exec_eq_command i s ▸ h)

theorem exec_not_refused (i : Instr) (s : State) (r : Refusal) : exec i s ≠ .refused r :=
  exec_eq_command i s ▸ command_not_refused _ _ s r

/-! ### Issue and completion -/

@[simp] theorem issue_cmd (s : State) (w : Word) : (s.issue w).cmd = w := rfl
@[simp] theorem issue_status (s : State) (w : Word) : (s.issue w).status = { s.status with busy := true } := rfl
@[simp] theorem issue_mem (s : State) (w : Word) : (s.issue w).mem = s.mem := rfl

/-! ### The engine's turn and a step -/

theorem engineMoves_iff (s : State) : engineMoves s = true ↔ s.status.busy = true ∧ s.slack = 0 := by
  simp [engineMoves]

theorem engineTurn_of_ok {s : State} {i : Instr} (h : decode s.cmd = .ok i) : engineTurn s = exec i s := by
  simp [engineTurn, h]

theorem engineTurn_of_error {s : State} {r : Reject} (h : decode s.cmd = .error r) :
    engineTurn s = .next (complete .illegalCmd s) := by simp [engineTurn, h]

/-- Everything the engine's turn can answer. -/
theorem engineTurn_next {s t : State} (h : engineTurn s = .next t) :
    (∃ r, decode s.cmd = .error r ∧ t = complete .illegalCmd s) ∨ ∃ i, decode s.cmd = .ok i ∧ exec i s = .next t := by
  unfold engineTurn at h
  split at h
  · exact .inr ⟨_, ‹_›, h⟩
  · exact .inl ⟨_, ‹_›, by simpa using h.symm⟩

theorem hostTurn_next {s t : State} : hostTurn s = .next t ↔ hostEvent s = .ok t := by
  unfold hostTurn
  split <;> simp_all

theorem hostTurn_fault {s : State} {f : Fault} : hostTurn s = .fault f ↔ hostEvent s = .error f := by
  unfold hostTurn
  split <;> simp_all

/-- The three kinds of step. -/
theorem step_cases (s : State) :
    (engineMoves s = true ∧ step s = engineTurn s) ∨
    (s.status.busy = true ∧ 0 < s.slack ∧ step s = hostTurn s.tick) ∨
    (s.status.busy = false ∧ step s = hostTurn s) := by
  unfold step machineStep engineMoves
  cases h : s.status.busy
  · simp
  · by_cases hs : s.slack = 0
    · simp [hs]
    · simp [hs]; omega

theorem step_of_engineMoves {s : State} (h : engineMoves s = true) : step s = engineTurn s := by
  simp [step, machineStep, h]

theorem step_of_idle {s : State} (h : s.status.busy = false) : step s = hostTurn s := by
  simp [step, machineStep, engineMoves, h]

theorem step_of_window {s : State} (h : s.status.busy = true) (hs : 0 < s.slack) : step s = hostTurn s.tick := by
  have : s.slack ≠ 0 := by omega
  simp [step, machineStep, engineMoves, h, this]

end Sys2Proof.Machine
end

