-- ==== Sys2Proof/Laws/Operands.lean ====
section
/-! SUPPORT. The operand reads: a run of written entries, the symbols of a block, and the erasure vector. -/

namespace Sys2Proof.Machine

theorem Memory.entryWritten_narrow {m : Memory} {f : RegFile} {i : Nat} (h : f.wide = false) :
    m.entryWritten f i ↔ ∃ v, m.half (entryAddr f i) = some v := by
  simp [Memory.entryWritten, h, Option.isSome_iff_exists]

theorem Memory.entryWritten_wide {m : Memory} {f : RegFile} {i : Nat} (h : f.wide = true) :
    m.entryWritten f i ↔ ∃ v, m.word (entryAddr f i) = some v := by
  simp [Memory.entryWritten, h, Option.isSome_iff_exists]

/-- An entry reads as a port word exactly when it was written. -/
theorem Memory.entry_isSome_iff {m : Memory} {f : RegFile} {i : Nat} : (m.entry f i).isSome = true ↔ m.entryWritten f i := by
  cases h : f.wide <;> simp [Memory.entryWritten, h]

@[simp] theorem State.halves_length (s : State) (f : RegFile) (k : Nat) : (s.halves f k).length = k := by
  simp [State.halves]

theorem State.halves_getElem? {s : State} {f : RegFile} {k i : Nat} (hi : i < k) :
    (s.halves f k)[i]? = some ((s.mem.half (entryAddr f i)).getD 0) := by
  simp [State.halves, hi]

/-- A run of written entries is read whole. -/
theorem Memory.getHalves_of_written {s : State} {f : RegFile} {k : Nat} (hf : f.wide = false) (h : s.mem.written f k) :
    s.mem.getHalves f k = .ok (s.halves f k) := by
  rw [Memory.getHalves_eq_ok]
  refine ⟨by simp, fun i hi => ?_⟩
  obtain ⟨v, hv⟩ := (Memory.entryWritten_narrow hf).mp (h i hi)
  rw [State.halves_getElem? hi, hv]
  rfl

/-- A run is read whole only if every entry of it was written. -/
theorem Memory.written_of_getHalves {s : State} {f : RegFile} {k : Nat} {r : List Half} (hf : f.wide = false)
    (h : s.mem.getHalves f k = .ok r) : s.mem.written f k ∧ r = s.halves f k := by
  obtain ⟨hl, hr⟩ := Memory.getHalves_eq_ok.mp h
  have hw : s.mem.written f k := fun i hi => by
    rw [Memory.entryWritten_narrow hf]
    rw [hr i hi]
    exact ⟨r[i], by simp [hl, hi]⟩
  refine ⟨hw, ?_⟩
  have := Memory.getHalves_of_written hf hw
  rw [h] at this
  simpa using this

/-- A run of wide entries is read whole. -/
theorem Memory.getWords_of_written {m : Memory} {f : RegFile} {k : Nat} (hf : f.wide = true) (h : m.written f k) :
    ∃ r, m.getWords f k = .ok r := by
  refine ⟨(List.range k).map fun i => (m.word (entryAddr f i)).getD 0, Memory.getWords_eq_ok.mpr ⟨by simp, fun i hi => ?_⟩⟩
  obtain ⟨v, hv⟩ := (Memory.entryWritten_wide hf).mp (h i hi)
  simp [Memory.entry, hf, hv, hi]

/-- The block that DEC_SYN reads, where it was written. -/
theorem State.block_of_written {s : State} (hd : s.mem.written .data s.len.toNat) (hp : s.mem.written .par s.nroots) :
    s.block s.len.toNat s.mask = .ok s.blockSymbols := by
  simp only [State.block, State.message, State.parity, Memory.getHalves_of_written (f := .data) rfl hd,
    Memory.getHalves_of_written (f := .par) rfl hp, State.blockSymbols, State.mask]

/-- The message that ENCODE reads, where it was written. -/
theorem State.message_of_written {s : State} (hd : s.mem.written .data s.len.toNat) :
    s.message s.len.toNat s.mask = .ok (s.blockSymbols.take s.len.toNat) := by
  simp [State.message, Memory.getHalves_of_written (f := .data) rfl hd, State.blockSymbols, State.mask]

/-! ### The erasure vector -/

theorem State.erasure_eq_ok {s : State} {k : Nat} {e : Int} :
    s.erasure k = .ok e ↔ ∃ w : Word, s.mem.word (entryAddr .eras k) = some w ∧ w.toInt = e := by
  unfold State.erasure
  cases h : s.mem.getWord .eras k with
  | error f =>
    have := (Memory.getWord_eq_error.mp h).1
    simp only [Memory.entry, RegFile.wide, if_true] at this
    simp [this]
  | ok w =>
    have := Memory.getWord_eq_ok.mp h
    simp only [Memory.entry, RegFile.wide, if_true] at this
    simp [this]

theorem State.erasuresInBlock_true {s : State} {len : Nat} {ks : List Nat} :
    s.erasuresInBlock len ks = .ok true ↔
      ∀ k ∈ ks, ∃ w : Word, s.mem.word (entryAddr .eras k) = some w ∧ 0 ≤ w.toInt ∧ w.toInt < len + s.nroots := by
  induction ks with
  | nil => simp [State.erasuresInBlock]
  | cons k ks ih =>
    unfold State.erasuresInBlock
    cases h : s.erasure k with
    | error f =>
      have hn : ¬∃ w : Word, s.mem.word (entryAddr .eras k) = some w := by
        rintro ⟨w, hw⟩
        have := State.erasure_eq_ok.mpr ⟨w, hw, rfl⟩
        rw [h] at this
        cases this
      simp only [List.mem_cons, forall_eq_or_imp]
      constructor
      · intro h
        cases h
      · rintro ⟨⟨w, hw, _⟩, _⟩
        exact absurd ⟨w, hw⟩ hn
    | ok e =>
      obtain ⟨w, hw, rfl⟩ := State.erasure_eq_ok.mp h
      simp only [List.mem_cons, forall_eq_or_imp, hw, Option.some.injEq, exists_eq_left']
      split
      · simp only [Except.ok.injEq, Bool.false_eq_true, false_iff]
        rintro ⟨⟨_, _⟩, _⟩
        omega
      · rw [ih]
        constructor
        · exact fun h => ⟨by omega, h⟩
        · exact fun h => h.2

/-- The vector passes its check exactly when it is valid and written (R222). -/
theorem State.erasuresValid_true {s : State} {ne len : Nat} : s.erasuresValid ne len = .ok true ↔ s.ErasuresGood ne len := by
  unfold State.erasuresValid State.ErasuresGood
  split
  · simp
    omega
  · rw [State.erasuresInBlock_true]
    simp only [List.mem_range]
    constructor
    · exact fun h => ⟨by omega, h⟩
    · exact fun h => h.2

theorem State.checkErasures_none {s : State} {ne len : Nat} : s.checkErasures ne len = .ok none ↔ s.ErasuresGood ne len := by
  rw [← State.erasuresValid_true]
  unfold State.checkErasures
  split <;> simp_all

/-- The check of the erasure vector stops only at an entry that was never written. -/
theorem State.checkErasures_error {s : State} {ne len : Nat} {e : Fault} (h : s.checkErasures ne len = .error e) :
    ∃ k < ne, e = .unwrittenEntry .eras k ∧ s.mem.word (entryAddr .eras k) = none := by
  have key : ∀ ks : List Nat, s.erasuresInBlock len ks = .error e →
      ∃ k ∈ ks, e = .unwrittenEntry .eras k ∧ s.mem.word (entryAddr .eras k) = none := by
    intro ks
    induction ks with
    | nil => simp [State.erasuresInBlock]
    | cons k ks ih =>
      intro h
      unfold State.erasuresInBlock State.erasure at h
      cases hg : s.mem.getWord .eras k with
      | error f =>
        obtain ⟨hn, hf⟩ := Memory.getWord_eq_error.mp hg
        simp only [hg, Except.error.injEq] at h
        exact ⟨k, List.mem_cons_self, h ▸ hf, by simpa [Memory.entry, RegFile.wide] using hn⟩
      | ok w =>
        simp only [hg] at h
        split at h
        · cases h
        · obtain ⟨k', hk', r⟩ := ih h
          exact ⟨k', List.mem_cons_of_mem _ hk', r⟩
  unfold State.checkErasures State.erasuresValid at h
  split at h
  · rename_i hv
    split at hv
    · cases hv
    · cases h
      obtain ⟨k, hk, r⟩ := key _ hv
      exact ⟨k, List.mem_range.mp hk, r⟩
  · cases h
  · cases h

end Sys2Proof.Machine
end

