-- ==== Sys2Proof/Laws/PerInstr.lean ====
section
/-! SUPPORT. One lemma for each command: it is well formed, and its word lies in its row of the opcode table. -/

namespace Sys2Proof.Laws.TableRow

/-- The match and the mask of a command's row in the opcode table (R114). -/
def row : Instr → Nat × Nat
  | .nop => (0x00000000, 0xFFFFFFFF)
  | .config => (0x00000001, 0xFFFFFFFF)
  | .encode => (0x00000002, 0xFFFFFFFF)
  | .decode _ _ => (0x00000003, 0xFFFFFCFF)
  | .softReset => (0x00000004, 0xFFFFFFFF)
  | .decSyn _ _ => (0x00000010, 0xFFFFFCFF)
  | .decEras => (0x00000011, 0xFFFFFFFF)
  | .decBm => (0x00000012, 0xFFFFFFFF)
  | .decChien => (0x00000013, 0xFFFFFFFF)
  | .decForney => (0x00000014, 0xFFFFFFFF)
  | .decApply => (0x00000015, 0xFFFFFFFF)
  | .fldAlog => (0x00000020, 0xFFFFFFFF)
  | .fldLog => (0x00000021, 0xFFFFFFFF)
  | .fldModn => (0x00000022, 0xFFFFFFFF)
  | .fldAdd => (0x00000023, 0xFFFFFFFF)
  | .fldMul => (0x00000024, 0xFFFFFFFF)
  | .fldDiv => (0x00000025, 0xFFFFFFFF)

/-- The command is well formed, and its word under the row's mask is the row's match. -/
def Statement (i : Instr) : Prop := i.wellFormed = true ∧ (encode i).toNat &&& (row i).2 = (row i).1

theorem nop : Statement .nop := ⟨rfl, rfl⟩

theorem config : Statement .config := ⟨rfl, rfl⟩

theorem encode : Statement .encode := ⟨rfl, rfl⟩

theorem decode (e c : Bool) : Statement (.decode e c) := by cases e <;> cases c <;> exact ⟨rfl, rfl⟩

theorem softReset : Statement .softReset := ⟨rfl, rfl⟩

theorem decSyn (e c : Bool) : Statement (.decSyn e c) := by cases e <;> cases c <;> exact ⟨rfl, rfl⟩

theorem decEras : Statement .decEras := ⟨rfl, rfl⟩

theorem decBm : Statement .decBm := ⟨rfl, rfl⟩

theorem decChien : Statement .decChien := ⟨rfl, rfl⟩

theorem decForney : Statement .decForney := ⟨rfl, rfl⟩

theorem decApply : Statement .decApply := ⟨rfl, rfl⟩

theorem fldAlog : Statement .fldAlog := ⟨rfl, rfl⟩

theorem fldLog : Statement .fldLog := ⟨rfl, rfl⟩

theorem fldModn : Statement .fldModn := ⟨rfl, rfl⟩

theorem fldAdd : Statement .fldAdd := ⟨rfl, rfl⟩

theorem fldMul : Statement .fldMul := ⟨rfl, rfl⟩

theorem fldDiv : Statement .fldDiv := ⟨rfl, rfl⟩

end Sys2Proof.Laws.TableRow
end

