-- ==== Sys2Proof/Laws/Port.lean ====
section
/-! SUPPORT. The host port: what an access reaches, and everything a host event can do. -/

namespace Sys2Proof.Machine

theorem portTarget_congr {a b : BitVec 22} (h : a.toNat / 4 = b.toNat / 4) : portTarget a = portTarget b := by
  have hw : wordOffset a = wordOffset b := by rw [wordOffset, wordOffset, h]
  unfold portTarget
  rw [hw]

theorem portRead_busy {s : State} {off : BitVec 22} (h : s.status.busy = true) :
    s.portRead off = .ok (match portTarget off with
      | .reg r => if r.readableWhileBusy then s.answer (s.readReg r) else s.answerUnspecified
      | _ => s.answerUnspecified) := by
  simp only [State.portRead, h, if_true]
  cases portTarget off <;> rfl

theorem portRead_idle {s : State} {off : BitVec 22} (h : s.status.busy = false) :
    s.portRead off = (s.readTarget (portTarget off)).map s.answer := by
  simp only [State.portRead, h, Bool.false_eq_true, if_false]
  cases s.readTarget (portTarget off) <;> rfl

/-- A host read changes nothing but the word it answers with, and how many free values have been drawn. -/
theorem portRead_next {s t : State} {off : BitVec 22} (h : s.portRead off = .ok t) :
    t = { s with rdata := t.rdata, draws := t.draws } := by
  unfold State.portRead at h
  split at h
  · split at h
    · split at h <;> cases h <;> rfl
    · cases h
      rfl
  · split at h
    · cases h
    · cases h
      rfl

/-- A host read stops only at an entry that was never written, and only while BUSY is 0. -/
theorem portRead_error {s : State} {off : BitVec 22} {e : Fault} (h : s.portRead off = .error e) :
    s.status.busy = false ∧ ∃ f i, portTarget off = .entry f i ∧ e = .unwrittenEntry f i ∧ s.mem.entry f i = none := by
  unfold State.portRead at h
  split at h
  · split at h
    · split at h <;> cases h
    · cases h
  · rename_i hb
    refine ⟨by simpa using hb, ?_⟩
    split at h
    · rename_i hr
      cases h
      cases ht : portTarget off with
      | reg r => simp [ht, State.readTarget] at hr
      | unmapped => simp [ht, State.readTarget] at hr
      | entry f i =>
        simp only [ht, State.readTarget, State.readFile] at hr
        split at hr
        · cases hr
        · obtain ⟨hn, he⟩ := Memory.getWord_eq_error.mp hr
          exact ⟨f, i, rfl, he, hn⟩
    · cases h

theorem portWrite_busy {s : State} {off : BitVec 22} {v : Word} (h : s.status.busy = true) :
    s.portWrite off v = s.writeTargetBusy v (portTarget off) := by simp [State.portWrite, h]

theorem portWrite_idle {s : State} {off : BitVec 22} {v : Word} (h : s.status.busy = false) :
    s.portWrite off v = s.writeTarget v (portTarget off) := by simp [State.portWrite, h]

/-- A host write during BUSY reaches only the W1C bits, WERR and IRQ_EN (R364). -/
theorem writeTargetBusy_eq (s : State) (v : Word) (t : Target) :
    s.writeTargetBusy v t = { s with
      status := { s.status with
        done := (s.writeTargetBusy v t).status.done, err := (s.writeTargetBusy v t).status.err
        werr := (s.writeTargetBusy v t).status.werr }
      irqEn := (s.writeTargetBusy v t).irqEn } := by
  cases t with
  | reg r => cases r <;> rfl
  | entry f i => rfl
  | unmapped => rfl

/-- Everything the host's next event can be. -/
theorem hostEvent_next {s t : State} (h : hostEvent s = .ok t) :
    (s.pending = [] ∧ t = s) ∨
    (∃ off rest, s.pending = .read off :: rest ∧ { s with pending := rest }.portRead off = .ok t) ∨
    (∃ off v rest, s.pending = .write off v :: rest ∧ t = { s with pending := rest }.portWrite off v) ∨
    (∃ rest, s.pending = .wait :: rest ∧
      t = { s with pending := if s.status.busy then s.pending else rest, rdata := s.status.word }) ∨
    (∃ rest, s.pending = .reset :: rest ∧ t = { State.reset with pending := rest, rdata := s.rdata, draws := s.draws }) := by
  unfold hostEvent at h
  split at h
  · exact .inl ⟨‹_›, by simpa using h.symm⟩
  · exact .inr (.inl ⟨_, _, ‹_›, h⟩)
  · exact .inr (.inr (.inl ⟨_, _, _, ‹_›, by simpa using h.symm⟩))
  · exact .inr (.inr (.inr (.inl ⟨_, ‹_›, by simpa [State.answer] using h.symm⟩)))
  · exact .inr (.inr (.inr (.inr ⟨_, ‹_›, by simpa [State.platformReset] using h.symm⟩)))

/-- The host's next event stops only at a read. -/
theorem hostEvent_error {s : State} {e : Fault} (h : hostEvent s = .error e) :
    ∃ off rest, s.pending = .read off :: rest ∧ { s with pending := rest }.portRead off = .error e := by
  unfold hostEvent at h
  split at h
  · simp at h
  · exact ⟨_, _, ‹_›, h⟩
  · simp at h
  · simp at h
  · simp at h

end Sys2Proof.Machine
end

