-- ==== Sys2Proof/Tests/Slice0.lean ====
section
/-! SUPPORT. Tests of the model on the worked vectors of the spec (95_test_vectors.md, 30_encoding.md), and for every obligation
with hypotheses a state and operands that meet them. -/

namespace Sys2Proof.Tests

open Sys2Proof Sys2Proof.Machine

set_option Elab.async false

/-! ### Helpers -/

/-- The next state of an outcome, the state after reset where there is none. -/
def nextOf : Host.Outcome State Fault Refusal → State
  | .next t => t
  | _ => .reset

/-- The outcome is a next state. -/
def isNext : Host.Outcome State Fault Refusal → Bool
  | .next _ => true
  | _ => false

theorem eq_next {o : Host.Outcome State Fault Refusal} (h : isNext o = true) : o = .next (nextOf o) := by
  cases o <;> simp_all [isNext, nextOf]

/-- A check over a list, evaluated element by element. -/
theorem all_of {α : Type} {P : α → Prop} [DecidablePred P] {l : List α} (h : l.all (fun a => decide (P a)) = true) :
    ∀ a ∈ l, P a := by simpa using h

/-- The tables of a small field, checked entry by entry. -/
abbrev TablesFin (s : State) : Prop :=
  s.n = 2 ^ s.active.actM.toNat - 1 ∧
  (fieldStep s.active.actM.toNat s.active.actPoly.toNat)^[s.n] 1 = 1 ∧
  s.field.alpha s.active.actN = 0 ∧ s.field.log 0 = s.active.actN ∧
  (∀ i < s.n, (s.field.alpha (BitVec.ofNat 16 i)).toNat = (fieldStep s.active.actM.toNat s.active.actPoly.toNat)^[i] 1 ∧
    s.field.alpha (BitVec.ofNat 16 i) ≠ 0 ∧ (s.field.alpha (BitVec.ofNat 16 i)).toNat ≤ s.n ∧
    s.field.log (s.field.alpha (BitVec.ofNat 16 i)) = BitVec.ofNat 16 i) ∧
  (∀ x < s.n + 1, x ≠ 0 → (s.field.log (BitVec.ofNat 16 x)).toNat < s.n ∧
    s.field.alpha (s.field.log (BitVec.ofNat 16 x)) = BitVec.ofNat 16 x) ∧
  ∀ c ∈ s.mem, (c.1 < entryAddr .alphaTo (s.n + 1) ∨ 0x080000 ≤ c.1) ∧
    (c.1 < entryAddr .indexOf (s.n + 1) ∨ 0x0C0000 ≤ c.1)

/-- The committed configuration, checked field by field. -/
abbrev CommittedFin (a : Active) : Prop :=
  (2 ≤ a.actM.toNat ∧ a.actM.toNat ≤ Config.mMax) ∧ a.actN.toNat = 2 ^ a.actM.toNat - 1 ∧
  (2 ^ a.actM.toNat ≤ a.actPoly.toNat ∧ a.actPoly.toNat < 2 ^ (a.actM.toNat + 1)) ∧
  (1 ≤ a.actNroots.toNat ∧ a.actNroots.toNat < a.actN.toNat ∧ a.actNroots.toNat ≤ 32) ∧
  a.actFcr.toNat < a.actN.toNat ∧
  (1 ≤ a.actPrim.toNat ∧ a.actPrim.toNat < a.actN.toNat ∧ Nat.gcd a.actPrim.toNat a.actN.toNat = 1) ∧
  (1 ≤ a.iprim.toNat ∧ a.iprim.toNat < a.actN.toNat) ∧ a.iprim.toNat * a.actPrim.toNat % a.actN.toNat = 1

/-- Entries `[0, k)` of a file are written, checked one by one. -/
abbrev WrittenFin (s : State) (f : RegFile) (k : Nat) : Prop := ∀ i < k, (s.mem.entry f i).isSome = true

/-- A finished locator, checked coefficient by coefficient. -/
abbrev LocatorFin (s : State) : Prop :=
  s.scalars.degLambda.toNat ≤ s.nroots ∧ nth s.locator 0 = 0 ∧ s.locator.all (fun l => decide (l.toNat ≤ s.n)) = true ∧
  nth s.locator s.scalars.degLambda.toNat ≠ s.active.actN ∧
  ∀ j < s.nroots + 1, s.scalars.degLambda.toNat < j → nth s.locator j = s.active.actN

/-- The located roots, checked one by one. -/
abbrev LocatedFin (s : State) : Prop :=
  (1 ≤ s.scalars.degLambda.toNat ∧ s.scalars.nrootsFound = s.scalars.degLambda) ∧
  (∀ j < s.scalars.nrootsFound.toNat,
    (match s.mem.half (entryAddr .root j), s.mem.half (entryAddr .loc j) with
    | some root, some loc => decide (1 ≤ root.toNat ∧ root.toNat ≤ s.n ∧ s.latches.dPad.toNat ≤ loc.toNat ∧ loc.toNat < s.n)
    | _, _ => false) = true) ∧
  s.roots.Nodup ∧ s.positions.Nodup ∧ s.roots.all (fun root => decide (evalIndexAt s.field s.locator root.toNat = 0)) = true

/-- `LocatorFin`, evaluated. -/
def locatorCheck (s : State) : Bool := decide (LocatorFin s)

/-- `LocatedFin`, evaluated. -/
def locatedCheck (s : State) : Bool := decide (LocatedFin s)

/-- What DEC_SYN has left, checked entry by entry. -/
abbrev LatchedFin (s : State) : Prop :=
  s.status.cfgValid = true ∧
  s.latches.dLen.toNat + s.latches.dPad.toNat + s.nroots = s.n ∧
  s.latches.dNoEras.toNat ≤ s.nroots ∧
  WrittenFin s .data s.latches.dLen.toNat ∧ WrittenFin s .par s.nroots ∧ WrittenFin s .eras s.latches.dNoEras.toNat ∧
  WrittenFin s .s s.nroots

/-- What the stages after it have left, checked entry by entry. -/
abbrev StagesFin (s : State) : Prop :=
  (s.status.dstage ≠ .syn → WrittenFin s .lambda (s.nroots + 1)) ∧
  (s.status.dstage = .eras → s.mem.half (entryAddr .lambda 0) = some 1) ∧
  (s.status.dstage = .bm ∨ s.status.dstage = .chien ∨ s.status.dstage = .forney → locatorCheck s = true) ∧
  (s.status.dstage = .chien ∨ s.status.dstage = .forney → locatedCheck s = true) ∧
  (s.status.dstage = .forney → WrittenFin s .mag s.scalars.nrootsFound.toNat)

/-- The invariant of a configured state, in a form that can be evaluated. -/
def invCheck (s : State) : Bool :=
  decide s.mem.wf && decide (CommittedFin s.active) && decide (TablesFin s) &&
    (decide (s.status.dstage = .idle) || (decide (LatchedFin s) && decide (StagesFin s)))

theorem read_of_no_cell {m : Memory} {a : Nat} (h : ∀ c ∈ m, c.1 ≠ a) : m.read a = Memory.unlisted a := by
  induction m with
  | nil => rfl
  | cons c m ih =>
    obtain ⟨b, v⟩ := c
    have hb : b ≠ a := h (b, v) List.mem_cons_self
    rw [Memory.read_cons, if_neg hb]
    exact ih fun c hc => h c (List.mem_cons_of_mem _ hc)

theorem half_eq_ofNat (x : Half) : BitVec.ofNat 16 x.toNat = x := by simp

theorem zero_above {m : Memory} {f : RegFile} {n i : Nat} (hf : entryAddr f 65536 ≤ 0x100000) (hn : n < i) (hi : i < 65536)
    (h : ∀ c ∈ m, c.1 < entryAddr f (n + 1) ∨ entryAddr f 65536 ≤ c.1) : m.tableEntry f i = 0 := by
  have read : ∀ b < 2, m.read (entryAddr f i + b) = some 0 := by
    intro b hb
    rw [read_of_no_cell]
    · have : entryAddr f i + b < 0x100000 := by
        simp only [entryAddr] at *
        omega
      exact if_pos (.inl this)
    · intro c hc e
      have := h c hc
      simp only [entryAddr] at *
      omega
  have h0 := read 0 (by omega)
  have h1 := read 1 (by omega)
  simp only [Nat.add_zero] at h0
  simp [Memory.tableEntry, Memory.half, h0, h1]

theorem tables_of_fin {s : State} (h : TablesFin s) : s.field.Tables s.active.actM.toNat s.active.actPoly.toNat := by
  obtain ⟨hn, hc, ha, hl, hi, hx, hm⟩ := h
  refine ⟨hn, fun i h => ?_, hc, ha, hl, fun i h => ?_, fun x h0 h => ?_, fun x h0 h => ?_, fun i h => ?_, fun x h => ?_⟩
  · simpa using (hi i.toNat h).1
  · have := (hi i.toNat h).2
    rw [half_eq_ofNat] at this
    exact ⟨this.1, this.2.1⟩
  · have := (hx x.toNat (Nat.lt_succ_of_le h) fun e => h0 (BitVec.eq_of_toNat_eq e)).1
    rwa [half_eq_ofNat] at this
  · have := (hx x.toNat (Nat.lt_succ_of_le h) fun e => h0 (BitVec.eq_of_toNat_eq e)).2
    simpa using this
  · simpa using (hi i.toNat h).2.2.2
  · exact ⟨zero_above (f := .alphaTo) (by decide) h x.isLt fun c hc => (hm c hc).1,
      zero_above (f := .indexOf) (by decide) h x.isLt fun c hc => (hm c hc).2⟩

theorem committed_of_fin {a : Active} (h : CommittedFin a) : a.Committed := by
  obtain ⟨h1, h2, h3, h4, h5, h6, h7, h8⟩ := h
  refine ⟨h1, h2, h3, ⟨h4.1, h4.2.1, ?_⟩, h5, h6, h7, h8⟩
  have := h4.2.2
  simp only [Config.nrootsMax]
  omega

theorem written_of_fin {s : State} {f : RegFile} {k : Nat} (h : WrittenFin s f k) : s.mem.written f k :=
  fun i hi => Memory.entry_isSome_iff.mp (h i hi)

theorem decode_of_fin {s : State} (h : LatchedFin s) (h' : StagesFin s) : s.DecodeInProgress := by
  obtain ⟨h1, h2, h3, h4, h5, h6, h7⟩ := h
  obtain ⟨h8, h9, h10, h11, h12⟩ := h'
  refine ⟨h1, h2, h3, written_of_fin h4, written_of_fin h5, written_of_fin h6, written_of_fin h7,
    fun h => written_of_fin (h8 h), h9, fun h => ?_, fun h => ?_, fun h => written_of_fin (h12 h)⟩
  · obtain ⟨a, b, c, d, e⟩ := of_decide_eq_true (h10 h)
    exact ⟨a, b, all_of c, d, fun j hj hj' => e j (Nat.lt_succ_of_le hj') hj⟩
  · obtain ⟨a, b, c, c', d⟩ := of_decide_eq_true (h11 h)
    refine ⟨a, fun j hj => ?_, c, c', all_of d⟩
    have := b j hj
    split at this
    · exact ⟨_, _, ‹_›, ‹_›, by simpa using this⟩
    · simp at this

theorem inv_of_check {s : State} (h : invCheck s = true) : s.Inv := by
  simp only [invCheck, Bool.and_eq_true, Bool.or_eq_true, decide_eq_true_eq] at h
  obtain ⟨⟨⟨hw, hc⟩, ht⟩, hd⟩ := h
  refine ⟨hw, fun _ => committed_of_fin hc, fun _ => tables_of_fin ht, fun hn => ?_⟩
  rcases hd with hd | ⟨hl, hs⟩
  · exact absurd hd hn
  · exact decode_of_fin hl hs

/-! ### The states of the tests -/

/-- The staging values of V2: GF(8), poly 0xb, nroots 2, fcr 1, prim 1. -/
def staged8 : State := { State.reset with staging := ⟨3, 0xb, 2, 1, 1⟩ }

/-- V2: GF(8) configured. -/
def gf8 : State := nextOf (exec .config staged8)

/-- GF(8) with a block of length `data.length` and the parity `par`. -/
def block8 (data par : List Half) : State :=
  { gf8 with
    len := BitVec.ofNat 16 data.length
    mem := (gf8.mem.putHalves .data 0 data).putHalves .par 0 par }

/-- The received block of P3: one error at DATA[1], and the erasures 1 and 0. -/
def erased8 : State :=
  let s := block8 [1, 6, 3] [4, 4]
  { s with noEras := 2, mem := s.mem.putWords .eras 0 [1, 0] }

/-- P3 after each of its stages. -/
def syn8 : State := nextOf (exec (.decSyn true true) erased8)
def eras8 : State := nextOf (exec .decEras syn8)
def bm8 : State := nextOf (exec .decBm eras8)
def chien8 : State := nextOf (exec .decChien bm8)
def forney8 : State := nextOf (exec .decForney chien8)

/-- The block of V14 with a locator of degree 0, after DEC_BM. -/
def bmZero8 : State :=
  nextOf (exec .decBm (nextOf (exec .decEras (nextOf (exec (.decSyn false false) (block8 [0, 0, 0] [1, 4]))))))

/-- The block of V14 whose root lies in the pad, after DEC_BM. -/
def bmPad8 : State :=
  nextOf (exec .decBm (nextOf (exec .decEras (nextOf (exec (.decSyn false false) (block8 [0, 0, 0] [1, 3]))))))

/-- A command in flight with `k` host steps left in its window. -/
def inFlight (w : Word) (k : Nat) (host : List HostEvent) : State :=
  { State.reset with cmd := w, status := { State.reset.status with busy := true }, slack := k, pending := host }

/-- A host that is about to do `host`. -/
def hostFirst (s : State) (host : List HostEvent) : State := { s with pending := host }

/-- Entries `[0, k)` of a file as the host reads them; none where one cannot be read. -/
def window (s : State) (f : RegFile) (k : Nat) : List (Option Nat) :=
  (List.range k).map fun i =>
    match s.readFile f i with
    | .ok v => some v.toNat
    | .error _ => none

/-! ### Well-formedness: an ill-formed command word for each check (R112, R115) -/

theorem test_wellFormed_opcode : (Cmdw.mk 0x05 false false 0).wellFormed = false := by decide
theorem test_wellFormed_reserved : (Cmdw.mk 0x00 false false 1).wellFormed = false := by decide
theorem test_wellFormed_flags : (Cmdw.mk 0x02 true false 0).wellFormed = false := by decide

/-! ### Decoding: the words of R114 and R119 -/

theorem test_decode_control : decode 0x00000000 = .ok .nop ∧ decode 0x00000001 = .ok .config ∧
    decode 0x00000002 = .ok .encode ∧ decode 0x00000303 = .ok (.decode true true) ∧ decode 0x00000004 = .ok .softReset := by
  decide

theorem test_decode_stages : decode 0x00000110 = .ok (.decSyn true false) ∧ decode 0x00000210 = .ok (.decSyn false true) ∧
    decode 0x00000011 = .ok .decEras ∧ decode 0x00000012 = .ok .decBm ∧ decode 0x00000013 = .ok .decChien ∧
    decode 0x00000014 = .ok .decForney ∧ decode 0x00000015 = .ok .decApply := by
  decide

theorem test_decode_field : decode 0x00000020 = .ok .fldAlog ∧ decode 0x00000021 = .ok .fldLog ∧
    decode 0x00000022 = .ok .fldModn ∧ decode 0x00000023 = .ok .fldAdd ∧ decode 0x00000024 = .ok .fldMul ∧
    decode 0x00000025 = .ok .fldDiv := by
  decide

theorem test_decode_illegal : decode 0x00000102 = .error .flagsNotAllowed ∧ decode 0x00000400 = .error .reservedBits ∧
    decode 0x00000005 = .error .reservedOpcode ∧ decode 0x00000125 = .error .flagsNotAllowed ∧
    decode 0x80000003 = .error .reservedBits := by
  decide

/-! ### One command each, on the spec's vectors -/

/-- V15 row 1. -/
theorem test_nop : (nextOf (step (State.reset.withFetchWord 32 0))).status.word = 0x00000002 := by decide +kernel

/-- V2. -/
theorem test_config : gf8.status.word = 0x00000012 ∧ gf8.active.actN = 7 ∧ gf8.active.iprim = 1 ∧
    window gf8 .alphaTo 9 = [1, 2, 4, 3, 6, 7, 5, 0, 0].map some ∧
    window gf8 .indexOf 9 = [7, 0, 1, 3, 2, 6, 4, 5, 0].map some ∧ window gf8 .genpoly 4 = [3, 4, 0, 7].map some := by
  decide +kernel

/-- V3, the transactional check. -/
theorem test_config_nonPrimitive :
    (nextOf (exec .config { gf8 with staging := ⟨4, 0x1f, 1, 0, 1⟩ })).status.word = 0x00000416 ∧
    (nextOf (exec .config { gf8 with staging := ⟨4, 0x1f, 1, 0, 1⟩ })).active.actN = 7 := by
  decide +kernel

/-- V5, the first two rows. -/
theorem test_encode : window (nextOf (exec .encode (block8 [1, 2, 3] []))) .par 2 = [4, 4].map some ∧
    window (nextOf (exec .encode { block8 [1, 2, 3] [] with invmask := 3 })) .par 2 = [4, 7].map some := by
  decide +kernel

/-- V5, the row with LEN 6. -/
theorem test_encode_length :
    (nextOf (exec .encode { gf8 with len := 6 })).status.word = 0x00000516 := by decide +kernel

/-- P2. -/
theorem test_decode :
    let t := nextOf (exec (.decode true true) (block8 [1, 6, 3] [4, 4]))
    t.result = 1 ∧ t.status.word = 0x00000012 ∧ window t .data 3 = [1, 2, 3].map some ∧ window t .eras 1 = [some 1] ∧
      window t .corr 1 = [some 4] ∧ window t .mag 1 = [some 0x80000004] := by
  decide +kernel

/-- V14: a root in the pad, and a locator of degree 0. -/
theorem test_decode_uncorrectable :
    (nextOf (exec (.decode true true) (block8 [0, 0, 0] [1, 3]))).result = 0xFFFFFFFF ∧
    (nextOf (exec (.decode true true) (block8 [0, 0, 0] [1, 4]))).result = 0xFFFFFFFF := by
  decide +kernel

/-- V15 row 22. -/
theorem test_softReset :
    let t := nextOf (exec .softReset { block8 [1] [2] with irqEn := 7, cmd := 4 })
    t.status.word = 0x00000002 ∧ t.active.actN = 0 ∧ t.irqEn = 0 ∧ t.cmd = 4 ∧ window t .alphaTo 1 = [some 0] ∧
      window t .data 1 = [some 1] := by
  decide +kernel

/-- V12. -/
theorem test_decSyn :
    let t := nextOf (exec (.decSyn true true) (block8 [1, 6, 3] [4, 4]))
    window t .s 2 = [5, 1].map some ∧ t.scalars.synError = 7 ∧ t.latches = ⟨3, 2, 0, 3, 0⟩ ∧ t.status.word = 0x00010012 := by
  decide +kernel

/-- P3: LAMBDA in element form. -/
theorem test_decEras : window eras8 .lambda 3 = [1, 5, 1].map some ∧ eras8.status.word = 0x00020012 := by decide +kernel

/-- V15 row 17, with the next stage in place of DEC_CHIEN. -/
theorem test_decBm_sequence : (nextOf (exec .decBm syn8)).status.word = 0x00010716 := by decide +kernel

/-- P3. -/
theorem test_decBm : window bm8 .lambda 3 = [0, 6, 0].map some ∧ window bm8 .b 3 = [0, 6, 0].map some ∧
    bm8.scalars.degLambda = 2 ∧ bm8.scalars.el = 2 := by
  decide +kernel

/-- P3. -/
theorem test_decChien : window chien8 .root 2 = [3, 4].map some ∧ window chien8 .loc 2 = [2, 3].map some ∧
    chien8.status.word = 0x00040012 := by
  decide +kernel

/-- P3. -/
theorem test_decForney : window forney8 .omega 2 = [5, 2].map some ∧
    window forney8 .mag 2 = [0x00000000, 0x80000004].map some ∧ forney8.scalars.degOmega = 1 := by
  decide +kernel

/-- P3. -/
theorem test_decApply :
    let t := nextOf (exec .decApply forney8)
    t.result = 2 ∧ window t .data 3 = [1, 2, 3].map some ∧ window t .eras 2 = [0, 1].map some ∧
      window t .corr 2 = [0, 4].map some ∧ t.status.word = 0x00000012 := by
  decide +kernel

/-- V4: FLD_ALOG and FLD_LOG. -/
theorem test_fldAlog : (nextOf (exec .fldAlog { gf8 with opa := 5 })).res = 7 ∧
    (nextOf (exec .fldAlog { gf8 with opa := 0x80000003 })).status.errcode = .domain := by
  decide +kernel

theorem test_fldLog : (nextOf (exec .fldLog { gf8 with opa := 7 })).res = 5 ∧
    (nextOf (exec .fldLog { gf8 with opa := 0 })).res = 7 := by
  decide +kernel

/-- V4: FLD_MODN. -/
theorem test_fldModn : (nextOf (exec .fldModn { gf8 with opa := 20 })).res = 6 ∧
    (nextOf (exec .fldModn { gf8 with opa := 0xFFFFFFFF })).res = 3 := by
  decide +kernel

/-- V4: FLD_ADD, FLD_MUL and FLD_DIV. -/
theorem test_fldAdd : (nextOf (exec .fldAdd { gf8 with opa := 3, opb := 6 })).res = 5 := by decide +kernel

theorem test_fldMul : (nextOf (exec .fldMul { gf8 with opa := 3, opb := 6 })).res = 1 ∧
    (nextOf (exec .fldMul { gf8 with opa := 5, opb := 7 })).res = 6 := by
  decide +kernel

theorem test_fldDiv : (nextOf (exec .fldDiv { gf8 with opa := 1, opb := 3 })).res = 6 ∧
    (nextOf (exec .fldDiv { gf8 with opa := 1, opb := 0 })).status.word = 0x00000816 := by
  decide +kernel

/-- V15, host port vectors. -/
theorem test_port : (nextOf (step (hostFirst State.reset [.read 0x000001]))).rdata = 0x52530001 ∧
    (nextOf (step (hostFirst { State.reset with rdata := 1 } [.read 0x0000B0]))).rdata = 0 ∧
    window (nextOf (step (hostFirst State.reset [hostWrEntry .data 0 0x12345678]))) .data 1 = [some 0x5678] ∧
    window (nextOf (step (hostFirst State.reset [hostWrEntry .eras 0 0xFFFFFFFE]))) .eras 1 = [some 0xFFFFFFFE] := by
  decide +kernel

/-- V15, writes while BUSY. -/
theorem test_port_busy : (nextOf (step (inFlight 2 1 [hostWr .len 1]))).status.werr = true ∧
    (nextOf (step (inFlight 2 1 [hostWr .len 1]))).len = 0 ∧
    (nextOf (step (inFlight 2 1 [hostWr .cmd 0]))).cmd = 2 ∧
    (nextOf (step (inFlight 2 1 [.write 0x0000B0 1]))).status.werr = false := by
  decide +kernel

/-- V15 row 24: the interrupt. -/
theorem test_irq : (nextOf (exec .nop { gf8 with irqEn := 1 })).irq = true ∧
    (nextOf (exec .nop { gf8 with irqEn := 2, status := { gf8.status with done := false } })).irq = false := by
  decide +kernel

/-! ### Witnesses: for every obligation with hypotheses, states and operands that meet them -/

theorem gf8_configured : gf8.configured := ⟨by decide +kernel, by decide +kernel⟩
theorem gf8_inv : gf8.Inv := inv_of_check (by decide +kernel)
theorem gf8_tables : gf8.field.Tables 3 0xb := by
  have h : gf8.active.actM.toNat = 3 ∧ gf8.active.actPoly.toNat = 0xb := by decide +kernel
  have := gf8_inv.tables (by decide +kernel)
  rwa [h.1, h.2] at this
theorem erased8_inv : erased8.Inv := inv_of_check (by decide +kernel)
theorem syn8_inv : syn8.Inv := inv_of_check (by decide +kernel)
theorem eras8_inv : eras8.Inv := inv_of_check (by decide +kernel)
theorem bm8_inv : bm8.Inv := inv_of_check (by decide +kernel)
theorem chien8_inv : chien8.Inv := inv_of_check (by decide +kernel)
theorem forney8_inv : forney8.Inv := inv_of_check (by decide +kernel)

theorem witness_LegalWordsAreExactlyThoseDecoded : decode 0x00000310 = .ok (.decSyn true true) := by decide

theorem witness_StepRunsTheDecodedCommand :
    (State.reset.withFetchWord 32 0x24).status.busy = true ∧ (State.reset.withFetchWord 32 0x24).slack = 0 ∧
      decode (State.reset.withFetchWord 32 0x24).cmd = .ok .fldMul := by
  decide

/-- The last opcode before a reserved range, the first reserved one, the lowest reserved bit, and the flags. -/
theorem witness_IllegalWordCompletesWithIllegalCmd :
    ∀ w ∈ [(0x04 : Word), 0x05, 0x0F, 0x15, 0x16, 0x25, 0x26, 0xFF, 0x00000400, 0x80000000, 0x00000102, 0x00000203],
      (inFlight w 0 []).status.busy = true ∧ (inFlight w 0 []).slack = 0 :=
  all_of (by decide +kernel)

theorem witness_CmdHoldsTheLastIssuedWord :
    ((0x8 : BitVec 22).toNat / 4 = 2 ∧ (0xB : BitVec 22).toNat / 4 = 2) ∧
    (hostFirst State.reset [.write 0x8 1]).status.busy = false ∧ engineMoves (hostFirst State.reset [.read 0xB]) = false ∧
    engineMoves (inFlight 1 1 [.read 0x8]) = false ∧
    (inFlight 1 1 [.write 0xB 0]).status.busy = true ∧ 0 < (inFlight 1 1 [.write 0xB 0]).slack ∧
    isNext (step (hostFirst State.reset [.write 0x8 1])) = true ∧
    (nextOf (step (hostFirst State.reset [.write 0x8 1]))).cmd ≠ (hostFirst State.reset [.write 0x8 1]).cmd := by
  decide +kernel

/-- A command that succeeds, and the three ways ERR is cleared. -/
theorem witness_EveryCommandCompletesItsHandshake :
    (engineMoves (inFlight 0 0 []) = true ∧ isNext (step (inFlight 0 0 [])) = true ∧ decode (inFlight 0 0 []).cmd ≠ .ok .softReset ∧
      (nextOf (step (inFlight 0 0 []))).status.errcode = .noError) ∧
    (engineMoves (inFlight 5 0 []) = true ∧ isNext (step (inFlight 5 0 [])) = true ∧
      (nextOf (step (inFlight 5 0 []))).status.errcode ≠ .noError) ∧
    ∀ s ∈ [({ inFlight 4 0 [] with status := { (inFlight 4 0 []).status with err := true } } : State),
        hostFirst { State.reset with status := { State.reset.status with err := true } } [.write 0xC 4],
        hostFirst { State.reset with status := { State.reset.status with err := true } } [.reset]],
      isNext (step s) = true ∧ s.status.err = true ∧ (nextOf (step s)).status.err = false := by
  decide +kernel

theorem witness_FailedCommandChangesOnlyCompletionFields :
    engineMoves (inFlight 5 0 []) = true ∧ step (inFlight 5 0 []) = .next (nextOf (step (inFlight 5 0 []))) ∧
      (nextOf (step (inFlight 5 0 []))).status.errcode ≠ .noError :=
  ⟨by decide, eq_next (by decide +kernel), by decide +kernel⟩

/-- LEN 6 is the first that does not fit. -/
theorem witness_FirstFailingCheckDecidesTheErrorCode :
    State.reset.status.cfgValid = false ∧
    (gf8.configured ∧ gf8.status.dstage ≠ .syn) ∧
    ({ gf8 with len := 6 } : State).configured ∧ gf8.n < 6 + gf8.nroots :=
  ⟨rfl, ⟨gf8_configured, by decide +kernel⟩, gf8_configured, by decide +kernel⟩

/-- NO_ERAS 3, the position −1, and the position 5, the first outside the block. -/
theorem witness_InvalidErasureVectorRaisesErasure :
    gf8.configured ∧ 3 + gf8.nroots ≤ gf8.n ∧ gf8.nroots < 3 ∧
    (∀ w ∈ [(0xFFFFFFFF : Word), 5], (gf8.mem.putWords .eras 0 [w]).word (entryAddr .eras 0) = some w ∧
      (w.toInt < 0 ∨ (3 : Int) + gf8.nroots ≤ w.toInt)) ∧
    gf8.ErasuresGood 0 3 ∧
    (syn8.configured ∧ syn8.status.dstage = .syn ∧ syn8.latches.dNoEras = 2 ∧
      ((syn8.mem.setWord (entryAddr .eras 0) 5).word (entryAddr .eras 0) = some 5)) ∧
    exec (.decSyn false true) erased8 = .next (nextOf (exec (.decSyn false true) erased8)) ∧
    exec (.decode false true) erased8 = .next (nextOf (exec (.decode false true) erased8)) :=
  ⟨gf8_configured, by decide +kernel, by decide +kernel, all_of (by decide +kernel),
    ⟨Nat.zero_le _, fun _ h => absurd h (by simp)⟩, ⟨⟨by decide +kernel, by decide +kernel⟩, by decide +kernel, by decide +kernel, by decide +kernel⟩,
    eq_next (by decide +kernel), eq_next (by decide +kernel)⟩

theorem witness_ConfigErrorsAreTransactional :
    (Staging.mk 4 0x1f 1 0 1).legal = true ∧ primitive 4 0x1f = false := by decide +kernel

theorem witness_PrimitiveMeansPowersAreDistinct : 2 ≤ 2 ∧ primitive 2 0x7 = true ∧ primitive 2 0x4 = false := by decide

theorem witness_ConfigCommitsTheStagingRegisters :
    staged8.staging.legal = true ∧ primitive staged8.staging.cfgM.toNat staged8.staging.cfgPoly.toNat = true := by
  decide +kernel

/-- The hypotheses of every statement about a CONFIG that succeeded. -/
theorem witness_IprimIsTheSmallestInverse : exec .config staged8 = .next gf8 ∧ gf8.status.errcode = .noError :=
  ⟨eq_next (by decide +kernel), by decide +kernel⟩

theorem witness_ConfigTablesMeetTheirPostconditions : exec .config staged8 = .next gf8 ∧ gf8.status.errcode = .noError :=
  witness_IprimIsTheSmallestInverse

/-- The last entry of a table's window, and the entries just above the field and the generator polynomial. -/
theorem witness_TableWindowsReadTheirFill :
    (State.reset.status.busy = false ∧ State.reset.status.cfgValid = false ∧ 65535 < RegFile.alphaTo.cap ∧
      3 < RegFile.genpoly.cap) ∧
    (exec .config staged8 = .next gf8 ∧ gf8.status.errcode = .noError) ∧ gf8.n < 8 ∧ gf8.nroots < 3 ∧ 3 ≤ Config.nrootsMax :=
  ⟨by decide +kernel, witness_IprimIsTheSmallestInverse, by decide +kernel, by decide +kernel, by decide +kernel⟩

/-- `x = 3n` and `x = 2n² − 1` for `n = 3`. -/
theorem witness_ReducerIterationGivesTheRemainder : 2 ≤ 2 ∧ 9 ≤ 3 * (2 ^ 2 - 1) ∧ 17 < 2 * (2 ^ 2 - 1) ^ 2 := by decide

/-- The operands 0, 1, `n` and `n + 1` of the field operations. -/
theorem witness_FldAlogAndLogReadTheTables :
    State.reset.status.cfgValid = false ∧ (gf8.Inv ∧ gf8.configured ∧ gf8.opa = 0) ∧ (7 : Word).toNat = gf8.n ∧
      gf8.n < (8 : Word).toNat ∧
    ({ gf8 with opa := 1 } : State).Inv ∧ ({ gf8 with opa := 1 } : State).configured ∧ (1 : Word).toNat ≤ gf8.n :=
  ⟨rfl, ⟨gf8_inv, gf8_configured, by decide +kernel⟩, by decide +kernel, by decide +kernel, inv_of_check (by decide +kernel),
    gf8_configured, by decide +kernel⟩

theorem witness_FldModnReducesEveryWord : State.reset.status.cfgValid = false ∧ gf8.configured := ⟨rfl, gf8_configured⟩

theorem witness_FldAddIsExclusiveOr :
    gf8.configured ∧ (7 : Word).toNat ≤ gf8.n ∧ gf8.n < (8 : Word).toNat ∧ gf8.active.Committed :=
  ⟨gf8_configured, by decide +kernel, by decide +kernel, gf8_inv.committed (by decide +kernel)⟩

theorem witness_FldMulMultipliesThroughTheTables :
    ({ gf8 with opa := 1, opb := 7 } : State).Inv ∧ ({ gf8 with opa := 1, opb := 7 } : State).configured ∧
      (7 : Word).toNat ≤ gf8.n ∧ gf8.n < (8 : Word).toNat :=
  ⟨inv_of_check (by decide +kernel), gf8_configured, by decide +kernel, by decide +kernel⟩

theorem witness_FldDivDividesThroughTheTables :
    ({ gf8 with opa := 7, opb := 7 } : State).Inv ∧ ({ gf8 with opa := 7, opb := 7 } : State).configured ∧
      (7 : Word).toNat ≤ gf8.n ∧ (7 : Word) ≠ 0 ∧ gf8.n < (8 : Word).toNat :=
  ⟨inv_of_check (by decide +kernel), gf8_configured, by decide +kernel, by decide, by decide +kernel⟩

theorem witness_TableMultiplicationIsAFieldMultiplication :
    gf8.field.Tables 3 0xb ∧ 2 ≤ 3 ∧ 2 ^ 3 ≤ 0xb ∧ 0xb < 2 ^ (3 + 1) ∧ (7 : Half).toNat ≤ gf8.field.n.toNat ∧ (7 : Half) ≠ 0 :=
  ⟨gf8_tables, by decide, by decide, by decide, by decide +kernel, by decide⟩

/-- A block of the full length 5. -/
theorem witness_EncodeWritesTheParityAndNothingElse :
    (block8 [7, 7, 7, 7, 7] []).configured ∧
      (block8 [7, 7, 7, 7, 7] []).len.toNat + (block8 [7, 7, 7, 7, 7] []).nroots ≤ (block8 [7, 7, 7, 7, 7] []).n ∧
      (block8 [7, 7, 7, 7, 7] []).mem.written .data (block8 [7, 7, 7, 7, 7] []).len.toNat :=
  ⟨gf8_configured, by decide +kernel, written_of_fin (by decide +kernel)⟩

theorem witness_EncodedBlockIsClean :
    exec .config staged8 = .next gf8 ∧ gf8.status.errcode = .noError ∧ [(1 : Half), 2, 3].length = (3 : Half).toNat ∧
      (3 : Half).toNat + gf8.nroots ≤ gf8.n :=
  ⟨witness_IprimIsTheSmallestInverse.1, witness_IprimIsTheSmallestInverse.2, by decide, by decide +kernel⟩

theorem erased8_good : erased8.ErasuresGood 2 3 :=
  State.erasuresValid_true.mp (show erased8.erasuresValid 2 3 = .ok true by decide +kernel)

/-- With the erasures 1 and 0, and without any. -/
theorem witness_DecSynComputesTheSyndromes : erased8.BlockReady true ∧ erased8.BlockReady false := by
  have hc : erased8.configured := gf8_configured
  have hl : erased8.len.toNat + erased8.nroots ≤ erased8.n := by decide +kernel
  have hd : erased8.mem.written .data erased8.len.toNat := written_of_fin (by decide +kernel)
  have hp : erased8.mem.written .par erased8.nroots := written_of_fin (by decide +kernel)
  exact ⟨⟨hc, hl, erased8_good, hd, hp⟩, ⟨hc, hl, ⟨Nat.zero_le _, fun _ h => absurd h (by simp [State.effectiveErasures])⟩, hd, hp⟩⟩

theorem witness_SyndromeEvaluatesTheBlock :
    gf8.field.Tables 3 0xb ∧ 2 ≤ 3 ∧ 2 ^ 3 ≤ 0xb ∧ 0xb < 2 ^ (3 + 1) ∧
      ∀ c ∈ [(1 : Half), 6, 3, 4, 7], c.toNat ≤ gf8.field.n.toNat :=
  ⟨gf8_tables, by decide, by decide, by decide, all_of (by decide +kernel)⟩

theorem witness_DecErasSeedsTheLocator :
    syn8.Inv ∧ syn8.status.dstage = .syn ∧ syn8.ErasuresGood syn8.latches.dNoEras.toNat syn8.latches.dLen.toNat :=
  ⟨syn8_inv, by decide +kernel, State.erasuresValid_true.mp (by decide +kernel)⟩

theorem witness_ErasureLocatorVanishesAtTheErasures :
    gf8.field.Tables 3 0xb ∧ 2 ≤ 3 ∧ 2 ^ 3 ≤ 0xb ∧ 0xb < 2 ^ (3 + 1) ∧ [(3 : Half), 6].length ≤ 2 ∧
      ∀ u ∈ [(3 : Half), 6], u.toNat < gf8.field.n.toNat :=
  ⟨gf8_tables, by decide, by decide, by decide, by decide, all_of (by decide +kernel)⟩

theorem witness_DecBmRunsTheIteration : eras8.Inv ∧ eras8.status.dstage = .eras := ⟨eras8_inv, by decide +kernel⟩

/-- The syndromes of V12: the first Λ without an erasure, and the one of P3 with two (`ne = nroots`). -/
theorem witness_BerlekampMasseySolvesTheKeyEquation :
    gf8.field.Tables 3 0xb ∧ 2 ≤ 3 ∧ 2 ^ 3 ≤ 0xb ∧ 0xb < 2 ^ (3 + 1) ∧ [(5 : Half), 1].length = 2 ∧
      (∀ x ∈ [(5 : Half), 1], x.toNat ≤ gf8.field.n.toNat) ∧
      ∀ p ∈ [([(1 : Half), 0, 0], 0), ([1, 5, 1], 2)], p.1.length = 2 + 1 ∧ p.2 ≤ 2 ∧ nth p.1 0 = 1 ∧
        (∀ l ∈ p.1, l.toNat ≤ gf8.field.n.toNat) ∧ ∀ j < 3, p.2 < j → nth p.1 j = 0 := by
  refine ⟨gf8_tables, by decide, by decide, by decide, by decide, all_of (by decide +kernel), ?_⟩
  intro p h
  simp only [List.mem_cons, List.not_mem_nil, or_false] at h
  rcases h with rfl | rfl <;> exact ⟨rfl, by decide, rfl, all_of (by decide +kernel), by decide⟩

/-- A block that is located, a locator of degree 0, and a root in the pad. -/
theorem witness_DecChienLocatesOrGivesUp :
    (bm8.Inv ∧ bm8.status.dstage = .bm) ∧ (bmZero8.Inv ∧ bmZero8.status.dstage = .bm ∧ bmZero8.scalars.degLambda = 0) ∧
      bmPad8.Inv ∧ bmPad8.status.dstage = .bm ∧ bmPad8.scalars.degLambda = 1 :=
  ⟨⟨bm8_inv, by decide +kernel⟩, ⟨inv_of_check (by decide +kernel), by decide +kernel, by decide +kernel⟩,
    inv_of_check (by decide +kernel), by decide +kernel, by decide +kernel⟩

/-- The locator of V12. -/
theorem witness_ChienFindsExactlyTheRoots :
    1 ≤ 1 ∧ 1 < [(0 : Half), 3, 7].length ∧ 1 ≤ 1 ∧ 1 ≤ gf8.field.n.toNat - 1 ∧ nth [(0 : Half), 3, 7] 0 = 0 ∧
      gf8.field.alpha 0 = 1 ∧ ∀ j < 3, 1 < j → nth [(0 : Half), 3, 7] j = gf8.field.n := by
  decide +kernel

theorem witness_DecForneyComputesTheMagnitudes : chien8.Inv ∧ chien8.status.dstage = .chien :=
  ⟨chien8_inv, by decide +kernel⟩

/-- The locator `1 + α^6·x` of P3 has the degree 2 and the roots 3 and 4. -/
theorem witness_DenominatorNeverVanishes :
    gf8.field.Tables 3 0xb ∧ 2 ≤ 3 ∧ 2 ^ 3 ≤ 0xb ∧ 0xb < 2 ^ (3 + 1) ∧ [(0 : Half), 6, 0].length = 2 + 1 ∧ 1 ≤ 2 ∧
      (∀ l ∈ [(0 : Half), 6, 0], l.toNat ≤ gf8.field.n.toNat) ∧ nth [(0 : Half), 6, 0] 2 ≠ gf8.field.n ∧
      [3, 4].length = 2 ∧ [3, 4].Nodup ∧
      ∀ r ∈ [3, 4], 1 ≤ r ∧ r ≤ gf8.field.n.toNat ∧ evalIndexAt gf8.field [(0 : Half), 6, 0] r = 0 :=
  ⟨gf8_tables, by decide, by decide, by decide, by decide, by decide, all_of (by decide +kernel), by decide +kernel, by decide,
    by decide, all_of (by decide +kernel)⟩

theorem witness_DecApplyCorrectsTheBlock :
    forney8.Inv ∧ forney8.status.dstage = .forney ∧ 1 < forney8.scalars.nrootsFound.toNat ∧
      forney8.mem.half (entryAddr .loc 1) = some 3 ∧ forney8.mem.word (entryAddr .mag 1) = some 0x80000004 ∧
      (0x80000004 : Word).getLsbD 31 = true ∧
      (3 : Half).toNat < forney8.n - forney8.nroots ∧
      forney8.mem.half (entryAddr .data ((3 : Half).toNat - forney8.latches.dPad.toNat)) = some 6 :=
  ⟨forney8_inv, by decide +kernel, by decide +kernel, by decide +kernel, by decide +kernel, by decide, by decide +kernel,
    by decide +kernel⟩

/-- V12's parity error: the located position 6 lies in PAR. -/
theorem witness_DecApplyCorrectsTheBlock_parity :
    let f := nextOf (exec .decForney (nextOf (exec .decChien (nextOf (exec .decBm (nextOf (exec .decEras (nextOf
      (exec (.decSyn true true) (block8 [1, 2, 3] [4, 2]))))))))))
    f.Inv ∧ f.status.dstage = .forney ∧ f.mem.half (entryAddr .loc 0) = some 6 ∧ f.n - f.nroots ≤ (6 : Half).toNat ∧
      f.mem.word (entryAddr .mag 0) = some 0x80000006 ∧
      f.mem.half (entryAddr .par ((6 : Half).toNat - (f.n - f.nroots))) = some 2 :=
  ⟨inv_of_check (by decide +kernel), by decide +kernel, by decide +kernel, by decide +kernel, by decide +kernel,
    by decide +kernel⟩

theorem witness_DecApplyCorrectsTheBlock_frame : exec .decApply forney8 = .next (nextOf (exec .decApply forney8)) :=
  eq_next (by decide +kernel)

theorem witness_DecodeOfAReadyBlockCompletes : erased8.Inv ∧ erased8.BlockReady true :=
  ⟨erased8_inv, witness_DecSynComputesTheSyndromes.1⟩

/-- The block `1 2 3 | 4 4` sent (V5), with one symbol wrong: found as an error, and as one of two erasures. -/
theorem witness_DecodeRestoresTheBlockSent :
    erased8.Inv ∧ erased8.BlockReady true ∧ erased8.BlockReady false ∧
      [(1 : Half), 2, 3, 4, 4].length = erased8.len.toNat + erased8.nroots ∧
      (∀ x ∈ [(1 : Half), 2, 3, 4, 4], x.toNat ≤ erased8.n) ∧
      (∀ i < erased8.nroots,
        evalAt erased8.field [(1 : Half), 2, 3, 4, 4].reverse ((erased8.fcr + i) * erased8.prim) = 0) ∧
      (erased8.erasedPositions true).Nodup ∧ (erased8.erasedPositions false).Nodup ∧
      erased8.wrongPositions [1, 2, 3, 4, 4] = [1] ∧
      2 * erased8.unmarkedErrors true [1, 2, 3, 4, 4] + erased8.effectiveErasures true ≤ erased8.nroots ∧
      2 * erased8.unmarkedErrors false [1, 2, 3, 4, 4] + erased8.effectiveErasures false ≤ erased8.nroots :=
  ⟨erased8_inv, witness_DecSynComputesTheSyndromes.1, witness_DecSynComputesTheSyndromes.2, by decide +kernel,
    all_of (by decide +kernel), by decide +kernel, by decide +kernel, by decide +kernel, by decide +kernel, by decide +kernel,
    by decide +kernel⟩

/-- R270, R328: a denominator that is 0 is a fault also where `num1` is 0. -/
theorem test_forney_zeroDenominator : forneyMag gf8.field [7] [0, 7, 7] 1 2 1 0 1 0 = .error .zeroDenominator := by
  decide +kernel

/-- A block that is corrected, and one that is uncorrectable. -/
theorem witness_StagedDecodeEqualsDecode :
    (exec (.decSyn true true) erased8 = .next syn8 ∧ syn8.status.errcode = .noError ∧ syn8.status.dstage = .syn) ∧
    (exec .decEras syn8 = .next eras8 ∧ eras8.status.errcode = .noError ∧ exec .decBm eras8 = .next bm8 ∧
      exec .decChien bm8 = .next chien8 ∧ chien8.status.dstage = .chien) ∧
    (exec .decForney chien8 = .next forney8 ∧ exec .decApply forney8 = .next (nextOf (exec .decApply forney8))) ∧
    (exec .decChien bmPad8 = .next (nextOf (exec .decChien bmPad8)) ∧
      (nextOf (exec .decChien bmPad8)).status.dstage = .idle) ∧
    (exec (.decSyn true true) (block8 [1, 2, 3] [4, 4]) = .next (nextOf (exec (.decSyn true true) (block8 [1, 2, 3] [4, 4]))) ∧
      (nextOf (exec (.decSyn true true) (block8 [1, 2, 3] [4, 4]))).status.dstage = .idle) :=
  ⟨⟨eq_next (by decide +kernel), by decide +kernel, by decide +kernel⟩,
    ⟨eq_next (by decide +kernel), by decide +kernel, eq_next (by decide +kernel), eq_next (by decide +kernel), by decide +kernel⟩,
    ⟨eq_next (by decide +kernel), eq_next (by decide +kernel)⟩, ⟨eq_next (by decide +kernel), by decide +kernel⟩,
    eq_next (by decide +kernel), by decide +kernel⟩

theorem witness_DecodeMutatesOnlyItsBuffers :
    exec (.decode true true) erased8 = .next (nextOf (exec (.decode true true) erased8)) ∧
    exec .decChien bmPad8 = .next (nextOf (exec .decChien bmPad8)) ∧
    (nextOf (exec .decChien bmPad8)).status.errcode = .noError ∧ (nextOf (exec .decChien bmPad8)).status.dstage = .idle ∧
    (nextOf (exec .decChien bmPad8)).result = 0xFFFFFFFF :=
  ⟨eq_next (by decide +kernel), eq_next (by decide +kernel), by decide +kernel, by decide +kernel, by decide +kernel⟩

/-- A stage that succeeds and one out of order. -/
theorem witness_CommandsMoveDstageAsListed :
    (exec .decEras syn8 = .next eras8 ∧ eras8.status.errcode = .noError) ∧
    exec .decBm syn8 = .next (nextOf (exec .decBm syn8)) ∧ (nextOf (exec .decBm syn8)).status.errcode ≠ .noError :=
  ⟨⟨eq_next (by decide +kernel), by decide +kernel⟩, eq_next (by decide +kernel), by decide +kernel⟩

theorem witness_LaterStagesIgnoreTheOperandRegisters :
    exec .decEras syn8 = .next eras8 ∧ exec .decApply forney8 = .next (nextOf (exec .decApply forney8)) :=
  ⟨eq_next (by decide +kernel), eq_next (by decide +kernel)⟩

theorem witness_OnlyConfigAndSoftResetChangeTheConfiguration : exec .decEras syn8 = .next eras8 := eq_next (by decide +kernel)

theorem witness_ResetStateIsUnconfigured :
    exec .nop State.reset = .next (nextOf (exec .nop State.reset)) ∧
    exec .fldDiv State.reset = .next (nextOf (exec .fldDiv State.reset)) :=
  ⟨eq_next (by decide), eq_next (by decide)⟩

/-- Idle, and in the window of a command. -/
theorem witness_ResetInputRestoresTheResetState :
    engineMoves (hostFirst gf8 [.reset]) = false ∧ engineMoves (inFlight 2 1 [.reset]) = false := by
  decide +kernel

theorem witness_AddressMapIsThatOfTheSpec :
    65535 < RegFile.data.cap ∧ 31 < RegFile.par.cap ∧ 32 < RegFile.lambda.cap := by decide +kernel

/-- The ends of each unmapped range, the first entry beyond a capacity for certain, and the ends of the read-only ranges. -/
theorem witness_UnmappedAndReadOnlyOffsetsIgnoreWrites :
    State.reset.status.busy = false ∧
    (∀ off ∈ [(0xA8 : BitVec 22), 0x03FFFF, 0x3C0000, 0x3FFFFF, 0x30, 0x3F, 0x54, 0x5F, 0x7C, 0x7F],
      0xA8 ≤ off.toNat ∧ off.toNat < 0x040000 ∨ 0x3C0000 ≤ off.toNat ∨ 0x30 ≤ off.toNat ∧ off.toNat < 0x40 ∨
        0x54 ≤ off.toNat ∧ off.toNat < 0x60 ∨ 0x7C ≤ off.toNat ∧ off.toNat < 0x80) ∧
    (RegFile.par.cap ≤ 65535 ∧ (0x17FFFF : BitVec 22).toNat / 4 * 4 = entryAddr .par 65535) ∧
    ∀ off ∈ [(0x0 : BitVec 22), 0x7, 0x14, 0x1B, 0x60, 0x0FFFFF, 0x200000, 0x3FFFFF],
      off.toNat < 8 ∨ 0x14 ≤ off.toNat ∧ off.toNat < 0x1C ∨ 0x60 ≤ off.toNat ∧ off.toNat < 0x100000 ∨ 0x200000 ≤ off.toNat := by
  refine ⟨rfl, all_of (by decide +kernel), ⟨?_, by decide +kernel⟩, all_of (by decide +kernel)⟩
  have := Config.nrootsMaxAbove32.isLt
  simp only [RegFile.cap, Config.nrootsMax]
  omega

theorem witness_WrittenEntryReadsBack :
    State.reset.status.busy = false ∧ 65535 < RegFile.data.cap ∧ 31 < RegFile.eras.cap ∧
      (hostFirst State.reset [hostWrEntry .eras 31 5, hostRdEntry .eras 31]).pending =
        [hostWrEntry .eras 31 5, hostRdEntry .eras 31] := by
  decide +kernel

/-- A written entry of a wide file, of a read-only one, and the last entry of GENPOLY below its fill. -/
theorem witness_WrittenEntryReadsBack_readOnly :
    (hostFirst forney8 [hostRdEntry .mag 1]).status.busy = false ∧ 1 < RegFile.mag.cap ∧
      forney8.mem.word (entryAddr .mag 1) = some 0x80000004 ∧ forney8.mem.half (entryAddr .s 1) ≠ none ∧
      forney8.status.cfgValid = true ∧ 2 ≤ forney8.nroots ∧ 2 < RegFile.genpoly.cap := by
  decide +kernel

/-- Idle, and in the window of a command. -/
theorem witness_HostReadsHaveNoSideEffect :
    (engineMoves (hostFirst gf8 [.read 0x040000]) = false ∧
      step (hostFirst gf8 [.read 0x040000]) = .next (nextOf (step (hostFirst gf8 [.read 0x040000])))) ∧
    engineMoves (inFlight 2 1 [.read 0x14]) = false ∧
      step (inFlight 2 1 [.read 0x14]) = .next (nextOf (step (inFlight 2 1 [.read 0x14]))) :=
  ⟨⟨by decide +kernel, eq_next (by decide +kernel)⟩, by decide, eq_next (by decide)⟩

theorem witness_RegistersReadAndStoreAsListed : gf8.status.busy = false := by decide +kernel

theorem witness_BusyWindowFollowsItsRules :
    (∀ off : BitVec 22, (inFlight 2 1 [.read off]).status.busy = true ∧ 0 < (inFlight 2 1 [.read off]).slack) ∧
    portTarget 0xF = .reg .status ∧ portTarget 0x10 = .reg .irqEn ∧ portTarget 0x8 = .reg .cmd ∧
    portTarget 0x100000 = .entry .data 0 ∧ portTarget 0xB0 = .unmapped ∧ portTarget 0x3C0000 = .unmapped ∧
    portTarget 0x14 = .reg .result := by
  refine ⟨fun _ => ⟨rfl, Nat.one_pos⟩, ?_⟩
  decide +kernel

theorem witness_BusyWindowReachesTheEngine :
    (inFlight 2 3 [.wait, hostWr .len 1, .read 0x14]).status.busy = true ∧
      HostEvent.reset ∉ (inFlight 2 3 [.wait, hostWr .len 1, .read 0x14]).pending := by
  decide

theorem witness_IrqFollowsStatusAndEnables :
    exec .nop { gf8 with irqEn := 1 } = .next (nextOf (exec .nop { gf8 with irqEn := 1 })) ∧
      ({ gf8 with irqEn := 1 } : State).irqEn.getLsbD 0 = true :=
  ⟨eq_next (by decide), rfl⟩

/-- The first entry, the last entry of the message, and a SOFT_RESET. -/
theorem witness_UnwrittenEntriesStopTheRun :
    (State.reset.status.busy = false ∧ RegFile.mag.isTable = false ∧ 31 < RegFile.mag.cap ∧
      ¬State.reset.mem.entryWritten .mag 31) ∧
    (({ gf8 with len := 5 } : State).configured ∧ 5 + gf8.nroots ≤ gf8.n ∧
      (gf8.mem.putHalves .data 0 [1, 2, 3, 4]).written .data 4 ∧
      ¬(gf8.mem.putHalves .data 0 [1, 2, 3, 4]).entryWritten .data 4) ∧
    exec .softReset gf8 = .next (nextOf (exec .softReset gf8)) := by
  refine ⟨⟨rfl, rfl, by decide +kernel, ?_⟩, ⟨gf8_configured, by decide +kernel, ?_, ?_⟩, eq_next (by decide +kernel)⟩
  · rw [← Memory.entry_isSome_iff]
    decide
  · exact written_of_fin (s := { gf8 with mem := gf8.mem.putHalves .data 0 [1, 2, 3, 4] }) (by decide +kernel)
  · rw [← Memory.entry_isSome_iff]
    decide +kernel

/-- The last entry of each run a decode reads: ERAS[1], DATA[2] and PAR[1] of a block of three symbols with two erasures. -/
theorem witness_UnwrittenEntriesStopTheRun_decode :
    erased8.configured ∧ erased8.len.toNat + erased8.nroots ≤ erased8.n ∧ erased8.effectiveErasures true = 2 ∧
      erased8.nroots = 2 ∧ erased8.len = 3 ∧
    ((gf8.mem.putWords .eras 0 [1]).entry .eras 1 = none ∧
      ({ erased8 with mem := gf8.mem.putWords .eras 0 [1] } : State).ErasuresGood 1 3) ∧
    (WrittenFin { gf8 with mem := gf8.mem.putHalves .data 0 [1, 6] } .data 2 ∧
      (gf8.mem.putHalves .data 0 [1, 6]).entry .data 2 = none) ∧
    (WrittenFin { gf8 with mem := gf8.mem.putHalves .par 0 [4] } .par 1 ∧ (gf8.mem.putHalves .par 0 [4]).entry .par 1 = none) ∧
    syn8.configured ∧ syn8.status.dstage = .syn ∧ syn8.latches.dNoEras.toNat ≤ syn8.nroots :=
  ⟨gf8_configured, by decide +kernel, by decide +kernel, by decide +kernel, by decide +kernel,
    ⟨by decide +kernel, State.erasuresValid_true.mp (by decide +kernel)⟩, by decide +kernel, by decide +kernel,
    ⟨by decide +kernel, by decide +kernel⟩, by decide +kernel, by decide +kernel⟩

/-- A host write, and a stage of a decode. -/
theorem witness_EveryStepKeepsTheInvariant :
    (erased8.Inv ∧ step erased8 = .next (nextOf (step erased8))) ∧
    (eras8.placeCommand 0x12).Inv ∧ step (eras8.placeCommand 0x12) = .next (nextOf (step (eras8.placeCommand 0x12))) :=
  ⟨⟨erased8_inv, eq_next (by decide +kernel)⟩, inv_of_check (by decide +kernel), eq_next (by decide +kernel)⟩

theorem witness_OnlyUnwrittenEntriesStopAStep :
    (hostFirst gf8 [hostRdEntry .par 0]).Inv ∧ step (hostFirst gf8 [hostRdEntry .par 0]) = .fault (.unwrittenEntry .par 0) := by
  refine ⟨inv_of_check (by decide +kernel), ?_⟩
  have : hostEvent (hostFirst gf8 [hostRdEntry .par 0]) = .error (.unwrittenEntry .par 0) := by decide +kernel
  have hb : (hostFirst gf8 [hostRdEntry .par 0]).status.busy = false := by decide +kernel
  simp [step, machineStep, engineMoves, hb, hostTurn, this]

end Sys2Proof.Tests
end

/-! ### What a write outside the tables keeps of a memory -/

namespace Sys2Proof.Machine

/-- `m'` comes from `m` by writes to the buffers and the working files: the canonical form stays, no byte below their windows
changes, and no byte that has a value loses it. -/
structure Memory.Kept (m m' : Memory) : Prop where
  wf       : m.wf → m'.wf
  tables   : ∀ a < 0x100000, m'.read a = m.read a
  readable : ∀ a, (m.read a).isSome = true → (m'.read a).isSome = true

namespace Memory

theorem Kept.refl (m : Memory) : m.Kept m := ⟨id, fun _ _ => rfl, fun _ => id⟩

theorem Kept.trans {m m' m'' : Memory} (h : m.Kept m') (h' : m'.Kept m'') : m.Kept m'' :=
  ⟨fun w => h'.wf (h.wf w), fun a ha => (h'.tables a ha).trans (h.tables a ha), fun a ha => h'.readable a (h.readable a ha)⟩

theorem kept_write (m : Memory) {a : Nat} (v : Byte) (h : 0x100000 ≤ a) : m.Kept (m.write a v) where
  wf w := write_wf w a v
  tables c hc := read_write_of_ne m v (by omega)
  readable c hc := by
    by_cases e : c = a
    · simp [e]
    · rwa [read_write_of_ne m v e]

theorem kept_setHalf (m : Memory) {a : Nat} (v : Half) (h : 0x100000 ≤ a) : m.Kept (m.setHalf a v) :=
  (kept_write m _ h).trans (kept_write _ _ (by omega))

theorem kept_setWord (m : Memory) {a : Nat} (v : Word) (h : 0x100000 ≤ a) : m.Kept (m.setWord a v) :=
  (kept_setHalf m _ h).trans (kept_setHalf _ _ (by omega))

/-- Only the tables lie below `0x100000` (R82). -/
theorem le_entryAddr {f : RegFile} (hf : f.isTable = false) (i : Nat) : 0x100000 ≤ entryAddr f i := by
  unfold entryAddr
  cases f <;> simp only [RegFile.isTable, RegFile.base, reduceCtorEq] at hf ⊢ <;> omega

theorem kept_putHalves (m : Memory) {f : RegFile} (hf : f.isTable = false) (i : Nat) (vs : List Half) :
    m.Kept (m.putHalves f i vs) := by
  induction vs generalizing m i with
  | nil => exact .refl m
  | cons v vs ih => exact (kept_setHalf m v (le_entryAddr hf i)).trans (ih _ _)

theorem kept_putWords (m : Memory) {f : RegFile} (hf : f.isTable = false) (i : Nat) (vs : List Word) :
    m.Kept (m.putWords f i vs) := by
  induction vs generalizing m i with
  | nil => exact .refl m
  | cons v vs ih => exact (kept_setWord m v (le_entryAddr hf i)).trans (ih _ _)

theorem kept_setEntry (m : Memory) {f : RegFile} (hf : f.isTable = false) (i : Nat) (v : Word) :
    m.Kept (m.setEntry f i v) := by
  unfold setEntry
  split
  · exact kept_setWord m v (le_entryAddr hf i)
  · exact kept_setHalf m _ (le_entryAddr hf i)

theorem half_isSome_iff {m : Memory} {a : Nat} :
    (m.half a).isSome = true ↔ (m.read a).isSome = true ∧ (m.read (a + 1)).isSome = true := by
  unfold half
  cases m.read a <;> cases m.read (a + 1) <;> simp

theorem word_isSome_iff {m : Memory} {a : Nat} :
    (m.word a).isSome = true ↔ (m.half a).isSome = true ∧ (m.half (a + 2)).isSome = true := by
  unfold word
  cases m.half a <;> cases m.half (a + 2) <;> simp

theorem Kept.half_isSome {m m' : Memory} (k : m.Kept m') {a : Nat} (h : (m.half a).isSome = true) :
    (m'.half a).isSome = true :=
  half_isSome_iff.mpr ((half_isSome_iff.mp h).imp (k.readable _) (k.readable _))

theorem Kept.entryWritten {m m' : Memory} (k : m.Kept m') {f : RegFile} {i : Nat} (h : m.entryWritten f i) :
    m'.entryWritten f i := by
  unfold Memory.entryWritten at h ⊢
  split_ifs at h ⊢
  · exact word_isSome_iff.mpr ((word_isSome_iff.mp h).imp k.half_isSome k.half_isSome)
  · exact k.half_isSome h

/-- An entry that was written stays written (R64). -/
theorem Kept.written {m m' : Memory} (k : m.Kept m') {f : RegFile} {n : Nat} (h : m.written f n) : m'.written f n :=
  fun i hi => k.entryWritten (h i hi)

theorem Kept.tableEntry {m m' : Memory} (k : m.Kept m') {f : RegFile} (hf : f.isTable = true) {i : Nat} (hi : i < 65536) :
    m'.tableEntry f i = m.tableEntry f i := by
  have ha : entryAddr f i + 1 < 0x100000 := by
    unfold entryAddr
    cases f <;> simp only [RegFile.isTable, RegFile.base, reduceCtorEq] at hf ⊢ <;> omega
  rw [Memory.tableEntry, half_congr (k.tables _ (by omega)) (k.tables _ ha), Memory.tableEntry]

/-! ### A file whose entries stay -/

/-- The 16-bit entries of a file are the same in two memories. -/
def SameFile (f : RegFile) (m m' : Memory) : Prop := ∀ j < 65536, m'.half (entryAddr f j) = m.half (entryAddr f j)

theorem SameFile.trans {f : RegFile} {m m' m'' : Memory} (h : SameFile f m m') (h' : SameFile f m' m'') :
    SameFile f m m'' := fun j hj => (h' j hj).trans (h j hj)

theorem sameFile_putHalves (m : Memory) {f g : RegFile} (vs : List Half) (hl : vs.length ≤ 65536) (h : f ≠ g) :
    SameFile g m (m.putHalves f 0 vs) :=
  fun _ hj => half_putHalves_outside m vs (by omega) hj (.inl h)

theorem sameFile_putWords (m : Memory) {f g : RegFile} (vs : List Word) (hl : vs.length ≤ 65536) (h : f ≠ g) :
    SameFile g m (m.putWords f 0 vs) :=
  fun _ hj => half_putWords_outside m vs (by omega) hj (.inl h)

theorem sameFile_setEntry (m : Memory) {f g : RegFile} {i : Nat} (v : Word) (hi : i < 65536) (h : f ≠ g) :
    SameFile g m (m.setEntry f i v) := by
  intro j hj
  have := entryAddr_disjoint hi hj (.inl h)
  unfold setEntry
  split
  · exact half_setWord_of_disjoint m v (by omega)
  · exact half_setHalf_of_disjoint m _ (by omega)

/-- A run written from entry 0 on reads back. -/
theorem half_putHalves_zero (m : Memory) (f : RegFile) {vs : List Half} {k : Nat} (hk : k < vs.length)
    (hl : vs.length ≤ 65536) : (m.putHalves f 0 vs).half (entryAddr f k) = some vs[k] := by
  have := half_putHalves_inside m f 0 vs hk (by omega)
  rwa [Nat.zero_add] at this

theorem written_putHalves (m : Memory) {f : RegFile} (hf : f.wide = false) {vs : List Half} {k : Nat} (hk : vs.length = k)
    (hl : k ≤ 65536) : (m.putHalves f 0 vs).written f k :=
  fun i hi => (entryWritten_narrow hf).mpr ⟨vs[i], half_putHalves_zero m f (hk ▸ hi) (by omega)⟩

theorem written_putWords (m : Memory) {f : RegFile} (hf : f.wide = true) {vs : List Word} {k : Nat} (hk : vs.length = k)
    (hl : k ≤ 65536) : (m.putWords f 0 vs).written f k := by
  intro i hi
  refine (entryWritten_wide hf).mpr ⟨vs[i], ?_⟩
  simpa using word_putWords_inside m f 0 vs (hk ▸ hi) (by omega)

end Memory

theorem State.halves_congr {s t : State} {f : RegFile} (h : Memory.SameFile f s.mem t.mem) {k : Nat} (hk : k ≤ 65536) :
    t.halves f k = s.halves f k := by
  unfold State.halves
  refine List.map_congr_left fun j hj => ?_
  rw [h j (by have := List.mem_range.mp hj; omega)]

/-- A run just written is what the file holds. -/
theorem State.halves_putHalves {t : State} {m : Memory} {f : RegFile} {vs : List Half} (ht : t.mem = m.putHalves f 0 vs)
    {k : Nat} (hk : vs.length = k) (hl : k ≤ 65536) : t.halves f k = vs := by
  refine List.ext_getElem (by simp [hk]) fun i hi hi' => ?_
  simp [State.halves, ht, m.half_putHalves_zero f hi' (by omega)]

/-- The field depends on the tables and on `ACT_N` alone (R18). -/
theorem State.field_congr {s t : State} (ha : t.active = s.active) (k : s.mem.Kept t.mem) : t.field = s.field := by
  unfold State.field
  rw [ha]
  congr 1 <;> funext x <;> exact k.tableEntry rfl x.isLt

end Sys2Proof.Machine

namespace Sys2Proof.Machine

/-! ### What each body answers -/

theorem encodeBody_eq_ok {s t : State} : encodeBody s = .ok t ↔
    ∃ msg, s.message s.len.toNat s.mask = .ok msg ∧
      t = s.setMem (s.mem.putHalves .par 0 (encodeParity s.field s.genpolyList s.nroots msg)) := by
  unfold encodeBody
  cases s.message s.len.toNat s.mask <;> simp [eq_comm]

theorem decSynBody_ok {e c : Bool} {s t : State} (h : decSynBody e c s = .ok t) :
    ∃ block r d, s.block s.len.toNat s.mask = .ok block ∧ (d = .idle ∨ d = .syn) ∧
      t = ((((s.setLatches (s.latched e c)).setScalars
          { s.scalars with synError := orAll (syndromes s.field s.nroots s.fcr s.prim block) }).setMem
        (s.mem.putHalves .s 0 ((syndromes s.field s.nroots s.fcr s.prim block).map s.field.log))).setResult r).setStage d := by
  unfold decSynBody at h
  split at h
  · cases h
  · rename_i block hb
    have ht := (Except.ok.inj h).symm
    split at ht
    · exact ⟨block, 0, .idle, hb, .inl rfl, ht⟩
    · exact ⟨block, s.result, .syn, hb, .inr rfl, ht⟩

theorem decErasBody_eq_ok {s t : State} : decErasBody s = .ok t ↔
    ∃ us, mapE s.erasureExponent (List.range s.latches.dNoEras.toNat) = .ok us ∧
      t = (s.setMem (s.mem.putHalves .lambda 0 (erasureLocator s.field s.nroots us))).setStage .eras := by
  unfold decErasBody
  cases mapE s.erasureExponent (List.range s.latches.dNoEras.toNat) <;> simp [eq_comm]

theorem decBmBody_eq_ok {s t : State} : decBmBody s = .ok t ↔
    ∃ lam syn v deg, s.mem.getHalves .lambda (s.nroots + 1) = .ok lam ∧ s.mem.getHalves .s s.nroots = .ok syn ∧
      bmLoop s.field syn s.latches.dNoEras.toNat s.nroots
        { lam := lam, b := lam.map s.field.log, el := s.latches.dNoEras.toNat } = .ok v ∧
      degree? s.field (v.lam.map s.field.log) = some deg ∧
      t = ((s.setScalars { s.scalars with degLambda := BitVec.ofNat 16 deg, el := BitVec.ofNat 16 v.el }).setMem
        ((s.mem.putHalves .lambda 0 (v.lam.map s.field.log)).putHalves .b 0 v.b)).setStage .bm := by
  constructor
  · intro h
    unfold decBmBody at h
    split at h
    · cases h
    · cases h
    · rename_i lam syn hlam hsyn
      simp only at h
      split at h
      · cases h
      · rename_i v hv
        split at h
        · cases h
        · exact ⟨lam, syn, v, _, hlam, hsyn, hv, ‹_›, (Except.ok.inj h).symm⟩
  · rintro ⟨lam, syn, v, deg, h1, h2, h3, h4, rfl⟩
    simp only [decBmBody, h1, h2, h3, h4]

/-- What DEC_CHIEN's search finds in the locator `lam` (R260). -/
def State.chienFound (s : State) (lam : List Half) : List (Half × Half) :=
  if s.scalars.degLambda.toNat = 0 then []
  else chienSearch s.field s.scalars.degLambda.toNat s.active.iprim.toNat lam

/-- The state with ROOT, LOC and NROOTS_FOUND as DEC_CHIEN writes them (R260). -/
def State.chienWritten (s : State) (lam : List Half) : State :=
  (s.setScalars { s.scalars with nrootsFound := BitVec.ofNat 16 (s.chienFound lam).length }).setMem
    ((s.mem.putHalves .root 0 ((s.chienFound lam).map Prod.fst)).putHalves .loc 0 ((s.chienFound lam).map Prod.snd))

theorem decChienBody_eq_ok {policy : Config.PadRootPolicy} {s t : State} : decChienBody policy s = .ok t ↔
    s.scalars.degLambda.toNat ≤ s.nroots ∧ ∃ lam, s.mem.getHalves .lambda (s.nroots + 1) = .ok lam ∧
      t = if uncorrectable policy s.scalars.degLambda.toNat s.latches.dPad.toNat (s.chienFound lam) then
          ((s.chienWritten lam).setResult 0xFFFFFFFF).setStage .idle
        else (s.chienWritten lam).setStage .chien := by
  unfold decChienBody
  simp only
  split
  · rename_i hdeg
    simp only [reduceCtorEq, false_iff, not_and]
    omega
  · rename_i hdeg
    rw [and_iff_right (by omega)]
    cases s.mem.getHalves .lambda (s.nroots + 1) with
    | error e => simp
    | ok lam =>
      simp only [Except.ok.injEq, exists_eq_left', eq_comm (b := t)]
      rfl

/-- DEC_CHIEN ends with DSTAGE IDLE, or with DSTAGE CHIEN where no case of R262 holds. -/
theorem decChienBody_ok {policy : Config.PadRootPolicy} {s t : State} (h : decChienBody policy s = .ok t) :
    ∃ lam r d, s.mem.getHalves .lambda (s.nroots + 1) = .ok lam ∧
      (d = .idle ∨
        d = .chien ∧ uncorrectable policy s.scalars.degLambda.toNat s.latches.dPad.toNat (s.chienFound lam) = false) ∧
      t = ((s.chienWritten lam).setResult r).setStage d := by
  obtain ⟨-, lam, hlam, ht⟩ := decChienBody_eq_ok.mp h
  split at ht
  · exact ⟨lam, 0xFFFFFFFF, .idle, hlam, .inl rfl, ht⟩
  · exact ⟨lam, s.result, .chien, hlam, .inr ⟨rfl, Bool.eq_false_iff.mpr ‹_›⟩, ht⟩

theorem decForneyBody_eq_ok {s t : State} : decForneyBody s = .ok t ↔
    (1 ≤ s.scalars.degLambda.toNat ∧ s.scalars.degLambda.toNat ≤ s.nroots ∧ s.scalars.nrootsFound.toNat ≤ s.nroots) ∧
    ∃ syn lam roots locs mags, s.mem.getHalves .s s.nroots = .ok syn ∧ s.mem.getHalves .lambda (s.nroots + 1) = .ok lam ∧
      s.mem.getHalves .root s.scalars.nrootsFound.toNat = .ok roots ∧
      s.mem.getHalves .loc s.scalars.nrootsFound.toNat = .ok locs ∧
      mapE (fun j => forneyMag s.field (omegaList s.field syn lam s.scalars.degLambda.toNat) lam s.scalars.degLambda.toNat
        s.nroots s.fcr s.latches.dPad.toNat (nth roots j).toNat (nth locs j).toNat)
        (List.range s.scalars.nrootsFound.toNat) = .ok mags ∧
      t = ((s.setScalars { s.scalars with degOmega := BitVec.ofNat 16 (s.scalars.degLambda.toNat - 1) }).setMem
        ((s.mem.putHalves .omega 0 (omegaList s.field syn lam s.scalars.degLambda.toNat)).putWords .mag 0 mags)).setStage
          .forney := by
  constructor
  · intro h
    unfold decForneyBody at h
    simp only at h
    split at h
    · cases h
    · split at h
      · cases h
      · refine ⟨by omega, ?_⟩
        split at h
        · rename_i syn lam roots locs h1 h2 h3 h4
          split at h
          · cases h
          · exact ⟨syn, lam, roots, locs, _, h1, h2, h3, h4, ‹_›, (Except.ok.inj h).symm⟩
        all_goals cases h
  · rintro ⟨⟨hd, hd', hc⟩, syn, lam, roots, locs, mags, h1, h2, h3, h4, h5, rfl⟩
    have hdeg : ¬(s.scalars.degLambda.toNat = 0 ∨ s.nroots < s.scalars.degLambda.toNat) := by omega
    have hcount : ¬s.nroots < s.scalars.nrootsFound.toNat := by omega
    simp only [decForneyBody, hdeg, hcount, if_false, h1, h2, h3, h4, h5]

theorem decApplyBody_eq_ok {s t : State} : decApplyBody s = .ok t ↔
    s.scalars.nrootsFound.toNat ≤ s.nroots ∧
    ∃ locs mags mem, s.mem.getHalves .loc s.scalars.nrootsFound.toNat = .ok locs ∧
      s.mem.getWords .mag s.scalars.nrootsFound.toNat = .ok mags ∧
      foldE (applyStep s.n s.nroots s.latches.dPad.toNat (s.latches.dFlags.getLsbD 1) locs mags) s.mem
        (List.range s.scalars.nrootsFound.toNat).reverse = .ok mem ∧
      t = ((s.setMem (if s.latches.dFlags.getLsbD 0 then
          mem.putWords .eras 0 (locs.map fun l => tc32 (l.toNat - s.latches.dPad.toNat)) else mem)).setResult
        (tc32 s.scalars.nrootsFound.toNat)).setStage .idle := by
  constructor
  · intro h
    unfold decApplyBody at h
    simp only at h
    split at h
    · cases h
    · refine ⟨by omega, ?_⟩
      split at h
      · rename_i locs mags hl hm
        split at h
        · cases h
        · exact ⟨locs, mags, _, hl, hm, ‹_›, (Except.ok.inj h).symm⟩
      all_goals cases h
  · rintro ⟨hc, locs, mags, mem, h1, h2, h3, rfl⟩
    have hcount : ¬s.nroots < s.scalars.nrootsFound.toNat := by omega
    simp only [decApplyBody, hcount, if_false, h1, h2, h3]

/-- The ways DECODE can end (R290): after its DEC_SYN part with a clean block, after its DEC_CHIEN part with an uncorrectable one,
or after its DEC_APPLY part. -/
theorem decodeBody_ok {policy : Config.PadRootPolicy} {e c : Bool} {s t : State} (h : decodeBody policy e c s = .ok t) :
    ∃ s1, decSynBody e c s = .ok s1 ∧
      (s1.status.dstage = .idle ∧ t = s1 ∨
        s1.status.dstage ≠ .idle ∧ ∃ s2 s3 s4, decErasBody s1 = .ok s2 ∧ decBmBody s2 = .ok s3 ∧
          decChienBody policy s3 = .ok s4 ∧
          (s4.status.dstage = .idle ∧ t = s4 ∨
            s4.status.dstage ≠ .idle ∧ ∃ s5, decForneyBody s4 = .ok s5 ∧ decApplyBody s5 = .ok t)) := by
  unfold decodeBody decodeLocate decodeCorrect at h
  split at h
  · cases h
  · rename_i s1 h1
    refine ⟨s1, h1, ?_⟩
    split at h
    · exact .inl ⟨‹_›, (Except.ok.inj h).symm⟩
    · refine .inr ⟨‹_›, ?_⟩
      split at h
      · cases h
      · split at h
        · cases h
        · split at h
          · cases h
          · refine ⟨_, _, _, ‹_›, ‹_›, ‹_›, ?_⟩
            split at h
            · exact .inl ⟨‹_›, (Except.ok.inj h).symm⟩
            · refine .inr ⟨‹_›, ?_⟩
              split at h
              · cases h
              · exact ⟨_, ‹_›, h⟩

/-! ### The frame of the bodies -/

/-- What a body other than those of CONFIG and SOFT_RESET can change: the latches, the decoder scalars, RESULT, RES, DSTAGE, the
buffers and the working files. -/
structure State.Frame (s t : State) : Prop where
  rest : t = { s with
    latches := t.latches, scalars := t.scalars, result := t.result, res := t.res, mem := t.mem
    status := { s.status with dstage := t.status.dstage } }
  mem : s.mem.Kept t.mem

namespace State.Frame

theorem refl (s : State) : s.Frame s := ⟨rfl, .refl _⟩

theorem trans {s t u : State} (h : s.Frame t) (h' : t.Frame u) : s.Frame u :=
  ⟨h'.rest.trans (by rw [h.rest]), h.mem.trans h'.mem⟩

theorem active {s t : State} (h : s.Frame t) : t.active = s.active := by rw [h.rest]

theorem cfgValid {s t : State} (h : s.Frame t) : t.status.cfgValid = s.status.cfgValid := by rw [h.rest]

theorem field {s t : State} (h : s.Frame t) : t.field = s.field := State.field_congr h.active h.mem

end State.Frame

theorem encodeBody_frame {s t : State} (h : encodeBody s = .ok t) : s.Frame t := by
  obtain ⟨msg, -, rfl⟩ := encodeBody_eq_ok.mp h
  exact ⟨rfl, Memory.kept_putHalves _ rfl _ _⟩

theorem decSynBody_frame {e c : Bool} {s t : State} (h : decSynBody e c s = .ok t) : s.Frame t := by
  obtain ⟨block, r, d, -, -, rfl⟩ := decSynBody_ok h
  exact ⟨rfl, Memory.kept_putHalves _ rfl _ _⟩

theorem decErasBody_frame {s t : State} (h : decErasBody s = .ok t) : s.Frame t := by
  obtain ⟨us, -, rfl⟩ := decErasBody_eq_ok.mp h
  exact ⟨rfl, Memory.kept_putHalves _ rfl _ _⟩

theorem decBmBody_frame {s t : State} (h : decBmBody s = .ok t) : s.Frame t := by
  obtain ⟨lam, syn, v, deg, -, -, -, -, rfl⟩ := decBmBody_eq_ok.mp h
  exact ⟨rfl, (Memory.kept_putHalves _ rfl _ _).trans (Memory.kept_putHalves _ rfl _ _)⟩

theorem decChienBody_frame {policy : Config.PadRootPolicy} {s t : State} (h : decChienBody policy s = .ok t) : s.Frame t := by
  obtain ⟨lam, r, d, -, -, rfl⟩ := decChienBody_ok h
  exact ⟨rfl, (Memory.kept_putHalves _ rfl _ _).trans (Memory.kept_putHalves _ rfl _ _)⟩

theorem decForneyBody_frame {s t : State} (h : decForneyBody s = .ok t) : s.Frame t := by
  obtain ⟨-, syn, lam, roots, locs, mags, -, -, -, -, -, rfl⟩ := decForneyBody_eq_ok.mp h
  exact ⟨rfl, (Memory.kept_putHalves _ rfl _ _).trans (Memory.kept_putWords _ rfl _ _)⟩

theorem symbolAt_file {n nroots pad pos : Nat} {f : RegFile} {i : Nat} (h : symbolAt n nroots pad pos = .ok (f, i)) :
    f = .data ∨ f = .par := by
  unfold symbolAt at h
  split at h
  · cases h
  · split at h <;> cases h
    · exact .inl rfl
    · exact .inr rfl

theorem applyCorrection_kept {n nroots pad pos : Nat} {mem mem' : Memory} {mag : Word}
    (h : applyCorrection n nroots pad mem pos mag = .ok mem') : mem.Kept mem' := by
  unfold applyCorrection at h
  split at h
  · split at h
    · cases h
    · rename_i f i hs
      have hf : f.isTable = false := by rcases symbolAt_file hs with rfl | rfl <;> rfl
      split at h
      · cases h
      · cases h
        exact Memory.kept_setHalf _ _ (Memory.le_entryAddr hf i)
  · cases h
    exact .refl _

theorem applyStep_kept {n nroots pad : Nat} {c : Bool} {locs : List Half} {mags : List Word} {mem mem' : Memory} {j : Nat}
    (h : applyStep n nroots pad c locs mags mem j = .ok mem') : mem.Kept mem' := by
  unfold applyStep at h
  simp only at h
  split at h
  · cases h
  · rename_i mem1 h1
    obtain rfl := Except.ok.inj h
    refine (applyCorrection_kept h1).trans ?_
    split
    · exact Memory.kept_setHalf _ _ (Memory.le_entryAddr rfl j)
    · exact .refl _

theorem decApplyBody_frame {s t : State} (h : decApplyBody s = .ok t) : s.Frame t := by
  obtain ⟨-, locs, mags, mem, -, -, hm, rfl⟩ := decApplyBody_eq_ok.mp h
  have hk : s.mem.Kept mem :=
    foldE_invariant (fun m => s.mem.Kept m) hm (.refl _) fun x a y _ hx hy => hx.trans (applyStep_kept hy)
  refine ⟨rfl, hk.trans ?_⟩
  simp only [State.setStage_mem, State.setResult_mem, State.setMem_mem]
  split
  · exact Memory.kept_putWords _ rfl _ _
  · exact .refl _

theorem decodeBody_frame {policy : Config.PadRootPolicy} {e c : Bool} {s t : State} (h : decodeBody policy e c s = .ok t) :
    s.Frame t := by
  obtain ⟨s1, h1, ⟨-, rfl⟩ | ⟨-, s2, s3, s4, h2, h3, h4, h5⟩⟩ := decodeBody_ok h
  · exact decSynBody_frame h1
  · have hf : s.Frame s4 := (decSynBody_frame h1).trans ((decErasBody_frame h2).trans
      ((decBmBody_frame h3).trans (decChienBody_frame h4)))
    rcases h5 with ⟨-, rfl⟩ | ⟨-, s5, h5, h6⟩
    · exact hf
    · exact hf.trans ((decForneyBody_frame h5).trans (decApplyBody_frame h6))

/-- The frame of every body but those of CONFIG and SOFT_RESET. -/
theorem body_frame {i : Instr} {s t : State} (hc : i ≠ .config) (hr : i ≠ .softReset) (h : Instr.body i s = .ok t) :
    s.Frame t := by
  cases i with
  | config => exact absurd rfl hc
  | softReset => exact absurd rfl hr
  | nop => exact Except.ok.inj h ▸ .refl s
  | encode => exact encodeBody_frame h
  | decode e c => exact decodeBody_frame h
  | decSyn e c => exact decSynBody_frame h
  | decEras => exact decErasBody_frame h
  | decBm => exact decBmBody_frame h
  | decChien => exact decChienBody_frame h
  | decForney => exact decForneyBody_frame h
  | decApply => exact decApplyBody_frame h
  | fldDiv =>
    simp only [Instr.body] at h
    split at h
    · cases h
    · exact Except.ok.inj h ▸ ⟨rfl, .refl _⟩
  | fldAlog | fldLog | fldModn | fldAdd | fldMul => exact Except.ok.inj h ▸ ⟨rfl, .refl _⟩

end Sys2Proof.Machine

namespace Sys2Proof.Machine

/-! ### The field generator (R143, R145) -/

@[simp] theorem fieldStep_zero (m poly : Nat) : fieldStep m poly 0 = 1 := rfl

theorem fieldStep_lt {m : Nat} (hm : 1 ≤ m) (poly x : Nat) : fieldStep m poly x < 2 ^ m := by
  have h2 : 2 ^ 1 ≤ 2 ^ m := Nat.pow_le_pow_right (by omega) hm
  unfold fieldStep
  split
  · omega
  · exact (Nat.and_le_right).trans_lt (by omega)

theorem iterate_fieldStep_lt {m : Nat} (hm : 1 ≤ m) (poly i : Nat) : (fieldStep m poly)^[i] 1 < 2 ^ m := by
  cases i with
  | zero => exact Nat.one_lt_two_pow (by omega)
  | succ i => rw [Function.iterate_succ_apply']; exact fieldStep_lt hm _ _

/-- The loop of `primitive` runs to its end exactly when no value on the way is 0 or 1. -/
theorem primitiveLoop_eq_some {m poly k sr t : Nat} : primitiveLoop m poly k sr = some t ↔
    t = (fieldStep m poly)^[k] sr ∧ ∀ i, 1 ≤ i → i ≤ k → (fieldStep m poly)^[i] sr ≠ 0 ∧ (fieldStep m poly)^[i] sr ≠ 1 := by
  induction k generalizing sr with
  | zero =>
    simp only [primitiveLoop, Option.some.injEq, Function.iterate_zero, id_eq, eq_comm, iff_self_and]
    omega
  | succ k ih =>
    simp only [primitiveLoop]
    split
    · rename_i h
      simp only [reduceCtorEq, false_iff, not_and]
      intro _ hi
      have := hi 1 le_rfl (by omega)
      simp only [Function.iterate_one] at this
      omega
    · rename_i h
      rw [ih, Function.iterate_succ_apply]
      refine and_congr_right fun _ => ⟨fun hk i h1 hi => ?_, fun hk i h1 hi => hk (i + 1) (by omega) (by omega)⟩
      obtain ⟨i, rfl⟩ : ∃ j, i = j + 1 := ⟨i - 1, by omega⟩
      rw [Function.iterate_succ_apply]
      by_cases h0 : i = 0
      · subst h0
        exact not_or.mp h
      · exact hk i (by omega) (by omega)

/-- R145: the powers of α come back to 1 after `n` steps and neither vanish nor come back before. -/
theorem primitive_iff {m poly : Nat} (hm : 2 ≤ m) : primitive m poly = true ↔
    (fieldStep m poly)^[2 ^ m - 1] 1 = 1 ∧
      ∀ i, 1 ≤ i → i < 2 ^ m - 1 → (fieldStep m poly)^[i] 1 ≠ 0 ∧ (fieldStep m poly)^[i] 1 ≠ 1 := by
  have h4 : 2 ^ 2 ≤ 2 ^ m := Nat.pow_le_pow_right (by omega) hm
  obtain ⟨k, hk⟩ : ∃ k, 2 ^ m - 1 = k + 1 := ⟨2 ^ m - 2, by omega⟩
  have key := fun t => primitiveLoop_eq_some (m := m) (poly := poly) (k := k) (sr := 1) (t := t)
  unfold primitive
  rw [hk, Nat.add_sub_cancel, Function.iterate_succ_apply']
  cases h : primitiveLoop m poly k 1 with
  | none =>
    refine ⟨fun h => absurd h (by simp), fun ⟨_, hi⟩ => ?_⟩
    have := (key _).mpr ⟨rfl, fun i h1 hk => hi i h1 (by omega)⟩
    rw [h] at this
    cases this
  | some sr =>
    obtain ⟨rfl, hi⟩ := (key _).mp h
    simp only [beq_iff_eq, iff_self_and]
    exact fun _ i h1 hk => hi i h1 (by omega)

/-- The powers of a primitive polynomial's root up to `n` are different (R145). -/
theorem primitive_injective {m poly : Nat} (hm : 2 ≤ m) (h : primitive m poly = true) {i j : Nat} (hi : i < 2 ^ m - 1)
    (hj : j < 2 ^ m - 1) (e : (fieldStep m poly)^[i] 1 = (fieldStep m poly)^[j] 1) : i = j := by
  obtain ⟨hn, hp⟩ := (primitive_iff hm).mp h
  wlog hij : i < j generalizing i j
  · by_contra hne
    exact hne (this hj hi e.symm (by omega)).symm
  have h1 : (fieldStep m poly)^[2 ^ m - 1 - j + i] 1 = 1 := by
    rw [Function.iterate_add_apply, e, ← Function.iterate_add_apply, Nat.sub_add_cancel hj.le, hn]
  exact absurd h1 (hp _ (by omega) (by omega)).2

theorem primitive_ne_zero {m poly : Nat} (hm : 2 ≤ m) (h : primitive m poly = true) {i : Nat} (hi : i < 2 ^ m - 1) :
    (fieldStep m poly)^[i] 1 ≠ 0 := by
  cases i with
  | zero => exact one_ne_zero
  | succ i => exact (((primitive_iff hm).mp h).2 _ (by omega) hi).1

/-- Every non-zero element is a power of α. -/
theorem primitive_surjective {m poly : Nat} (hm : 2 ≤ m) (h : primitive m poly = true) {x : Nat} (h0 : x ≠ 0)
    (hx : x < 2 ^ m) : ∃ i < 2 ^ m - 1, (fieldStep m poly)^[i] 1 = x := by
  have hmaps : Set.MapsTo (fun i => (fieldStep m poly)^[i] 1) (Finset.range (2 ^ m - 1)) (Finset.Ioo 0 (2 ^ m)) := by
    intro i hi
    have hi : i < 2 ^ m - 1 := by simpa using hi
    simpa [Nat.pos_iff_ne_zero] using And.intro (primitive_ne_zero hm h hi) (iterate_fieldStep_lt (by omega) poly i)
  have hinj : Set.InjOn (fun i => (fieldStep m poly)^[i] 1) (Finset.range (2 ^ m - 1)) := fun i hi j hj =>
    primitive_injective hm h (by simpa using hi) (by simpa using hj)
  obtain ⟨i, hi, rfl⟩ := Finset.surjOn_of_injOn_of_card_le _ hmaps hinj (by simp)
    (show x ∈ (Finset.Ioo 0 (2 ^ m) : Set Nat) by simp; omega)
  exact ⟨i, by simpa using hi, rfl⟩

/-! ### The table builder (R144) -/

/-- The loop of `build_tables` leaves every entry that it does not set. -/
theorem tableLoop_half_of_ne {m poly : Nat} (hm : 1 ≤ m) (hm' : m ≤ 16) {k i : Nat} {mem : Memory} {f : RegFile} {x : Nat}
    (hi : i + k < 65536) (hx : x < 65536) (ha : f = .alphaTo → x < i ∨ i + k ≤ x)
    (hl : f = .indexOf → ∀ j, i ≤ j → j < i + k → (fieldStep m poly)^[j] 1 ≠ x) :
    (tableLoop m poly k i ((fieldStep m poly)^[i] 1) mem).half (entryAddr f x) = mem.half (entryAddr f x) := by
  induction k generalizing i mem with
  | zero => rfl
  | succ k ih =>
    have hp : 2 ^ m ≤ 2 ^ 16 := Nat.pow_le_pow_right (by omega) hm'
    have hsr := iterate_fieldStep_lt hm poly i
    have d1 := entryAddr_disjoint (f := .indexOf) (g := f) (i := (fieldStep m poly)^[i] 1) (j := x) (by omega) hx (by
      by_cases e : f = .indexOf
      · exact .inr (hl e i le_rfl (by omega))
      · exact .inl (Ne.symm e))
    have d2 := entryAddr_disjoint (f := .alphaTo) (g := f) (i := i) (j := x) (by omega) hx (by
      by_cases e : f = .alphaTo
      · exact .inr (by have := ha e; omega)
      · exact .inl (Ne.symm e))
    rw [tableLoop, ← Function.iterate_succ_apply' (fieldStep m poly), ih (by omega) (fun e => by have := ha e; omega)
      (fun e j h1 h2 => hl e j (by omega) (by omega)), Memory.half_setHalf_of_disjoint _ _ (by omega),
      Memory.half_setHalf_of_disjoint _ _ (by omega)]

/-- The loop of `build_tables` sets the power and the logarithm of each of its turns. -/
theorem tableLoop_half {m poly : Nat} (hm : 2 ≤ m) (hm' : m ≤ 16) (hp : primitive m poly = true) {k i : Nat} {mem : Memory}
    (hk : i + k ≤ 2 ^ m - 1) {j : Nat} (hi : i ≤ j) (hj : j < i + k) :
    (tableLoop m poly k i ((fieldStep m poly)^[i] 1) mem).half (entryAddr .alphaTo j) =
        some (BitVec.ofNat 16 ((fieldStep m poly)^[j] 1)) ∧
      (tableLoop m poly k i ((fieldStep m poly)^[i] 1) mem).half (entryAddr .indexOf ((fieldStep m poly)^[j] 1)) =
        some (BitVec.ofNat 16 j) := by
  induction k generalizing i mem with
  | zero => omega
  | succ k ih =>
    have hp16 : 2 ^ m ≤ 2 ^ 16 := Nat.pow_le_pow_right (by omega) hm'
    have hsr := iterate_fieldStep_lt (m := m) (by omega) poly i
    rw [tableLoop, ← Function.iterate_succ_apply' (fieldStep m poly)]
    by_cases e : j = i
    · subst e
      have d := entryAddr_disjoint (f := .alphaTo) (g := .indexOf) (i := j) (j := (fieldStep m poly)^[j] 1) (by omega)
        (by omega) (.inl (by decide))
      rw [tableLoop_half_of_ne (k := k) (f := .alphaTo) (x := j) (by omega) hm' (by omega) (by omega)
          (fun _ => .inl (by omega)) nofun,
        tableLoop_half_of_ne (k := k) (i := j + 1) (f := .indexOf) (x := (fieldStep m poly)^[j] 1) (by omega) hm' (by omega)
          (by omega) nofun fun _ l h1 h2 hl => by
            have := primitive_injective hm hp (by omega) (by omega) hl
            omega]
      exact ⟨Memory.half_setHalf_self _ _ _, by rw [Memory.half_setHalf_of_disjoint _ _ (by omega), Memory.half_setHalf_self]⟩
    · exact ih (by omega) (by omega) (by omega)

theorem Memory.half_clear_of_disjoint (m : Memory) {lo hi a : Nat} (h : a + 2 ≤ lo ∨ hi ≤ a) :
    (m.clear lo hi).half a = m.half a :=
  half_congr (read_clear_outside m (by omega)) (read_clear_outside m (by omega))

/-- A cleared table entry holds 0. -/
theorem Memory.half_clear_inside (m : Memory) {lo hi a : Nat} (h : lo ≤ a ∧ a + 2 ≤ hi) (ha : a + 2 ≤ 0x100000) :
    (m.clear lo hi).half a = some 0 := by
  unfold half
  rw [read_clear_inside m (by omega), read_clear_inside m (by omega), unlisted, unlisted, if_pos (by omega), if_pos (by omega)]
  rfl

theorem tableLoop_wf {m poly k i sr : Nat} {mem : Memory} (h : mem.wf) : (tableLoop m poly k i sr mem).wf := by
  induction k generalizing i sr mem with
  | zero => exact h
  | succ k ih => exact ih (Memory.setHalf_wf (Memory.setHalf_wf h _ _) _ _)

theorem buildTables_wf {m poly : Nat} {mem : Memory} (h : mem.wf) : (buildTables m poly mem).wf :=
  Memory.clear_wf (Memory.clear_wf (tableLoop_wf (Memory.setHalf_wf (Memory.setHalf_wf h _ _) _ _)) _ _) _ _

/-- What `build_tables` leaves in ALPHA_TO and INDEX_OF (R144, R150). -/
structure TablesBuilt (m poly : Nat) (mem : Memory) : Prop where
  powers    : ∀ i < 2 ^ m - 1, mem.half (entryAddr .alphaTo i) = some (BitVec.ofNat 16 ((fieldStep m poly)^[i] 1))
  logs      : ∀ i < 2 ^ m - 1, mem.half (entryAddr .indexOf ((fieldStep m poly)^[i] 1)) = some (BitVec.ofNat 16 i)
  alpha_a0  : mem.half (entryAddr .alphaTo (2 ^ m - 1)) = some 0
  log_zero  : mem.half (entryAddr .indexOf 0) = some (BitVec.ofNat 16 (2 ^ m - 1))
  alpha_above : ∀ i, 2 ^ m - 1 < i → i < 65536 → mem.half (entryAddr .alphaTo i) = some 0
  log_above   : ∀ i, 2 ^ m - 1 < i → i < 65536 → mem.half (entryAddr .indexOf i) = some 0

theorem buildTables_built {m poly : Nat} (hm : 2 ≤ m) (hm' : m ≤ 16) (hp : primitive m poly = true) (mem : Memory) :
    TablesBuilt m poly (buildTables m poly mem) := by
  have hp16 : 2 ^ m ≤ 2 ^ 16 := Nat.pow_le_pow_right (by omega) hm'
  have hp2 : 2 ^ 2 ≤ 2 ^ m := Nat.pow_le_pow_right (by omega) hm
  have clears (f : RegFile) (x : Nat) (hf : f = .alphaTo ∨ f = .indexOf) (hx : x ≤ 2 ^ m - 1) :
      (buildTables m poly mem).half (entryAddr f x) = (tableLoop m poly (2 ^ m - 1) 0 ((fieldStep m poly)^[0] 1)
        ((mem.setHalf (entryAddr .indexOf 0) (BitVec.ofNat 16 (2 ^ m - 1))).setHalf
          (entryAddr .alphaTo (2 ^ m - 1)) 0)).half (entryAddr f x) := by
    unfold buildTables
    simp only [fieldStep_zero, Function.iterate_zero, id_eq]
    rw [Memory.half_clear_of_disjoint, Memory.half_clear_of_disjoint] <;>
    · rcases hf with rfl | rfl <;> simp only [entryAddr, RegFile.base] <;> omega
  refine ⟨fun i hi => ?_, fun i hi => ?_, ?_, ?_, fun i h1 h2 => ?_, fun i h1 h2 => ?_⟩
  · rw [clears _ _ (.inl rfl) (by omega)]
    exact (tableLoop_half hm hm' hp (by omega) (Nat.zero_le i) (by omega)).1
  · have := iterate_fieldStep_lt (m := m) (by omega) poly i
    rw [clears _ _ (.inr rfl) (by omega)]
    exact (tableLoop_half hm hm' hp (by omega) (Nat.zero_le i) (by omega)).2
  · rw [clears _ _ (.inl rfl) le_rfl, tableLoop_half_of_ne (k := 2 ^ m - 1)
      (i := 0) (f := .alphaTo) (x := 2 ^ m - 1) (by omega) hm' (by omega) (by omega) (fun _ => .inr (by omega)) nofun,
      Memory.half_setHalf_self]
  · rw [clears _ _ (.inr rfl) (by omega), tableLoop_half_of_ne (k := 2 ^ m - 1)
      (i := 0) (f := .indexOf) (x := 0) (by omega) hm' (by omega) (by omega) nofun
      fun _ j _ hj => primitive_ne_zero hm hp (by omega), Memory.half_setHalf_of_disjoint, Memory.half_setHalf_self]
    simp only [entryAddr, RegFile.base]
    omega
  · unfold buildTables
    simp only
    rw [Memory.half_clear_of_disjoint, Memory.half_clear_inside] <;> simp only [entryAddr, RegFile.base] <;> omega
  · unfold buildTables
    simp only
    rw [Memory.half_clear_inside] <;> simp only [entryAddr, RegFile.base] <;> omega

/-- A memory with the tables of a primitive polynomial gives its field (R18, R150). -/
theorem tables_of_built {m poly : Nat} {s : State} (hm : 2 ≤ m) (hm' : m ≤ 16) (hp : primitive m poly = true)
    (hn : s.active.actN.toNat = 2 ^ m - 1) (h : TablesBuilt m poly s.mem) : s.field.Tables m poly := by
  have hp16 : 2 ^ m ≤ 2 ^ 16 := Nat.pow_le_pow_right (by omega) hm'
  have hlt := iterate_fieldStep_lt (m := m) (by omega) poly
  have hN : s.field.n = s.active.actN := rfl
  have hnn : s.field.n = BitVec.ofNat 16 (2 ^ m - 1) := BitVec.eq_of_toNat_eq (by rw [hN, hn, BitVec.toNat_ofNat]; omega)
  have alpha (i : Half) (hi : i.toNat < s.field.n.toNat) :
      s.field.alpha i = BitVec.ofNat 16 ((fieldStep m poly)^[i.toNat] 1) := by
    simp [State.field, Memory.tableEntry, h.powers i.toNat (hn ▸ hi)]
  have alphaNat (i : Half) (hi : i.toNat < s.field.n.toNat) :
      (s.field.alpha i).toNat = (fieldStep m poly)^[i.toNat] 1 := by
    have := hlt i.toNat
    rw [alpha i hi, BitVec.toNat_ofNat, Nat.mod_eq_of_lt (by omega)]
  have log_alpha (i : Half) (hi : i.toNat < s.field.n.toNat) : s.field.log (s.field.alpha i) = i := by
    rw [show s.field.log (s.field.alpha i) = s.mem.tableEntry .indexOf (s.field.alpha i).toNat from rfl, alphaNat i hi]
    simp [Memory.tableEntry, h.logs i.toNat (hn ▸ hi)]
  have surj (x : Half) (h0 : x ≠ 0) (hx : x.toNat ≤ s.field.n.toNat) :
      ∃ i : Half, i.toNat < s.field.n.toNat ∧ s.field.alpha i = x := by
    obtain ⟨i, hi, e⟩ := primitive_surjective hm hp (x := x.toNat) (by simpa [BitVec.toNat_eq] using h0)
      (by rw [hN, hn] at hx; have := Nat.two_pow_pos m; omega)
    have hii : (BitVec.ofNat 16 i).toNat = i := by rw [BitVec.toNat_ofNat, Nat.mod_eq_of_lt (by omega)]
    have hib : (BitVec.ofNat 16 i).toNat < s.field.n.toNat := by rw [hii, hN, hn]; exact hi
    exact ⟨BitVec.ofNat 16 i, hib, BitVec.eq_of_toNat_eq (by rw [alphaNat _ hib, hii, e])⟩
  refine ⟨hN ▸ hn, alphaNat, ?_, ?_, ?_, fun i hi => ⟨?_, ?_⟩, fun x h0 hx => ?_, fun x h0 hx => ?_, log_alpha, fun x hx => ?_⟩
  · rw [hN, hn]
    exact ((primitive_iff hm).mp hp).1
  · simp [State.field, Memory.tableEntry, hn, h.alpha_a0]
  · rw [hnn]
    simp [State.field, Memory.tableEntry, h.log_zero]
  · intro e
    have := alphaNat i hi
    rw [e] at this
    exact primitive_ne_zero hm hp (hn ▸ hi) this.symm
  · have := hlt i.toNat
    rw [alphaNat i hi, hN, hn]
    omega
  · obtain ⟨i, hi, rfl⟩ := surj x h0 hx
    rwa [log_alpha i hi]
  · obtain ⟨i, hi, rfl⟩ := surj x h0 hx
    rw [log_alpha i hi]
  · rw [hN, hn] at hx
    simp [State.field, Memory.tableEntry, h.alpha_above _ hx x.isLt, h.log_above _ hx x.isLt]

/-! ### `iprim` (R146) -/

/-- `compute_iprim`'s loop stops at the first multiple of `prim` it meets. -/
theorem iprimLoop_spec {n prim fuel x : Nat} (h : ∃ j < fuel, (x + j * n) % prim = 0) :
    ∃ j < fuel, iprimLoop n prim fuel x = x + j * n ∧ (x + j * n) % prim = 0 := by
  induction fuel generalizing x with
  | zero => obtain ⟨j, hj, -⟩ := h; omega
  | succ fuel ih =>
    unfold iprimLoop
    split
    · exact ⟨0, by omega, by simp, by simpa⟩
    · rename_i h0
      obtain ⟨j, hj, e⟩ := h
      have shift (j : Nat) : x + n + j * n = x + (j + 1) * n := by ring
      obtain ⟨k, rfl⟩ : ∃ k, j = k + 1 := ⟨j - 1, by
        have : j ≠ 0 := by rintro rfl; exact h0 (by simpa using e)
        omega⟩
      obtain ⟨l, hl, e1, e2⟩ := ih ⟨k, by omega, by rwa [shift]⟩
      exact ⟨l + 1, by omega, by rw [e1, shift], by rw [← shift, e2]⟩

/-- A multiple of `prim` among `1, 1 + n, …` comes within `prim` turns, since `gcd(prim, n) = 1`. -/
theorem exists_multiple_of_coprime {n prim : Nat} (hp : 1 ≤ prim) (hg : Nat.gcd prim n = 1) :
    ∃ j < prim, (1 + j * n) % prim = 0 := by
  rcases Nat.eq_or_lt_of_le hp with rfl | h1
  · exact ⟨0, by omega, by simp⟩
  · obtain ⟨k, hk⟩ := Nat.exists_mul_mod_eq_one_of_coprime (Nat.Coprime.symm hg) h1
    refine ⟨(prim - 1) * k % prim, Nat.mod_lt _ (by omega), ?_⟩
    rw [Nat.add_mod, Nat.mod_mul_mod, mul_assoc, mul_comm k n, Nat.mul_mod, hk.2, Nat.mod_eq_of_lt h1]
    simp [Nat.mod_eq_of_lt (show prim - 1 < prim by omega), show 1 + (prim - 1) = prim by omega]

theorem computeIprim_spec {n prim : Nat} (hn : 1 < n) (hp : 1 ≤ prim) (hg : Nat.gcd prim n = 1) :
    1 ≤ computeIprim n prim ∧ computeIprim n prim < n ∧ computeIprim n prim * prim % n = 1 := by
  obtain ⟨j, hj, e, hd⟩ := iprimLoop_spec (exists_multiple_of_coprime hp hg)
  have hmul : computeIprim n prim * prim = 1 + j * n := by
    rw [computeIprim, e, Nat.div_mul_cancel (Nat.dvd_of_mod_eq_zero hd)]
  refine ⟨?_, ?_, ?_⟩
  · by_contra h
    rw [show computeIprim n prim = 0 by omega] at hmul
    omega
  · by_contra h
    have h1 : n * prim ≤ 1 + j * n := hmul ▸ Nat.mul_le_mul_right prim (by omega)
    have h2 : (j + 1) * n ≤ prim * n := Nat.mul_le_mul_right n hj
    rw [Nat.add_mul, mul_comm prim n] at h2
    omega
  · rw [hmul, Nat.add_mul_mod_self_right, Nat.mod_eq_of_lt hn]

end Sys2Proof.Machine

namespace Sys2Proof.Machine

/-! ### The Chien search (R260, R261) -/

theorem xorSum_eq_zero {l : List Half} (h : ∀ a ∈ l, a = 0) : xorSum l = 0 := by
  induction l with
  | nil => rfl
  | cons a l ih =>
    rw [xorSum_cons, h a List.mem_cons_self, ih fun b hb => h b (List.mem_cons_of_mem _ hb)]
    rfl

/-- A sum whose terms vanish from `k` on ends at `k`. -/
theorem xorSum_range_of_zero {f : Nat → Half} {k n : Nat} (hk : k ≤ n) (h : ∀ j, k ≤ j → j < n → f j = 0) :
    xorSum ((List.range n).map f) = xorSum ((List.range k).map f) := by
  obtain ⟨r, rfl⟩ := Nat.exists_eq_add_of_le hk
  rw [List.range_add, List.map_append, xorSum_append, xorSum_eq_zero (l := List.map f (List.map _ _))]
  · exact BitVec.xor_zero
  simp only [List.map_map, List.mem_map, List.mem_range, Function.comp_apply, forall_exists_index, and_imp]
  rintro a i hi rfl
  exact h _ (by omega) (by omega)

/-- The register of the search after its advance at step `x`: each coefficient of Λ times `α^(x·j)`, in index form. -/
def chienReg (F : GField) (deg : Nat) (lam : List Half) (x : Nat) : List Half :=
  (List.range lam.length).map fun j =>
    if 1 ≤ j ∧ j ≤ deg ∧ nth lam j ≠ F.n then F.modn ((nth lam j).toNat + x * j) else nth lam j

theorem nth_chienReg (F : GField) (deg : Nat) {lam : List Half} (x : Nat) {j : Nat} (h : j < lam.length) :
    nth (chienReg F deg lam x) j =
      if 1 ≤ j ∧ j ≤ deg ∧ nth lam j ≠ F.n then F.modn ((nth lam j).toNat + x * j) else nth lam j :=
  nth_map_range h

@[simp] theorem chienReg_length (F : GField) (deg : Nat) (lam : List Half) (x : Nat) :
    (chienReg F deg lam x).length = lam.length := by simp [chienReg]

theorem chienAdvance_locator (F : GField) (deg : Nat) (lam : List Half) : chienAdvance F deg lam = chienReg F deg lam 1 := by
  simp [chienAdvance, chienReg]

theorem chienAdvance_chienReg {F : GField} (hn : 0 < F.n.toNat) (deg : Nat) (lam : List Half) (x : Nat) :
    chienAdvance F deg (chienReg F deg lam x) = chienReg F deg lam (x + 1) := by
  rw [chienAdvance, chienReg_length, chienReg.eq_def F deg lam (x + 1)]
  refine List.map_congr_left fun j hj => ?_
  simp only [nth_chienReg F deg x (List.mem_range.mp hj)]
  by_cases h : 1 ≤ j ∧ j ≤ deg ∧ nth lam j ≠ F.n
  · obtain ⟨h1, h2, h3⟩ := h
    simp only [h1, h2, h3, ne_eq, not_false_eq_true, and_self, if_true, F.modn_ne_sentinel _ hn]
    refine F.modn_congr ?_
    rw [F.modn_toNat _ hn, Nat.mod_add_mod, Nat.add_mul, Nat.one_mul, Nat.add_assoc]
  · simp only [h, if_false]

/-- At step `x` the search's sum is Λ's value at `α^x`. -/
theorem chienSum_chienReg {F : GField} {deg : Nat} {lam : List Half} (hn : 0 < F.n.toNat) (hd : deg < lam.length)
    (h0 : nth lam 0 = 0) (ha : F.alpha 0 = 1) (habove : ∀ j, deg < j → j < lam.length → nth lam j = F.n) (x : Nat) :
    chienSum F deg (chienReg F deg lam x) = evalIndexAt F lam x := by
  have hn0 : (0 : Half) ≠ F.n := fun e => by simp [← e] at hn
  obtain ⟨r, hr⟩ : ∃ r, lam.length = r + 1 := ⟨lam.length - 1, by omega⟩
  unfold chienSum evalIndexAt
  rw [hr, List.range_succ_eq_map, List.map_cons, xorSum_cons, List.map_map, h0, if_neg hn0, GField.pow,
    show (0 : Half).toNat + 0 * x = (0 : Half).toNat by simp, F.modn_of_lt (by simpa using hn), ha,
    xorSum_range_of_zero (show deg ≤ r by omega) fun j h1 h2 => by simp [habove (j + 1) (by omega) (by omega)]]
  congr 2
  refine List.map_congr_left fun j hj => ?_
  have hj := List.mem_range.mp hj
  rw [nth_chienReg F deg x (by omega)]
  by_cases h : nth lam (j + 1) = F.n
  · simp [h]
  · have hc : 1 ≤ j + 1 ∧ j + 1 ≤ deg ∧ nth lam (j + 1) ≠ F.n := ⟨by omega, by omega, h⟩
    simp only [hc, ne_eq, not_false_eq_true, and_self, if_true, F.modn_ne_sentinel _ hn, Function.comp_apply,
      Nat.succ_eq_add_one, if_false, GField.pow, Nat.mul_comm x]

/-- The roots of Λ among the steps `i` to `i + fuel − 1`, each with its position (R261). -/
def rootsFrom (F : GField) (iprim : Nat) (lam : List Half) (i fuel : Nat) : List (Half × Half) :=
  ((List.range' i fuel).filter fun x => evalIndexAt F lam x == 0).map fun x =>
    (BitVec.ofNat 16 x, F.modn (x * iprim + F.n.toNat - 1))

theorem rootsFrom_succ (F : GField) (iprim : Nat) (lam : List Half) (i fuel : Nat) :
    rootsFrom F iprim lam i (fuel + 1) =
      (if evalIndexAt F lam i = 0 then [(BitVec.ofNat 16 i, F.modn (i * iprim + F.n.toNat - 1))] else []) ++
        rootsFrom F iprim lam (i + 1) fuel := by
  unfold rootsFrom
  rw [List.range'_succ, List.filter_cons]
  by_cases h : evalIndexAt F lam i = 0
  · rw [if_pos (beq_iff_eq.mpr h), if_pos h, List.map_cons, List.singleton_append]
  · rw [if_neg (mt beq_iff_eq.mp h), if_neg h, List.nil_append]

section
variable {F : GField} {deg iprim : Nat} {lam : List Half}

/-- The loop appends the roots it meets, until there are `deg` of them. -/
theorem chienLoop_eq (hn : 0 < F.n.toNat) (hsum : ∀ x, chienSum F deg (chienReg F deg lam x) = evalIndexAt F lam x)
    {fuel i : Nat} {reg : List Half} {k : Half} {found : List (Half × Half)} (hreg : chienAdvance F deg reg = chienReg F deg lam i)
    (hk : k = F.modn (i * iprim + F.n.toNat - 1)) (hf : found.length < deg) :
    chienLoop F deg iprim fuel i reg k found = found ++ (rootsFrom F iprim lam i fuel).take (deg - found.length) := by
  induction fuel generalizing i reg k found with
  | zero => simp [chienLoop, rootsFrom]
  | succ fuel ih =>
    have hnext : F.modn (k.toNat + iprim) = F.modn ((i + 1) * iprim + F.n.toNat - 1) := by
      refine F.modn_congr ?_
      rw [hk, F.modn_toNat _ hn, Nat.mod_add_mod, Nat.add_mul, Nat.one_mul]
      congr 1
      omega
    have hadv : chienAdvance F deg (chienReg F deg lam i) = chienReg F deg lam (i + 1) := chienAdvance_chienReg hn deg lam i
    rw [chienLoop, rootsFrom_succ]
    simp only [hreg, hsum]
    by_cases h0 : evalIndexAt F lam i = 0
    · rw [if_pos h0, if_pos h0, ← hk]
      obtain ⟨d, hd⟩ : ∃ d, deg - found.length = d + 1 := ⟨deg - found.length - 1, by omega⟩
      rw [hd, List.singleton_append, List.take_succ_cons]
      split
      · rename_i hlen
        rw [List.length_append, List.length_singleton] at hlen
        rw [show d = 0 by omega, List.take_zero]
      · rename_i hlen
        rw [List.length_append, List.length_singleton] at hlen
        rw [ih hadv hnext (by rw [List.length_append, List.length_singleton]; omega), List.length_append, List.length_singleton,
          List.append_assoc, List.singleton_append, show deg - (found.length + 1) = d by omega]
    · rw [if_neg h0, if_neg h0, List.nil_append, ih hadv hnext hf]

/-- The search finds, in order, the first `deg` roots of Λ among the steps `[1, n]`, each with its position (R261). -/
theorem chienSearch_eq (hdeg : 1 ≤ deg) (hd : deg < lam.length) (hi : 1 ≤ iprim) (hi' : iprim ≤ F.n.toNat - 1)
    (h0 : nth lam 0 = 0) (ha : F.alpha 0 = 1) (habove : ∀ j, deg < j → j < lam.length → nth lam j = F.n) :
    chienSearch F deg iprim lam = (rootsFrom F iprim lam 1 F.n.toNat).take deg := by
  have hn : 0 < F.n.toNat := by omega
  rw [chienSearch, chienLoop_eq hn (chienSum_chienReg hn hd h0 ha habove) (chienAdvance_locator F deg lam) ?_
    (found := []) hdeg]
  · simp
  · rw [GField.modn, show 1 * iprim + F.n.toNat - 1 = iprim - 1 + F.n.toNat by omega, Nat.add_mod_right,
      Nat.mod_eq_of_lt (by omega)]

end

/-- The positions of different steps differ, since `iprim` is invertible modulo `n` (R146, R261). -/
theorem position_injective {F : GField} {iprim prim : Nat} (hn : 1 < F.n.toNat) (hinv : iprim * prim % F.n.toNat = 1)
    {i j : Nat} (hi : 1 ≤ i ∧ i ≤ F.n.toNat) (hj : 1 ≤ j ∧ j ≤ F.n.toNat)
    (h : F.modn (i * iprim + F.n.toNat - 1) = F.modn (j * iprim + F.n.toNat - 1)) : i = j := by
  have key (x : Nat) : (F.modn (x * iprim + F.n.toNat - 1)).toNat * prim + prim ≡ x [MOD F.n.toNat] := by
    calc (F.modn (x * iprim + F.n.toNat - 1)).toNat * prim + prim
        ≡ (x * iprim + F.n.toNat - 1) * prim + prim [MOD F.n.toNat] := by
          rw [F.modn_toNat _ (by omega)]
          exact ((Nat.mod_modEq _ _).mul_right _).add_right _
      _ = x * (iprim * prim) + F.n.toNat * prim := by
          obtain ⟨k, hk⟩ : ∃ k, F.n.toNat = k + 1 := ⟨F.n.toNat - 1, by omega⟩
          rw [hk, Nat.add_sub_assoc (by omega), Nat.add_sub_cancel]
          ring
      _ ≡ x * 1 + 0 [MOD F.n.toNat] := by
          refine Nat.ModEq.add (Nat.ModEq.mul_left _ ?_) (Nat.modEq_zero_iff_dvd.mpr (Nat.dvd_mul_right _ _))
          rw [Nat.ModEq, hinv, Nat.mod_eq_of_lt hn]
      _ = x := by ring
  have hij : i ≡ j [MOD F.n.toNat] := (key i).symm.trans (h ▸ key j)
  have hsub (x : Nat) (hx : 1 ≤ x ∧ x ≤ F.n.toNat) : x - 1 < F.n.toNat := by omega
  have : i - 1 ≡ j - 1 [MOD F.n.toNat] :=
    Nat.ModEq.add_right_cancel' 1 (by rwa [Nat.sub_add_cancel hi.1, Nat.sub_add_cancel hj.1])
  have := this.eq_of_lt_of_lt (hsub i hi) (hsub j hj)
  omega

end Sys2Proof.Machine

namespace Sys2Proof.Machine

/-! ### What keeps the invariant -/

theorem State.LocatorDone.congr {s t : State} (h : s.LocatorDone) (ha : t.active = s.active)
    (hd : t.scalars.degLambda = s.scalars.degLambda) (hl : Memory.SameFile .lambda s.mem t.mem) : t.LocatorDone := by
  have hn : t.n = s.n := by simp only [State.n, ha]
  have hr : t.nroots = s.nroots := by simp only [State.nroots, ha]
  have hloc : t.locator = s.locator := by
    have := RegFile.cap_le .lambda
    rw [State.locator, State.locator, hr]
    have := s.active.actNroots.isLt
    exact State.halves_congr hl (by simp only [State.nroots]; omega)
  obtain ⟨h1, h2, h3, h4, h5⟩ := h
  exact ⟨by rwa [hd, hr], by rwa [hloc], by rwa [hloc, hn], by rwa [hloc, hd, ha], by rwa [hloc, hd, hr, ha]⟩

theorem State.AllLocated.congr {s t : State} (h : s.AllLocated) (ha : t.active = s.active)
    (hp : t.latches.dPad = s.latches.dPad) (hd : t.scalars.degLambda = s.scalars.degLambda)
    (hc : t.scalars.nrootsFound = s.scalars.nrootsFound) (k : s.mem.Kept t.mem)
    (same : ∀ f ∈ [RegFile.lambda, .root, .loc], Memory.SameFile f s.mem t.mem) : t.AllLocated := by
  have hn : t.n = s.n := by simp only [State.n, ha]
  have hroot := same .root (by simp)
  have hloc := same .loc (by simp)
  have hcount := s.scalars.nrootsFound.isLt
  have hnr := s.active.actNroots.isLt
  have hlam : t.locator = s.locator := by
    simp only [State.locator, State.nroots, ha]
    exact State.halves_congr (same .lambda (by simp)) (by omega)
  have hroots : t.roots = s.roots := by
    simp only [State.roots, hc]
    exact State.halves_congr hroot (by omega)
  have hpos : t.positions = s.positions := by
    simp only [State.positions, hc]
    exact State.halves_congr hloc (by omega)
  obtain ⟨h1, h2, h3, h4, h5⟩ := h
  refine ⟨by rwa [hd, hc], fun j hj => ?_, by rwa [hroots], by rwa [hpos], by rwa [hroots, hlam, State.field_congr ha k]⟩
  rw [hc] at hj
  rw [hroot j (by omega), hloc j (by omega), hn, hp]
  exact h2 j hj

/-- The two states have the same configuration and the same decode in progress: the entries it needs later stay. -/
structure State.SameDecode (s t : State) : Prop where
  active   : t.active = s.active
  cfgValid : t.status.cfgValid = s.status.cfgValid
  dstage   : t.status.dstage = s.status.dstage
  latches  : t.latches = s.latches
  scalars  : t.scalars = s.scalars
  mem      : s.mem.Kept t.mem
  same     : ∀ f ∈ [RegFile.lambda, .root, .loc], Memory.SameFile f s.mem t.mem

theorem State.SameDecode.of_mem_eq {s t : State} (ha : t.active = s.active) (hv : t.status.cfgValid = s.status.cfgValid)
    (hd : t.status.dstage = s.status.dstage) (hl : t.latches = s.latches) (hs : t.scalars = s.scalars) (hm : t.mem = s.mem) :
    s.SameDecode t :=
  ⟨ha, hv, hd, hl, hs, hm ▸ .refl _, fun _ _ _ _ => by rw [hm]⟩

/-- A decode in progress goes on where its latches and what was written stay, and the stage's own results are there. -/
theorem State.DecodeInProgress.advance {s t : State} (h : s.DecodeInProgress) (ha : t.active = s.active)
    (hv : t.status.cfgValid = s.status.cfgValid) (hl : t.latches = s.latches) (k : s.mem.Kept t.mem)
    (lam_written : t.status.dstage ≠ .syn → t.mem.written .lambda (s.nroots + 1))
    (lam_one : t.status.dstage = .eras → t.mem.half (entryAddr .lambda 0) = some 1)
    (locator : t.status.dstage = .bm ∨ t.status.dstage = .chien ∨ t.status.dstage = .forney → t.LocatorDone)
    (located : t.status.dstage = .chien ∨ t.status.dstage = .forney → t.AllLocated)
    (mag_written : t.status.dstage = .forney → t.mem.written .mag t.scalars.nrootsFound.toNat) : t.DecodeInProgress := by
  have hn : t.n = s.n := by simp only [State.n, ha]
  have hr : t.nroots = s.nroots := by simp only [State.nroots, ha]
  refine ⟨hv.trans h.valid, ?_, ?_, ?_, ?_, ?_, ?_, hr ▸ lam_written, lam_one, locator, located, mag_written⟩
  · rw [hl, hr, hn]
    exact h.geometry
  · rw [hl, hr]
    exact h.erasures
  · rw [hl]
    exact k.written h.data_written
  · rw [hr]
    exact k.written h.par_written
  · rw [hl]
    exact k.written h.eras_written
  · rw [hr]
    exact k.written h.s_written

theorem State.DecodeInProgress.congr {s t : State} (h : s.DecodeInProgress) (e : s.SameDecode t) : t.DecodeInProgress := by
  obtain ⟨ha, hv, hd, hl, hs, k, same⟩ := e
  refine h.advance ha hv hl k ?_ ?_ ?_ ?_ ?_ <;> rw [hd]
  · exact fun hne => k.written (h.lam_written hne)
  · rw [same .lambda (by simp) 0 (by omega)]
    exact h.lam_one
  · exact fun hd' => (h.locator hd').congr ha (by rw [hs]) (same .lambda (by simp))
  · exact fun hd' => (h.located hd').congr ha (by rw [hl]) (by rw [hs]) (by rw [hs]) k same
  · rw [hs]
    exact fun hd' => k.written (h.mag_written hd')

/-- The configuration part of the invariant survives every write outside the tables. -/
theorem State.Inv.of_kept {s t : State} (h : s.Inv) (ha : t.active = s.active) (hv : t.status.cfgValid = s.status.cfgValid)
    (k : s.mem.Kept t.mem) (hd : t.status.dstage ≠ .idle → t.DecodeInProgress) : t.Inv where
  memory := k.wf h.memory
  committed := by rw [hv, ha]; exact h.committed
  tables := by rw [hv, ha, State.field_congr ha k]; exact h.tables
  decode := hd

theorem State.Inv.of_frame {s t : State} (h : s.Inv) (f : s.Frame t) (hd : t.status.dstage ≠ .idle → t.DecodeInProgress) :
    t.Inv := h.of_kept f.active f.cfgValid f.mem hd

theorem State.Inv.congr {s t : State} (h : s.Inv) (e : s.SameDecode t) : t.Inv :=
  h.of_kept e.active e.cfgValid e.mem fun hd => (h.decode (e.dstage ▸ hd)).congr e

theorem State.Inv.complete {s : State} (h : s.Inv) (c : ErrCode) : (complete c s).Inv :=
  h.congr (.of_mem_eq rfl rfl rfl rfl rfl rfl)

/-! ### The host's turns -/

theorem writeReg_sameDecode (s : State) (v : Word) (r : PortReg) : s.SameDecode (s.writeReg v r) := by
  cases r <;> exact .of_mem_eq rfl rfl rfl rfl rfl rfl

theorem portTarget_entry_lt {off : BitVec 22} {f : RegFile} {i : Nat} (h : portTarget off = .entry f i) : i < f.cap := by
  unfold portTarget at h
  simp only at h
  split at h
  · cases h
  · split at h
    · split at h
      · cases h
        assumption
      · cases h
    · cases h

theorem RegFile.isTable_of_hostWritable {f : RegFile} (h : f.hostWritable = true) : f.isTable = false := by
  cases f <;> simp [RegFile.hostWritable, RegFile.isTable] at h ⊢

/-- A host write to a file reaches none of the entries a decode in progress goes by. -/
theorem setEntry_sameDecode (s : State) {f : RegFile} {i : Nat} (v : Word) (hf : f.hostWritable = true) (hi : i < f.cap) :
    s.SameDecode (s.setMem (s.mem.setEntry f i v)) := by
  have hi' : i < 65536 := hi.trans_le f.cap_le
  refine ⟨rfl, rfl, rfl, rfl, rfl, Memory.kept_setEntry _ ?_ _ _, fun g hg => Memory.sameFile_setEntry _ _ hi' ?_⟩
  · exact RegFile.isTable_of_hostWritable hf
  · rintro rfl
    simp only [List.mem_cons, List.not_mem_nil, or_false] at hg
    rcases hg with rfl | rfl | rfl <;> cases hf

theorem portWrite_sameDecode (s : State) (off : BitVec 22) (v : Word) : s.SameDecode (s.portWrite off v) := by
  have refl : s.SameDecode s := .of_mem_eq rfl rfl rfl rfl rfl rfl
  unfold State.portWrite
  cases ht : portTarget off with
  | unmapped => split <;> exact refl
  | reg r =>
    split
    · rw [State.writeTargetBusy]
      split
      · exact writeReg_sameDecode s v r
      · exact .of_mem_eq rfl rfl rfl rfl rfl rfl
    · exact writeReg_sameDecode s v r
  | entry f i =>
    split
    · exact .of_mem_eq rfl rfl rfl rfl rfl rfl
    · rw [State.writeTarget]
      split
      · exact setEntry_sameDecode s v ‹_› (portTarget_entry_lt ht)
      · exact refl

/-- Without a configuration or a decode in progress only the memory's form is left to ask for. -/
theorem inv_of_unconfigured (s : State) (h : s.mem.wf) (hv : s.status.cfgValid = false) (hd : s.status.dstage = .idle) : s.Inv :=
  ⟨h, fun e => absurd e (by simp [hv]), fun e => absurd e (by simp [hv]), fun e => absurd hd e⟩

theorem hostEvent_keeps_inv {s t : State} (h : s.Inv) (ht : hostEvent s = .ok t) : t.Inv := by
  have pend (p : List HostEvent) : ({ s with pending := p } : State).Inv := h.congr (.of_mem_eq rfl rfl rfl rfl rfl rfl)
  rcases hostEvent_next ht with ⟨-, rfl⟩ | ⟨off, rest, -, hr⟩ | ⟨off, v, rest, -, rfl⟩ | ⟨rest, -, rfl⟩ | ⟨rest, -, rfl⟩
  · exact h
  · rw [portRead_next hr]
    exact h.congr (.of_mem_eq rfl rfl rfl rfl rfl rfl)
  · exact (pend rest).congr (portWrite_sameDecode _ off v)
  · exact h.congr (.of_mem_eq rfl rfl rfl rfl rfl rfl)
  · exact inv_of_unconfigured _ Memory.wf_nil rfl rfl

/-! ### ENCODE and CONFIG -/

theorem encodeParity_length (F : GField) (g : List Half) {nroots : Nat} (h : 1 ≤ nroots) (msg : List Half) :
    (encodeParity F g nroots msg).length = nroots := by
  unfold encodeParity
  induction msg using List.reverseRecOn with
  | nil => simp
  | append_singleton msg c ih => rw [List.foldl_append, List.foldl_cons, List.foldl_nil, encodeStep_length _ _ _ _ (by omega), ih]

theorem State.nroots_lt (s : State) : s.nroots < 65536 := s.active.actNroots.isLt

/-- What a usable configuration says of `nroots` (R141). -/
theorem usable_nroots {s : State} (h : s.active.usable = true) : 1 ≤ s.nroots ∧ s.nroots < s.n := by
  simp only [Active.usable, Bool.and_eq_true, decide_eq_true_eq] at h
  obtain ⟨⟨⟨⟨-, h1⟩, h2⟩, -⟩, -⟩ := h
  exact ⟨h1, h2⟩

theorem checkConfigured_valid {s : State} {k : Except Fault (Option ErrCode)} (h : checkConfigured s k = .ok none) :
    s.configured :=
  let ⟨hv, hu, _⟩ := checkConfigured_eq_none h
  ⟨hv, hu⟩

theorem checkStage_dstage {need : DStage} {s : State} {k : Except Fault (Option ErrCode)}
    (h : checkStage need s k = .ok none) : s.status.dstage = need :=
  let ⟨_, _, hd, _⟩ := checkStage_eq_none h
  hd

theorem encodeBody_sameDecode {s t : State} (hu : s.active.usable = true) (h : encodeBody s = .ok t) : s.SameDecode t := by
  obtain ⟨msg, -, rfl⟩ := encodeBody_eq_ok.mp h
  refine ⟨rfl, rfl, rfl, rfl, rfl, Memory.kept_putHalves _ rfl _ _, fun f hf => Memory.sameFile_putHalves _ _ ?_ ?_⟩
  · rw [encodeParity_length _ _ (usable_nroots hu).1]
    exact s.nroots_lt.le
  · rintro rfl
    simp at hf

theorem genpolyElements_length (F : GField) (nroots fcr prim : Nat) :
    (genpolyElements F nroots fcr prim).length = nroots + 1 := by
  have h (l : List Nat) (g : List Half) : (l.foldl (genpolyStep F fcr prim) g).length = g.length := by
    induction l generalizing g with
    | nil => rfl
    | cons i l ih => rw [List.foldl_cons, ih, genpolyStep_length]
  simp [genpolyElements, h]

theorem configCheck_none {s : State} (h : configCheck s = .ok none) :
    s.staging.legal = true ∧ primitive s.staging.cfgM.toNat s.staging.cfgPoly.toNat = true := by
  unfold configCheck at h
  split at h
  · cases h
  · split at h
    · cases h
    · rename_i hl hp
      exact ⟨Bool.of_not_eq_false hl, Bool.of_not_eq_false hp⟩

/-- A legal staging configuration commits one that the rules can use (R141, R146, R148). -/
theorem activated_committed {c : Staging} (h : c.legal = true) : c.activated.Committed := by
  simp only [Staging.legal, Bool.and_eq_true, decide_eq_true_eq] at h
  obtain ⟨⟨⟨⟨⟨⟨hm, hm'⟩, hp⟩, ⟨h1, h2⟩, h3⟩, hf⟩, hq1, hq2⟩, hg⟩ := h
  have hp16 : 2 ^ c.cfgM.toNat ≤ 2 ^ 16 := Nat.pow_le_pow_right (by omega) (show _ ≤ 16 from hm')
  have hp2 : 2 ^ 2 ≤ 2 ^ c.cfgM.toNat := Nat.pow_le_pow_right (by omega) hm
  have hn : c.activated.actN.toNat = 2 ^ c.cfgM.toNat - 1 := by
    rw [Staging.activated, BitVec.toNat_ofNat, Nat.mod_eq_of_lt (by omega)]
  obtain ⟨hi1, hi2, hi3⟩ := computeIprim_spec (n := 2 ^ c.cfgM.toNat - 1) (by omega) hq1 hg
  have hi : c.activated.iprim.toNat = computeIprim (2 ^ c.cfgM.toNat - 1) c.cfgPrim.toNat := by
    rw [Staging.activated, BitVec.toNat_ofNat, Nat.mod_eq_of_lt (by omega)]
  constructor
  case m_range => exact ⟨hm, hm'⟩
  case n_eq => exact hn
  case poly_degree => exact hp
  case nroots_range =>
    rw [hn]
    exact ⟨h1, show c.cfgNroots.toNat < _ by omega, h3⟩
  case fcr_range =>
    rw [hn]
    exact show c.cfgFcr.toNat < _ by omega
  case prim_range =>
    rw [hn]
    exact ⟨hq1, show c.cfgPrim.toNat < _ by omega, hg⟩
  case iprim_range =>
    rw [hn, hi]
    exact ⟨hi1, hi2⟩
  case iprim_inv =>
    rw [hn, hi]
    exact hi3

theorem TablesBuilt.of_sameFile {m poly : Nat} {mem mem' : Memory} (h : TablesBuilt m poly mem) (hm : 1 ≤ m) (hm' : m ≤ 16)
    (ha : Memory.SameFile .alphaTo mem mem') (hl : Memory.SameFile .indexOf mem mem') : TablesBuilt m poly mem' := by
  have hp16 : 2 ^ m ≤ 2 ^ 16 := Nat.pow_le_pow_right (by omega) hm'
  have hlt := iterate_fieldStep_lt hm poly
  obtain ⟨h1, h2, h3, h4, h5, h6⟩ := h
  refine ⟨fun i hi => ?_, fun i hi => ?_, ?_, ?_, fun i hi hi' => ?_, fun i hi hi' => ?_⟩
  · rw [ha i (by omega), h1 i hi]
  · have := hlt i
    rw [hl _ (by omega), h2 i hi]
  · rw [ha _ (by omega), h3]
  · rw [hl _ (by omega), h4]
  · rw [ha i hi', h5 i hi hi']
  · rw [hl i hi', h6 i hi hi']

/-- What CONFIG leaves, its memory apart (R148). -/
theorem configBody_ok {s t : State} (h : configBody s = .ok t) :
    t.active = s.staging.activated ∧ t.status = { s.status with cfgValid := true, dstage := .idle } ∧
    ∃ g : List Half, g.length = s.staging.cfgNroots.toNat + 1 ∧
      t.mem = (buildTables s.staging.cfgM.toNat s.staging.cfgPoly.toNat s.mem).putHalves .genpoly 0 g := by
  obtain rfl := Except.ok.inj h
  exact ⟨rfl, rfl, _, by rw [List.length_map, genpolyElements_length]; rfl, rfl⟩

/-- A successful CONFIG commits a usable configuration with its tables (R141, R150). -/
theorem configBody_tables {s t : State} (hc : configCheck s = .ok none) (hb : configBody s = .ok t) :
    t.active.Committed ∧ t.field.Tables t.active.actM.toNat t.active.actPoly.toNat := by
  obtain ⟨hlegal, hprim⟩ := configCheck_none hc
  obtain ⟨ha, -, g, hg, hmem⟩ := configBody_ok hb
  have hcom : t.active.Committed := ha ▸ activated_committed hlegal
  have hlen : g.length ≤ 65536 := by
    rw [hg]
    exact s.staging.cfgNroots.isLt
  obtain ⟨hm, hm'⟩ := hcom.m_range
  have hn := hcom.n_eq
  refine ⟨hcom, ?_⟩
  rw [ha] at hm hm' hn ⊢
  refine tables_of_built hm hm' hprim (ha ▸ hn) ?_
  rw [hmem]
  exact (buildTables_built hm hm' hprim _).of_sameFile (by omega) hm'
    (Memory.sameFile_putHalves _ _ hlen (by decide)) (Memory.sameFile_putHalves _ _ hlen (by decide))

theorem configBody_keeps_inv {s t : State} (h : s.Inv) (hc : configCheck s = .ok none) (hb : configBody s = .ok t) : t.Inv := by
  obtain ⟨hcom, htab⟩ := configBody_tables hc hb
  obtain ⟨-, hst, g, -, hmem⟩ := configBody_ok hb
  refine ⟨?_, fun _ => hcom, fun _ => htab, fun hne => absurd (by rw [hst]) hne⟩
  rw [hmem]
  exact Memory.putHalves_wf (buildTables_wf h.memory) _ _ _

end Sys2Proof.Machine

namespace Sys2Proof.Machine

/-! ### How the bodies move DSTAGE (R45) -/

theorem decSynBody_dstage {e c : Bool} {s t : State} (h : decSynBody e c s = .ok t) :
    t.status.dstage = .idle ∨ t.status.dstage = .syn := by
  obtain ⟨block, r, d, -, hd, rfl⟩ := decSynBody_ok h
  exact hd

theorem decErasBody_dstage {s t : State} (h : decErasBody s = .ok t) : t.status.dstage = .eras := by
  obtain ⟨us, -, rfl⟩ := decErasBody_eq_ok.mp h
  rfl

theorem decBmBody_dstage {s t : State} (h : decBmBody s = .ok t) : t.status.dstage = .bm := by
  obtain ⟨lam, syn, v, deg, -, -, -, -, rfl⟩ := decBmBody_eq_ok.mp h
  rfl

theorem decChienBody_dstage {policy : Config.PadRootPolicy} {s t : State} (h : decChienBody policy s = .ok t) :
    t.status.dstage = .idle ∨ t.status.dstage = .chien := by
  obtain ⟨lam, r, d, -, hd, rfl⟩ := decChienBody_ok h
  exact hd.imp_right And.left

theorem decForneyBody_dstage {s t : State} (h : decForneyBody s = .ok t) : t.status.dstage = .forney := by
  obtain ⟨-, syn, lam, roots, locs, mags, -, -, -, -, -, rfl⟩ := decForneyBody_eq_ok.mp h
  rfl

theorem decApplyBody_idle {s t : State} (h : decApplyBody s = .ok t) : t.status.dstage = .idle := by
  obtain ⟨-, locs, mags, mem, -, -, -, rfl⟩ := decApplyBody_eq_ok.mp h
  rfl

/-! ### The stages of a decode -/

theorem State.block_ok {s : State} {len : Nat} {mask : Half} {b : List Half} (h : s.block len mask = .ok b) :
    s.mem.written .data len ∧ s.mem.written .par s.nroots := by
  unfold State.block State.message State.parity at h
  split at h
  · cases h
  · rename_i msg hm
    split at hm
    · cases hm
    · rename_i ds hd
      refine ⟨(Memory.written_of_getHalves rfl hd).1, ?_⟩
      split at h
      · cases h
      · rename_i par hp
        split at hp
        · cases hp
        · rename_i ps hps
          exact (Memory.written_of_getHalves rfl hps).1

/-- What the checks of DEC_SYN and DECODE have made sure of (R326). -/
theorem decSynCheck_none {e : Bool} {s : State} (h : decSynCheck e s = .ok none) :
    s.configured ∧ s.len.toNat + s.nroots ≤ s.n ∧ s.ErasuresGood (s.effectiveErasures e) s.len.toNat := by
  obtain ⟨hv, hu, hk⟩ := checkConfigured_eq_none h
  split at hk
  · rename_i hl
    exact ⟨⟨hv, hu⟩, of_decide_eq_true hl, State.checkErasures_none.mp hk⟩
  · cases hk

theorem State.effectiveErasures_lt (s : State) (e : Bool) : s.effectiveErasures e < 65536 := by
  unfold State.effectiveErasures
  split
  · exact s.noEras.isLt
  · omega

theorem State.ErasuresGood.written {s : State} {ne len : Nat} (h : s.ErasuresGood ne len) : s.mem.written .eras ne := by
  intro k hk
  obtain ⟨w, hw, -⟩ := h.2 k hk
  exact (Memory.entryWritten_wide rfl).mpr ⟨w, hw⟩

theorem toNat_ofNat_half {x : Nat} (h : x < 65536) : (BitVec.ofNat 16 x).toNat = x := by
  rw [BitVec.toNat_ofNat, Nat.mod_eq_of_lt h]

theorem syndromes_length (F : GField) (nroots fcr prim : Nat) (block : List Half) :
    (syndromes F nroots fcr prim block).length = nroots := by simp [syndromes]

/-- DEC_SYN latches a geometry that adds up to `n`, and has read every symbol of the block (R46, R220). -/
theorem decSynBody_keeps_inv {e c : Bool} {s t : State} (h : s.Inv) (hc : decSynCheck e s = .ok none)
    (hb : decSynBody e c s = .ok t) : t.Inv := by
  refine h.of_frame (decSynBody_frame hb) fun hne => ?_
  obtain ⟨⟨hv, -⟩, hlen, hE⟩ := decSynCheck_none hc
  obtain ⟨block, r, d, hblk, hd, rfl⟩ := decSynBody_ok hb
  obtain ⟨hdata, hpar⟩ := State.block_ok hblk
  obtain rfl : d = .syn := hd.resolve_left hne
  have k := Memory.kept_putHalves s.mem (f := .s) rfl 0 ((syndromes s.field s.nroots s.fcr s.prim block).map s.field.log)
  have hne16 : (BitVec.ofNat 16 (s.effectiveErasures e)).toNat = s.effectiveErasures e :=
    toNat_ofNat_half (s.effectiveErasures_lt e)
  constructor
  case valid => exact hv
  case geometry =>
    have hn : s.n < 65536 := s.active.actN.isLt
    show s.len.toNat + (BitVec.ofNat 16 s.pad).toNat + s.nroots = s.n
    rw [toNat_ofNat_half] <;> simp only [State.pad] <;> omega
  case erasures => exact hne16.le.trans hE.1
  case data_written => exact k.written hdata
  case par_written => exact k.written hpar
  case eras_written =>
    show Memory.written _ .eras (BitVec.ofNat 16 (s.effectiveErasures e)).toNat
    rw [hne16]
    exact k.written hE.written
  case s_written =>
    exact Memory.written_putHalves _ rfl (by rw [List.length_map, syndromes_length]; rfl) s.nroots_lt.le
  case lam_written => exact fun hne => absurd rfl hne
  case lam_one => exact nofun
  case locator => rintro (h | h | h) <;> cases h
  case located => rintro (h | h) <;> cases h
  case mag_written => exact nofun

theorem locatorLoop_length (F : GField) (us lam : List Half) (k : Nat) : (locatorLoop F lam k us).length = lam.length := by
  induction us generalizing lam k with
  | nil => rfl
  | cons u us ih => rw [locatorLoop, ih, locatorStep_length]

@[simp] theorem erasureLocator_length (F : GField) (nroots : Nat) (us : List Half) :
    (erasureLocator F nroots us).length = nroots + 1 := by
  cases us with
  | nil => simp [erasureLocator]
  | cons u us => simp [erasureLocator, locatorLoop_length]

theorem locatorLoop_constant (F : GField) (us : List Half) {lam : List Half} (hl : 1 ≤ lam.length) (k : Nat) :
    nth (locatorLoop F lam k us) 0 = nth lam 0 := by
  induction us generalizing lam k with
  | nil => rfl
  | cons u us ih => rw [locatorLoop, ih (by rwa [locatorStep_length]), locatorStep, nth_map_range hl, if_neg (by omega)]

/-- The constant coefficient of the erasure locator is 1 (R230). -/
theorem erasureLocator_constant (F : GField) (nroots : Nat) (us : List Half) : nth (erasureLocator F nroots us) 0 = 1 := by
  cases us with
  | nil => rfl
  | cons u us => rw [erasureLocator, locatorLoop_constant F us (by simp)]; rfl

/-- DEC_ERAS leaves a written locator with the constant coefficient 1 (R230). -/
theorem decErasBody_keeps_inv {s t : State} (h : s.Inv) (hd : s.status.dstage = .syn) (hb : decErasBody s = .ok t) :
    t.Inv := by
  have fr := decErasBody_frame hb
  obtain ⟨us, -, rfl⟩ := decErasBody_eq_ok.mp hb
  have hnr := s.nroots_lt
  have hlen := erasureLocator_length s.field s.nroots us
  refine h.of_frame fr fun _ => (h.decode (by simp [hd])).advance fr.active fr.cfgValid rfl fr.mem
    (fun _ => Memory.written_putHalves _ rfl hlen hnr) (fun _ => ?_) (by simp) (by simp) (by simp)
  refine (s.mem.half_putHalves_zero .lambda (hlen ▸ Nat.succ_pos _) (by omega)).trans ?_
  rw [← nth_of_lt, erasureLocator_constant]

/-- The shape of DEC_BM's variables: both lists of length `k`, and Λ's constant coefficient 1 (R240). -/
structure BmVars.Shape (k : Nat) (v : BmVars) : Prop where
  lam_length : v.lam.length = k
  b_length   : v.b.length = k
  constant   : nth v.lam 0 = 1

theorem bmT_constant (F : GField) {v : BmVars} (delta : Half) (h : 1 ≤ v.lam.length) : nth (bmT F v delta) 0 = nth v.lam 0 := by
  rw [bmT, nth_map_range h, if_pos rfl]

theorem bmStep_shape {F : GField} {syn : List Half} {ne k r : Nat} {v w : BmVars} (hk : 1 ≤ k) (h : v.Shape k)
    (hs : bmStep F syn ne v r = .ok w) : w.Shape k := by
  obtain ⟨hl, hb, h1⟩ := h
  have hshift : (shiftB F v.b).length = k := by rw [shiftB_length F _ (by omega), hb]
  have hT (d : Half) : (bmT F v d).length = k ∧ nth (bmT F v d) 0 = 1 := ⟨by rw [bmT_length, hl], by
    rw [bmT_constant F d (by omega), h1]⟩
  unfold bmStep at hs
  simp only at hs
  split at hs
  · cases hs
    exact ⟨hl, hshift, h1⟩
  · split at hs
    · split at hs
      · cases hs
      · rename_i b hbn
        cases hs
        exact ⟨(hT _).1, (mapE_length hbn).trans hl, (hT _).2⟩
    · cases hs
      exact ⟨(hT _).1, hshift, (hT _).2⟩

theorem bmLoop_shape {F : GField} {syn : List Half} {ne nroots k : Nat} {v w : BmVars} (hk : 1 ≤ k) (h : v.Shape k)
    (hs : bmLoop F syn ne nroots v = .ok w) : w.Shape k :=
  foldE_invariant (BmVars.Shape k) hs h fun _ _ _ _ hx hy => bmStep_shape hk hx hy

/-- `degree?` answers the largest index whose entry is not `A0` (R250). -/
theorem degree?_eq_some {F : GField} {lam : List Half} {deg : Nat} (h : degree? F lam = some deg) :
    deg < lam.length ∧ nth lam deg ≠ F.n ∧ ∀ j, deg < j → j < lam.length → nth lam j = F.n := by
  obtain ⟨ys, hys⟩ := List.getLast?_eq_some_iff.mp h
  have mem (j : Nat) : j ∈ ys ++ [deg] ↔ j < lam.length ∧ nth lam j ≠ F.n := by
    rw [← hys, List.mem_filter, List.mem_range, bne_iff_ne]
  have sorted : (ys ++ [deg]).Pairwise (· < ·) := hys ▸ List.pairwise_lt_range.filter _
  obtain ⟨hd, hd'⟩ := (mem deg).mp (by simp)
  refine ⟨hd, hd', fun j hj hl => ?_⟩
  by_contra hne
  rcases List.mem_append.mp ((mem j).mpr ⟨hl, hne⟩) with hj' | hj'
  · have := (List.pairwise_append.mp sorted).2.2 j hj' deg (by simp)
    omega
  · have := List.mem_singleton.mp hj'
    omega

theorem State.locator_length (s : State) : s.locator.length = s.nroots + 1 := State.halves_length _ _ _

theorem nth_map {f : Half → Half} {l : List Half} {i : Nat} (h : i < l.length) : nth (l.map f) i = f (nth l i) := by
  rw [nth_of_lt (by simpa), nth_of_lt h, List.getElem_map]

theorem actM_ge {s : State} (h : s.Inv) (hv : s.status.cfgValid = true) : 2 ≤ s.active.actM.toNat := (h.committed hv).m_range.1

/-- DEC_BM leaves a locator of the degree it records (R240, R250). -/
theorem decBmBody_locatorDone {s t : State} (h : s.Inv) (hd : s.status.dstage = .eras) (hb : decBmBody s = .ok t) :
    t.LocatorDone := by
  obtain ⟨lam, syn, v, deg, hlam, -, hv, hdeg, ht⟩ := decBmBody_eq_ok.mp hb
  have D := h.decode (by simp [hd])
  have T := h.tables D.valid
  have hnr := s.nroots_lt
  have hlen := (Memory.getHalves_eq_ok.mp hlam).1
  have hone : nth lam 0 = 1 := by
    have := (Memory.getHalves_eq_ok.mp hlam).2 0 (by omega)
    rw [D.lam_one hd, List.getElem?_eq_getElem (by omega), Option.some.injEq] at this
    rw [nth_of_lt (by omega), this]
  obtain ⟨hl, hbl, h1⟩ := bmLoop_shape (k := s.nroots + 1) (by omega) ⟨hlen, by simpa using hlen, hone⟩ hv
  obtain ⟨hd1, hd2, hd3⟩ := degree?_eq_some hdeg
  rw [List.length_map, hl] at hd1 hd3
  have hdegNat : (BitVec.ofNat 16 deg).toNat = deg := toNat_ofNat_half (by omega)
  have hloc : t.locator = v.lam.map s.field.log := by
    rw [State.locator, show t.nroots = s.nroots by rw [ht]; rfl,
      State.halves_congr (s := s.setMem (s.mem.putHalves .lambda 0 (v.lam.map s.field.log))) (t := t)
        (by rw [ht]; exact Memory.sameFile_putHalves _ _ (by omega) (by decide)) (by omega)]
    exact State.halves_putHalves rfl (by simpa using hl) (by omega)
  subst ht
  constructor
  case degree => exact hdegNat.le.trans (Nat.le_of_lt_succ hd1)
  case constant =>
    rw [hloc, nth_map (by omega), h1]
    exact T.log_one (actM_ge h D.valid)
  case range =>
    intro l hl'
    rw [hloc, List.mem_map] at hl'
    obtain ⟨x, -, rfl⟩ := hl'
    exact T.log_le x
  case leading =>
    rw [hloc]
    exact (congrArg _ hdegNat).trans_ne hd2
  case above =>
    intro j hj hj'
    rw [hloc]
    exact hd3 j (hdegNat ▸ hj) (Nat.lt_succ_of_le hj')

theorem decBmBody_keeps_inv {s t : State} (h : s.Inv) (hd : s.status.dstage = .eras) (hb : decBmBody s = .ok t) : t.Inv := by
  have fr := decBmBody_frame hb
  have L := decBmBody_locatorDone h hd hb
  have D := h.decode (by simp [hd])
  obtain ⟨lam, syn, v, deg, -, -, -, -, rfl⟩ := decBmBody_eq_ok.mp hb
  exact h.of_frame fr fun _ => D.advance fr.active fr.cfgValid rfl fr.mem
    (fun _ => fr.mem.written (D.lam_written (by simp [hd]))) (by simp) (fun _ => L) (by simp) (by simp)

/-! ### DEC_CHIEN -/

theorem mem_rootsFrom {F : GField} {iprim : Nat} {lam : List Half} {n : Nat} {p : Half × Half}
    (h : p ∈ rootsFrom F iprim lam 1 n) : ∃ x, 1 ≤ x ∧ x ≤ n ∧ evalIndexAt F lam x = 0 ∧
      p = (BitVec.ofNat 16 x, F.modn (x * iprim + F.n.toNat - 1)) := by
  unfold rootsFrom at h
  simp only [List.mem_map, List.mem_filter, List.mem_range'_1, beq_iff_eq] at h
  obtain ⟨x, ⟨⟨h1, h2⟩, h3⟩, rfl⟩ := h
  exact ⟨x, h1, by omega, h3, rfl⟩

theorem rootsFrom_roots_nodup {F : GField} {iprim : Nat} {lam : List Half} {n : Nat} (hn : n < 65536) :
    ((rootsFrom F iprim lam 1 n).map Prod.fst).Nodup := by
  unfold rootsFrom
  rw [List.map_map]
  refine ((List.nodup_range').filter _).map_on fun x hx y hy e => ?_
  simp only [List.mem_filter, List.mem_range'_1] at hx hy
  have := congrArg BitVec.toNat e
  simp only [Function.comp_apply] at this
  rwa [toNat_ofNat_half (by omega), toNat_ofNat_half (by omega)] at this

theorem rootsFrom_positions_nodup {F : GField} {iprim prim : Nat} {lam : List Half} (hn : 1 < F.n.toNat)
    (hinv : iprim * prim % F.n.toNat = 1) : ((rootsFrom F iprim lam 1 F.n.toNat).map Prod.snd).Nodup := by
  unfold rootsFrom
  rw [List.map_map]
  refine ((List.nodup_range').filter _).map_on fun x hx y hy e => ?_
  simp only [List.mem_filter, List.mem_range'_1] at hx hy
  exact position_injective hn hinv ⟨by omega, by omega⟩ ⟨by omega, by omega⟩ e

theorem GField.Tables.alpha_zero {F : GField} {m poly : Nat} (T : F.Tables m poly) (hm : 2 ≤ m) : F.alpha 0 = 1 := by
  have := T.n_pos hm
  have h := T.alpha_log 1 (by decide) (by simpa using by omega)
  rwa [T.log_one hm] at h

/-- The search runs on the locator that DEC_BM left (R260, R261). -/
theorem chienFound_eq {s : State} (h : s.Inv) (hv : s.status.cfgValid = true) (L : s.LocatorDone) :
    s.chienFound s.locator =
      (rootsFrom s.field s.active.iprim.toNat s.locator 1 s.n).take s.scalars.degLambda.toNat := by
  have C := h.committed hv
  have T := h.tables hv
  have hlen := s.locator_length
  unfold State.chienFound
  split
  · rename_i h0
    rw [h0, List.take_zero]
  · have hd := L.degree
    have := C.iprim_range
    exact chienSearch_eq (by omega) (by omega) this.1 (show _ ≤ s.active.actN.toNat - 1 by omega) L.constant
      (T.alpha_zero (actM_ge h hv)) fun j h1 h2 => L.above j h1 (by omega)

theorem chienFound_length_le {s : State} (h : s.Inv) (hv : s.status.cfgValid = true) (L : s.LocatorDone) :
    (s.chienFound s.locator).length ≤ s.scalars.degLambda.toNat := by
  rw [chienFound_eq h hv L]
  exact List.length_take_le _ _

theorem chienFound_sublist {s : State} (h : s.Inv) (hv : s.status.cfgValid = true) (L : s.LocatorDone) :
    (s.chienFound s.locator).Sublist (rootsFrom s.field s.active.iprim.toNat s.locator 1 s.n) :=
  chienFound_eq h hv L ▸ List.take_sublist _ _

/-- Each pair found is a root of the locator with a position in the full block (R261). -/
theorem mem_chienFound {s : State} (h : s.Inv) (hv : s.status.cfgValid = true) (L : s.LocatorDone) {p : Half × Half}
    (hp : p ∈ s.chienFound s.locator) : 1 ≤ p.1.toNat ∧ p.1.toNat ≤ s.n ∧ p.2.toNat < s.n ∧
      evalIndexAt s.field s.locator p.1.toNat = 0 := by
  obtain ⟨x, hx1, hx2, hx0, rfl⟩ := mem_rootsFrom ((chienFound_sublist h hv L).mem hp)
  have hn := (h.committed hv).nroots_range
  rw [toNat_ofNat_half (hx2.trans_lt s.active.actN.isLt)]
  exact ⟨hx1, hx2, s.field.modn_lt _ (show 0 < s.active.actN.toNat by omega), hx0⟩

theorem chienFound_nodup {s : State} (h : s.Inv) (hv : s.status.cfgValid = true) (L : s.LocatorDone) :
    ((s.chienFound s.locator).map Prod.fst).Nodup ∧ ((s.chienFound s.locator).map Prod.snd).Nodup := by
  have C := h.committed hv
  have hn := C.nroots_range
  have hsub := chienFound_sublist h hv L
  exact ⟨(rootsFrom_roots_nodup s.active.actN.isLt).sublist (hsub.map _),
    (rootsFrom_positions_nodup (F := s.field) (show 1 < s.active.actN.toNat by omega) C.iprim_inv).sublist (hsub.map _)⟩

/-- What a successful DEC_CHIEN has located (R262). -/
theorem uncorrectable_false {deg pad : Nat} {found : List (Half × Half)}
    (h : uncorrectable Config.padRootPolicy deg pad found = false) :
    deg ≠ 0 ∧ found.length = deg ∧ ∀ p ∈ found, pad ≤ p.2.toNat := by
  simpa [uncorrectable, Config.padRootPolicy, and_assoc] using h

/-- DEC_CHIEN leaves LAMBDA and every file but ROOT and LOC. -/
theorem decChienBody_sameFile {policy : Config.PadRootPolicy} {s t : State} (h : s.Inv) (hd : s.status.dstage = .bm)
    (hb : decChienBody policy s = .ok t) {f : RegFile} (h1 : .root ≠ f) (h2 : .loc ≠ f) : Memory.SameFile f s.mem t.mem := by
  obtain ⟨lam, r, d, hlam, -, rfl⟩ := decChienBody_ok hb
  have D := h.decode (by simp [hd])
  obtain rfl : lam = s.locator := (Memory.written_of_getHalves rfl hlam).2
  have := chienFound_length_le h D.valid (D.locator (by simp [hd]))
  have := s.nroots_lt
  exact (Memory.sameFile_putHalves _ _ (by simp; omega) h1).trans (Memory.sameFile_putHalves _ _ (by simp; omega) h2)

/-- DEC_CHIEN goes on only where it found as many roots as the degree, none of them in the pad (R262). -/
theorem decChienBody_goes_on {s t : State}
    (hb : decChienBody Config.padRootPolicy s = .ok t) (hne : t.status.dstage ≠ .idle) :
    (s.scalars.degLambda.toNat ≠ 0 ∧ (s.chienFound s.locator).length = s.scalars.degLambda.toNat ∧
      ∀ p ∈ s.chienFound s.locator, s.latches.dPad.toNat ≤ p.2.toNat) ∧
    t.scalars = { s.scalars with nrootsFound := s.scalars.degLambda } ∧ t.latches = s.latches ∧
    t.mem = (s.mem.putHalves .root 0 ((s.chienFound s.locator).map Prod.fst)).putHalves .loc 0
      ((s.chienFound s.locator).map Prod.snd) := by
  obtain ⟨lam, r, d, hlam, hcase, rfl⟩ := decChienBody_ok hb
  obtain ⟨rfl, hunc⟩ := hcase.resolve_left hne
  obtain rfl : lam = s.locator := (Memory.written_of_getHalves rfl hlam).2
  have hfound := uncorrectable_false hunc
  refine ⟨hfound, ?_, rfl, rfl⟩
  show { s.scalars with nrootsFound := BitVec.ofNat 16 (s.chienFound s.locator).length } = _
  rw [hfound.2.1, BitVec.ofNat_toNat, BitVec.setWidth_eq]

/-- DEC_CHIEN goes on with all roots of the locator, at different positions of the transmitted block (R261, R262). -/
theorem decChienBody_allLocated {s t : State} (h : s.Inv) (hd : s.status.dstage = .bm)
    (hb : decChienBody Config.padRootPolicy s = .ok t) (hne : t.status.dstage ≠ .idle) : t.AllLocated := by
  have fr := decChienBody_frame hb
  have D := h.decode (by simp [hd])
  have L := D.locator (by simp [hd])
  have hnr := s.nroots_lt
  have hLdeg := L.degree
  have hn : t.n = s.n := by simp only [State.n, fr.active]
  have sameLam := decChienBody_sameFile h hd hb (f := .lambda) (by decide) (by decide)
  obtain ⟨⟨hdeg, hcount, hpad⟩, hsc, hlat, hmem⟩ := decChienBody_goes_on hb hne
  have hmemf := fun p => mem_chienFound h D.valid L (p := p)
  obtain ⟨hnd1, hnd2⟩ := chienFound_nodup h D.valid L
  generalize s.chienFound s.locator = found at *
  have sameRoot : Memory.SameFile .root (s.mem.putHalves .root 0 (found.map Prod.fst)) t.mem :=
    hmem ▸ Memory.sameFile_putHalves _ _ (by simp; omega) (by decide)
  have hroots : t.roots = found.map Prod.fst := by
    rw [State.roots, hsc,
      State.halves_congr (s := s.setMem (s.mem.putHalves .root 0 (found.map Prod.fst))) (t := t) sameRoot (by omega)]
    exact State.halves_putHalves rfl (by simpa using hcount) (by omega)
  have hpositions : t.positions = found.map Prod.snd := by
    rw [State.positions, hsc]
    exact State.halves_putHalves hmem (by simpa using hcount) (by omega)
  have hlocator : t.locator = s.locator := by
    rw [State.locator, State.locator, State.nroots, fr.active, ← State.nroots, State.halves_congr sameLam (by omega)]
  constructor
  case count =>
    rw [hsc]
    exact ⟨Nat.pos_of_ne_zero hdeg, rfl⟩
  case entries =>
    intro j hj
    have hj' : j < found.length := by
      rw [hsc] at hj
      exact hcount ▸ hj
    obtain ⟨h1, h2, h3, -⟩ := hmemf _ (List.getElem_mem hj')
    refine ⟨found[j].1, found[j].2, ?_, ?_, h1, hn ▸ h2, hlat ▸ hpad _ (List.getElem_mem hj'), hn ▸ h3⟩
    · rw [sameRoot j (by omega), Memory.half_putHalves_zero _ .root (by simpa using hj') (by simp; omega), List.getElem_map]
    · rw [hmem, Memory.half_putHalves_zero _ .loc (by simpa using hj') (by simp; omega), List.getElem_map]
  case distinct => exact hroots ▸ hnd1
  case apart => exact hpositions ▸ hnd2
  case vanish =>
    rw [hroots, fr.field, hlocator]
    intro root hroot
    obtain ⟨p, hp, rfl⟩ := List.mem_map.mp hroot
    exact (hmemf p hp).2.2.2

theorem decChienBody_keeps_inv {s t : State} (h : s.Inv) (hd : s.status.dstage = .bm)
    (hb : decChienBody Config.padRootPolicy s = .ok t) : t.Inv := by
  have fr := decChienBody_frame hb
  have D := h.decode (by simp [hd])
  have sameLam := decChienBody_sameFile h hd hb (f := .lambda) (by decide) (by decide)
  refine h.of_frame fr fun hne => ?_
  have A := decChienBody_allLocated h hd hb hne
  have hd' := (decChienBody_dstage hb).resolve_left hne
  obtain ⟨-, hsc, hlat, -⟩ := decChienBody_goes_on hb hne
  exact D.advance fr.active fr.cfgValid hlat fr.mem (fun _ => fr.mem.written (D.lam_written (by simp [hd]))) (by simp [hd'])
    (fun _ => (D.locator (by simp [hd])).congr fr.active (by rw [hsc]) sameLam) (fun _ => A) (by simp [hd'])

/-! ### DEC_FORNEY and DEC_APPLY -/

@[simp] theorem omegaList_length (F : GField) (syn lam : List Half) (deg : Nat) : (omegaList F syn lam deg).length = deg := by
  simp [omegaList]

/-- DEC_FORNEY leaves the locator and its roots, and writes a magnitude for each (R270). -/
theorem decForneyBody_keeps_inv {s t : State} (h : s.Inv) (hd : s.status.dstage = .chien) (hb : decForneyBody s = .ok t) :
    t.Inv := by
  have fr := decForneyBody_frame hb
  have D := h.decode (by simp [hd])
  have hnr := s.nroots_lt
  obtain ⟨⟨-, hdeg, hcount⟩, syn, lam, roots, locs, mags, -, -, -, -, hmags, rfl⟩ := decForneyBody_eq_ok.mp hb
  have hol := omegaList_length s.field syn lam s.scalars.degLambda.toNat
  have hml : mags.length = s.scalars.nrootsFound.toNat := by simpa using mapE_length hmags
  have same (f : RegFile) (h1 : .omega ≠ f) (h2 : .mag ≠ f) : Memory.SameFile f s.mem
      ((s.mem.putHalves .omega 0 (omegaList s.field syn lam s.scalars.degLambda.toNat)).putWords .mag 0 mags) :=
    (Memory.sameFile_putHalves _ _ (by omega) h1).trans (Memory.sameFile_putWords _ _ (by omega) h2)
  have L := (D.locator (by simp [hd])).congr fr.active rfl (same .lambda (by decide) (by decide))
  have A := (D.located (by simp [hd])).congr fr.active rfl rfl rfl fr.mem fun f hf => by
    simp only [List.mem_cons, List.not_mem_nil, or_false] at hf
    rcases hf with rfl | rfl | rfl <;> exact same _ (by decide) (by decide)
  exact h.of_frame fr fun _ => D.advance fr.active fr.cfgValid rfl fr.mem
    (fun _ => fr.mem.written (D.lam_written (by simp [hd]))) (by simp) (fun _ => L) (fun _ => A)
    (fun _ => Memory.written_putWords _ rfl hml (by omega))

theorem decApplyBody_keeps_inv {s t : State} (h : s.Inv) (hb : decApplyBody s = .ok t) : t.Inv :=
  h.of_frame (decApplyBody_frame hb) fun hne => absurd (decApplyBody_idle hb) hne

/-- DECODE ends with no decode in progress (R290). -/
theorem decodeBody_idle {policy : Config.PadRootPolicy} {e c : Bool} {s t : State} (h : decodeBody policy e c s = .ok t) :
    t.status.dstage = .idle := by
  obtain ⟨s1, -, ⟨h0, rfl⟩ | ⟨-, s2, s3, s4, -, -, -, ⟨h0, rfl⟩ | ⟨-, s5, -, h6⟩⟩⟩ := decodeBody_ok h
  · exact h0
  · exact h0
  · exact decApplyBody_idle h6

/-! ### Every step -/

theorem body_keeps_inv {i : Instr} {s t : State} (h : s.Inv) (hc : Instr.check i s = .ok none)
    (hb : Instr.body i s = .ok t) : t.Inv := by
  cases i with
  | nop => exact Except.ok.inj hb ▸ h
  | config => exact configBody_keeps_inv h hc hb
  | encode => exact h.congr (encodeBody_sameDecode (checkConfigured_valid hc).2 hb)
  | decode e c => exact h.of_frame (decodeBody_frame hb) fun hne => absurd (decodeBody_idle hb) hne
  | softReset => exact Except.ok.inj hb ▸ inv_of_unconfigured _ h.memory rfl rfl
  | decSyn e c => exact decSynBody_keeps_inv h hc hb
  | decEras => exact decErasBody_keeps_inv h (checkStage_dstage hc) hb
  | decBm => exact decBmBody_keeps_inv h (checkStage_dstage hc) hb
  | decChien => exact decChienBody_keeps_inv h (checkStage_dstage hc) hb
  | decForney => exact decForneyBody_keeps_inv h (checkStage_dstage hc) hb
  | decApply => exact decApplyBody_keeps_inv h hb
  | fldDiv =>
    simp only [Instr.body] at hb
    split at hb
    · cases hb
    · exact Except.ok.inj hb ▸ h.congr (.of_mem_eq rfl rfl rfl rfl rfl rfl)
  | fldAlog | fldLog | fldModn | fldAdd | fldMul => exact Except.ok.inj hb ▸ h.congr (.of_mem_eq rfl rfl rfl rfl rfl rfl)

theorem exec_keeps_inv {i : Instr} {s t : State} (h : s.Inv) (he : exec i s = .next t) : t.Inv := by
  rcases exec_next he with ⟨c, -, rfl⟩ | ⟨hc, u, hu, rfl⟩
  · exact h.complete c
  · exact (body_keeps_inv h hc hu).complete .noError

theorem engineTurn_keeps_inv {s t : State} (h : s.Inv) (he : engineTurn s = .next t) : t.Inv := by
  rcases engineTurn_next he with ⟨r, -, rfl⟩ | ⟨i, -, hi⟩
  · exact h.complete .illegalCmd
  · exact exec_keeps_inv h hi

/-- Settles O59: a step is an engine turn or a host turn, and each command and each host event keeps the invariant. -/
theorem everyStepKeepsTheInvariant : Obligations.EveryStepKeepsTheInvariant := by
  intro s t h ht
  rcases step_cases s with ⟨-, hs⟩ | ⟨-, -, hs⟩ | ⟨-, hs⟩ <;> rw [hs] at ht
  · exact engineTurn_keeps_inv h ht
  · have htick : s.tick.Inv := h.congr (.of_mem_eq rfl rfl rfl rfl rfl rfl)
    exact hostEvent_keeps_inv htick (hostTurn_next.mp ht)
  · exact hostEvent_keeps_inv h (hostTurn_next.mp ht)

/-- Settles O58: nothing is configured and no decode is in progress after reset. -/
theorem resetMeetsTheInvariant : Obligations.ResetMeetsTheInvariant := inv_of_unconfigured _ Memory.wf_nil rfl rfl

end Sys2Proof.Machine

namespace Sys2Proof.Machine

open Finset Polynomial

/-! ### The tables as a field of characteristic 2 (R18, R143, R144)

The elements are mapped to an algebraically closed field that holds a root `α` of the polynomial: the bits of an element are its
coefficients at the powers of `α`. XOR becomes addition, and an advance by `step` multiplication by `α`. -/

section
variable {K : Type} [Field K]

/-- The value at `α` of the polynomial whose coefficients are the bits of `x`. -/
noncomputable def bitEval (α : K) (x : Nat) : K := ∑ i ∈ range 17, if x.testBit i then α ^ i else 0

@[simp] theorem bitEval_zero (α : K) : bitEval α 0 = 0 := by simp [bitEval]

@[simp] theorem bitEval_one (α : K) : bitEval α 1 = 1 := by
  rw [bitEval, sum_eq_single 0]
  · simp
  · intro i _ hi
    rw [if_neg (Bool.eq_false_iff.mp (Nat.testBit_lt_two_pow (Nat.one_lt_two_pow hi)))]
  · simp

theorem bitEval_xor [CharP K 2] (α : K) (x y : Nat) : bitEval α (x ^^^ y) = bitEval α x + bitEval α y := by
  rw [bitEval, bitEval, bitEval, ← sum_add_distrib]
  refine sum_congr rfl fun i _ => ?_
  rw [Nat.testBit_xor]
  cases x.testBit i <;> cases y.testBit i <;> simp [CharTwo.add_self_eq_zero]

theorem bitEval_shiftLeft (α : K) {x : Nat} (hx : x < 2 ^ 16) : bitEval α (x <<< 1) = α * bitEval α x := by
  have h16 : x.testBit 16 = false := Nat.testBit_lt_two_pow hx
  have hlow : bitEval α x = ∑ i ∈ range 16, if x.testBit i then α ^ i else 0 := by
    rw [bitEval, sum_range_succ, h16]
    simp
  rw [hlow, bitEval, sum_range_succ', mul_sum]
  simp [Nat.testBit_shiftLeft, pow_succ']

/-- `step` keeps an element below `2^m`, so its mask takes nothing away (R143). -/
theorem fieldStep_of_ne_zero {m poly x : Nat} (hp : 2 ^ m ≤ poly ∧ poly < 2 ^ (m + 1)) (h0 : x ≠ 0) (hx : x < 2 ^ m) :
    fieldStep m poly x = if (x <<< 1).testBit m then x <<< 1 ^^^ poly else x <<< 1 := by
  have ht : x <<< 1 < 2 ^ (m + 1) := by
    rw [Nat.shiftLeft_eq, pow_one, pow_succ]
    omega
  have hpm : poly.testBit m = true := Nat.testBit_of_two_pow_le_and_two_pow_add_one_gt hp.1 hp.2
  rw [fieldStep, if_neg h0, Nat.and_two_pow_sub_one_eq_mod, Nat.mod_eq_of_lt]
  refine Nat.lt_pow_two_of_testBit _ fun i hi => ?_
  rcases Nat.eq_or_lt_of_le hi with rfl | hi
  · split
    · rename_i ht
      rw [Nat.testBit_xor, ht, hpm]
      rfl
    · exact Bool.eq_false_iff.mpr ‹_›
  · have hpow : 2 ^ (m + 1) ≤ 2 ^ i := Nat.pow_le_pow_right (by omega) hi
    have h1 : (x <<< 1).testBit i = false := Nat.testBit_lt_two_pow (by omega)
    have h2 : poly.testBit i = false := Nat.testBit_lt_two_pow (by omega)
    split
    · rw [Nat.testBit_xor, h1, h2]
      rfl
    · exact h1

/-- An advance multiplies by `α`, since the polynomial vanishes there. -/
theorem bitEval_fieldStep [CharP K 2] {α : K} {m poly x : Nat} (hm : m ≤ 16) (hp : 2 ^ m ≤ poly ∧ poly < 2 ^ (m + 1))
    (hroot : bitEval α poly = 0) (h0 : x ≠ 0) (hx : x < 2 ^ m) : bitEval α (fieldStep m poly x) = α * bitEval α x := by
  have hx16 : x < 2 ^ 16 := hx.trans_le (Nat.pow_le_pow_right (by omega) hm)
  rw [fieldStep_of_ne_zero hp h0 hx]
  split
  · rw [bitEval_xor, hroot, add_zero, bitEval_shiftLeft α hx16]
  · exact bitEval_shiftLeft α hx16

/-- The polynomial has a root. -/
theorem exists_bitEval_eq_zero [IsAlgClosed K] {m poly : Nat} (hm : 1 ≤ m) (hm' : m ≤ 16) (hp : 2 ^ m ≤ poly ∧ poly < 2 ^ (m + 1)) :
    ∃ α : K, bitEval α poly = 0 := by
  have hcoeff : (∑ i ∈ range 17, if poly.testBit i then (X : K[X]) ^ i else 0).coeff m = 1 := by
    have hpm : poly.testBit m = true := Nat.testBit_of_two_pow_le_and_two_pow_add_one_gt hp.1 hp.2
    rw [finsetSum_coeff, sum_eq_single m]
    · simp [hpm]
    · intro i _ hi
      split
      · rw [coeff_X_pow, if_neg (Ne.symm hi)]
      · exact coeff_zero m
    · intro h
      exact absurd (mem_range.mpr (by omega)) h
  obtain ⟨α, hα⟩ := IsAlgClosed.exists_root (∑ i ∈ range 17, if poly.testBit i then (X : K[X]) ^ i else 0) fun h => by
    rw [eq_C_of_degree_eq_zero h, coeff_C, if_neg (by omega)] at hcoeff
    exact zero_ne_one hcoeff
  refine ⟨α, ?_⟩
  rw [IsRoot, eval_finsetSum] at hα
  refine Eq.trans (sum_congr rfl fun i _ => ?_) hα
  cases poly.testBit i <;> simp

/-- `α` is a root that the field's elements are polynomials in: `ALPHA_TO[i]` stands for `α^i`, and no element but 0 for 0. -/
structure GField.RootOf (F : GField) (α : K) : Prop where
  order : α ^ F.n.toNat = 1
  pow   : ∀ x, bitEval α (F.pow x).toNat = α ^ x
  zero  : ∀ x : Half, x.toNat ≤ F.n.toNat → bitEval α x.toNat = 0 → x = 0

theorem GField.Tables.m_le {F : GField} {m poly : Nat} (T : F.Tables m poly) : m ≤ 16 := by
  by_contra h
  have h1 := T.n_eq
  have h2 := F.n.isLt
  have : 2 ^ 17 ≤ 2 ^ m := Nat.pow_le_pow_right (by omega) (by omega)
  omega

theorem GField.Tables.exists_root {F : GField} {m poly : Nat} (T : F.Tables m poly) (hm : 2 ≤ m)
    (hp : 2 ^ m ≤ poly ∧ poly < 2 ^ (m + 1)) : ∃ α : AlgebraicClosure (ZMod 2), F.RootOf α := by
  have hn := T.n_pos hm
  have hneq := T.n_eq
  have hm' : m ≤ 16 := T.m_le
  obtain ⟨α, hα⟩ := exists_bitEval_eq_zero (K := AlgebraicClosure (ZMod 2)) (by omega) hm' hp
  have iter (i : Nat) (hi : i < F.n.toNat) : (fieldStep m poly)^[i] 1 ≠ 0 := by
    have hb : (BitVec.ofNat 16 i).toNat = i := toNat_ofNat_half (hi.trans F.n.isLt)
    have h1 := T.alpha_iter (BitVec.ofNat 16 i) (by rwa [hb])
    have h2 := (T.alpha_range (BitVec.ofNat 16 i) (by rwa [hb])).1
    rw [hb] at h1
    rw [← h1]
    simpa [BitVec.toNat_eq] using h2
  have powers (i : Nat) (hi : i ≤ F.n.toNat) : bitEval α ((fieldStep m poly)^[i] 1) = α ^ i := by
    induction i with
    | zero => simp
    | succ i ih =>
      rw [Function.iterate_succ_apply', bitEval_fieldStep hm' hp hα (iter i hi) (iterate_fieldStep_lt (by omega) _ _),
        ih (by omega), pow_succ']
  have order : α ^ F.n.toNat = 1 := by rw [← powers _ le_rfl, T.cycle, bitEval_one]
  have pow (x : Nat) : bitEval α (F.pow x).toNat = α ^ x := by
    have hlt := F.modn_lt x (by omega)
    rw [GField.pow, T.alpha_iter _ hlt, powers _ hlt.le, F.modn_toNat x (by omega), ← pow_mod_orderOf,
      Nat.mod_mod_of_dvd _ (orderOf_dvd_of_pow_eq_one order), pow_mod_orderOf]
  refine ⟨α, order, pow, fun x hx h0 => ?_⟩
  by_contra hne
  have hx' : F.pow (F.log x).toNat = x := by
    rw [GField.pow, F.modn_of_lt (T.log_range x hne hx), T.alpha_log x hne hx]
  rw [← hx', pow] at h0
  rw [eq_zero_of_pow_eq_zero h0, zero_pow (by omega)] at order
  exact zero_ne_one order

theorem bitEval_xorSum [CharP K 2] (α : K) (f : Nat → Half) (k : Nat) :
    bitEval α (xorSum ((List.range k).map f)).toNat = ∑ i ∈ range k, bitEval α (f i).toNat := by
  induction k with
  | zero => simp
  | succ k ih =>
    rw [List.range_succ, List.map_append, xorSum_append, BitVec.toNat_xor, bitEval_xor, ih, sum_range_succ]
    simp

namespace GField.RootOf

variable {F : GField} {α : K}

theorem ne_zero (R : F.RootOf α) (hn : 0 < F.n.toNat) : α ≠ 0 := by
  rintro rfl
  have := R.order
  rw [zero_pow (by omega)] at this
  exact zero_ne_one this

/-- Different exponents up to `n` give different powers of `α`. -/
theorem pow_injective [CharP K 2] {m poly : Nat} (T : F.Tables m poly) (hm : 2 ≤ m) (R : F.RootOf α) {x y : Nat} (h : α ^ x = α ^ y) :
    x ≡ y [MOD F.n.toNat] := by
  have hn := T.n_pos hm
  have hx := (F.modn_lt x (by omega))
  have hy := (F.modn_lt y (by omega))
  have hxor : F.pow x ^^^ F.pow y = 0 := by
    refine R.zero _ ?_ ?_
    · have hlt (z : Nat) : (F.pow z).toNat < 2 ^ m := by
        have := T.pow_le z
        have := T.n_eq
        have := Nat.two_pow_pos m
        omega
      have := xor_lt_two_pow (hlt x) (hlt y)
      have := T.n_eq
      omega
    · rw [BitVec.toNat_xor, bitEval_xor, R.pow, R.pow, h, CharTwo.add_self_eq_zero]
  have := congrArg F.log (BitVec.xor_eq_zero_iff.mp hxor)
  rw [GField.pow, GField.pow, T.log_alpha _ hx, T.log_alpha _ hy] at this
  have := congrArg BitVec.toNat this
  rwa [F.modn_toNat _ (by omega), F.modn_toNat _ (by omega)] at this

end GField.RootOf

end

/-! ### The denominator of Forney's rule (R271) -/

section
variable {K : Type} [Field K]

/-- The element that a coefficient in index form stands for. -/
noncomputable def indexEval (F : GField) (α : K) (l : Half) : K := if l = F.n then 0 else α ^ l.toNat

/-- Λ as a polynomial. -/
noncomputable def indexPoly (F : GField) (α : K) (lam : List Half) : K[X] :=
  ∑ j ∈ range lam.length, C (indexEval F α (nth lam j)) * X ^ j

variable {F : GField} {α : K}

theorem indexPoly_coeff (lam : List Half) {k : Nat} (hk : k < lam.length) :
    (indexPoly F α lam).coeff k = indexEval F α (nth lam k) := by
  rw [indexPoly, finsetSum_coeff, sum_eq_single k]
  · simp
  · intro j _ hj
    rw [coeff_C_mul_X_pow, if_neg (Ne.symm hj)]
  · intro h
    exact absurd (mem_range.mpr hk) h

theorem bitEval_evalIndexAt [CharP K 2] (R : F.RootOf α) (lam : List Half) (x : Nat) :
    bitEval α (evalIndexAt F lam x).toNat = (indexPoly F α lam).eval (α ^ x) := by
  rw [evalIndexAt, bitEval_xorSum, indexPoly, eval_finsetSum]
  refine sum_congr rfl fun j _ => ?_
  rw [eval_C_mul, eval_pow, eval_X, indexEval]
  split
  · simp
  · rw [R.pow, pow_add, ← pow_mul, Nat.mul_comm]

/-- A sum over pairs of neighbours. -/
theorem sum_range_two_mul (f : Nat → K) (k : Nat) :
    ∑ j ∈ range (2 * k), f j = ∑ h ∈ range k, (f (2 * h) + f (2 * h + 1)) := by
  induction k with
  | zero => rfl
  | succ k ih => rw [Nat.mul_succ, sum_range_succ, sum_range_succ, ih, sum_range_succ, add_assoc]

/-- The denominator is the value of Λ's derivative: in characteristic 2 the terms of even degree drop out (R271). -/
theorem bitEval_forneyDen [CharP K 2] (R : F.RootOf α) {lam : List Half} {deg nroots : Nat} (hlen : lam.length = nroots + 1)
    (hdeg : 1 ≤ deg) (hdeg' : deg ≤ nroots) (habove : ∀ j, deg < j → j ≤ nroots → nth lam j = F.n) (x : Nat) :
    bitEval α (forneyDen F lam deg nroots x).toNat = (derivative (indexPoly F α lam)).eval (α ^ x) := by
  have term (j : Nat) : (derivative (C (indexEval F α (nth lam j)) * X ^ j)).eval (α ^ x) =
      indexEval F α (nth lam j) * j * α ^ (x * (j - 1)) := by
    rw [derivative_C_mul_X_pow, eval_C_mul, eval_pow, eval_X, pow_mul]
  have even (h : Nat) : ((2 * h : Nat) : K) = 0 := by
    rw [Nat.cast_mul, Nat.cast_two, CharTwo.two_eq_zero, zero_mul]
  rw [indexPoly, derivative_sum, eval_finsetSum, forneyDen, bitEval_xorSum]
  simp only [term]
  have hsub : range (2 * (min deg (nroots - 1) / 2 + 1)) ⊆ range lam.length := range_subset_range.mpr (by omega)
  rw [← sum_subset hsub, sum_range_two_mul]
  · refine sum_congr rfl fun h hh => ?_
    rw [even, mul_zero, zero_mul, zero_add, Nat.cast_succ, even, zero_add, mul_one, Nat.add_sub_cancel, indexEval]
    split
    · rw [R.pow, pow_add, Nat.mul_comm x]
    · rename_i hne
      rw [if_pos (not_not.mp hne), zero_mul]
      exact bitEval_zero α
  · intro j hj hj'
    rw [mem_range] at hj hj'
    by_cases hjd : deg < j
    · rw [habove j hjd (by omega), indexEval, if_pos rfl, zero_mul, zero_mul]
    · obtain ⟨h, rfl⟩ : ∃ h, j = 2 * h := ⟨j / 2, by omega⟩
      rw [even, mul_zero, zero_mul]

/-- A polynomial with as many different roots as its degree has no double root. -/
theorem derivative_ne_zero_of_roots {p : K[X]} {roots : Finset K} (hp : p ≠ 0)
    (hdeg : p.natDegree ≤ roots.card) (hroots : ∀ y ∈ roots, p.IsRoot y) {y : K} (hy : y ∈ roots) :
    (derivative p).eval y ≠ 0 := by
  classical
  intro hd
  have hmult : 1 < p.rootMultiplicity y := (one_lt_rootMultiplicity_iff_isRoot hp).mpr ⟨hroots y hy, hd⟩
  have hle : y ::ₘ roots.val ≤ p.roots := by
    rw [Multiset.le_iff_count]
    intro z
    rw [Multiset.count_cons, count_roots]
    split
    · subst z
      have := Multiset.nodup_iff_count_le_one.mp roots.nodup y
      omega
    · by_cases hz : z ∈ roots
      · rw [Multiset.count_eq_one_of_mem roots.nodup hz]
        exact (rootMultiplicity_pos hp).mpr (hroots z hz)
      · rw [Multiset.count_eq_zero_of_notMem hz]
        exact Nat.zero_le _
  have h1 := Multiset.card_le_card hle
  have h2 := card_roots' p
  rw [Multiset.card_cons, card_val] at h1
  omega

end

/-- R271: at the roots of a locator that has as many roots as its degree, the denominator does not vanish. -/
theorem forneyDen_ne_zero {F : GField} {m poly : Nat} (T : F.Tables m poly) (hm : 2 ≤ m)
    (hp : 2 ^ m ≤ poly ∧ poly < 2 ^ (m + 1)) {lam : List Half} {deg nroots : Nat} {roots : List Nat}
    (hlen : lam.length = nroots + 1) (hdeg : 1 ≤ deg) (hdeg' : deg ≤ nroots) (hlead : nth lam deg ≠ F.n)
    (habove : ∀ j, deg < j → j ≤ nroots → nth lam j = F.n) (hcount : roots.length = deg) (hnodup : roots.Nodup)
    (hroots : ∀ r ∈ roots, 1 ≤ r ∧ r ≤ F.n.toNat ∧ evalIndexAt F lam r = 0) {r : Nat} (hr : r ∈ roots) :
    forneyDen F lam deg nroots r ≠ 0 := by
  classical
  obtain ⟨α, R⟩ := T.exists_root hm hp
  have hn := T.n_pos hm
  have hα := R.ne_zero (by omega)
  have hpoly : indexPoly F α lam ≠ 0 := by
    intro h
    have := indexPoly_coeff (F := F) (α := α) lam (k := deg) (by omega)
    rw [h, coeff_zero, indexEval, if_neg hlead] at this
    exact pow_ne_zero _ hα this.symm
  have hnat : (indexPoly F α lam).natDegree ≤ deg := by
    refine natDegree_sum_le_of_forall_le _ _ fun j hj => ?_
    by_cases hjd : deg < j
    · rw [habove j hjd (by have := mem_range.mp hj; omega), indexEval, if_pos rfl, C_0, zero_mul, natDegree_zero]
      exact Nat.zero_le _
    · exact (natDegree_C_mul_X_pow_le _ _).trans (by omega)
  have hinj : Set.InjOn (fun x => α ^ x) (roots.toFinset : Set Nat) := by
    intro x hx y hy e
    obtain ⟨hx1, hx2, -⟩ := hroots x (by simpa using hx)
    obtain ⟨hy1, hy2, -⟩ := hroots y (by simpa using hy)
    have h : x - 1 ≡ y - 1 [MOD F.n.toNat] := Nat.ModEq.add_right_cancel' 1
      (by rw [Nat.sub_add_cancel hx1, Nat.sub_add_cancel hy1]; exact R.pow_injective T hm e)
    have := h.eq_of_lt_of_lt (by omega) (by omega)
    omega
  have hder : (derivative (indexPoly F α lam)).eval (α ^ r) ≠ 0 := by
    refine derivative_ne_zero_of_roots (roots := roots.toFinset.image fun x => α ^ x) hpoly ?_ ?_
      (mem_image_of_mem _ (List.mem_toFinset.mpr hr))
    · rw [card_image_of_injOn hinj, List.toFinset_card_of_nodup hnodup, hcount]
      exact hnat
    · intro y hy
      obtain ⟨x, hx, rfl⟩ := mem_image.mp hy
      rw [IsRoot, ← bitEval_evalIndexAt R, (hroots x (List.mem_toFinset.mp hx)).2.2]
      exact bitEval_zero α
  intro h0
  rw [← bitEval_forneyDen R hlen hdeg hdeg' habove, h0] at hder
  exact hder (bitEval_zero α)

end Sys2Proof.Machine

namespace Sys2Proof.Machine

/-! ### Where a step can stop -/

/-- The fault names an entry that was never written (R64). -/
def State.Unwritten (s : State) (f : Fault) : Prop := ∃ file i, f = .unwrittenEntry file i ∧ ¬s.mem.entryWritten file i

theorem Active.Committed.usable {a : Active} (h : a.Committed) : a.usable = true := by
  have hr := h.nroots_range
  have hi := h.iprim_range
  simp only [Active.usable, Bool.and_eq_true, decide_eq_true_eq]
  exact ⟨⟨⟨⟨by omega, hr.1⟩, hr.2.1⟩, hr.2.2⟩, hi.1⟩

theorem State.Inv.configured {s : State} (h : s.Inv) (hv : s.status.cfgValid = true) : s.configured :=
  ⟨hv, (h.committed hv).usable⟩

/-- Under the invariant the configuration check never stops. -/
theorem checkConfigured_fault {s : State} {k : Except Fault (Option ErrCode)} {f : Fault} (h : s.Inv)
    (he : checkConfigured s k = .error f) : s.status.cfgValid = true ∧ k = .error f := by
  rcases checkConfigured_cases s k with ⟨-, hk⟩ | ⟨hv, hu, -⟩ | ⟨hv, -, hk⟩
  · rw [hk] at he
    cases he
  · rw [(h.configured hv).2] at hu
    cases hu
  · exact ⟨hv, hk ▸ he⟩

theorem checkErasures_fault {s : State} {ne len : Nat} {f : Fault} (h : s.checkErasures ne len = .error f) : s.Unwritten f := by
  obtain ⟨k, -, rfl, hk⟩ := State.checkErasures_error h
  exact ⟨.eras, k, rfl, by simp [Memory.entryWritten, RegFile.wide, hk]⟩

theorem checkStage_fault {need : DStage} {s : State} {k : Except Fault (Option ErrCode)} {f : Fault} (h : s.Inv)
    (he : checkStage need s k = .error f) : k = .error f := by
  have := (checkConfigured_fault h he).2
  split at this
  · exact this
  · cases this

/-- Under the invariant a check stops only at an unwritten entry of the erasure vector. -/
theorem check_fault {i : Instr} {s : State} {f : Fault} (h : s.Inv) (he : Instr.check i s = .error f) : s.Unwritten f := by
  have syn (e : Bool) (he : decSynCheck e s = .error f) : s.Unwritten f := by
    have := (checkConfigured_fault h he).2
    split at this
    · exact checkErasures_fault this
    · cases this
  cases i with
  | nop | softReset => cases he
  | config =>
    change configCheck s = _ at he
    unfold configCheck at he
    split at he
    · cases he
    · split at he <;> cases he
  | decode e c => exact syn e he
  | decSyn e c => exact syn e he
  | decEras => exact checkErasures_fault (checkStage_fault h he)
  | decBm | decChien | decForney | decApply => cases checkStage_fault h he
  | encode | fldAlog | fldLog | fldModn | fldAdd | fldMul | fldDiv => cases (checkConfigured_fault h he).2

theorem getHalves_fault {s : State} {file : RegFile} (hf : file.wide = false) {k : Nat} {f : Fault}
    (h : s.mem.getHalves file k = .error f) : s.Unwritten f := by
  obtain ⟨i, -, hi⟩ := mapE_eq_error h
  obtain ⟨hn, rfl⟩ := Memory.getHalf_eq_error.mp hi
  exact ⟨file, i, rfl, by simp [Memory.entryWritten, hf, hn]⟩

theorem message_fault {s : State} {len : Nat} {mask : Half} {f : Fault} (h : s.message len mask = .error f) : s.Unwritten f := by
  unfold State.message at h
  split at h
  · cases h
    exact getHalves_fault rfl ‹_›
  · cases h

theorem block_fault {s : State} {len : Nat} {mask : Half} {f : Fault} (h : s.block len mask = .error f) : s.Unwritten f := by
  unfold State.block State.parity at h
  split at h
  · cases h
    exact message_fault ‹_›
  · split at h
    · rename_i hp
      cases h
      split at hp
      · cases hp
        exact getHalves_fault rfl ‹_›
      · cases hp
    · cases h

theorem decSynBody_fault {e c : Bool} {s : State} {f : Fault} (h : decSynBody e c s = .error f) : s.Unwritten f := by
  unfold decSynBody at h
  split at h
  · cases h
    exact block_fault ‹_›
  · cases h

/-- A turn that always answers makes `mapE` answer. -/
theorem mapE_answers {α β : Type} {f : α → Except Fault β} {l : List α} (h : ∀ a ∈ l, ∃ b, f a = .ok b) :
    ∃ r, mapE f l = .ok r := by
  cases hm : mapE f l with
  | ok r => exact ⟨r, rfl⟩
  | error e =>
    obtain ⟨a, ha, he⟩ := mapE_eq_error hm
    obtain ⟨b, hb⟩ := h a ha
    rw [he] at hb
    cases hb

/-! ### The stages answer -/

/-- DEC_ERAS answers: a valid position lies in the block, so the argument of `modn` is not negative (R173, R231). -/
theorem decErasBody_answers {s : State} (h : s.Inv) (hd : s.status.dstage = .syn)
    (hE : s.ErasuresGood s.latches.dNoEras.toNat s.latches.dLen.toNat) : ∃ t, decErasBody s = .ok t := by
  have D := h.decode (by simp [hd])
  have hgeo := D.geometry
  obtain ⟨us, hus⟩ := mapE_answers (f := s.erasureExponent) (l := List.range s.latches.dNoEras.toNat) fun k hk => by
    obtain ⟨w, hw, h0, hlt⟩ := hE.2 k (List.mem_range.mp hk)
    have hnn : (0 : Int) ≤ s.prim * (s.n - 1 - (s.latches.dPad.toNat + w.toInt)) :=
      Int.mul_nonneg (Int.natCast_nonneg _) (by omega)
    exact ⟨_, by rw [State.erasureExponent, State.erasure_eq_ok.mpr ⟨w, hw, rfl⟩]; exact s.field.modnInt_of_nonneg hnn⟩
  exact ⟨_, decErasBody_eq_ok.mpr ⟨us, hus, rfl⟩⟩

theorem bmStep_answers {F : GField} {m poly : Nat} (T : F.Tables m poly) (syn : List Half) (ne : Nat) (v : BmVars) (r : Nat) :
    ∃ w, bmStep F syn ne v r = .ok w := by
  unfold bmStep
  simp only
  split
  · exact ⟨_, rfl⟩
  · split
    · obtain ⟨b, hb⟩ : ∃ b, bmNewB F v.lam (F.log (discrepancy F syn v.lam r)) = .ok b := mapE_answers fun l _ => by
        have := T.log_le (discrepancy F syn v.lam r)
        split
        · exact ⟨_, rfl⟩
        · exact ⟨_, F.modnInt_of_nonneg (by omega)⟩
      exact ⟨_, by rw [hb]⟩
    · exact ⟨_, rfl⟩

theorem bmLoop_answers {F : GField} {m poly : Nat} (T : F.Tables m poly) (syn : List Half) (ne nroots : Nat) (v : BmVars) :
    ∃ w, bmLoop F syn ne nroots v = .ok w := by
  obtain ⟨w, hw, -⟩ := foldE_answers (f := bmStep F syn ne) (fun _ => True) (x := v) trivial
    (l := List.range' (ne + 1) (nroots - ne)) fun x r _ _ => (bmStep_answers T syn ne x r).imp fun _ h => ⟨h, trivial⟩
  exact ⟨w, hw⟩

theorem degree?_answers {F : GField} {lam : List Half} (hl : 1 ≤ lam.length) (h : nth lam 0 ≠ F.n) :
    ∃ deg, degree? F lam = some deg := by
  have hmem : 0 ∈ (List.range lam.length).filter fun i => nth lam i != F.n := by
    rw [List.mem_filter, List.mem_range, bne_iff_ne]
    exact ⟨hl, h⟩
  exact ⟨_, List.getLast?_eq_some_getLast (List.ne_nil_of_mem hmem)⟩

/-- DEC_BM answers: the loop keeps the constant coefficient 1, so Λ has a degree (R240, R250). -/
theorem decBmBody_answers {s : State} (h : s.Inv) (hd : s.status.dstage = .eras) : ∃ t, decBmBody s = .ok t := by
  have D := h.decode (by simp [hd])
  have T := h.tables D.valid
  have hm := actM_ge h D.valid
  have hlam : s.mem.getHalves .lambda (s.nroots + 1) = .ok s.locator :=
    Memory.getHalves_of_written rfl (D.lam_written (by simp [hd]))
  have hsyn := Memory.getHalves_of_written (f := .s) rfl D.s_written
  obtain ⟨v, hv⟩ := bmLoop_answers T (s.halves .s s.nroots) s.latches.dNoEras.toNat s.nroots
    { lam := s.locator, b := s.locator.map s.field.log, el := s.latches.dNoEras.toNat }
  have hone : nth s.locator 0 = 1 := by
    rw [State.locator, State.halves, nth_map_range (by omega), D.lam_one hd]
    rfl
  obtain ⟨hl, -, h1⟩ := bmLoop_shape (k := s.nroots + 1) (by omega)
    ⟨State.halves_length _ _ _, by rw [List.length_map]; exact State.halves_length _ _ _, hone⟩ hv
  have hn := T.n_pos hm
  obtain ⟨deg, hdeg⟩ := degree?_answers (F := s.field) (lam := v.lam.map s.field.log) (by rw [List.length_map]; omega) (by
    rw [nth_map (by omega), h1, T.log_one hm]
    intro e
    rw [← e] at hn
    simp at hn)
  exact ⟨_, decBmBody_eq_ok.mpr ⟨_, _, v, deg, hlam, hsyn, hv, hdeg, rfl⟩⟩

theorem decChienBody_answers {policy : Config.PadRootPolicy} {s : State} (h : s.Inv) (hd : s.status.dstage = .bm) :
    ∃ t, decChienBody policy s = .ok t := by
  have D := h.decode (by simp [hd])
  have hdeg := (D.locator (by simp [hd])).degree
  have hlam := Memory.getHalves_of_written (f := .lambda) rfl (D.lam_written (by simp [hd]))
  exact ⟨_, decChienBody_eq_ok.mpr ⟨hdeg, _, hlam, rfl⟩⟩

/-- A magnitude is computed wherever the denominator does not vanish: no argument of `modn` is negative (R173, R271). -/
theorem forneyMag_answers {F : GField} {m poly : Nat} (T : F.Tables m poly) (omega lam : List Half) {deg nroots root : Nat}
    (fcr pad loc : Nat) (hroot : root ≤ F.n.toNat) (hden : forneyDen F lam deg nroots root ≠ 0) :
    ∃ w, forneyMag F omega lam deg nroots fcr pad root loc = .ok w := by
  have h1 : (0 : Int) ≤ root * (fcr - 1) + F.n.toNat := by
    have : (0 : Int) ≤ root * fcr := Int.mul_nonneg (Int.natCast_nonneg _) (Int.natCast_nonneg _)
    rw [Int.mul_sub]
    omega
  have h2 := T.log_le (forneyDen F lam deg nroots root)
  simp only [forneyMag, F.modnInt_of_nonneg h1, hden, if_false]
  split
  · exact ⟨_, rfl⟩
  · rw [F.modnInt_of_nonneg (by omega)]
    exact ⟨_, rfl⟩

/-- The entries of ROOT and LOC are written and hold `roots` and `positions`. -/
theorem State.AllLocated.getHalves {s : State} (A : s.AllLocated) :
    s.mem.getHalves .root s.scalars.nrootsFound.toNat = .ok s.roots ∧
    s.mem.getHalves .loc s.scalars.nrootsFound.toNat = .ok s.positions := by
  refine ⟨Memory.getHalves_of_written rfl fun j hj => ?_, Memory.getHalves_of_written rfl fun j hj => ?_⟩ <;>
    obtain ⟨root, loc, hr, hl, -⟩ := A.entries j hj <;>
    rw [Memory.entryWritten_narrow rfl]
  · exact ⟨root, hr⟩
  · exact ⟨loc, hl⟩

theorem State.AllLocated.nth_eq {s : State} (A : s.AllLocated) {j : Nat} (hj : j < s.scalars.nrootsFound.toNat) :
    1 ≤ (nth s.roots j).toNat ∧ (nth s.roots j).toNat ≤ s.n ∧
    s.latches.dPad.toNat ≤ (nth s.positions j).toNat ∧ (nth s.positions j).toNat < s.n := by
  obtain ⟨root, loc, hr, hl, h⟩ := A.entries j hj
  rw [State.roots, State.positions, State.halves, State.halves, nth_map_range hj, nth_map_range hj, hr, hl]
  exact h

theorem nth_mem {l : List Half} {i : Nat} (h : i < l.length) : nth l i ∈ l := by
  rw [nth_of_lt h]
  exact List.getElem_mem h

/-- At a located root the denominator does not vanish (R271). -/
theorem forneyDen_of_located {s : State} (h : s.Inv) (hv : s.status.cfgValid = true) (L : s.LocatorDone) (A : s.AllLocated)
    {j : Nat} (hj : j < s.scalars.nrootsFound.toNat) :
    forneyDen s.field s.locator s.scalars.degLambda.toNat s.nroots (nth s.roots j).toNat ≠ 0 := by
  have C := h.committed hv
  have hlen : s.roots.length = s.scalars.nrootsFound.toNat := State.halves_length _ _ _
  have hmem (r : Half) (hr : r ∈ s.roots) : 1 ≤ r.toNat ∧ r.toNat ≤ s.field.n.toNat ∧
      evalIndexAt s.field s.locator r.toNat = 0 := by
    obtain ⟨i, hi, rfl⟩ := List.getElem_of_mem hr
    have := A.nth_eq (hlen ▸ hi)
    rw [nth_of_lt hi] at this
    exact ⟨this.1, this.2.1, A.vanish _ hr⟩
  refine forneyDen_ne_zero (roots := s.roots.map BitVec.toNat) (h.tables hv) (actM_ge h hv) C.poly_degree
    (State.halves_length _ _ _) A.count.1 L.degree L.leading L.above ?_ ?_ ?_ ?_
  · rw [List.length_map, hlen, A.count.2]
  · exact A.distinct.map fun _ _ => BitVec.eq_of_toNat_eq
  · intro r hr
    obtain ⟨x, hx, rfl⟩ := List.mem_map.mp hr
    exact hmem x hx
  · exact List.mem_map_of_mem (nth_mem (by omega))

/-- DEC_FORNEY answers (R270, R271). -/
theorem decForneyBody_answers {s : State} (h : s.Inv) (hd : s.status.dstage = .chien) : ∃ t, decForneyBody s = .ok t := by
  have D := h.decode (by simp [hd])
  have L := D.locator (by simp [hd])
  have A := D.located (by simp [hd])
  have hdeg := L.degree
  obtain ⟨hcount, hcount'⟩ := A.count
  have hlam : s.mem.getHalves .lambda (s.nroots + 1) = .ok s.locator :=
    Memory.getHalves_of_written rfl (D.lam_written (by simp [hd]))
  have hsyn := Memory.getHalves_of_written (f := .s) rfl D.s_written
  obtain ⟨hroots, hlocs⟩ := A.getHalves
  obtain ⟨mags, hmags⟩ := mapE_answers (l := List.range s.scalars.nrootsFound.toNat)
    (f := fun j => forneyMag s.field (omegaList s.field (s.halves .s s.nroots) s.locator s.scalars.degLambda.toNat) s.locator
      s.scalars.degLambda.toNat s.nroots s.fcr s.latches.dPad.toNat (nth s.roots j).toNat (nth s.positions j).toNat)
    fun j hj => forneyMag_answers (h.tables D.valid) _ _ _ _ _ (A.nth_eq (List.mem_range.mp hj)).2.1
      (forneyDen_of_located h D.valid L A (List.mem_range.mp hj))
  exact ⟨_, decForneyBody_eq_ok.mpr ⟨⟨hcount, hdeg, by rw [hcount']; exact hdeg⟩, _, _, _, _, mags, hsyn, hlam, hroots, hlocs, hmags,
    rfl⟩⟩

/-- The symbol at a located position is one of the block's (R94, R280). -/
theorem symbolAt_of_geometry {n nroots len pad pos : Nat} (hgeo : len + pad + nroots = n) (hpos : pad ≤ pos) (hpos' : pos < n) :
    ∃ f i, symbolAt n nroots pad pos = .ok (f, i) ∧ (f = .data ∧ i < len ∨ f = .par ∧ i < nroots) := by
  unfold symbolAt
  rw [if_neg (by omega)]
  split
  · exact ⟨.data, _, rfl, .inl ⟨rfl, by omega⟩⟩
  · exact ⟨.par, _, rfl, .inr ⟨rfl, by omega⟩⟩

theorem applyStep_answers {n nroots len pad : Nat} {mem : Memory} (c : Bool) (locs : List Half) (mags : List Word) {j : Nat}
    (hgeo : len + pad + nroots = n) (hd : mem.written .data len) (hp : mem.written .par nroots)
    (hpos : pad ≤ (nth locs j).toNat) (hpos' : (nth locs j).toNat < n) :
    ∃ mem', applyStep n nroots pad c locs mags mem j = .ok mem' := by
  have hcor : ∃ mem', applyCorrection n nroots pad mem (nth locs j).toNat (mags.getD j 0) = .ok mem' := by
    unfold applyCorrection
    split
    · obtain ⟨f, i, hs, hfi⟩ := symbolAt_of_geometry hgeo hpos hpos'
      have hv : ∃ v, mem.getHalf f i = .ok v := by
        rcases hfi with ⟨rfl, hi⟩ | ⟨rfl, hi⟩
        · obtain ⟨v, hv⟩ := (Memory.entryWritten_narrow rfl).mp (hd i hi)
          exact ⟨v, Memory.getHalf_eq_ok.mpr hv⟩
        · obtain ⟨v, hv⟩ := (Memory.entryWritten_narrow rfl).mp (hp i hi)
          exact ⟨v, Memory.getHalf_eq_ok.mpr hv⟩
      obtain ⟨v, hv⟩ := hv
      exact ⟨_, by rw [hs]; simp only; rw [hv]⟩
    · exact ⟨_, rfl⟩
  obtain ⟨mem', hm⟩ := hcor
  exact ⟨_, by rw [applyStep, hm]⟩

/-- DEC_APPLY answers (R280). -/
theorem decApplyBody_answers {s : State} (h : s.Inv) (hd : s.status.dstage = .forney) : ∃ t, decApplyBody s = .ok t := by
  have D := h.decode (by simp [hd])
  have L := D.locator (by simp [hd])
  have A := D.located (by simp [hd])
  have hdeg := L.degree
  obtain ⟨-, hcount⟩ := A.count
  have hlocs := A.getHalves.2
  obtain ⟨mags, hmags⟩ := Memory.getWords_of_written (f := .mag) rfl (D.mag_written hd)
  obtain ⟨mem, hmem, -⟩ := foldE_answers (fun m => s.mem.Kept m)
    (f := applyStep s.n s.nroots s.latches.dPad.toNat (s.latches.dFlags.getLsbD 1) s.positions mags)
    (l := (List.range s.scalars.nrootsFound.toNat).reverse) (x := s.mem) (.refl _) fun m j hj hk => by
      have hj : j < s.scalars.nrootsFound.toNat := by simpa using hj
      obtain ⟨-, -, h1, h2⟩ := A.nth_eq hj
      obtain ⟨m', hm'⟩ := applyStep_answers (s.latches.dFlags.getLsbD 1) s.positions mags D.geometry
        (hk.written D.data_written) (hk.written D.par_written) h1 h2
      exact ⟨m', hm', hk.trans (applyStep_kept hm')⟩
  exact ⟨_, decApplyBody_eq_ok.mpr ⟨by rw [hcount]; exact hdeg, _, mags, mem, hlocs, hmags, hmem, rfl⟩⟩

/-- The erasure vector that DEC_SYN has checked is the one that DEC_ERAS finds (R46, R222). -/
theorem decSynBody_erasuresGood {e c : Bool} {s t : State} (hE : s.ErasuresGood (s.effectiveErasures e) s.len.toNat)
    (h : decSynBody e c s = .ok t) : t.ErasuresGood t.latches.dNoEras.toNat t.latches.dLen.toNat := by
  obtain ⟨block, r, d, -, -, rfl⟩ := decSynBody_ok h
  have hne : (BitVec.ofNat 16 (s.effectiveErasures e)).toNat = s.effectiveErasures e :=
    toNat_ofNat_half (s.effectiveErasures_lt e)
  have hlt := s.effectiveErasures_lt e
  refine ⟨hne.le.trans hE.1, fun k hk => ?_⟩
  have hk : k < s.effectiveErasures e := hk.trans_eq hne
  obtain ⟨w, hw, hw'⟩ := hE.2 k hk
  refine ⟨w, ?_, hw'⟩
  rw [← hw]
  refine Memory.word_putHalves_outside _ _ ?_ (by omega) (.inl (by decide))
  rw [List.length_map, syndromes_length, Nat.zero_add]
  exact s.nroots_lt.le

/-- DECODE stops only where its DEC_SYN part does: each later stage answers on what the one before it left. -/
theorem decodeBody_fault {e c : Bool} {s : State} {f : Fault} (h : s.Inv) (hc : decSynCheck e s = .ok none)
    (he : decodeBody Config.padRootPolicy e c s = .error f) : s.Unwritten f := by
  unfold decodeBody at he
  split at he
  · cases he
    exact decSynBody_fault ‹_›
  · rename_i s1 h1
    exfalso
    have I1 := decSynBody_keeps_inv h hc h1
    unfold decodeLocate at he
    split at he
    · cases he
    · rename_i hne
      have hd1 := (decSynBody_dstage h1).resolve_left hne
      obtain ⟨s2, h2⟩ := decErasBody_answers I1 hd1 (decSynBody_erasuresGood (decSynCheck_none hc).2.2 h1)
      have I2 := decErasBody_keeps_inv I1 hd1 h2
      have hd2 := decErasBody_dstage h2
      obtain ⟨s3, h3⟩ := decBmBody_answers I2 hd2
      have I3 := decBmBody_keeps_inv I2 hd2 h3
      have hd3 := decBmBody_dstage h3
      obtain ⟨s4, h4⟩ := decChienBody_answers (policy := Config.padRootPolicy) I3 hd3
      have I4 := decChienBody_keeps_inv I3 hd3 h4
      simp only [h2, h3, h4, decodeCorrect] at he
      split at he
      · cases he
      · rename_i hne4
        have hd4 := (decChienBody_dstage h4).resolve_left hne4
        obtain ⟨s5, h5⟩ := decForneyBody_answers I4 hd4
        obtain ⟨s6, h6⟩ := decApplyBody_answers (decForneyBody_keeps_inv I4 hd4 h5) (decForneyBody_dstage h5)
        simp only [h5, h6] at he
        cases he

theorem div_answers {F : GField} {m poly : Nat} (T : F.Tables m poly) (a b : Half) : ∃ q, F.div a b = .ok q := by
  unfold GField.div
  split
  · exact ⟨_, rfl⟩
  · have := T.log_le b
    rw [F.modnInt_of_nonneg (by omega)]
    exact ⟨_, rfl⟩

/-- An answer is no fault. -/
theorem ne_error_of_answers {α : Type} {x : Except Fault α} {f : Fault} (h : ∃ t, x = .ok t) : x ≠ .error f := by
  obtain ⟨t, rfl⟩ := h
  nofun

/-- Under the invariant a body stops only at an entry that was never written. -/
theorem body_fault {i : Instr} {s : State} {f : Fault} (h : s.Inv) (hc : Instr.check i s = .ok none)
    (he : Instr.body i s = .error f) : s.Unwritten f := by
  cases i with
  | nop | config | softReset | fldAlog | fldLog | fldModn | fldAdd | fldMul => cases he
  | encode =>
    change encodeBody s = _ at he
    unfold encodeBody at he
    split at he
    · cases he
      exact message_fault ‹_›
    · cases he
  | decode e c => exact decodeBody_fault h hc he
  | decSyn e c => exact decSynBody_fault he
  | decEras =>
    obtain ⟨-, -, hd, hE⟩ := checkStage_eq_none hc
    exact absurd he (ne_error_of_answers (decErasBody_answers h hd (State.checkErasures_none.mp hE)))
  | decBm => exact absurd he (ne_error_of_answers (decBmBody_answers h (checkStage_dstage hc)))
  | decChien => exact absurd he (ne_error_of_answers (decChienBody_answers h (checkStage_dstage hc)))
  | decForney => exact absurd he (ne_error_of_answers (decForneyBody_answers h (checkStage_dstage hc)))
  | decApply => exact absurd he (ne_error_of_answers (decApplyBody_answers h (checkStage_dstage hc)))
  | fldDiv =>
    obtain ⟨q, hq⟩ := div_answers (h.tables (checkConfigured_valid hc).1) (s.opa.setWidth 16) (s.opb.setWidth 16)
    simp only [Instr.body, hq] at he
    cases he

theorem engineTurn_fault {s : State} {f : Fault} (h : s.Inv) (he : engineTurn s = .fault f) : s.Unwritten f := by
  unfold engineTurn at he
  split at he
  · rw [exec_eq_command] at he
    rcases command_fault he with hc | ⟨hc, hb⟩
    · exact check_fault h hc
    · exact body_fault h hc hb
  · cases he

theorem engineTurn_not_refused (s : State) (r : Refusal) : engineTurn s ≠ .refused r := by
  unfold engineTurn
  split
  · exact exec_not_refused _ _ _
  · nofun

theorem hostEvent_fault {s : State} {f : Fault} (he : hostEvent s = .error f) : s.Unwritten f := by
  obtain ⟨off, rest, -, hr⟩ := hostEvent_error he
  obtain ⟨-, file, i, -, rfl, hn⟩ := portRead_error hr
  refine ⟨file, i, rfl, fun hw => ?_⟩
  rw [← Memory.entry_isSome_iff, show s.mem.entry file i = none from hn] at hw
  cases hw

theorem hostTurn_not_refused (s : State) (r : Refusal) : hostTurn s ≠ .refused r := by
  unfold hostTurn
  split <;> nofun

/-- Settles O60: the checks and bodies stop only at unwritten entries, the later stages never, and a host turn only at a read. -/
theorem onlyUnwrittenEntriesStopAStep : Obligations.OnlyUnwrittenEntriesStopAStep := by
  intro s h
  rcases step_cases s with ⟨-, hs⟩ | ⟨-, -, hs⟩ | ⟨-, hs⟩ <;> rw [hs]
  · exact ⟨fun f hf => engineTurn_fault h hf, engineTurn_not_refused s⟩
  · exact ⟨fun f hf => hostEvent_fault (s := s.tick) (hostTurn_fault.mp hf), hostTurn_not_refused _⟩
  · exact ⟨fun f hf => hostEvent_fault (hostTurn_fault.mp hf), hostTurn_not_refused s⟩

end Sys2Proof.Machine

namespace Sys2Proof.Machine

/-! ### What a command moves and leaves (R35 to R46) -/

theorem checkConfigured_some {s : State} {k : Except Fault (Option ErrCode)} {c : ErrCode}
    (h : checkConfigured s k = .ok (some c)) : c = .notConfigured ∨ k = .ok (some c) := by
  rcases checkConfigured_cases s k with ⟨-, hk⟩ | ⟨-, -, hk⟩ | ⟨-, -, hk⟩ <;> rw [hk] at h
  · cases h
    exact .inl rfl
  · cases h
  · exact .inr h

theorem checkErasures_some {s : State} {ne len : Nat} {c : ErrCode} (h : s.checkErasures ne len = .ok (some c)) :
    c = .erasure := by
  unfold State.checkErasures at h
  split at h <;> cases h
  rfl

theorem checkStage_some {need : DStage} {s : State} {k : Except Fault (Option ErrCode)} {c : ErrCode}
    (h : checkStage need s k = .ok (some c)) : c = .notConfigured ∨ c = .sequence ∨ k = .ok (some c) := by
  refine (checkConfigured_some h).imp_right fun h => ?_
  split at h
  · exact .inr h
  · cases h
    exact .inl rfl

/-- A check that fails gives a code other than NONE (R322, R326). -/
theorem check_some_ne_noError {i : Instr} {s : State} {c : ErrCode} (h : Instr.check i s = .ok (some c)) : c ≠ .noError := by
  have syn (e : Bool) (h : decSynCheck e s = .ok (some c)) : c ≠ .noError := by
    rcases checkConfigured_some h with rfl | h
    · decide
    · split at h
      · exact checkErasures_some h ▸ by decide
      · cases h
        decide
  have stage (need : DStage) (h : checkStage need s (.ok none) = .ok (some c)) : c ≠ .noError := by
    rcases checkStage_some h with rfl | rfl | h
    · decide
    · decide
    · cases h
  have choice (b : Bool) (d : ErrCode) (hd : d ≠ .noError)
      (h : checkConfigured s (.ok (if b then none else some d)) = .ok (some c)) : c ≠ .noError := by
    rcases checkConfigured_some h with rfl | h
    · decide
    · cases b <;> cases h
      exact hd
  cases i with
  | nop | softReset => cases h
  | config =>
    change configCheck s = _ at h
    unfold configCheck at h
    split at h
    · cases h
      decide
    · split at h <;> cases h
      decide
  | decode e c => exact syn e h
  | decSyn e c => exact syn e h
  | decEras =>
    rcases checkStage_some h with rfl | rfl | h
    · decide
    · decide
    · exact checkErasures_some h ▸ by decide
  | decBm | decChien | decForney | decApply => exact stage _ h
  | encode => exact choice _ _ (by decide) h
  | fldAlog | fldLog | fldModn | fldAdd | fldMul | fldDiv => exact choice _ _ (by decide) h

/-- The body of a field operation writes RES alone (R44). -/
theorem fieldBody_ok {i : Instr} {s t : State} (hi : i ∈ [Instr.fldAlog, .fldLog, .fldModn, .fldAdd, .fldMul, .fldDiv])
    (h : Instr.body i s = .ok t) : ∃ r, t = s.setRes r := by
  simp only [List.mem_cons, List.not_mem_nil, or_false] at hi
  rcases hi with rfl | rfl | rfl | rfl | rfl | rfl
  case inr.inr.inr.inr.inr =>
    simp only [Instr.body] at h
    split at h
    · cases h
    · exact ⟨_, (Except.ok.inj h).symm⟩
  all_goals exact ⟨_, (Except.ok.inj h).symm⟩

/-- Settles O41: a failed check completes over the state it found; otherwise each body sets DSTAGE as R45 lists. -/
theorem commandsMoveDstageAsListed : Obligations.CommandsMoveDstageAsListed := by
  intro i s t h
  rcases exec_next h with ⟨c, hc, rfl⟩ | ⟨hc, u, hu, rfl⟩
  · exact ⟨fun _ => rfl, fun he => absurd he (check_some_ne_noError hc)⟩
  · refine ⟨fun he => absurd rfl he, fun _ => ?_⟩
    rw [show (complete .noError u).status.dstage = u.status.dstage from rfl]
    have res (hi : i ∈ [Instr.fldAlog, .fldLog, .fldModn, .fldAdd, .fldMul, .fldDiv]) : u.status.dstage = s.status.dstage := by
      obtain ⟨r, rfl⟩ := fieldBody_ok hi hu
      rfl
    cases i with
    | nop => exact Except.ok.inj hu ▸ rfl
    | config =>
      obtain ⟨-, hst, -⟩ := configBody_ok hu
      exact congrArg Status.dstage hst
    | encode =>
      obtain ⟨msg, -, rfl⟩ := encodeBody_eq_ok.mp hu
      rfl
    | decode e c => exact decodeBody_idle hu
    | softReset => exact Except.ok.inj hu ▸ rfl
    | decSyn e c => exact decSynBody_dstage hu
    | decEras => exact ⟨checkStage_dstage hc, decErasBody_dstage hu⟩
    | decBm => exact ⟨checkStage_dstage hc, decBmBody_dstage hu⟩
    | decChien => exact ⟨checkStage_dstage hc, decChienBody_dstage hu⟩
    | decForney => exact ⟨checkStage_dstage hc, decForneyBody_dstage hu⟩
    | decApply => exact ⟨checkStage_dstage hc, decApplyBody_idle hu⟩
    | fldAlog | fldLog | fldModn | fldAdd | fldMul | fldDiv => exact res (by simp)

/-! ### The operand registers LEN, NO_ERAS and INVMASK -/

/-- The state with other values in LEN, NO_ERAS and INVMASK. -/
def State.withOperands (s : State) (len noEras invmask : Half) : State :=
  { s with len := len, noEras := noEras, invmask := invmask }

/-- The stage commands after DEC_SYN (R45). -/
def laterStages : List Instr := [.decEras, .decBm, .decChien, .decForney, .decApply]

theorem erasuresInBlock_withOperands (s : State) (l e k : Half) (len : Nat) (ks : List Nat) :
    (s.withOperands l e k).erasuresInBlock len ks = s.erasuresInBlock len ks := by
  induction ks with
  | nil => rfl
  | cons j ks ih =>
    rw [State.erasuresInBlock, ih, State.erasuresInBlock]
    rfl

theorem checkErasures_withOperands (s : State) (l e k : Half) (ne len : Nat) :
    (s.withOperands l e k).checkErasures ne len = s.checkErasures ne len := by
  have : (s.withOperands l e k).erasuresValid ne len = s.erasuresValid ne len := by
    rw [State.erasuresValid, erasuresInBlock_withOperands, State.erasuresValid]
    rfl
  rw [State.checkErasures, this, State.checkErasures]

/-- The checks of the later stages read the latches only (R46). -/
theorem check_withOperands {i : Instr} (hi : i ∈ laterStages) (s : State) (l e k : Half) :
    Instr.check i (s.withOperands l e k) = Instr.check i s := by
  simp only [laterStages, List.mem_cons, List.not_mem_nil, or_false] at hi
  rcases hi with rfl | rfl | rfl | rfl | rfl
  · exact congrArg (checkStage .syn s) (checkErasures_withOperands s l e k _ _)
  all_goals rfl

/-- The later stages read and write none of the three registers: over other values in them they do the same (R366). -/
theorem body_withOperands {i : Instr} (hi : i ∈ laterStages) {s t : State} (l e k : Half) (h : Instr.body i s = .ok t) :
    Instr.body i (s.withOperands l e k) = .ok (t.withOperands l e k) := by
  simp only [laterStages, List.mem_cons, List.not_mem_nil, or_false] at hi
  rcases hi with rfl | rfl | rfl | rfl | rfl
  · obtain ⟨us, hus, rfl⟩ := decErasBody_eq_ok.mp h
    exact decErasBody_eq_ok.mpr ⟨us, hus, rfl⟩
  · obtain ⟨lam, syn, v, deg, h1, h2, h3, h4, rfl⟩ := decBmBody_eq_ok.mp h
    exact decBmBody_eq_ok.mpr ⟨lam, syn, v, deg, h1, h2, h3, h4, rfl⟩
  · obtain ⟨hdeg, lam, hlam, rfl⟩ := decChienBody_eq_ok.mp h
    refine decChienBody_eq_ok.mpr ⟨hdeg, lam, hlam, ?_⟩
    rw [show (s.withOperands l e k).chienFound lam = s.chienFound lam from rfl, apply_ite (State.withOperands · l e k)]
    rfl
  · obtain ⟨hb, syn, lam, roots, locs, mags, h1, h2, h3, h4, h5, rfl⟩ := decForneyBody_eq_ok.mp h
    exact decForneyBody_eq_ok.mpr ⟨hb, syn, lam, roots, locs, mags, h1, h2, h3, h4, h5, rfl⟩
  · obtain ⟨hc, locs, mags, mem, h1, h2, h3, rfl⟩ := decApplyBody_eq_ok.mp h
    exact decApplyBody_eq_ok.mpr ⟨hc, locs, mags, mem, h1, h2, h3, rfl⟩

/-- Settles O42: the checks and the bodies of the later stages are the same over other operand registers. -/
theorem laterStagesIgnoreTheOperandRegisters : Obligations.LaterStagesIgnoreTheOperandRegisters := by
  intro i s t len noEras invmask hi h
  show exec i (s.withOperands len noEras invmask) = .next (t.withOperands len noEras invmask)
  have hcheck := check_withOperands hi s len noEras invmask
  rw [exec_eq_command]
  rcases exec_next h with ⟨c, hc, rfl⟩ | ⟨hc, u, hu, rfl⟩
  · exact command_of_error (hcheck.trans hc)
  · exact command_of_ok (hcheck.trans hc) (body_withOperands hi len noEras invmask hu)

/-! ### The frame of all commands -/

/-- What every body but that of SOFT_RESET leaves: the registers that the host writes and the host's side of the port. -/
theorem body_host_frame {i : Instr} (hr : i ≠ .softReset) {s t : State} (h : Instr.body i s = .ok t) :
    t = { s with
      active := t.active, latches := t.latches, scalars := t.scalars, result := t.result, res := t.res, mem := t.mem
      status := t.status } := by
  by_cases hc : i = .config
  · subst hc
    exact Except.ok.inj h ▸ rfl
  · rw [(body_frame hc hr h).rest]

/-- Settles O43: a failed check changes completion fields only, and each body stays in its frame. -/
theorem onlyConfigAndSoftResetChangeTheConfiguration : Obligations.OnlyConfigAndSoftResetChangeTheConfiguration := by
  intro i s t h
  rcases exec_next h with ⟨c, -, rfl⟩ | ⟨-, u, hu, rfl⟩
  · exact ⟨fun _ _ => ⟨rfl, rfl⟩, fun _ _ _ => rfl, fun _ => ⟨rfl, rfl, rfl, rfl, rfl, rfl, rfl⟩, rfl, rfl, rfl, rfl, rfl⟩
  · by_cases hr : i = .softReset
    · subst hr
      obtain rfl := Except.ok.inj hu
      exact ⟨fun _ h => absurd rfl h, fun _ _ _ => rfl, fun h => absurd rfl h, rfl, rfl, rfl, rfl, rfl⟩
    · refine ⟨fun hc _ => ?_, fun hc => (body_frame hc hr hu).mem.tables, ?_⟩
      · exact ⟨(body_frame hc hr hu).active, (body_frame hc hr hu).cfgValid⟩
      · rw [body_host_frame hr hu]
        exact ⟨fun _ => ⟨rfl, rfl, rfl, rfl, rfl, rfl, rfl⟩, rfl, rfl, rfl, rfl, rfl⟩

end Sys2Proof.Machine

namespace Sys2Proof.Machine

/-! ### What a port access reaches (R81 to R84) -/

/-- Two windows that hold one offset are the same. -/
theorem window_unique {f g : RegFile} {a : Nat} (hf : f.base ≤ a ∧ a < f.base + 0x40000)
    (hg : g.base ≤ a ∧ a < g.base + 0x40000) : f = g := by
  cases f <;> cases g <;> simp only [RegFile.base, reduceCtorEq] at * <;> omega

theorem windowAt_of_mem {f : RegFile} {a : Nat} (hf : f.base ≤ a ∧ a < f.base + 0x40000) : windowAt a = some f := by
  have hmem : f ∈ regFiles := by cases f <;> decide
  have hsome : (windowAt a).isSome = true := List.find?_isSome.mpr ⟨f, hmem, by simpa using hf⟩
  obtain ⟨g, hg⟩ := Option.isSome_iff_exists.mp hsome
  rw [hg, window_unique (f := f) (g := g) hf (by simpa using List.find?_some hg)]

theorem RegFile.base_mod (f : RegFile) : f.base % 4 = 0 ∧ 0x40000 ≤ f.base ∧ f.base ≤ 0x380000 := by cases f <;> decide

theorem PortReg.offset_lt (r : PortReg) : r.offset < 0x40000 := by cases r <;> decide

/-- The host's offset of an entry reaches that entry (R82). -/
theorem portTarget_entryOffset {f : RegFile} {i : Nat} (hi : i < f.cap) : portTarget (entryOffset f i) = .entry f i := by
  obtain ⟨hmod, hlo, hhi⟩ := f.base_mod
  have hcap := f.cap_le
  have hoff : wordOffset (entryOffset f i) = f.base + 4 * i := by
    rw [wordOffset, entryOffset, entryAddr, BitVec.toNat_ofNat, Nat.mod_eq_of_lt (by omega)]
    omega
  have hreg : portRegs.find? (fun r => decide (r.offset = f.base + 4 * i)) = none := by
    rw [List.find?_eq_none]
    intro r _
    have := r.offset_lt
    rw [decide_eq_true_eq]
    omega
  unfold portTarget
  simp only [hoff, hreg, windowAt_of_mem (f := f) (a := f.base + 4 * i) (by omega)]
  rw [show (f.base + 4 * i - f.base) / 4 = i by omega, if_pos hi]

/-- The host's offset of a register reaches that register (R82). -/
theorem portTarget_portOffset (r : PortReg) : portTarget r.portOffset = .reg r := by
  cases r <;> rfl

theorem portTarget_reg_offset {off : BitVec 22} {r : PortReg} (h : portTarget off = .reg r) : r.offset = off.toNat / 4 * 4 := by
  unfold portTarget at h
  simp only at h
  split at h
  · rename_i hr
    cases h
    have he := List.find?_some hr
    exact of_decide_eq_true (p := r.offset = wordOffset off) he
  · split at h
    · split at h <;> cases h
    · cases h

/-! ### The table windows (R37 to R39, R47) -/

/-- A host read in a state with BUSY 0 (R83). -/
theorem step_read_idle {s : State} {off : BitVec 22} {rest : List HostEvent} (hb : s.status.busy = false)
    (hp : s.pending = .read off :: rest) :
    step s = match s.readTarget (portTarget off) with
      | .error e => .fault e
      | .ok v => .next { s with pending := rest, rdata := v } := by
  have hread : s.readTarget (portTarget off) = ({ s with pending := rest } : State).readTarget (portTarget off) := by
    cases portTarget off with
    | reg r => cases r <;> rfl
    | entry f i => rfl
    | unmapped => rfl
  rw [step_of_idle hb, hostTurn, hostEvent, hp]
  simp only [portRead_idle (s := { s with pending := rest }) hb, ← hread]
  cases s.readTarget (portTarget off) <;> rfl

/-- Settles O16: without a configuration a table reads 0; CONFIG's tables are 0 above `n`, and GENPOLY reads `A0` above `nroots`. -/
theorem tableWindowsReadTheirFill : Obligations.TableWindowsReadTheirFill := by
  refine ⟨fun s f i rest hb hv hf hi hp => ?_, fun s t h herr => ?_⟩
  · have htable : f.isTable = true := by
      simp only [List.mem_cons, List.not_mem_nil, or_false] at hf
      rcases hf with rfl | rfl | rfl <;> rfl
    rw [step_read_idle hb hp, portTarget_entryOffset hi, State.readTarget, State.readFile, if_pos htable, if_pos hv]
  · rcases exec_next h with ⟨c, hc, rfl⟩ | ⟨hc, u, hu, rfl⟩
    · exact absurd herr (check_some_ne_noError hc)
    · obtain ⟨-, hst, -⟩ := configBody_ok hu
      have hv : u.status.cfgValid = true := by rw [hst]
      have T := (configBody_tables hc hu).2
      have read (f : RegFile) (hf : f.isTable = true) (i : Nat) : (complete .noError u).readTarget (.entry f i) =
          .ok (if f = .genpoly then (u.genpoly i).setWidth 32 else (u.mem.tableEntry f i).setWidth 32) := by
        rw [State.readTarget, State.readFile, if_pos hf, if_neg (by rw [complete_status, hv]; decide)]
        rfl
      refine ⟨fun i hi hi' => ?_, fun i hi _ => ?_⟩
      · have hnat : (BitVec.ofNat 16 i).toNat = i := toNat_ofNat_half hi'
        obtain ⟨ha, hl⟩ := T.above (BitVec.ofNat 16 i) (hnat.symm ▸ hi)
        have ha : u.mem.tableEntry .alphaTo (BitVec.ofNat 16 i).toNat = 0 := ha
        have hl : u.mem.tableEntry .indexOf (BitVec.ofNat 16 i).toNat = 0 := hl
        rw [hnat] at ha hl
        rw [read _ rfl, read _ rfl, if_neg (by decide), if_neg (by decide), ha, hl]
        exact ⟨rfl, rfl⟩
      · rw [read _ rfl, if_pos rfl, State.genpoly,
          if_neg (show ¬i ≤ u.active.actNroots.toNat from Nat.not_le.mpr hi)]
        rfl

/-! ### The registers (R31 to R48) -/

/-- How many bits a register stores that is plainly read and written (R33, R42, R43). -/
def PortReg.storedBits : PortReg → Option Nat
  | .irqEn => some 3
  | .opa | .opb => some 32
  | .len | .noEras | .invmask | .cfgNroots | .cfgFcr | .cfgPrim => some 16
  | .cfgM => some 5
  | .cfgPoly => some 17
  | _ => none

theorem setWidth_setWidth_eq_mod (v : Word) {k : Nat} (hk : k ≤ 32) :
    (v.setWidth k).setWidth 32 = BitVec.ofNat 32 (v.toNat % 2 ^ k) := by
  apply BitVec.eq_of_toNat_eq
  have : 2 ^ k ≤ 2 ^ 32 := Nat.pow_le_pow_right (by omega) hk
  have : v.toNat % 2 ^ k < 2 ^ k := Nat.mod_lt _ (Nat.two_pow_pos k)
  rw [BitVec.toNat_setWidth, BitVec.toNat_setWidth, BitVec.toNat_ofNat]

/-- A written register reads back the bits it stores. -/
theorem readReg_writeReg_self (s : State) (v : Word) {r : PortReg} {k : Nat} (h : r.storedBits = some k) :
    (s.writeReg v r).readReg r = BitVec.ofNat 32 (v.toNat % 2 ^ k) := by
  cases r <;> cases h
  case opa | opb => exact (BitVec.setWidth_eq v).symm.trans (setWidth_setWidth_eq_mod v le_rfl)
  all_goals exact setWidth_setWidth_eq_mod v (by decide)

/-- A written register leaves what every other one reads. -/
theorem readReg_writeReg_of_ne (s : State) (v : Word) {r r' : PortReg} {k : Nat} (h : r.storedBits = some k) (hne : r' ≠ r) :
    (s.writeReg v r).readReg r' = s.readReg r' := by
  cases r <;> cases h <;> cases r' <;> simp [State.writeReg, State.readReg] at hne ⊢

/-- A written register leaves STATUS, the memory and the model's own fields. -/
theorem writeReg_frame (s : State) (v : Word) {r : PortReg} {k : Nat} (h : r.storedBits = some k) :
    (s.writeReg v r).status = s.status ∧ (s.writeReg v r).mem = s.mem ∧ (s.writeReg v r).pending = s.pending ∧
      (s.writeReg v r).rdata = s.rdata ∧ (s.writeReg v r).slack = s.slack ∧ (s.writeReg v r).draws = s.draws := by
  cases r <;> cases h <;> exact ⟨rfl, rfl, rfl, rfl, rfl, rfl⟩

theorem portRead_register {s : State} (hb : s.status.busy = false) (r : PortReg) :
    s.portRead r.portOffset = .ok { s with rdata := s.readReg r } := by
  rw [portRead_idle hb, portTarget_portOffset]
  rfl

theorem portWrite_register {s : State} (hb : s.status.busy = false) (r : PortReg) (v : Word) :
    s.portWrite r.portOffset v = s.writeReg v r := by
  rw [portWrite_idle hb, portTarget_portOffset]
  rfl

theorem paramWord_eq : paramWord = BitVec.ofNat 32 (16 + 65536 * Config.nrootsMax) := by
  simp [paramWord, Config.mMax, Config.padRootPolicy]

/-- Settles O52: each offset is that of a register, which stores its bits or reads as listed. -/
theorem registersReadAndStoreAsListed : Obligations.RegistersReadAndStoreAsListed := by
  refine ⟨fun s v hb p hp => ?_, fun s hb p hp => ?_⟩
  · obtain ⟨r, hr, hk⟩ : ∃ r : PortReg, p.1 = r.portOffset ∧ r.storedBits = some p.2 := by
      revert p
      simp only [List.forall_mem_cons, List.not_mem_nil, false_imp_iff, implies_true, and_true]
      exact ⟨⟨.irqEn, rfl, rfl⟩, ⟨.opa, rfl, rfl⟩, ⟨.opb, rfl, rfl⟩, ⟨.len, rfl, rfl⟩, ⟨.noEras, rfl, rfl⟩,
        ⟨.invmask, rfl, rfl⟩, ⟨.cfgM, rfl, rfl⟩, ⟨.cfgPoly, rfl, rfl⟩, ⟨.cfgNroots, rfl, rfl⟩, ⟨.cfgFcr, rfl, rfl⟩,
        ⟨.cfgPrim, rfl, rfl⟩⟩
    have hframe := writeReg_frame s v hk
    rw [hr, portWrite_register hb]
    refine ⟨?_, fun r' hne => readReg_writeReg_of_ne s v hk (by rintro rfl; exact hne rfl), hframe⟩
    rw [portRead_register (by rw [hframe.1, hb]), readReg_writeReg_self s v hk]
  · obtain ⟨r, hr, hv⟩ : ∃ r : PortReg, p.1 = r.portOffset ∧ s.readReg r = p.2 := by
      revert p
      simp only [List.forall_mem_cons, List.not_mem_nil, false_imp_iff, implies_true, and_true]
      exact ⟨⟨.id, rfl, rfl⟩, ⟨.param, rfl, paramWord_eq⟩, ⟨.cmd, rfl, rfl⟩, ⟨.status, rfl, rfl⟩, ⟨.result, rfl, rfl⟩,
        ⟨.res, rfl, rfl⟩, ⟨.actM, rfl, rfl⟩, ⟨.actPoly, rfl, rfl⟩, ⟨.actNroots, rfl, rfl⟩, ⟨.actFcr, rfl, rfl⟩,
        ⟨.actPrim, rfl, rfl⟩, ⟨.actN, rfl, rfl⟩, ⟨.iprim, rfl, rfl⟩, ⟨.dLen, rfl, rfl⟩, ⟨.dPad, rfl, rfl⟩,
        ⟨.dNoEras, rfl, rfl⟩, ⟨.dFlags, rfl, rfl⟩, ⟨.dInvmask, rfl, rfl⟩, ⟨.synError, rfl, rfl⟩, ⟨.degLambda, rfl, rfl⟩,
        ⟨.degOmega, rfl, rfl⟩, ⟨.el, rfl, rfl⟩, ⟨.nrootsFound, rfl, rfl⟩⟩
    rw [hr, portRead_register hb, hv]

/-! ### STATUS (R41) -/

theorem ErrCode.code_le (c : ErrCode) : c.code ≤ 8 := by cases c <;> decide

theorem DStage.code_le (d : DStage) : d.code ≤ 5 := by cases d <;> decide

theorem Status.word_toNat (t : Status) : t.word.toNat =
    t.busy.toNat + 2 * t.done.toNat + 4 * t.err.toNat + 8 * t.werr.toNat + 16 * t.cfgValid.toNat
      + 256 * t.errcode.code + 65536 * t.dstage.code := by
  have := t.errcode.code_le
  have := t.dstage.code_le
  have := t.busy.toNat_le
  have := t.done.toNat_le
  have := t.err.toNat_le
  have := t.werr.toNat_le
  have := t.cfgValid.toNat_le
  rw [Status.word, BitVec.toNat_ofNat, Nat.mod_eq_of_lt (by omega)]

/-- A flag stands at its bit. -/
theorem getLsbD_eq_of_div {w : Word} {k : Nat} {b : Bool} (h : w.toNat / 2 ^ k % 2 = b.toNat) : w.getLsbD k = b := by
  rw [BitVec.getLsbD, Nat.testBit_eq_decide_div_mod_eq, h]
  cases b <;> rfl

/-- Settles O55: the fields of the word do not overlap, and a write reaches `STATUS` whether BUSY is 0 or 1. -/
theorem statusWordAndItsWriteOneToClear : Obligations.StatusWordAndItsWriteOneToClear := by
  refine fun t v => ⟨?_, fun s => ?_⟩
  · have hw := t.word_toNat
    have := t.errcode.code_le
    have := t.dstage.code_le
    have := t.busy.toNat_le
    have := t.done.toNat_le
    have := t.err.toNat_le
    have := t.werr.toNat_le
    have := t.cfgValid.toNat_le
    refine ⟨getLsbD_eq_of_div ?_, getLsbD_eq_of_div ?_, getLsbD_eq_of_div ?_, getLsbD_eq_of_div ?_, getLsbD_eq_of_div ?_,
      ?_, ?_, ?_, ?_, ?_⟩ <;> omega
  · have ht : portTarget 0x00000C = .reg .status := portTarget_portOffset .status
    cases hb : s.status.busy
    · rw [portWrite_idle hb, ht]
      rfl
    · rw [portWrite_busy hb, ht]
      rfl

/-! ### CMD (R40) -/

theorem portTarget_cmd {off : BitVec 22} : portTarget off = .reg .cmd ↔ off.toNat / 4 = 2 := by
  constructor
  · intro h
    have := portTarget_reg_offset h
    simp only [PortReg.offset] at this
    omega
  · intro h
    exact (portTarget_congr (b := PortReg.cmd.portOffset) (by rw [h]; rfl)).trans (portTarget_portOffset .cmd)

theorem writeReg_cmd_of_ne (s : State) (v : Word) {r : PortReg} (hr : r ≠ .cmd) : (s.writeReg v r).cmd = s.cmd := by
  cases r <;> simp [State.writeReg] at hr ⊢

/-- A host write changes `CMD` only where it issues a command. -/
theorem portWrite_cmd {s : State} {off : BitVec 22} {v : Word} (h : (s.portWrite off v).cmd ≠ s.cmd) :
    s.status.busy = false ∧ off.toNat / 4 = 2 ∧ (s.portWrite off v).cmd = v := by
  cases hb : s.status.busy
  · rw [portWrite_idle hb] at h ⊢
    cases ht : portTarget off with
    | unmapped => exact absurd (by rw [ht]; rfl) h
    | entry f i =>
      rw [ht, State.writeTarget] at h
      split at h <;> exact absurd rfl h
    | reg r =>
      by_cases hr : r = .cmd
      · subst hr
        exact ⟨rfl, portTarget_cmd.mp ht, rfl⟩
      · rw [ht] at h
        exact absurd (writeReg_cmd_of_ne s v hr) h
  · rw [portWrite_busy hb, writeTargetBusy_eq] at h
    exact absurd rfl h

theorem exec_cmd {i : Instr} {s t : State} (h : exec i s = .next t) : t.cmd = s.cmd := by
  obtain ⟨-, -, -, hcmd, -⟩ := onlyConfigAndSoftResetChangeTheConfiguration i s t h
  exact hcmd

/-- A turn of the host changes `CMD` only by the issue of a command or the reset input. -/
theorem hostTurn_cmd {s t : State} (h : hostTurn s = .next t) (hne : t.cmd ≠ s.cmd) :
    (∃ rest, s.pending = .reset :: rest) ∨
    (s.status.busy = false ∧ ∃ off v rest, s.pending = .write off v :: rest ∧ off.toNat / 4 = 2 ∧ t.cmd = v) := by
  rcases hostEvent_next (hostTurn_next.mp h) with ⟨-, rfl⟩ | ⟨off, rest, -, hr⟩ | ⟨off, v, rest, hw, rfl⟩ | ⟨rest, -, rfl⟩ |
    ⟨rest, hw, rfl⟩
  · exact absurd rfl hne
  · rw [portRead_next hr] at hne
    exact absurd rfl hne
  · obtain ⟨hb, ho, hv⟩ := portWrite_cmd (s := { s with pending := rest }) hne
    exact .inr ⟨hb, off, v, rest, hw, ho, hv⟩
  · exact absurd rfl hne
  · exact .inl ⟨rest, hw⟩

/-- Settles O6: a write while BUSY is 0 issues its word, one while BUSY is 1 is dropped, and no other event or command writes CMD. -/
theorem cmdHoldsTheLastIssuedWord : Obligations.CmdHoldsTheLastIssuedWord := by
  refine ⟨rfl, fun s off v rest hb hp ho => ?_, fun s off rest hm hp ho => ?_, fun s off v rest hb hs hp ho => ?_, fun s t h hne => ?_⟩
  · rw [step_of_idle hb, hostTurn, hostEvent, hp]
    simp only [portWrite_idle (s := { s with pending := rest }) hb, portTarget_cmd.mpr ho]
    rfl
  · have ht := portTarget_cmd.mpr ho
    rcases step_cases s with ⟨hm', -⟩ | ⟨hb, -, hs⟩ | ⟨hb, -⟩
    · rw [hm] at hm'
      cases hm'
    · rw [hs, hostTurn, hostEvent, show s.tick.pending = .read off :: rest from hp]
      simp only [portRead_busy (s := { s.tick with pending := rest }) hb, ht, hb, if_true]
      rfl
    · rw [step_read_idle hb hp, ht, hb]
      rfl
  · rw [step_of_window hb hs, hostTurn, hostEvent, show s.tick.pending = .write off v :: rest from hp]
    simp only [portWrite_busy (s := { s.tick with pending := rest }) hb, portTarget_cmd.mpr ho]
    rfl
  · rcases step_cases s with ⟨-, hs⟩ | ⟨-, -, hs⟩ | ⟨-, hs⟩ <;> rw [hs] at h
    · rcases engineTurn_next h with ⟨r, -, rfl⟩ | ⟨i, -, hi⟩
      · exact absurd rfl hne
      · exact absurd (exec_cmd hi) hne
    · exact hostTurn_cmd (s := s.tick) h hne
    · exact hostTurn_cmd h hne

/-! ### Entries that were never written (R64) -/

theorem Memory.entry_eq_none {m : Memory} {f : RegFile} {i : Nat} (h : ¬m.entryWritten f i) : m.entry f i = none := by
  rwa [← Memory.entry_isSome_iff, Option.not_isSome_iff_eq_none] at h

/-- `mapE` stops at the first turn that stops. -/
theorem mapE_append_cons {α β : Type} {f : α → Except Fault β} {l₁ l₂ : List α} {a : α} {e : Fault}
    (h : ∀ b ∈ l₁, ∃ x, f b = .ok x) (ha : f a = .error e) : mapE f (l₁ ++ a :: l₂) = .error e := by
  induction l₁ with
  | nil => simp [mapE, ha]
  | cons b l₁ ih =>
    obtain ⟨x, hx⟩ := h b List.mem_cons_self
    rw [List.cons_append, mapE, hx]
    simp only [ih fun c hc => h c (List.mem_cons_of_mem _ hc)]

theorem range_eq_append_cons {i k : Nat} (h : i < k) : ∃ l, List.range k = List.range i ++ i :: l := by
  obtain ⟨r, rfl⟩ := Nat.exists_eq_add_of_lt h
  exact ⟨_, by rw [Nat.add_assoc, List.range_add, List.range_succ_eq_map, List.map_cons, Nat.add_zero]⟩

/-- A run of reads stops at the first entry never written. -/
theorem Memory.getHalves_unwritten {m : Memory} {f : RegFile} {i k : Nat} (hf : f.wide = false) (hi : i < k)
    (hw : m.written f i) (hn : ¬m.entryWritten f i) : m.getHalves f k = .error (.unwrittenEntry f i) := by
  obtain ⟨l, hl⟩ := range_eq_append_cons hi
  rw [getHalves, hl]
  refine mapE_append_cons (fun j hj => ?_) (getHalf_eq_error.mpr ⟨?_, rfl⟩)
  · obtain ⟨v, hv⟩ := (entryWritten_narrow hf).mp (hw j (List.mem_range.mp hj))
    exact ⟨v, getHalf_eq_ok.mpr hv⟩
  · simpa [entryWritten, hf] using hn

theorem message_unwritten {s : State} {i len : Nat} (mask : Half) (hi : i < len) (hw : s.mem.written .data i)
    (hn : ¬s.mem.entryWritten .data i) : s.message len mask = .error (.unwrittenEntry .data i) := by
  rw [State.message, Memory.getHalves_unwritten rfl hi hw hn]

/-- The entries of a valid part of the erasure vector are passed over. -/
theorem erasuresInBlock_append {s : State} {len : Nat} {l₁ l₂ : List Nat} (h : s.erasuresInBlock len l₁ = .ok true) :
    s.erasuresInBlock len (l₁ ++ l₂) = s.erasuresInBlock len l₂ := by
  induction l₁ with
  | nil => rfl
  | cons k l₁ ih =>
    rw [State.erasuresInBlock] at h
    rw [List.cons_append, State.erasuresInBlock]
    split at h
    · cases h
    · split at h
      · cases h
      · rename_i e hk hr
        simp only [hr, if_false]
        exact ih h

/-- The check of the erasure vector stops at its first entry never written. -/
theorem checkErasures_unwritten {s : State} {k ne len : Nat} (hne : ne ≤ s.nroots) (hk : k < ne) (hE : s.ErasuresGood k len)
    (hn : ¬s.mem.entryWritten .eras k) : s.checkErasures ne len = .error (.unwrittenEntry .eras k) := by
  obtain ⟨l, hl⟩ := range_eq_append_cons hk
  have hgood : s.erasuresInBlock len (List.range k) = .ok true :=
    State.erasuresInBlock_true.mpr fun j hj => hE.2 j (List.mem_range.mp hj)
  have hk : s.erasure k = .error (.unwrittenEntry .eras k) := by
    rw [State.erasure, Memory.getWord_eq_error.mpr ⟨Memory.entry_eq_none hn, rfl⟩]
  have hv : s.erasuresValid ne len = .error (.unwrittenEntry .eras k) := by
    rw [State.erasuresValid, if_neg (by omega), hl, erasuresInBlock_append hgood, State.erasuresInBlock, hk]
  rw [State.checkErasures, hv]

theorem State.lenFits_of_le {s : State} (h : s.len.toNat + s.nroots ≤ s.n) : s.lenFits = true := decide_eq_true h

theorem exec_of_check_error {i : Instr} {s : State} {f : Fault} (h : Instr.check i s = .error f) : exec i s = .fault f := by
  rw [exec_eq_command, command, h]

theorem exec_of_body_error {i : Instr} {s : State} {f : Fault} (hc : Instr.check i s = .ok none) (h : Instr.body i s = .error f) :
    exec i s = .fault f := by
  rw [exec_eq_command, command, hc]
  simp only [h]

/-- DEC_SYN and DECODE stop where the block cannot be read. -/
theorem decSyn_decode_block_error {s : State} {e c : Bool} {f : Fault} (hc : decSynCheck e s = .ok none)
    (h : s.block s.len.toNat s.mask = .error f) :
    exec (.decSyn e c) s = .fault f ∧ exec (.decode e c) s = .fault f := by
  have hb : decSynBody e c s = .error f := by rw [decSynBody, h]
  exact ⟨exec_of_body_error hc hb, exec_of_body_error hc (by rw [Instr.body, decodeBody, hb])⟩

/-- Settles O57: each run of reads stops at its first entry never written. -/
theorem unwrittenEntriesStopTheRun : Obligations.UnwrittenEntriesStopTheRun := by
  refine ⟨fun s f i rest hb hf hi hp hn => ?_, fun s i hs hl hi hw hn => ?_, fun s e c hs hl hne => ⟨fun k hk hE hn => ?_, fun hE => ?_⟩,
    fun s k hs hd hne hk hE hn => ?_, fun s t h f i => ?_⟩
  · rw [step_read_idle hb hp, portTarget_entryOffset hi, State.readTarget, State.readFile,
      if_neg (by rw [hf]; decide), Memory.getWord_eq_error.mpr ⟨Memory.entry_eq_none hn, rfl⟩]
  · refine exec_of_body_error ?_ ?_
    · exact (checkConfigured_of_configured hs.1 hs.2).trans (by rw [State.lenFits_of_le hl]; rfl)
    · rw [Instr.body, encodeBody, message_unwritten _ hi hw hn]
  · have hc : decSynCheck e s = .error (.unwrittenEntry .eras k) := by
      rw [decSynCheck, checkConfigured_of_configured hs.1 hs.2, if_pos (State.lenFits_of_le hl), checkErasures_unwritten hne hk hE hn]
    exact ⟨exec_of_check_error hc, exec_of_check_error hc⟩
  · have hc : decSynCheck e s = .ok none := by
      rw [decSynCheck, checkConfigured_of_configured hs.1 hs.2, if_pos (State.lenFits_of_le hl), State.checkErasures_none.mpr hE]
    refine ⟨fun i hi hw hn => decSyn_decode_block_error hc ?_, fun hdata j hj hw hn => decSyn_decode_block_error hc ?_⟩
    · rw [State.block, message_unwritten _ hi hw hn]
    · rw [State.block, State.message_of_written hdata, State.parity, Memory.getHalves_unwritten rfl hj hw hn]
  · refine exec_of_check_error ?_
    exact (checkStage_of_stage hs.1 hs.2 hd).trans (checkErasures_unwritten hne hk hE hn)
  · obtain rfl : complete .noError s.softReset = t := by simpa [exec, execSoftReset, command] using h
    exact Iff.rfl

end Sys2Proof.Machine

namespace Sys2Proof.Machine

/-! ### The address map (R81, R82) -/

/-- Clearing the two low address bits leaves the number of the word (R81). -/
theorem toNat_clear_low_bits (off : BitVec 22) : (off &&& 0x3FFFFC).toNat / 4 = off.toNat / 4 := by
  have hlt : off.toNat / 2 ^ 2 < 2 ^ 20 := by omega
  calc (off &&& 0x3FFFFC).toNat / 4 = off.toNat / 2 ^ 2 &&& 2 ^ 20 - 1 := by
        rw [BitVec.toNat_and, show 4 = 2 ^ 2 from rfl, Nat.and_div_two_pow]
        rfl
    _ = off.toNat / 2 ^ 2 := by rw [Nat.and_two_pow_sub_one_eq_mod, Nat.mod_eq_of_lt hlt]

/-- Settles O48: each listed offset is the model's own offset of its register, and each listed base and capacity its file's. -/
theorem addressMapIsThatOfTheSpec : Obligations.AddressMapIsThatOfTheSpec := by
  refine ⟨fun off => portTarget_congr (toNat_clear_low_bits off).symm, fun p hp => ?_, fun p hp i hi => ?_⟩
  · have hoff : p.1 = p.2.portOffset := by
      revert p
      decide
    rw [hoff, portTarget_portOffset]
  · have hfile : p.1 = p.2.1.base ∧ p.2.2 = p.2.1.cap := by
      clear i hi
      revert p
      simp only [List.forall_mem_cons, List.not_mem_nil, false_imp_iff, implies_true, and_true]
      exact ⟨⟨rfl, rfl⟩, ⟨rfl, rfl⟩, ⟨rfl, rfl⟩, ⟨rfl, rfl⟩, ⟨rfl, rfl⟩, ⟨rfl, rfl⟩, ⟨rfl, rfl⟩, ⟨rfl, rfl⟩, ⟨rfl, rfl⟩,
        ⟨rfl, rfl⟩, ⟨rfl, rfl⟩, ⟨rfl, rfl⟩, ⟨rfl, rfl⟩, ⟨rfl, rfl⟩⟩
    rw [hfile.1]
    exact portTarget_entryOffset (hfile.2 ▸ hi)

/-! ### Host reads and writes (R83, R84, R86) -/

/-- A host read changes no register and no file, whether BUSY is 0 or 1. -/
theorem hostTurn_read_next {s t : State} {off : BitVec 22} {rest : List HostEvent} (hp : s.pending = .read off :: rest)
    (h : hostTurn s = .next t) : t = { s with pending := rest, rdata := t.rdata, draws := t.draws } := by
  rw [hostTurn_next, hostEvent, hp] at h
  exact portRead_next h

/-- Settles O51: the host's turn answers the read, inside a BUSY window after the window's tick. -/
theorem hostReadsHaveNoSideEffect : Obligations.HostReadsHaveNoSideEffect := by
  intro s t off rest hm hp h
  rcases step_cases s with ⟨hm', -⟩ | ⟨-, -, hs⟩ | ⟨-, hs⟩
  · rw [hm] at hm'
    cases hm'
  · have ht := hostTurn_read_next (s := s.tick) hp (hs ▸ h)
    rw [ht]
    rfl
  · have ht := hostTurn_read_next hp (hs ▸ h)
    rw [ht]

/-- A host write in a state with BUSY 0 (R83). -/
theorem step_write_idle {s : State} {off : BitVec 22} {v : Word} {rest : List HostEvent} (hb : s.status.busy = false)
    (hp : s.pending = .write off v :: rest) :
    step s = .next ({ s with pending := rest }.writeTarget v (portTarget off)) := by
  rw [step_of_idle hb, hostTurn, hostEvent, hp]
  simp only [portWrite_idle (s := { s with pending := rest }) hb]

/-- An access that reaches an entry has that entry's aligned offset (R81, R82). -/
theorem portTarget_entry_offset {off : BitVec 22} {f : RegFile} {i : Nat} (h : portTarget off = .entry f i) :
    off.toNat / 4 * 4 = entryAddr f i := by
  obtain ⟨hmod, -, -⟩ := f.base_mod
  unfold portTarget at h
  simp only at h
  split at h
  · cases h
  · split at h
    · rename_i g hg
      have hwin : g.base ≤ wordOffset off ∧ wordOffset off < g.base + 0x40000 := by simpa using List.find?_some hg
      split at h <;> cases h
      rw [entryAddr]
      unfold wordOffset at hwin ⊢
      omega
    · cases h

/-- Two entries at one offset are the same (R82). -/
theorem entryAddr_injective {f g : RegFile} {i j : Nat} (hi : i < 65536) (hj : j < 65536) (h : entryAddr f i = entryAddr g j) :
    f = g ∧ i = j := by
  by_contra hne
  have := entryAddr_disjoint (f := f) (g := g) hi hj (by tauto)
  omega

/-- The offsets that R84 leaves unmapped: the reserved ranges, the gaps between the registers, and the entries of a window
beyond its file's capacity. -/
def UnmappedOffset (off : Nat) : Prop :=
  0xA8 ≤ off ∧ off < 0x040000 ∨ 0x3C0000 ≤ off ∨
    0x30 ≤ off ∧ off < 0x40 ∨ 0x54 ≤ off ∧ off < 0x60 ∨ 0x7C ≤ off ∧ off < 0x80 ∨
    ∃ (f : RegFile) (i : Nat), f.cap ≤ i ∧ i < 65536 ∧ off / 4 * 4 = entryAddr f i

/-- The offsets of the registers and windows that R84 makes read-only, and what lies between them. -/
def ReadOnlyOffset (off : Nat) : Prop :=
  off < 8 ∨ 0x14 ≤ off ∧ off < 0x1C ∨ 0x60 ≤ off ∧ off < 0x100000 ∨ 0x200000 ≤ off

theorem portTarget_unmapped {off : BitVec 22} (h : UnmappedOffset off.toNat) : portTarget off = .unmapped := by
  cases ht : portTarget off with
  | unmapped => rfl
  | reg r =>
    exfalso
    have hoff := portTarget_reg_offset ht
    have hlt := r.offset_lt
    rcases h with h | h | h | h | h | ⟨f, i, -, -, h⟩
    case inr.inr.inr.inr.inr =>
      obtain ⟨-, hlo, -⟩ := f.base_mod
      rw [entryAddr] at h
      omega
    all_goals cases r <;> simp only [PortReg.offset] at hoff <;> omega
  | entry g j =>
    exfalso
    have hoff := portTarget_entry_offset ht
    have hj := portTarget_entry_lt ht
    have hcap := g.cap_le
    obtain ⟨-, hlo, hhi⟩ := g.base_mod
    rcases h with h | h | h | h | h | ⟨f, i, hi, hi', h⟩
    case inr.inr.inr.inr.inr =>
      obtain ⟨rfl, rfl⟩ := entryAddr_injective hi' (by omega) (h.symm.trans hoff)
      omega
    all_goals rw [entryAddr] at hoff; omega

/-- A write that reaches only read-only registers or windows changes nothing (R84). -/
theorem writeTarget_readOnly (s : State) {off : BitVec 22} (v : Word) (h : ReadOnlyOffset off.toNat) :
    s.writeTarget v (portTarget off) = s := by
  unfold ReadOnlyOffset at h
  cases ht : portTarget off with
  | unmapped => rfl
  | reg r =>
    have hoff := portTarget_reg_offset ht
    cases r
    case cmd | status | irqEn | opa | opb | len | noEras | invmask | cfgM | cfgPoly | cfgNroots | cfgFcr | cfgPrim =>
      simp only [PortReg.offset] at hoff
      omega
    all_goals rfl
  | entry f i =>
    have hoff := portTarget_entry_offset ht
    have hi := (portTarget_entry_lt ht).trans_le f.cap_le
    rw [State.writeTarget, if_neg]
    intro hf
    rw [entryAddr] at hoff
    cases f <;> simp only [RegFile.hostWritable, RegFile.base, reduceCtorEq] at hf hoff <;> omega

/-- Settles O49: a listed offset is unmapped, or what it reaches takes no write. -/
theorem unmappedAndReadOnlyOffsetsIgnoreWrites : Obligations.UnmappedAndReadOnlyOffsetsIgnoreWrites := by
  refine ⟨fun s off v rest hb h => ⟨fun hp => ?_, fun hp => ?_⟩, fun s off v rest hb h hp => ?_⟩
  · rw [step_read_idle hb hp, portTarget_unmapped h]
    rfl
  · rw [step_write_idle hb hp, portTarget_unmapped h]
    rfl
  · rw [step_write_idle hb hp, writeTarget_readOnly _ v h]

/-! ### Entries read back (R83) -/

/-- A stored entry leaves every byte but its own (R83). -/
theorem Memory.read_setEntry_of_not_entryByte (m : Memory) {f : RegFile} {i a : Nat} (v : Word) (h : ¬entryByte f i a) :
    (m.setEntry f i v).read a = m.read a := by
  unfold entryByte at h
  unfold setEntry
  split at h
  · rw [if_pos ‹_›]
    exact read_setWord_of_lt m v (by omega)
  · rw [if_neg ‹_›]
    exact read_setHalf_of_ne m _ (by omega) (by omega)

/-- A stored entry reads back all its bits in a wide file, and bits [15:0] in the others (R83). -/
theorem Memory.entry_setEntry_self (m : Memory) (f : RegFile) (i : Nat) (v : Word) :
    (m.setEntry f i v).entry f i = some (if f.wide then v else (v.setWidth 16).setWidth 32) := by
  cases hf : f.wide <;> simp [setEntry, hf]

/-- A host read of a written entry of a buffer or a working file (R83). -/
theorem step_read_entry {s : State} {f : RegFile} {i : Nat} {w : Word} {rest : List HostEvent} (hb : s.status.busy = false)
    (hi : i < f.cap) (hp : s.pending = hostRdEntry f i :: rest) (hf : f.isTable = false) (hw : s.mem.entry f i = some w) :
    step s = .next { s with pending := rest, rdata := w } := by
  rw [step_read_idle hb hp, portTarget_entryOffset hi, State.readTarget, State.readFile, if_neg (by rw [hf]; decide),
    Memory.getWord_eq_ok.mpr hw]

/-- A host read of a table entry under a valid configuration (R37 to R39). -/
theorem step_read_table {s : State} {f : RegFile} {i : Nat} {rest : List HostEvent} (hb : s.status.busy = false)
    (hi : i < f.cap) (hp : s.pending = hostRdEntry f i :: rest) (hf : f.isTable = true) (hv : s.status.cfgValid = true)
    (hg : f = .genpoly → i ≤ s.nroots) :
    step s = .next { s with pending := rest, rdata := (s.mem.tableEntry f i).setWidth 32 } := by
  have hread : s.readFile f i = .ok ((s.mem.tableEntry f i).setWidth 32) := by
    rw [State.readFile, if_pos hf, if_neg (by rw [hv]; decide)]
    split
    · rename_i hgen
      have hi : i ≤ s.active.actNroots.toNat := hg hgen
      rw [State.genpoly, if_pos hi, hgen]
    · rfl
  rw [step_read_idle hb hp, portTarget_entryOffset hi, State.readTarget, hread]

/-- Settles O50: a stored entry reads back and leaves every other byte, and each kind of file reads its written entries. -/
theorem writtenEntryReadsBack : Obligations.WrittenEntryReadsBack := by
  refine ⟨fun s f i v rest hb hf hi hp => ?_, fun s f i rest hb hi hp => ⟨fun hf w hw => ?_, fun hf w hw => ?_, fun hf hv hg => ?_⟩⟩
  · have kinds : ∀ f ∈ [RegFile.data, .par, .eras, .corr], f.hostWritable = true ∧ (f.wide = true ↔ f = .eras) := by decide
    obtain ⟨hwritable, hwide⟩ := kinds f hf
    refine ⟨{ s with pending := hostRdEntry f i :: rest, mem := s.mem.setEntry f i v }, ?_, rfl,
      fun a ha => s.mem.read_setEntry_of_not_entryByte v ha, ?_⟩
    · rw [step_write_idle hb hp, portTarget_entryOffset hi, State.writeTarget, if_pos hwritable]
      rfl
    · refine step_read_entry hb hi rfl (RegFile.isTable_of_hostWritable hwritable) ?_
      simp only [Memory.entry_setEntry_self, hwide]
  · have kinds : ∀ f ∈ [RegFile.eras, .mag], f.isTable = false ∧ f.wide = true := by decide
    obtain ⟨htable, hwide⟩ := kinds f hf
    exact step_read_entry hb hi hp htable (by rw [Memory.entry_wide _ _ hwide, hw])
  · have kinds : ∀ f ∈ [RegFile.data, .par, .corr, .s, .lambda, .b, .omega, .root, .loc],
        f.isTable = false ∧ f.wide = false := by decide
    obtain ⟨htable, hnarrow⟩ := kinds f hf
    exact step_read_entry hb hi hp htable (by rw [Memory.entry_narrow _ _ hnarrow, hw, Option.map_some])
  · have tables : ∀ f ∈ [RegFile.alphaTo, .indexOf, .genpoly], f.isTable = true := by decide
    exact step_read_table hb hi hp (tables f hf) hv hg

end Sys2Proof.Machine

namespace Sys2Proof.Machine

/-! ### Two memories that agree on an entry -/

/-- Two entries of different files, or at different indices, share no byte (R82). -/
theorem not_entryByte_of_ne {f g : RegFile} {i j b : Nat} (hi : i < 65536) (hj : j < 65536) (hb : b < 4) (h : f ≠ g ∨ i ≠ j) :
    ¬entryByte f i (entryAddr g j + b) := by
  have := entryAddr_disjoint hi hj h
  unfold entryByte
  split <;> omega

namespace Memory

/-- The bytes of an entry's place in its window read alike in two memories. -/
def SameEntry (f : RegFile) (i : Nat) (m m' : Memory) : Prop :=
  ∀ b < 4, m'.read (entryAddr f i + b) = m.read (entryAddr f i + b)

theorem SameEntry.half {f : RegFile} {i : Nat} {m m' : Memory} (h : SameEntry f i m m') :
    m'.half (entryAddr f i) = m.half (entryAddr f i) :=
  half_congr (h 0 (by omega)) (h 1 (by omega))

theorem SameEntry.word {f : RegFile} {i : Nat} {m m' : Memory} (h : SameEntry f i m m') :
    m'.word (entryAddr f i) = m.word (entryAddr f i) :=
  word_congr h

theorem read_setHalf_of_not_entryByte (m : Memory) {f : RegFile} {i a : Nat} (v : Half) (h : ¬entryByte f i a) :
    (m.setHalf (entryAddr f i) v).read a = m.read a := by
  unfold entryByte at h
  split at h <;> exact read_setHalf_of_ne m v (by omega) (by omega)

/-- An entry of a run of 16-bit entries that was read. -/
theorem half_of_getHalves {m : Memory} {f : RegFile} {k j : Nat} {r : List Half} (h : m.getHalves f k = .ok r) (hj : j < k) :
    m.half (entryAddr f j) = some (nth r j) := by
  obtain ⟨hl, hr⟩ := getHalves_eq_ok.mp h
  rw [hr j hj, List.getElem?_eq_getElem (hl ▸ hj), nth_of_lt (hl ▸ hj)]

/-- An entry of a run of 32-bit entries that was read. -/
theorem word_of_getWords {m : Memory} {f : RegFile} {k j : Nat} {r : List Word} (hf : f.wide = true)
    (h : m.getWords f k = .ok r) (hj : j < k) : m.word (entryAddr f j) = some (r.getD j 0) := by
  obtain ⟨hl, hr⟩ := getWords_eq_ok.mp h
  rw [← entry_wide m j hf, hr j hj, List.getD_eq_getElem?_getD, List.getElem?_eq_getElem (hl ▸ hj), Option.getD_some]

/-- A run of words written from entry 0 on reads back. -/
theorem word_putWords_zero (m : Memory) (f : RegFile) {vs : List Word} {k : Nat} (hk : k < vs.length)
    (hl : vs.length ≤ 65536) : (m.putWords f 0 vs).word (entryAddr f k) = some vs[k] := by
  have := word_putWords_inside m f 0 vs hk (by omega)
  rwa [Nat.zero_add] at this

end Memory

/-- What `foldE` does to an observation that one turn alone changes. -/
theorem foldE_one_turn {α σ β : Type} {f : σ → α → Except Fault σ} {l : List α} {x y : σ} {j : α} (obs : σ → β) (g : β → β)
    (h : foldE f x l = .ok y) (hl : l.Nodup) (hj : j ∈ l)
    (keep : ∀ x a y, a ∈ l → a ≠ j → f x a = .ok y → obs y = obs x)
    (hit : ∀ x y, f x j = .ok y → obs y = g (obs x)) : obs y = g (obs x) := by
  induction l generalizing x with
  | nil => cases hj
  | cons a l ih =>
    obtain ⟨ha, hl⟩ := List.nodup_cons.mp hl
    unfold foldE at h
    split at h
    · cases h
    · rename_i z hz
      by_cases haj : a = j
      · subst haj
        rw [← hit x z hz]
        refine foldE_invariant (obs · = obs z) h rfl fun u b v hb hu hv => ?_
        exact (keep u b v (List.mem_cons_of_mem _ hb) (by rintro rfl; exact ha hb) hv).trans hu
      · rw [← keep x a z List.mem_cons_self haj hz]
        refine ih h hl ?_ fun u b v hb => keep u b v (List.mem_cons_of_mem _ hb)
        exact (List.mem_cons.mp hj).resolve_left (Ne.symm haj)

/-! ### The symbol at a position (R94, R280) -/

theorem symbolAt_data {n nroots pad pos : Nat} (hpad : pad ≤ pos) (hpos : pos < n - nroots) :
    symbolAt n nroots pad pos = .ok (.data, pos - pad) := by
  rw [symbolAt, if_neg (by omega), if_pos hpos]

theorem symbolAt_par {n nroots pad pos : Nat} (hpad : pad ≤ pos) (hpos : n - nroots ≤ pos) (hn : pos < n) :
    symbolAt n nroots pad pos = .ok (.par, pos - (n - nroots)) := by
  rw [symbolAt, if_neg (by omega), if_neg (by omega)]

/-- The two kinds of symbol: one of `DATA`, or one of `PAR`. -/
theorem symbolAt_ok {n nroots pad pos : Nat} {f : RegFile} {i : Nat} (h : symbolAt n nroots pad pos = .ok (f, i)) :
    pad ≤ pos ∧ pos < n ∧
      (f = .data ∧ pos < n - nroots ∧ i = pos - pad ∨ f = .par ∧ n - nroots ≤ pos ∧ i = pos - (n - nroots)) := by
  unfold symbolAt at h
  split at h
  · cases h
  · split at h <;> cases h
    · exact ⟨by omega, by omega, .inl ⟨rfl, ‹_›, rfl⟩⟩
    · exact ⟨by omega, by omega, .inr ⟨rfl, by omega, rfl⟩⟩

theorem symbolAt_index_lt {n nroots pad : Nat} {pos : Half} {f : RegFile} {i : Nat}
    (h : symbolAt n nroots pad pos.toNat = .ok (f, i)) : i < 65536 := by
  obtain ⟨-, -, ⟨-, -, rfl⟩ | ⟨-, -, rfl⟩⟩ := symbolAt_ok h <;> omega

/-- Different positions have different symbols. -/
theorem symbolAt_injective {n nroots pad p q : Nat} {x : RegFile × Nat} (hp : symbolAt n nroots pad p = .ok x)
    (hq : symbolAt n nroots pad q = .ok x) : p = q := by
  obtain ⟨f, i⟩ := x
  obtain ⟨h1, h2, ⟨rfl, h3, h4⟩ | ⟨rfl, h3, h4⟩⟩ := symbolAt_ok hp <;>
    obtain ⟨k1, k2, ⟨hf, k3, k4⟩ | ⟨hf, k3, k4⟩⟩ := symbolAt_ok hq <;> cases hf <;> omega

/-! ### A turn of DEC_APPLY (R280, R281) -/

/-- A correction leaves the memory, or is XORed into the symbol at its position. -/
theorem applyCorrection_ok {n nroots pad pos : Nat} {m m' : Memory} {mag : Word}
    (h : applyCorrection n nroots pad m pos mag = .ok m') :
    (magApply mag = false ∧ m' = m) ∨
    (magApply mag = true ∧ ∃ f i v, symbolAt n nroots pad pos = .ok (f, i) ∧ m.half (entryAddr f i) = some v ∧
      m' = m.setHalf (entryAddr f i) (v ^^^ magCor mag)) := by
  unfold applyCorrection at h
  split at h
  · split at h
    · cases h
    · split at h
      · cases h
      · cases h
        exact .inr ⟨‹_›, _, _, _, ‹_›, Memory.getHalf_eq_ok.mp ‹_›, rfl⟩
  · cases h
    exact .inl ⟨Bool.eq_false_iff.mpr ‹_›, rfl⟩

section
variable {n nroots pad : Nat} {c : Bool} {locs : List Half} {mags : List Word} {m m' : Memory}

/-- A turn corrects a symbol, then writes the applied pattern to CORR when C is latched. -/
theorem applyStep_ok {j : Nat} (h : applyStep n nroots pad c locs mags m j = .ok m') :
    ∃ m₁, applyCorrection n nroots pad m (nth locs j).toNat (mags.getD j 0) = .ok m₁ ∧
      m' = if c then
          m₁.setHalf (entryAddr .corr j) (if magApply (mags.getD j 0) then magCor (mags.getD j 0) else 0)
        else m₁ := by
  unfold applyStep at h
  simp only at h
  split at h
  · cases h
  · exact ⟨_, ‹_›, (Except.ok.inj h).symm⟩

/-- The bytes that a turn leaves. -/
theorem applyStep_read {j a : Nat} (h : applyStep n nroots pad c locs mags m j = .ok m')
    (hsym : magApply (mags.getD j 0) = true → ∀ f i, symbolAt n nroots pad (nth locs j).toNat = .ok (f, i) → ¬entryByte f i a)
    (hcorr : c = true → ¬entryByte .corr j a) : m'.read a = m.read a := by
  obtain ⟨m₁, h₁, rfl⟩ := applyStep_ok h
  have hread : m₁.read a = m.read a := by
    rcases applyCorrection_ok h₁ with ⟨-, rfl⟩ | ⟨happ, f, i, v, hs, -, rfl⟩
    · rfl
    · exact m.read_setHalf_of_not_entryByte _ (hsym happ f i hs)
  split
  · rw [m₁.read_setHalf_of_not_entryByte _ (hcorr ‹_›), hread]
  · exact hread

/-- The entries that a turn leaves. -/
theorem applyStep_sameEntry {j k : Nat} {g : RegFile} (h : applyStep n nroots pad c locs mags m j = .ok m') (hj : j < 65536)
    (hk : k < 65536) (hsym : ∀ f i, symbolAt n nroots pad (nth locs j).toNat = .ok (f, i) → f ≠ g ∨ i ≠ k)
    (hcorr : c = true → .corr ≠ g ∨ j ≠ k) : Memory.SameEntry g k m m' := fun _ hb =>
  applyStep_read h (fun _ f i hs => not_entryByte_of_ne (symbolAt_index_lt hs) hk hb (hsym f i hs))
    fun hc => not_entryByte_of_ne hj hk hb (hcorr hc)

/-- A turn leaves every entry outside DATA, PAR and CORR. -/
theorem applyStep_sameEntry_of_file {j k : Nat} {g : RegFile} (h : applyStep n nroots pad c locs mags m j = .ok m')
    (hj : j < 65536) (hk : k < 65536) (hd : .data ≠ g) (hp : .par ≠ g) (hcorr : c = true → .corr ≠ g ∨ j ≠ k) :
    Memory.SameEntry g k m m' :=
  applyStep_sameEntry h hj hk (fun f i hs => .inl (by rcases symbolAt_file hs with rfl | rfl <;> assumption)) hcorr

/-! ### The loop of DEC_APPLY (R280, R281) -/

variable {count : Nat} (hcount : count ≤ 65536)
  (h : foldE (applyStep n nroots pad c locs mags) m (List.range count).reverse = .ok m')
include hcount h

theorem applyLoop_eras {k : Nat} (hk : k < 65536) : m'.word (entryAddr .eras k) = m.word (entryAddr .eras k) := by
  refine foldE_invariant (fun x => x.word (entryAddr .eras k) = m.word (entryAddr .eras k)) h rfl fun x j y hj hx hy => ?_
  have hj : j < count := by simpa using hj
  rw [← hx]
  exact (applyStep_sameEntry_of_file hy (by omega) hk (by decide) (by decide) fun _ => .inl (by decide)).word

theorem applyLoop_corr {j : Nat} (hj : j < count) : m'.half (entryAddr .corr j) =
    if c then some (if magApply (mags.getD j 0) then magCor (mags.getD j 0) else 0) else m.half (entryAddr .corr j) := by
  have hmem (k : Nat) : k ∈ (List.range count).reverse ↔ k < count := by simp
  cases c with
  | false =>
    refine foldE_invariant (fun x => x.half (entryAddr .corr j) = m.half (entryAddr .corr j)) h rfl fun x k y hk hx hy => ?_
    have hk := (hmem k).mp hk
    rw [← hx]
    exact (applyStep_sameEntry_of_file hy (by omega) (by omega) (by decide) (by decide) nofun).half
  | true =>
    refine foldE_one_turn (fun x => x.half (entryAddr .corr j))
      (fun _ => some (if magApply (mags.getD j 0) then magCor (mags.getD j 0) else 0)) h
      (List.nodup_reverse.mpr List.nodup_range) ((hmem j).mpr hj) (fun x k y hk hne hy => ?_) fun x y hy => ?_
    · have hk := (hmem k).mp hk
      exact (applyStep_sameEntry_of_file hy (by omega) (by omega) (by decide) (by decide) fun _ => .inr hne).half
    · obtain ⟨x₁, -, rfl⟩ := applyStep_ok hy
      exact x₁.half_setHalf_self _ _

/-- At different positions, each magnitude to be applied is XORed into its own symbol, once. -/
theorem applyLoop_symbol (hlen : locs.length = count) (hnd : locs.Nodup) {j : Nat} (hj : j < count) {f : RegFile} {i : Nat}
    (hs : symbolAt n nroots pad (nth locs j).toNat = .ok (f, i)) (happ : magApply (mags.getD j 0) = true) :
    m'.half (entryAddr f i) = (m.half (entryAddr f i)).map (· ^^^ magCor (mags.getD j 0)) := by
  have hmem (k : Nat) : k ∈ (List.range count).reverse ↔ k < count := by simp
  have hi := symbolAt_index_lt hs
  have hfile : RegFile.corr ≠ f := by rcases symbolAt_file hs with rfl | rfl <;> decide
  refine foldE_one_turn (fun x => x.half (entryAddr f i)) (Option.map (· ^^^ magCor (mags.getD j 0))) h
    (List.nodup_reverse.mpr List.nodup_range) ((hmem j).mpr hj) (fun x k y hk hne hy => ?_) fun x y hy => ?_
  · have hk := (hmem k).mp hk
    refine (applyStep_sameEntry hy (by omega) hi (fun g l hs' => ?_) fun _ => .inl hfile).half
    by_contra hsame
    obtain ⟨rfl, rfl⟩ : g = f ∧ l = i := by tauto
    have hpos := BitVec.eq_of_toNat_eq (symbolAt_injective hs' hs)
    rw [nth_of_lt (by omega), nth_of_lt (by omega), hnd.getElem_inj_iff] at hpos
    exact hne hpos
  · obtain ⟨x₁, h₁, rfl⟩ := applyStep_ok hy
    have hx₁ : x₁.half (entryAddr f i) = (x.half (entryAddr f i)).map (· ^^^ magCor (mags.getD j 0)) := by
      rcases applyCorrection_ok h₁ with ⟨hno, -⟩ | ⟨-, g, l, v, hs', hv, rfl⟩
      · rw [happ] at hno
        cases hno
      · obtain ⟨rfl, rfl⟩ : f = g ∧ i = l := by simpa [hs] using hs'
        rw [Memory.half_setHalf_self, hv, Option.map_some]
    rw [← hx₁]
    have hdisj := entryAddr_disjoint (f := .corr) (g := f) (i := j) (j := i) (by omega) hi (.inl hfile)
    split
    · exact Memory.half_setHalf_of_disjoint _ _ (by omega)
    · rfl

end

/-! ### DEC_APPLY (R280 to R282) -/

/-- Byte `a` belongs to no entry that DEC_APPLY writes from the state `s` (R88). -/
structure State.OutsideApply (s : State) (a : Nat) : Prop where
  symbols : ∀ j < s.scalars.nrootsFound.toNat, ∀ (loc : Half) (mag : Word) (f : RegFile) (i : Nat),
    s.mem.half (entryAddr .loc j) = some loc → s.mem.word (entryAddr .mag j) = some mag → magApply mag = true →
    symbolAt s.n s.nroots s.latches.dPad.toNat loc.toNat = .ok (f, i) → ¬entryByte f i a
  corr : s.latches.dFlags.getLsbD 1 = true → ¬runByte .corr s.scalars.nrootsFound.toNat a
  eras : s.latches.dFlags.getLsbD 0 = true → ¬runByte .eras s.scalars.nrootsFound.toNat a

/-- A run of words leaves every byte that its entries do not store. -/
theorem Memory.read_putWords_of_not_runByte (m : Memory) {f : RegFile} (hf : f.wide = true) {vs : List Word} {a : Nat}
    (h : ¬runByte f vs.length a) : (m.putWords f 0 vs).read a = m.read a := by
  refine m.read_putWords_outside f 0 vs fun k hk => ?_
  have hb : ¬entryByte f k a := fun hb => h ⟨k, hk, hb⟩
  rw [entryByte, hf, if_pos rfl] at hb
  rw [Nat.zero_add]
  omega

/-- The frame of DEC_APPLY's effect (R88). -/
theorem decApplyBody_read {s t : State} {a : Nat} (h : decApplyBody s = .ok t) (ha : s.OutsideApply a) :
    t.mem.read a = s.mem.read a := by
  obtain ⟨-, locs, mags, mem, hlocs, hmags, hmem, rfl⟩ := decApplyBody_eq_ok.mp h
  have hlen := (Memory.getHalves_eq_ok.mp hlocs).1
  have hloop : mem.read a = s.mem.read a := by
    refine foldE_invariant (fun m => m.read a = s.mem.read a) hmem rfl fun m j m' hj hm hm' => ?_
    have hj : j < s.scalars.nrootsFound.toNat := by simpa using hj
    rw [← hm]
    exact applyStep_read hm' (fun happ f i hs => ha.symbols j hj _ _ f i (Memory.half_of_getHalves hlocs hj)
      (Memory.word_of_getWords rfl hmags hj) happ hs) fun hc hb => ha.corr hc ⟨j, hj, hb⟩
  simp only [State.setStage_mem, State.setResult_mem, State.setMem_mem]
  split
  · rw [Memory.read_putWords_of_not_runByte _ rfl (by rw [List.length_map, hlen]; exact ha.eras ‹_›), hloop]
  · exact hloop

theorem tc32_toNat (x : Half) : tc32 x.toNat = x.setWidth 32 := by
  rw [tc32, BitVec.ofInt_natCast, BitVec.ofNat_toNat]

/-- The registers that DEC_APPLY's effect writes. -/
theorem decApplyBody_registers {s t : State} (h : decApplyBody s = .ok t) :
    t = { s with
      mem := t.mem, result := s.scalars.nrootsFound.setWidth 32, status := { s.status with dstage := .idle } } := by
  obtain ⟨-, locs, mags, mem, -, -, -, rfl⟩ := decApplyBody_eq_ok.mp h
  rw [tc32_toNat]
  rfl

/-- What DEC_APPLY leaves for the located symbol `j`: its entries of ERAS and CORR, and the corrected symbol. -/
structure State.AppliedAt (s t : State) (j : Nat) (loc : Half) (mag : Word) : Prop where
  eras : t.mem.word (entryAddr .eras j) =
    if s.latches.dFlags.getLsbD 0 then some (tc32 (loc.toNat - s.latches.dPad.toNat)) else s.mem.word (entryAddr .eras j)
  corr : t.mem.half (entryAddr .corr j) =
    if s.latches.dFlags.getLsbD 1 then some (if magApply mag then magCor mag else 0) else s.mem.half (entryAddr .corr j)
  symbol : magApply mag = true → ∀ f i, symbolAt s.n s.nroots s.latches.dPad.toNat loc.toNat = .ok (f, i) →
    t.mem.half (entryAddr f i) = (s.mem.half (entryAddr f i)).map (· ^^^ magCor mag)

/-- The positions that go to ERAS when E is latched reach no other file (R281). -/
theorem Memory.half_erasWritten (m : Memory) (e : Bool) {g : RegFile} {k : Nat} {vs : List Word} (hk : k < 65536)
    (hg : .eras ≠ g) (hvs : vs.length ≤ 65536) :
    (if e then m.putWords .eras 0 vs else m).half (entryAddr g k) = m.half (entryAddr g k) := by
  split
  · exact sameFile_putWords m vs hvs hg k hk
  · rfl

theorem decApplyBody_applied {s t : State} (h : decApplyBody s = .ok t) (hnd : s.positions.Nodup) {j : Nat}
    (hj : j < s.scalars.nrootsFound.toNat) : ∃ loc mag,
      s.mem.half (entryAddr .loc j) = some loc ∧ s.mem.word (entryAddr .mag j) = some mag ∧ s.AppliedAt t j loc mag := by
  obtain ⟨-, locs, mags, mem, hlocs, hmags, hmem, rfl⟩ := decApplyBody_eq_ok.mp h
  have hlen := (Memory.getHalves_eq_ok.mp hlocs).1
  have hcount : s.scalars.nrootsFound.toNat ≤ 65536 := s.scalars.nrootsFound.isLt.le
  replace hnd : locs.Nodup := by rwa [(Memory.written_of_getHalves rfl hlocs).2]
  refine ⟨_, _, Memory.half_of_getHalves hlocs hj, Memory.word_of_getWords rfl hmags hj, ?_, ?_, fun happ f i hs => ?_⟩ <;>
    simp only [State.setStage_mem, State.setResult_mem, State.setMem_mem]
  · split
    · have hk : j < (locs.map fun l => tc32 (l.toNat - s.latches.dPad.toNat)).length := by
        rwa [List.length_map, hlen]
      rw [mem.word_putWords_zero .eras hk (by rwa [List.length_map, hlen]), List.getElem_map, nth_of_lt (by rwa [hlen])]
    · exact applyLoop_eras hcount hmem (by omega)
  · rw [mem.half_erasWritten _ (by omega) (by decide) (by rwa [List.length_map, hlen])]
    exact applyLoop_corr hcount hmem hj
  · have hf : RegFile.eras ≠ f := by rcases symbolAt_file hs with rfl | rfl <;> decide
    rw [mem.half_erasWritten _ (symbolAt_index_lt hs) hf (by rwa [List.length_map, hlen])]
    exact applyLoop_symbol hcount hmem hlen hnd hj hs happ

/-- A written symbol that is corrected. -/
theorem corrected_of_written {m m' : Memory} {f : RegFile} {i : Nat} {cor : Half} (hf : f.wide = false)
    (hw : m.entryWritten f i) (h : m'.half (entryAddr f i) = (m.half (entryAddr f i)).map (· ^^^ cor)) :
    ∃ old, m.half (entryAddr f i) = some old ∧ m'.half (entryAddr f i) = some (old ^^^ cor) := by
  obtain ⟨old, hold⟩ := (Memory.entryWritten_narrow hf).mp hw
  exact ⟨old, hold, by rw [h, hold, Option.map_some]⟩

/-- Settles O36: DEC_APPLY answers under the invariant; its loop runs over different positions, and ERAS is written after it. -/
theorem decApplyCorrectsTheBlock : Obligations.DecApplyCorrectsTheBlock := by
  refine ⟨fun s h hd => ?_, fun s t h a hsym hcorr heras => ?_⟩
  · have D := h.decode (by simp [hd])
    have A := D.located (by simp [hd])
    have hs := h.configured D.valid
    have hgeo := D.geometry
    obtain ⟨u, hu⟩ := decApplyBody_answers h hd
    have hregs := decApplyBody_registers hu
    refine ⟨complete .noError u, command_of_ok (checkStage_of_stage hs.1 hs.2 hd) hu, ?_, fun j hj => ?_⟩
    · rw [hregs]
      simp [complete]
    · obtain ⟨loc, mag, hloc, hmag, happ⟩ := decApplyBody_applied hu A.apart hj
      obtain ⟨-, loc', -, hloc', -, -, hpad, hn⟩ := A.entries j hj
      obtain rfl : loc = loc' := Option.some.inj (hloc.symm.trans hloc')
      refine ⟨loc, mag, hloc, hmag, happ.eras, happ.corr, fun hm hpos => ?_, fun hm hpos => ?_⟩
      · exact corrected_of_written rfl (D.data_written _ (by omega)) (happ.symbol hm _ _ (symbolAt_data hpad hpos))
      · exact corrected_of_written rfl (D.par_written _ (by omega)) (happ.symbol hm _ _ (symbolAt_par hpad hpos hn))
  · rcases exec_next h with ⟨c, -, rfl⟩ | ⟨-, u, hu, rfl⟩
    · rfl
    · show u.mem.read a = s.mem.read a
      exact decApplyBody_read hu ⟨hsym, hcorr, heras⟩

end Sys2Proof.Machine

namespace Sys2Proof.Machine

/-! ### What the stages before DEC_APPLY write (R88, R90) -/

/-- Two memories read alike at every byte outside the windows of the working files (R82). -/
def Memory.SameOutsideWork (m m' : Memory) : Prop := ∀ a, a < 0x200000 ∨ 0x3C0000 ≤ a → m'.read a = m.read a

namespace Memory

theorem SameOutsideWork.trans {m m' m'' : Memory} (h : m.SameOutsideWork m') (h' : m'.SameOutsideWork m'') :
    m.SameOutsideWork m'' := fun a ha => (h' a ha).trans (h a ha)

/-- An entry of a working file lies in the windows of the working files. -/
theorem entryAddr_work {f : RegFile} (hf : 0x200000 ≤ f.base) {i : Nat} (hi : i < 65536) :
    0x200000 ≤ entryAddr f i ∧ entryAddr f i + 4 ≤ 0x3C0000 := by
  obtain ⟨-, -, hbase⟩ := f.base_mod
  unfold entryAddr
  omega

theorem sameOutsideWork_putHalves (m : Memory) {f : RegFile} (hf : 0x200000 ≤ f.base) {vs : List Half}
    (hl : vs.length ≤ 65536) : m.SameOutsideWork (m.putHalves f 0 vs) := by
  refine fun a ha => m.read_putHalves_outside f 0 vs fun k hk => ?_
  have := entryAddr_work hf (i := 0 + k) (by omega)
  omega

theorem sameOutsideWork_putWords (m : Memory) {f : RegFile} (hf : 0x200000 ≤ f.base) {vs : List Word}
    (hl : vs.length ≤ 65536) : m.SameOutsideWork (m.putWords f 0 vs) := by
  refine fun a ha => m.read_putWords_outside f 0 vs fun k hk => ?_
  have := entryAddr_work hf (i := 0 + k) (by omega)
  omega

end Memory

/-- What the stages from DEC_ERAS to DEC_FORNEY leave: the configuration, the latches, and every byte outside the working files. -/
structure State.StageFrame (s t : State) : Prop where
  active  : t.active = s.active
  latches : t.latches = s.latches
  outside : s.mem.SameOutsideWork t.mem

theorem State.StageFrame.trans {s t u : State} (h : s.StageFrame t) (h' : t.StageFrame u) : s.StageFrame u :=
  ⟨h'.active.trans h.active, h'.latches.trans h.latches, h.outside.trans h'.outside⟩

theorem decSynBody_outside {e c : Bool} {s t : State} (h : decSynBody e c s = .ok t) : s.mem.SameOutsideWork t.mem := by
  obtain ⟨block, r, d, -, -, rfl⟩ := decSynBody_ok h
  exact s.mem.sameOutsideWork_putHalves (by decide) (by rw [List.length_map, syndromes_length]; exact s.nroots_lt.le)

theorem decSynBody_latches {e c : Bool} {s t : State} (h : decSynBody e c s = .ok t) :
    t.latches = s.latched e c := by
  obtain ⟨block, r, d, -, -, rfl⟩ := decSynBody_ok h
  rfl

theorem decErasBody_stageFrame {s t : State} (h : decErasBody s = .ok t) : s.StageFrame t := by
  obtain ⟨us, -, rfl⟩ := decErasBody_eq_ok.mp h
  exact ⟨rfl, rfl, s.mem.sameOutsideWork_putHalves (by decide) (by rw [erasureLocator_length]; exact s.nroots_lt)⟩

/-- DEC_ERAS leaves the constant coefficient 1 in LAMBDA (R230). -/
theorem decErasBody_lam_one {s t : State} (h : decErasBody s = .ok t) : t.mem.half (entryAddr .lambda 0) = some 1 := by
  obtain ⟨us, -, rfl⟩ := decErasBody_eq_ok.mp h
  have hlen := erasureLocator_length s.field s.nroots us
  have hnr := s.nroots_lt
  refine (s.mem.half_putHalves_zero .lambda (hlen ▸ Nat.succ_pos _) (by omega)).trans ?_
  rw [← nth_of_lt, erasureLocator_constant]

/-- After DEC_ERAS, the arrays of DEC_BM's loop keep their length, so it stays in the windows of LAMBDA and B (R240). -/
theorem decBmBody_stageFrame {s t : State} (hone : s.mem.half (entryAddr .lambda 0) = some 1) (h : decBmBody s = .ok t) :
    s.StageFrame t := by
  obtain ⟨lam, syn, v, deg, hlam, -, hv, -, rfl⟩ := decBmBody_eq_ok.mp h
  have hnr := s.nroots_lt
  have hlen := (Memory.getHalves_eq_ok.mp hlam).1
  have h1 : nth lam 0 = 1 := by
    rw [Memory.half_of_getHalves hlam (Nat.succ_pos _)] at hone
    exact Option.some.inj hone
  obtain ⟨hl, hb, -⟩ := bmLoop_shape (k := s.nroots + 1) (by omega) ⟨hlen, by rwa [List.length_map], h1⟩ hv
  exact ⟨rfl, rfl, (s.mem.sameOutsideWork_putHalves (by decide) (by rw [List.length_map]; omega)).trans
    (Memory.sameOutsideWork_putHalves _ (by decide) (by omega))⟩

/-- The search finds at most one root at each step. -/
theorem chienLoop_length_le (F : GField) (deg iprim fuel i : Nat) (reg : List Half) (k : Half) (found : List (Half × Half)) :
    (chienLoop F deg iprim fuel i reg k found).length ≤ found.length + fuel := by
  induction fuel generalizing i reg k found with
  | zero => exact Nat.le_refl _
  | succ fuel ih =>
    rw [chienLoop]
    simp only
    split
    · split
      · rw [List.length_append, List.length_singleton]
        omega
      · refine (ih _ _ _ _).trans ?_
        rw [List.length_append, List.length_singleton]
        omega
    · exact (ih _ _ _ _).trans (by omega)

theorem State.chienFound_length_lt (s : State) (lam : List Half) : (s.chienFound lam).length < 65536 := by
  unfold State.chienFound
  split
  · exact Nat.succ_pos _
  · refine (chienLoop_length_le _ _ _ _ _ _ _ _).trans_lt ?_
    rw [List.length_nil, Nat.zero_add]
    exact s.field.n.isLt

theorem decChienBody_stageFrame {policy : Config.PadRootPolicy} {s t : State} (h : decChienBody policy s = .ok t) :
    s.StageFrame t := by
  obtain ⟨lam, r, d, -, -, rfl⟩ := decChienBody_ok h
  have hlen := s.chienFound_length_lt lam
  exact ⟨rfl, rfl, (s.mem.sameOutsideWork_putHalves (by decide) (by rw [List.length_map]; omega)).trans
    (Memory.sameOutsideWork_putHalves _ (by decide) (by rw [List.length_map]; omega))⟩

theorem decForneyBody_stageFrame {s t : State} (h : decForneyBody s = .ok t) : s.StageFrame t := by
  obtain ⟨⟨-, hdeg, -⟩, syn, lam, roots, locs, mags, -, -, -, -, hmags, rfl⟩ := decForneyBody_eq_ok.mp h
  have hnr := s.nroots_lt
  have hcount := s.scalars.nrootsFound.isLt
  exact ⟨rfl, rfl, (s.mem.sameOutsideWork_putHalves (by decide) (by rw [omegaList_length]; omega)).trans
    (Memory.sameOutsideWork_putWords _ (by decide) (by rw [mapE_length hmags, List.length_range]; omega))⟩

/-! ### DECODE (R90, R290) -/

/-- DECODE has written nothing outside the working files, or it ends with DEC_APPLY on a state with the latches of its DEC_SYN part
up to which it has written nothing there (R290). -/
theorem decodeBody_writes {policy : Config.PadRootPolicy} {e c : Bool} {s t : State} (h : decodeBody policy e c s = .ok t) :
    s.mem.SameOutsideWork t.mem ∨
    ∃ u, decApplyBody u = .ok t ∧ u.active = s.active ∧ u.latches = s.latched e c ∧ s.mem.SameOutsideWork u.mem := by
  obtain ⟨s1, h1, ⟨-, rfl⟩ | ⟨-, s2, s3, s4, h2, h3, h4, h5⟩⟩ := decodeBody_ok h
  · exact .inl (decSynBody_outside h1)
  · have hf := (decErasBody_stageFrame h2).trans
      ((decBmBody_stageFrame (decErasBody_lam_one h2) h3).trans (decChienBody_stageFrame h4))
    rcases h5 with ⟨-, rfl⟩ | ⟨-, s5, h5, h6⟩
    · exact .inl ((decSynBody_outside h1).trans hf.outside)
    · have hf := hf.trans (decForneyBody_stageFrame h5)
      exact .inr ⟨s5, h6, hf.active.trans (decSynBody_frame h1).active, hf.latches.trans (decSynBody_latches h1),
        (decSynBody_outside h1).trans hf.outside⟩

/-- The flags that DEC_SYN latches (R46). -/
theorem latched_flags (s : State) (e c : Bool) :
    (s.latched e c).dFlags.getLsbD 0 = e ∧ (s.latched e c).dFlags.getLsbD 1 = c := by
  have key : ∀ e c : Bool, (BitVec.ofNat 2 (2 * c.toNat + e.toNat)).getLsbD 0 = e ∧
      (BitVec.ofNat 2 (2 * c.toNat + e.toNat)).getLsbD 1 = c := by decide
  exact key e c

/-- The pad that DEC_SYN latches (R221). -/
theorem latched_dPad (s : State) (e c : Bool) : (s.latched e c).dPad.toNat = s.n - s.nroots - s.len.toNat := by
  have hn : s.n < 65536 := s.active.actN.isLt
  have hpad : s.pad < 65536 := by
    unfold State.pad
    omega
  exact toNat_ofNat_half hpad

/-- A symbol of a block that fits lies in DATA below `len` or in PAR below `nroots` (R94). -/
theorem symbolAt_runByte {n nroots len pos : Nat} {f : RegFile} {i a : Nat} (hlen : len + nroots ≤ n)
    (h : symbolAt n nroots (n - nroots - len) pos = .ok (f, i)) (ha : entryByte f i a) :
    runByte .data len a ∨ runByte .par nroots a := by
  obtain ⟨hpad, hn, ⟨rfl, hpos, rfl⟩ | ⟨rfl, hpos, rfl⟩⟩ := symbolAt_ok h
  · exact .inl ⟨_, by omega, ha⟩
  · exact .inr ⟨_, by omega, ha⟩

/-- With the latches of a block that fits, DEC_APPLY writes only the block's symbols, ERAS when E is set and CORR when C is. -/
theorem outsideApply_of_latched {s u : State} {e c : Bool} {a : Nat} (hact : u.active = s.active)
    (hlat : u.latches = s.latched e c) (hlen : s.len.toNat + s.nroots ≤ s.n) (hdata : ¬runByte .data s.len.toNat a)
    (hpar : ¬runByte .par s.nroots a) (heras : e = true → ¬runByte .eras u.scalars.nrootsFound.toNat a)
    (hcorr : c = true → ¬runByte .corr u.scalars.nrootsFound.toNat a) : u.OutsideApply a := by
  obtain ⟨hE, hC⟩ := latched_flags s e c
  constructor
  case symbols =>
    intro j _ loc mag f i _ _ _ hs hb
    rw [State.n, State.nroots, hact, hlat, latched_dPad] at hs
    rcases symbolAt_runByte hlen hs hb with h | h
    · exact hdata h
    · exact hpar h
  case corr => rwa [hlat, hC]
  case eras => rwa [hlat, hE]

/-- DECODE without an error changes no byte outside its buffers and the working files (R90). -/
theorem decodeBody_read {policy : Config.PadRootPolicy} {e c : Bool} {s t : State} {a : Nat}
    (h : decodeBody policy e c s = .ok t) (hlen : s.len.toNat + s.nroots ≤ s.n) (ha : a < 0x200000 ∨ 0x3C0000 ≤ a)
    (hdata : ¬runByte .data s.len.toNat a) (hpar : ¬runByte .par s.nroots a)
    (heras : e = true → ¬runByte .eras t.scalars.nrootsFound.toNat a)
    (hcorr : c = true → ¬runByte .corr t.scalars.nrootsFound.toNat a) : t.mem.read a = s.mem.read a := by
  rcases decodeBody_writes h with hout | ⟨u, hu, hact, hlat, hout⟩
  · exact hout a ha
  · have hsc : t.scalars = u.scalars := by rw [decApplyBody_registers hu]
    rw [hsc] at heras hcorr
    rw [decApplyBody_read hu (outsideApply_of_latched hact hlat hlen hdata hpar heras hcorr), hout a ha]

/-- A DECODE or DEC_CHIEN that ends with RESULT −1 has written working files only (R292): DEC_APPLY's RESULT is a count. -/
theorem uncorrectable_outside {i : Instr} {s u : State} (hi : i = .decChien ∨ ∃ e c, i = .decode e c)
    (h : Instr.body i s = .ok u) (hres : u.result = 0xFFFFFFFF) : s.mem.SameOutsideWork u.mem := by
  rcases hi with rfl | ⟨e, c, rfl⟩
  · exact (decChienBody_stageFrame h).outside
  · rcases decodeBody_writes h with hout | ⟨v, hv, -⟩
    · exact hout
    · exfalso
      have hcount : u.result = v.scalars.nrootsFound.setWidth 32 := by rw [decApplyBody_registers hv]
      have hlt := v.scalars.nrootsFound.isLt
      have hnat := congrArg BitVec.toNat (hcount.symm.trans hres)
      rw [BitVec.toNat_setWidth, Nat.mod_eq_of_lt (by omega), show (0xFFFFFFFF : Word).toNat = 2 ^ 32 - 1 from rfl] at hnat
      omega

/-- Settles O40: a failed check writes no byte, and each stage of DECODE writes in its own windows. -/
theorem decodeMutatesOnlyItsBuffers : Obligations.DecodeMutatesOnlyItsBuffers := by
  refine ⟨fun s t e c h a ha hdata hpar heras hcorr => ?_, fun s t i hi h herr hd hres => ?_⟩
  · rcases exec_next h with ⟨code, -, rfl⟩ | ⟨hcheck, u, hu, rfl⟩
    · rfl
    · obtain ⟨-, hlen, -⟩ := decSynCheck_none hcheck
      show u.mem.read a = s.mem.read a
      exact decodeBody_read hu hlen ha hdata hpar heras hcorr
  · rcases exec_next h with ⟨code, hcode, rfl⟩ | ⟨-, u, hu, rfl⟩
    · exact absurd herr (check_some_ne_noError hcode)
    · have hframe : s.Frame u := by
        refine body_frame ?_ ?_ hu <;> rcases hi with rfl | ⟨e, c, rfl⟩ <;> nofun
      refine ⟨?_, fun a ha => uncorrectable_outside hi hu hres a (.inl ha)⟩
      rw [hframe.rest]
      exact Bool.or_false _

end Sys2Proof.Machine

namespace Sys2Proof

/-! ### The fields of a word (R110) -/

theorem cmdwOfWord_op_toNat (w : Word) : (cmdwOfWord w).op.toNat = w.toNat % 256 := BitVec.toNat_setWidth 8 w

theorem cmdwOfWord_e (w : Word) : (cmdwOfWord w).e = decide (w.toNat / 256 % 2 = 1) :=
  Nat.testBit_eq_decide_div_mod_eq (i := 8)

theorem cmdwOfWord_c (w : Word) : (cmdwOfWord w).c = decide (w.toNat / 512 % 2 = 1) :=
  Nat.testBit_eq_decide_div_mod_eq (i := 9)

theorem cmdwOfWord_rsv_toNat (w : Word) : (cmdwOfWord w).rsv.toNat = w.toNat / 1024 := by
  have hw := w.isLt
  rw [cmdwOfWord, BitVec.toNat_setWidth, BitVec.toNat_ushiftRight, Nat.shiftRight_eq_div_pow]
  omega

theorem wordOfCmdw_toNat (f : Cmdw) : (wordOfCmdw f).toNat =
    f.op.toNat + (if f.e then 2 ^ 8 else 0) + (if f.c then 2 ^ 9 else 0) + f.rsv.toNat * 2 ^ 10 := by
  have hop := f.op.isLt
  have hrsv := f.rsv.isLt
  rw [wordOfCmdw, BitVec.toNat_ofNat, Nat.mod_eq_of_lt]
  split <;> split <;> omega

/-- The word of some fields is the only word that has them. -/
theorem eq_wordOfCmdw_iff {w : Word} {f : Cmdw} : w = wordOfCmdw f ↔ cmdwOfWord w = f := by
  have hop := f.op.isLt
  have hfields : cmdwOfWord w = f ↔ (cmdwOfWord w).op.toNat = f.op.toNat ∧ (cmdwOfWord w).e = f.e ∧
      (cmdwOfWord w).c = f.c ∧ (cmdwOfWord w).rsv.toNat = f.rsv.toNat := by
    obtain ⟨op, e, c, rsv⟩ := f
    simp only [BitVec.toNat_inj, cmdwOfWord, Cmdw.mk.injEq]
  rw [hfields, BitVec.toNat_eq, wordOfCmdw_toNat, cmdwOfWord_op_toNat, cmdwOfWord_e, cmdwOfWord_c, cmdwOfWord_rsv_toNat]
  cases f.e <;> cases f.c <;> simp <;> omega

theorem Cmdw.wellFormed_iff {f : Cmdw} :
    f.wellFormed = true ↔ f.opcodeAssigned = true ∧ f.reservedClear = true ∧ f.flagsLegal = true := by
  rw [Cmdw.wellFormed, Bool.and_eq_true, Bool.and_eq_true, and_assoc]

theorem cmdwOfWord_opcodeAssigned (w : Word) : (cmdwOfWord w).opcodeAssigned = true ↔
    w.toNat % 256 ∈
      [0x00, 0x01, 0x02, 0x03, 0x04, 0x10, 0x11, 0x12, 0x13, 0x14, 0x15, 0x20, 0x21, 0x22, 0x23, 0x24, 0x25] := by
  simp [Cmdw.opcodeAssigned, opcodes, BitVec.toNat_eq, cmdwOfWord_op_toNat]

theorem cmdwOfWord_reservedClear (w : Word) : (cmdwOfWord w).reservedClear = true ↔ w.toNat / 1024 = 0 := by
  rw [Cmdw.reservedClear, beq_iff_eq, BitVec.toNat_eq, cmdwOfWord_rsv_toNat]
  rfl

/-- `E` is bit 8 and `C` is bit 9 (R110). -/
theorem cmdwOfWord_flags_clear (w : Word) :
    ((cmdwOfWord w).e = false ∧ (cmdwOfWord w).c = false) ↔ w.toNat / 256 % 4 = 0 := by
  rw [cmdwOfWord_e, cmdwOfWord_c, decide_eq_false_iff_not, decide_eq_false_iff_not]
  omega

theorem cmdwOfWord_flagsLegal (w : Word) : (cmdwOfWord w).flagsLegal = true ↔
    (w.toNat % 256 ≠ 0x03 → w.toNat % 256 ≠ 0x10 → w.toNat / 256 % 4 = 0) := by
  rw [← cmdwOfWord_flags_clear, ← cmdwOfWord_op_toNat]
  simp only [Cmdw.flagsLegal, Bool.or_eq_true, Bool.and_eq_true, Bool.not_eq_true', beq_iff_eq, BitVec.toNat_eq]
  tauto

/-- The legality of R112 on the bits of a word. -/
theorem cmdwOfWord_wellFormed (w : Word) : (cmdwOfWord w).wellFormed = true ↔
    w.toNat % 256 ∈
      [0x00, 0x01, 0x02, 0x03, 0x04, 0x10, 0x11, 0x12, 0x13, 0x14, 0x15, 0x20, 0x21, 0x22, 0x23, 0x24, 0x25] ∧
    w.toNat / 1024 = 0 ∧ (w.toNat % 256 ≠ 0x03 → w.toNat % 256 ≠ 0x10 → w.toNat / 256 % 4 = 0) := by
  rw [Cmdw.wellFormed_iff, cmdwOfWord_opcodeAssigned, cmdwOfWord_reservedClear, cmdwOfWord_flagsLegal]

/-! ### The legal fields are those of the commands (R112, R114) -/

theorem Instr.fields_wellFormed (i : Instr) : i.fields.wellFormed = true := by cases i <;> rfl

theorem instrOfOpcode_fields (i : Instr) : instrOfOpcode i.fields.op.toNat i.fields.e i.fields.c = some i := by
  cases i <;> rfl

theorem fields_op_of_instrOfOpcode {op : Nat} {e c : Bool} {i : Instr} (h : instrOfOpcode op e c = some i) :
    i.fields.op.toNat = op := by
  unfold instrOfOpcode at h
  split at h <;> cases h <;> rfl

/-- Every legal choice of fields is some command's: R114 has a row for each opcode, with both flags where they may be 1. -/
theorem Cmdw.exists_fields_eq {f : Cmdw} (h : f.wellFormed = true) : ∃ i : Instr, i.fields = f := by
  have rows : ∀ op ∈ opcodes, ∀ e c, Cmdw.flagsLegal ⟨op, e, c, 0⟩ = true →
      (instrOfOpcode op.toNat e c).map Instr.fields = some ⟨op, e, c, 0⟩ := by decide
  obtain ⟨op, e, c, rsv⟩ := f
  obtain ⟨hop, hrsv, hflags⟩ := Cmdw.wellFormed_iff.mp h
  obtain rfl : rsv = 0 := beq_iff_eq.mp hrsv
  obtain ⟨i, -, hi⟩ := Option.map_eq_some_iff.mp (rows op (List.contains_iff_mem.mp hop) e c hflags)
  exact ⟨i, hi⟩

/-! ### What decodes (R115) -/

/-- The three checks of R115, in one. -/
theorem decode_eq_ok_iff_checks {w : Word} {i : Instr} : decode w = .ok i ↔
    instrOfOpcode (cmdwOfWord w).op.toNat (cmdwOfWord w).e (cmdwOfWord w).c = some i ∧
    (cmdwOfWord w).reservedClear = true ∧ (cmdwOfWord w).flagsLegal = true := by
  unfold decode
  simp only
  split
  · simp_all
  · split_ifs <;> simp_all

/-- A word decodes to a command exactly when its fields are the command's. -/
theorem decode_eq_ok_iff {w : Word} {i : Instr} : decode w = .ok i ↔ cmdwOfWord w = i.fields := by
  rw [decode_eq_ok_iff_checks]
  constructor
  · rintro ⟨hi, hrsv, hflags⟩
    have hop : i.fields.op = (cmdwOfWord w).op := BitVec.eq_of_toNat_eq (fields_op_of_instrOfOpcode hi)
    have hassigned : (cmdwOfWord w).opcodeAssigned = true := by
      rw [Cmdw.opcodeAssigned, ← hop]
      exact (Cmdw.wellFormed_iff.mp i.fields_wellFormed).1
    have hwf : (cmdwOfWord w).wellFormed = true := Cmdw.wellFormed_iff.mpr ⟨hassigned, hrsv, hflags⟩
    obtain ⟨j, hj⟩ := Cmdw.exists_fields_eq hwf
    rw [← hj, instrOfOpcode_fields] at hi
    rw [← hj, Option.some.inj hi]
  · intro h
    rw [h]
    exact ⟨instrOfOpcode_fields i, (Cmdw.wellFormed_iff.mp i.fields_wellFormed).2⟩

/-- A word decodes to some command exactly when its fields are legal. -/
theorem exists_decode_eq_ok_iff {w : Word} : (∃ i, decode w = .ok i) ↔ (cmdwOfWord w).wellFormed = true := by
  simp only [decode_eq_ok_iff]
  constructor
  · rintro ⟨i, hi⟩
    exact hi ▸ i.fields_wellFormed
  · intro h
    obtain ⟨i, hi⟩ := Cmdw.exists_fields_eq h
    exact ⟨i, hi.symm⟩

theorem decode_eq_ok_iff_eq_encode {w : Word} {i : Instr} : decode w = .ok i ↔ w = encode i := by
  rw [decode_eq_ok_iff, encode, eq_wordOfCmdw_iff]

/-- The opcode and the flags of a decoded command stand in its word (R110). -/
theorem fields_of_decode {w : Word} {i : Instr} (h : decode w = .ok i) :
    i.fields.op.toNat = w.toNat % 256 ∧ i.fields.e = w.getLsbD 8 ∧ i.fields.c = w.getLsbD 9 := by
  rw [← decode_eq_ok_iff.mp h]
  exact ⟨cmdwOfWord_op_toNat w, rfl, rfl⟩

/-! ### The statements on encoding -/

/-- Settles O3: a word decodes to the command with its fields, and a word is fixed by its fields. -/
theorem decodeInvertsEncode : Obligations.DecodeInvertsEncode :=
  ⟨Instr.fields_wellFormed, fun _ _ => decode_eq_ok_iff_eq_encode⟩

/-- Settles O2: a word decodes when its fields are legal, which is what R112 says of its bits. -/
theorem legalWordsAreExactlyThoseDecoded : Obligations.LegalWordsAreExactlyThoseDecoded := fun w =>
  ⟨exists_decode_eq_ok_iff.trans (cmdwOfWord_wellFormed w), fun _ => fields_of_decode⟩

/-- Settles O1: the nine words are the encodings of their commands, so they decode to them. -/
theorem encodingExamplesDecode : Obligations.EncodingExamplesDecode := by
  refine ⟨by decide, ?_, by decide⟩
  simp only [decode_eq_ok_iff_eq_encode]
  decide

end Sys2Proof

namespace Sys2Proof.Machine

/-! ### The engine's turn on a word (R115) -/

theorem step_of_engineTurn {s : State} (hb : s.status.busy = true) (hs : s.slack = 0) : step s = engineTurn s :=
  step_of_engineMoves ((engineMoves_iff s).mpr ⟨hb, hs⟩)

/-- Settles O4: with BUSY 1 and the window over it is the engine's turn. -/
theorem stepRunsTheDecodedCommand : Obligations.StepRunsTheDecodedCommand := fun _ _ hb hs hd =>
  (step_of_engineTurn hb hs).trans (engineTurn_of_ok hd)

/-- A word whose fields are not legal completes with ILLEGAL_CMD. -/
theorem engineTurn_of_not_wellFormed {s : State} (h : ¬(cmdwOfWord s.cmd).wellFormed = true) :
    engineTurn s = .next (complete .illegalCmd s) := by
  cases hd : decode s.cmd with
  | ok i => exact absurd (exists_decode_eq_ok_iff.mp ⟨i, hd⟩) h
  | error r => exact engineTurn_of_error hd

theorem complete_illegalCmd (s : State) : complete .illegalCmd s =
    { s with status := { s.status with errcode := .illegalCmd, err := true, done := true, busy := false } } := by
  simp [complete]

/-- Settles O5: the condition is that of a word whose fields are not legal; every other word decodes. -/
theorem illegalWordCompletesWithIllegalCmd : Obligations.IllegalWordCompletesWithIllegalCmd := by
  intro s hb hs
  rw [step_of_engineTurn hb hs, ← complete_illegalCmd]
  split_ifs with hill
  · refine engineTurn_of_not_wellFormed fun hwf => ?_
    obtain ⟨hop, hrsv, hflags⟩ := (cmdwOfWord_wellFormed s.cmd).mp hwf
    rcases hill with h | h | ⟨h3, h10, h⟩
    · exact h hop
    · exact h hrsv
    · exact h (hflags h3 h10)
  · simp only [not_or, not_not, not_and] at hill
    obtain ⟨i, hi⟩ := exists_decode_eq_ok_iff.mpr ((cmdwOfWord_wellFormed s.cmd).mpr hill)
    exact ⟨i, engineTurn_of_ok hi, fields_of_decode hi⟩

end Sys2Proof.Machine

namespace Sys2Proof.Machine

/-! ### The checks of CONFIG (R141, R145, R149) -/

/-- The tests of `check_config`, listed (R141). -/
theorem Staging.legal_iff (c : Staging) : c.legal = true ↔
    2 ≤ c.cfgM.toNat ∧ c.cfgM.toNat ≤ 16 ∧
      2 ^ c.cfgM.toNat ≤ c.cfgPoly.toNat ∧ c.cfgPoly.toNat < 2 ^ (c.cfgM.toNat + 1) ∧
      1 ≤ c.cfgNroots.toNat ∧ c.cfgNroots.toNat ≤ min (2 ^ c.cfgM.toNat - 1 - 1) Config.nrootsMax ∧
      c.cfgFcr.toNat ≤ 2 ^ c.cfgM.toNat - 1 - 1 ∧
      1 ≤ c.cfgPrim.toNat ∧ c.cfgPrim.toNat ≤ 2 ^ c.cfgM.toNat - 1 - 1 ∧
      Nat.gcd c.cfgPrim.toNat (2 ^ c.cfgM.toNat - 1) = 1 := by
  simp only [Staging.legal, show Config.mMax = 16 from rfl, Bool.and_eq_true, decide_eq_true_eq, le_min_iff, and_assoc]

theorem configCheck_of_not_legal {s : State} (h : s.staging.legal = false) : configCheck s = .ok (some .badConfig) := if_pos h

theorem configCheck_of_legal {s : State} (h : s.staging.legal = true) : configCheck s =
    if primitive s.staging.cfgM.toNat s.staging.cfgPoly.toNat = false then .ok (some .nonPrimitive) else .ok none :=
  if_neg (by rw [h]; decide)

theorem exec_of_check_some {i : Instr} {s : State} {c : ErrCode} (h : Instr.check i s = .ok (some c)) :
    exec i s = .next (complete c s) := by
  rw [exec_eq_command, command_of_error h]

/-- An error completion over the state it found (R320, R324). -/
theorem complete_of_ne_noError {c : ErrCode} (h : c ≠ .noError) (s : State) : complete c s =
    { s with status := { s.status with errcode := c, err := true, done := true, busy := false } } := by
  simp [complete, h]

/-- A legal configuration does not complete with BAD_CONFIG. -/
theorem errcode_ne_badConfig_of_legal {s t : State} (hl : s.staging.legal = true) (h : exec .config s = .next t) :
    t.status.errcode ≠ .badConfig := by
  rcases exec_next h with ⟨c, hc, rfl⟩ | ⟨-, u, -, rfl⟩
  · rintro rfl
    have hc : configCheck s = .ok (some .badConfig) := hc
    rw [configCheck_of_legal hl] at hc
    split at hc <;> cases hc
  · simp

/-- Settles O11: `check_config` is looked at first, then the polynomial; a failed check completes over the state it found. -/
theorem configErrorsAreTransactional : Obligations.ConfigErrorsAreTransactional := by
  intro s
  rw [← Staging.legal_iff, ← complete_of_ne_noError (by decide), ← complete_of_ne_noError (by decide)]
  refine ⟨⟨fun h hl => errcode_ne_badConfig_of_legal hl h rfl, fun hl => ?_⟩, fun hl hp => ?_⟩
  · exact exec_of_check_some (configCheck_of_not_legal (Bool.eq_false_iff.mpr hl))
  · exact exec_of_check_some ((configCheck_of_legal hl).trans (if_pos hp))

/-- Settles O12: values that come back to 1 only at step `n` are distinct, and distinct ones do not come back to `step^0(1) = 1`. -/
theorem primitiveMeansPowersAreDistinct : Obligations.PrimitiveMeansPowersAreDistinct := by
  intro m poly hm
  constructor
  · intro h
    exact ⟨fun i hi => primitive_ne_zero hm h hi, fun i hi j hj => primitive_injective hm h hi hj, ((primitive_iff hm).mp h).1⟩
  · rintro ⟨hne, hinj, hcycle⟩
    refine (primitive_iff hm).mpr ⟨hcycle, fun i h1 hi => ⟨hne i hi, fun e => ?_⟩⟩
    have : i = 0 := hinj i hi 0 (by omega) e
    omega

/-! ### What CONFIG writes of the memory (R88, R148) -/

/-- Two memories read alike at every byte outside the windows of the three tables (R82). -/
def Memory.SameOutsideTables (m m' : Memory) : Prop := ∀ a, ¬(0x040000 ≤ a ∧ a < 0x100000) → m'.read a = m.read a

namespace Memory

theorem SameOutsideTables.trans {m m' m'' : Memory} (h : m.SameOutsideTables m') (h' : m'.SameOutsideTables m'') :
    m.SameOutsideTables m'' := fun a ha => (h' a ha).trans (h a ha)

/-- An entry of a table lies in the windows of the tables. -/
theorem entryAddr_table {f : RegFile} (hf : f.isTable = true) {i : Nat} (hi : i < 65536) :
    0x040000 ≤ entryAddr f i ∧ entryAddr f i + 4 ≤ 0x100000 := by
  unfold entryAddr
  cases f <;> simp only [RegFile.isTable, RegFile.base, reduceCtorEq] at hf ⊢ <;> omega

theorem sameOutsideTables_setHalf (m : Memory) {f : RegFile} (hf : f.isTable = true) {i : Nat} (hi : i < 65536) (v : Half) :
    m.SameOutsideTables (m.setHalf (entryAddr f i) v) := by
  intro a ha
  have := entryAddr_table hf hi
  exact m.read_setHalf_of_ne v (by omega) (by omega)

theorem sameOutsideTables_clear (m : Memory) {lo hi : Nat} (hlo : 0x040000 ≤ lo) (hhi : hi ≤ 0x100000) :
    m.SameOutsideTables (m.clear lo hi) :=
  fun _ ha => m.read_clear_outside (by omega)

theorem sameOutsideTables_putHalves (m : Memory) {f : RegFile} (hf : f.isTable = true) {vs : List Half}
    (hl : vs.length ≤ 65536) : m.SameOutsideTables (m.putHalves f 0 vs) := by
  refine fun a ha => m.read_putHalves_outside f 0 vs fun k hk => ?_
  have := entryAddr_table hf (i := 0 + k) (by omega)
  omega

end Memory

theorem tableLoop_sameOutsideTables {m poly : Nat} (hm : 1 ≤ m) (hm' : m ≤ 16) {k i sr : Nat} (mem : Memory)
    (hi : i + k ≤ 65536) (hsr : sr < 65536) : mem.SameOutsideTables (tableLoop m poly k i sr mem) := by
  induction k generalizing i sr mem with
  | zero => exact fun _ _ => rfl
  | succ k ih =>
    have hp : 2 ^ m ≤ 2 ^ 16 := Nat.pow_le_pow_right (by omega) hm'
    have hstep := fieldStep_lt hm poly sr
    exact ((mem.sameOutsideTables_setHalf rfl hsr _).trans (Memory.sameOutsideTables_setHalf _ rfl (by omega) _)).trans
      (ih _ (by omega) (by omega))

theorem buildTables_sameOutsideTables {m poly : Nat} (hm : 1 ≤ m) (hm' : m ≤ 16) (mem : Memory) :
    mem.SameOutsideTables (buildTables m poly mem) := by
  have hp : 2 ^ m ≤ 2 ^ 16 := Nat.pow_le_pow_right (by omega) hm'
  have start := (mem.sameOutsideTables_setHalf (f := .indexOf) (i := 0) rfl (by omega) (BitVec.ofNat 16 (2 ^ m - 1))).trans
    (Memory.sameOutsideTables_setHalf _ (f := .alphaTo) (i := 2 ^ m - 1) rfl (by omega) 0)
  have filled := start.trans (tableLoop_sameOutsideTables (poly := poly) hm hm' (k := 2 ^ m - 1) (i := 0) (sr := 1) _
    (by omega) (by omega))
  refine (filled.trans (Memory.sameOutsideTables_clear _ ?_ ?_)).trans (Memory.sameOutsideTables_clear _ ?_ ?_) <;>
    simp only [entryAddr, RegFile.base] <;> omega

theorem configBody_sameOutsideTables {s t : State} (hl : s.staging.legal = true) (h : configBody s = .ok t) :
    s.mem.SameOutsideTables t.mem := by
  obtain ⟨-, -, g, hg, hmem⟩ := configBody_ok h
  obtain ⟨hm, hm', -⟩ := s.staging.legal_iff.mp hl
  have hr := s.staging.cfgNroots.isLt
  rw [hmem]
  exact (buildTables_sameOutsideTables (by omega) hm' _).trans (Memory.sameOutsideTables_putHalves _ rfl (by omega))

/-- CONFIG's commit always answers, and writes nothing but the configuration, CFG_VALID, DSTAGE and the memory (R148). -/
theorem configBody_answers (s : State) : ∃ t, configBody s = .ok t ∧
    t = { s with
      active := s.staging.activated, status := { s.status with cfgValid := true, dstage := .idle }, mem := t.mem } :=
  ⟨_, rfl, rfl⟩

/-- Settles O13: the checks pass, the body commits, and the completion is without error. -/
theorem configCommitsTheStagingRegisters : Obligations.ConfigCommitsTheStagingRegisters := by
  intro s hl hp
  have hcheck : configCheck s = .ok none := (configCheck_of_legal hl).trans (if_neg (by rw [hp]; decide))
  obtain ⟨t, hb, ht⟩ := configBody_answers s
  have hmem : s.mem.SameOutsideTables t.mem := configBody_sameOutsideTables hl hb
  refine ⟨complete .noError t, ?_, ?_, hmem⟩
  · exact (exec_eq_command .config s).trans (command_of_ok hcheck hb)
  · rw [ht]
    simp [complete, Staging.activated]

/-! ### What a successful CONFIG leaves (R146, R150) -/

/-- A CONFIG that completes without error has passed its checks and committed. -/
theorem execConfig_success {s t : State} (h : exec .config s = .next t) (herr : t.status.errcode = .noError) :
    configCheck s = .ok none ∧ ∃ u, configBody s = .ok u ∧ t = complete .noError u := by
  rcases exec_next h with ⟨c, hc, rfl⟩ | ⟨hc, hu⟩
  · exact absurd herr (check_some_ne_noError hc)
  · exact ⟨hc, hu⟩

/-- The inverse of `prim` below `n` is the smallest positive one: every other is congruent to it. -/
theorem Active.Committed.iprim_le {a : Active} (h : a.Committed) {k : Nat} (hk : k * a.actPrim.toNat % a.actN.toNat = 1) :
    a.iprim.toNat ≤ k := by
  obtain ⟨-, -, hgcd⟩ := h.prim_range
  have hcongr : a.iprim.toNat * a.actPrim.toNat ≡ k * a.actPrim.toNat [MOD a.actN.toNat] := h.iprim_inv.trans hk.symm
  have hik : a.iprim.toNat ≡ k [MOD a.actN.toNat] := hcongr.cancel_right_of_coprime (by rwa [Nat.gcd_comm])
  calc a.iprim.toNat = k % a.actN.toNat := by rw [← hik, Nat.mod_eq_of_lt h.iprim_range.2]
    _ ≤ k := Nat.mod_le _ _

/-- Settles O14: the committed IPRIM is an inverse of `prim` in `[1, n − 1]`. -/
theorem iprimIsTheSmallestInverse : Obligations.IprimIsTheSmallestInverse := by
  intro s t h herr
  obtain ⟨hc, u, hu, rfl⟩ := execConfig_success h herr
  have hcom : u.active.Committed := (configBody_tables hc hu).1
  exact ⟨hcom.iprim_range.1, hcom.iprim_inv, fun k _ hk => hcom.iprim_le hk⟩

/-- A step of `build_genpoly` makes the constant coefficient a power of α. -/
theorem nth_genpolyStep_zero (F : GField) (fcr prim : Nat) {g : List Half} (i : Nat) (h : 0 < g.length) :
    nth (genpolyStep F fcr prim g i) 0 = F.pow ((F.log (nth g 0)).toNat + (fcr * prim + i * prim)) := by
  rw [genpolyStep, nth_map_range h, if_pos rfl]

/-- Step `i` of `build_genpoly` makes the polynomial monic of degree `i + 1`. -/
theorem nth_genpolyStep_leading (F : GField) (fcr prim : Nat) {g : List Half} {i : Nat} (h : i + 1 < g.length) :
    nth (genpolyStep F fcr prim g i) (i + 1) = 1 := by
  rw [genpolyStep, nth_map_range h, if_neg (by omega), if_neg (by omega), if_pos rfl]

/-- The last step of `build_genpoly`. -/
theorem genpolyElements_succ (F : GField) (k fcr prim : Nat) : ∃ g : List Half, g.length = k + 2 ∧
    genpolyElements F (k + 1) fcr prim = genpolyStep F fcr prim g k := by
  refine ⟨(List.range k).foldl (genpolyStep F fcr prim) (1 :: List.replicate (k + 1) 0), ?_, ?_⟩
  · rw [← genpolyStep_length F fcr prim _ k, ← genpolyElements_length F (k + 1) fcr prim, genpolyElements, List.range_succ,
      List.foldl_append, List.foldl_cons, List.foldl_nil]
  · rw [genpolyElements, List.range_succ, List.foldl_append, List.foldl_cons, List.foldl_nil]

/-- The generator polynomial is monic, and its constant coefficient is a power of α (R147). -/
theorem genpolyElements_ends (F : GField) {nroots : Nat} (h : 1 ≤ nroots) (fcr prim : Nat) :
    (∃ x, nth (genpolyElements F nroots fcr prim) 0 = F.pow x) ∧ nth (genpolyElements F nroots fcr prim) nroots = 1 := by
  obtain ⟨k, rfl⟩ : ∃ k, nroots = k + 1 := ⟨nroots - 1, by omega⟩
  obtain ⟨g, hg, e⟩ := genpolyElements_succ F k fcr prim
  rw [e]
  exact ⟨⟨_, nth_genpolyStep_zero F fcr prim k (by omega)⟩, nth_genpolyStep_leading F fcr prim (by omega)⟩

/-- The field depends on ALPHA_TO, INDEX_OF and `ACT_N` alone, so GENPOLY may change under it (R18). -/
theorem State.field_putGenpoly (s : State) {g : List Half} (hg : g.length ≤ 65536) :
    (s.setMem (s.mem.putHalves .genpoly 0 g)).field = s.field := by
  unfold State.field
  congr 1 <;> funext x <;> unfold Memory.tableEntry
  · rw [State.setMem_mem, Memory.sameFile_putHalves _ (g := .alphaTo) g hg (by decide) _ x.isLt]
  · rw [State.setMem_mem, Memory.sameFile_putHalves _ (g := .indexOf) g hg (by decide) _ x.isLt]

/-- CONFIG leaves in GENPOLY the generator polynomial over its own tables, in index form (R147). -/
theorem configBody_genpoly {s t : State} (h : configBody s = .ok t) {i : Nat} (hi : i ≤ t.nroots) :
    t.genpoly i = t.field.log (nth (genpolyElements t.field t.nroots t.fcr t.prim) i) := by
  obtain rfl := Except.ok.inj h
  set u := (s.setMem (buildTables s.staging.cfgM.toNat s.staging.cfgPoly.toNat s.mem)).setActive s.staging.activated
  set g := (genpolyElements u.field u.nroots u.fcr u.prim).map u.field.log with hgdef
  set v := u.setMem (u.mem.putHalves .genpoly 0 g)
  have hi : i ≤ u.nroots := hi
  have hr := u.nroots_lt
  have hg : g.length = u.nroots + 1 := by rw [hgdef, List.length_map, genpolyElements_length]
  have hfield : v.field = u.field := u.field_putGenpoly (by omega)
  have hentry : v.genpoly i = g[i] := by
    rw [State.genpoly, if_pos (show i ≤ v.active.actNroots.toNat from hi), Memory.tableEntry, State.setMem_mem,
      u.mem.half_putHalves_zero .genpoly (by omega) (by omega)]
    rfl
  calc v.genpoly i = u.field.log (nth (genpolyElements u.field u.nroots u.fcr u.prim) i) := by
        simp only [hentry, hgdef, List.getElem_map]
        rw [nth_of_lt]
    _ = v.field.log (nth (genpolyElements v.field v.nroots v.fcr v.prim) i) := by rw [hfield]; rfl

/-- GENPOLY holds indices, is monic, and its constant coefficient is not 0 (R147, R150 (f)). -/
theorem configBody_genpoly_range {s t : State} (hc : configCheck s = .ok none) (h : configBody s = .ok t) :
    (∀ i ≤ t.nroots, (t.genpoly i).toNat ≤ t.n) ∧ t.genpoly 0 ≠ t.active.actN ∧ t.genpoly t.nroots = 0 := by
  obtain ⟨hcom, T⟩ := configBody_tables hc h
  have hm := hcom.m_range.1
  have hr : 1 ≤ t.nroots := hcom.nroots_range.1
  obtain ⟨⟨x, hx⟩, hlead⟩ := genpolyElements_ends t.field hr t.fcr t.prim
  refine ⟨fun i hi => ?_, ?_, ?_⟩
  · rw [configBody_genpoly h hi]
    exact T.log_le _
  · rw [configBody_genpoly h (Nat.zero_le _), hx]
    exact fun e => T.pow_ne_zero hm x ((T.log_eq_sentinel (T.pow_le x)).mp e)
  · rw [configBody_genpoly h le_rfl, hlead]
    exact T.log_one hm

/-- The powers of α are exactly the non-zero elements (R150 (d)). -/
theorem GField.Tables.range_alpha {F : GField} {m poly : Nat} (T : F.Tables m poly) (x : Half) :
    (∃ i : Half, i.toNat < F.n.toNat ∧ F.alpha i = x) ↔ 1 ≤ x.toNat ∧ x.toNat ≤ F.n.toNat := by
  have pos (x : Half) : 1 ≤ x.toNat ↔ x ≠ 0 := by
    rw [Nat.one_le_iff_ne_zero, ne_eq, ne_eq, BitVec.toNat_eq]
    rfl
  rw [pos]
  constructor
  · rintro ⟨i, hi, rfl⟩
    exact T.alpha_range i hi
  · rintro ⟨h0, hx⟩
    exact ⟨F.log x, T.log_range x h0 hx, T.alpha_log x h0 hx⟩

/-- Settles O15: (a) to (d) are what the tables of a primitive polynomial are, (e) is the committed IPRIM's, (f) GENPOLY's. -/
theorem configTablesMeetTheirPostconditions : Obligations.ConfigTablesMeetTheirPostconditions := by
  intro s t h herr
  obtain ⟨hc, u, hu, rfl⟩ := execConfig_success h herr
  obtain ⟨hcom, T⟩ := configBody_tables hc hu
  have hn : 2 < u.n := T.n_pos hcom.m_range.1
  have hgen := configBody_genpoly_range hc hu
  have below (i : Half) : i.toNat ≤ u.n - 1 ↔ i.toNat < u.n := by omega
  refine ⟨fun x h1 hx => T.alpha_log x ?_ hx, fun i hi => T.log_alpha i ((below i).mp hi), ⟨T.log_zero, T.alpha_a0⟩,
    fun x => ?_, hcom.iprim_inv, hgen⟩
  · rintro rfl
    simp at h1
  · exact (exists_congr fun i => and_congr_left' (below i)).trans (T.range_alpha x)

end Sys2Proof.Machine

namespace Sys2Proof.Machine

/-! ### The reducer's iteration (R171) -/

/-- With `n = 2^m − 1` the fold adds the quotient by `2^m` to the remainder. -/
theorem fold_eq_div_add_mod (m y : Nat) : (y >>> m) + (y &&& (2 ^ m - 1)) = y / 2 ^ m + y % 2 ^ m := by
  rw [Nat.shiftRight_eq_div_pow, Nat.and_two_pow_sub_one_eq_mod]

theorem div_add_mod_le (y k : Nat) : y / k + y % k ≤ y := by
  rcases Nat.eq_zero_or_pos k with rfl | hk
  · simp
  · have := Nat.div_add_mod y k
    have := Nat.le_mul_of_pos_left (y / k) hk
    omega

/-- Folding keeps the value modulo `n`, since `2^m` is 1 there. -/
theorem div_add_mod_modEq {n k : Nat} (hk : k = n + 1) (y : Nat) : y / k + y % k ≡ y [MOD n] := by
  have hone : k ≡ 1 [MOD n] := by
    rw [hk]
    exact Nat.add_modEq_left
  calc y / k + y % k ≡ k * (y / k) + y % k [MOD n] := by
        simpa using ((hone.symm.mul_right (y / k)).add_right (y % k))
    _ = y := Nat.div_add_mod y k

theorem modnIter_eq_mod {m : Nat} (hm : 1 ≤ m) {fuel x : Nat} (h : x ≤ fuel) :
    modnIter m (2 ^ m - 1) fuel x = x % (2 ^ m - 1) := by
  have hpow : 2 ^ 1 ≤ 2 ^ m := Nat.pow_le_pow_right (by omega) hm
  induction fuel generalizing x with
  | zero => rw [Nat.le_zero.mp h, modnIter, Nat.zero_mod]
  | succ fuel ih =>
    rw [modnIter]
    split
    · rename_i hx
      exact (Nat.mod_eq_of_lt hx).symm
    · rename_i hx
      have hle := div_add_mod_le (x - (2 ^ m - 1)) (2 ^ m)
      rw [fold_eq_div_add_mod, ih (by omega)]
      calc ((x - (2 ^ m - 1)) / 2 ^ m + (x - (2 ^ m - 1)) % 2 ^ m) % (2 ^ m - 1)
          = (x - (2 ^ m - 1)) % (2 ^ m - 1) := div_add_mod_modEq (by omega) _
        _ = x % (2 ^ m - 1) := (Nat.mod_eq_sub_mod (by omega)).symm

/-- One iteration more than the value it leaves takes. -/
theorem modnIterCount_le_succ {m x k : Nat}
    (h : ∀ fuel, modnIterCount m (2 ^ m - 1) fuel ((x - (2 ^ m - 1)) / 2 ^ m + (x - (2 ^ m - 1)) % 2 ^ m) ≤ k) (fuel : Nat) :
    modnIterCount m (2 ^ m - 1) fuel x ≤ k + 1 := by
  cases fuel with
  | zero => exact Nat.zero_le _
  | succ fuel =>
    rw [modnIterCount, fold_eq_div_add_mod]
    split
    · exact Nat.zero_le _
    · exact Nat.succ_le_succ (h fuel)

theorem modnIterCount_of_lt {m n x : Nat} (h : x < n) (fuel : Nat) : modnIterCount m n fuel x = 0 := by
  cases fuel with
  | zero => rfl
  | succ fuel => exact if_pos h

theorem modnIterCount_le_one {m x : Nat} (hm : 1 ≤ m) (h : x < 2 * (2 ^ m - 1)) (fuel : Nat) :
    modnIterCount m (2 ^ m - 1) fuel x ≤ 1 := by
  have hpow : 2 ^ 1 ≤ 2 ^ m := Nat.pow_le_pow_right (by omega) hm
  have hle := div_add_mod_le (x - (2 ^ m - 1)) (2 ^ m)
  exact modnIterCount_le_succ (fun f => (modnIterCount_of_lt (by omega) f).le) fuel

theorem modnIterCount_le_two {m x : Nat} (hm : 1 ≤ m) (h : x ≤ 3 * (2 ^ m - 1)) (fuel : Nat) :
    modnIterCount m (2 ^ m - 1) fuel x ≤ 2 := by
  have hpow : 2 ^ 1 ≤ 2 ^ m := Nat.pow_le_pow_right (by omega) hm
  refine modnIterCount_le_succ (modnIterCount_le_one hm ?_) fuel
  have hdm := Nat.div_add_mod (x - (2 ^ m - 1)) (2 ^ m)
  have hlt := Nat.mod_lt (x - (2 ^ m - 1)) (Nat.two_pow_pos m)
  have hq : (x - (2 ^ m - 1)) / 2 ^ m < 2 := Nat.div_lt_of_lt_mul (by omega)
  interval_cases hd : (x - (2 ^ m - 1)) / 2 ^ m <;> omega

/-- Below `2n²` the first iteration folds a quotient that is well below `2n`. -/
theorem sub_div_succ_lt {n x : Nat} (hn : 3 ≤ n) (h : x < 2 * n ^ 2) : (x - n) / (n + 1) < 2 * n - 2 := by
  obtain ⟨j, rfl⟩ : ∃ j, n = j + 3 := ⟨n - 3, by omega⟩
  rw [show 2 * (j + 3) - 2 = 2 * j + 4 by omega]
  have hx : x < (j + 3 + 1) * (2 * j + 4) + (j + 3) :=
    calc x < 2 * (j + 3) ^ 2 := h
      _ ≤ 2 * (j + 3) ^ 2 + j + 1 := by omega
      _ = (j + 3 + 1) * (2 * j + 4) + (j + 3) := by ring
  have hpos : 0 < (j + 3 + 1) * (2 * j + 4) := by positivity
  exact Nat.div_lt_of_lt_mul (by omega)

theorem modnIterCount_le_three {m x : Nat} (hm : 2 ≤ m) (h : x < 2 * (2 ^ m - 1) ^ 2) (fuel : Nat) :
    modnIterCount m (2 ^ m - 1) fuel x ≤ 3 := by
  have hpow : 2 ^ 2 ≤ 2 ^ m := Nat.pow_le_pow_right (by omega) hm
  refine modnIterCount_le_succ (modnIterCount_le_two (by omega) ?_) fuel
  have hlt := Nat.mod_lt (x - (2 ^ m - 1)) (Nat.two_pow_pos m)
  have hq := sub_div_succ_lt (by omega) h
  rw [Nat.sub_add_cancel (Nat.two_pow_pos m)] at hq
  omega

/-- Settles O17: an iteration keeps the value modulo `n` and makes it smaller, down to `3n` and to `2n` within the two bounds. -/
theorem reducerIterationGivesTheRemainder : Obligations.ReducerIterationGivesTheRemainder := fun m x hm =>
  ⟨modnIter_eq_mod (by omega) le_rfl, fun h => modnIterCount_le_two (by omega) h x, fun h => modnIterCount_le_three hm h x⟩

end Sys2Proof.Machine

namespace Sys2Proof.Machine

/-! ### Products and quotients in the tables (R174, R184, R185) -/

/-- The numbers up to `n = 2^m − 1` are closed under XOR, as elements and as operands. -/
theorem xor_le_two_pow_sub_one {w m n : Nat} {x y : BitVec w} (hn : n = 2 ^ m - 1) (hx : x.toNat ≤ n) (hy : y.toNat ≤ n) :
    (x ^^^ y).toNat ≤ n := by
  have hpos := Nat.two_pow_pos m
  have hlt : x.toNat ^^^ y.toNat < 2 ^ m := Nat.xor_lt_two_pow (by omega) (by omega)
  rw [BitVec.toNat_xor]
  omega

namespace GField

theorem mul_of_zero (F : GField) {a b : Half} (h : a = 0 ∨ b = 0) : F.mul a b = 0 := if_pos h

theorem mul_of_ne_zero (F : GField) {a b : Half} (ha : a ≠ 0) (hb : b ≠ 0) :
    F.mul a b = F.pow ((F.log a).toNat + (F.log b).toNat) := if_neg (not_or.mpr ⟨ha, hb⟩)

theorem mul_comm (F : GField) (a b : Half) : F.mul a b = F.mul b a := by
  simp only [mul, or_comm, Nat.add_comm]

theorem div_zero_left (F : GField) (b : Half) : F.div 0 b = .ok 0 := if_pos rfl

end GField

namespace GField.Tables

variable {F : GField} {m poly : Nat} {a b : Half}

theorem pow_log (T : F.Tables m poly) (h0 : a ≠ 0) (ha : a.toNat ≤ F.n.toNat) : F.pow (F.log a).toNat = a := by
  rw [GField.pow, F.modn_of_lt (T.log_range a h0 ha), T.alpha_log a h0 ha]

theorem mul_le (T : F.Tables m poly) (a b : Half) : (F.mul a b).toNat ≤ F.n.toNat := by
  by_cases h : a = 0 ∨ b = 0
  · rw [F.mul_of_zero h]
    exact Nat.zero_le _
  · obtain ⟨ha, hb⟩ := not_or.mp h
    rw [F.mul_of_ne_zero ha hb]
    exact T.pow_le _

theorem one_mul (T : F.Tables m poly) (hm : 2 ≤ m) (ha : a.toNat ≤ F.n.toNat) : F.mul 1 a = a := by
  by_cases h0 : a = 0
  · rw [h0, F.mul_of_zero (.inr rfl)]
  · rw [F.mul_of_ne_zero (by decide) h0, T.log_one hm]
    exact (congrArg F.pow (Nat.zero_add _)).trans (T.pow_log h0 ha)

/-- The exponent of a quotient is not negative, since a logarithm is at most `n`. -/
theorem div_of_ne_zero (T : F.Tables m poly) (h0 : a ≠ 0) (b : Half) :
    F.div a b = .ok (F.pow ((F.log a).toNat + F.n.toNat - (F.log b).toNat)) := by
  have hb := T.log_le b
  rw [GField.div, if_neg h0, F.modnInt_of_nonneg (by omega)]
  exact congrArg (fun x => Except.ok (F.pow x)) (by omega)

theorem div_self (T : F.Tables m poly) (hm : 2 ≤ m) (h0 : a ≠ 0) : F.div a a = .ok 1 := by
  have hn := T.n_pos hm
  rw [T.div_of_ne_zero h0, Nat.add_sub_cancel_left, GField.pow, GField.modn, Nat.mod_self]
  exact congrArg _ (T.alpha_zero hm)

end GField.Tables

/-! ### The elements in the field of the root (R18, R174) -/

namespace GField.RootOf

variable {K : Type} [Field K] {F : GField} {m poly : Nat} {α : K} {a b : Half}

/-- Different elements have different values at `α`. -/
theorem bitEval_injective [CharP K 2] (R : F.RootOf α) (T : F.Tables m poly) (ha : a.toNat ≤ F.n.toNat)
    (hb : b.toNat ≤ F.n.toNat) (h : bitEval α a.toNat = bitEval α b.toNat) : a = b := by
  refine BitVec.xor_eq_zero_iff.mp (R.zero _ (xor_le_two_pow_sub_one T.n_eq ha hb) ?_)
  rw [BitVec.toNat_xor, bitEval_xor, h, CharTwo.add_self_eq_zero]

theorem bitEval_of_ne_zero (R : F.RootOf α) (T : F.Tables m poly) (h0 : a ≠ 0) (ha : a.toNat ≤ F.n.toNat) :
    bitEval α a.toNat = α ^ (F.log a).toNat := by
  rw [← R.pow, T.pow_log h0 ha]

theorem bitEval_mul (R : F.RootOf α) (T : F.Tables m poly) (ha : a.toNat ≤ F.n.toNat) (hb : b.toNat ≤ F.n.toNat) :
    bitEval α (F.mul a b).toNat = bitEval α a.toNat * bitEval α b.toNat := by
  by_cases ha0 : a = 0
  · simp [ha0, F.mul_of_zero]
  by_cases hb0 : b = 0
  · simp [hb0, F.mul_of_zero]
  rw [F.mul_of_ne_zero ha0 hb0, R.pow, pow_add, R.bitEval_of_ne_zero T ha0 ha, R.bitEval_of_ne_zero T hb0 hb]

/-- A quotient times its divisor is the dividend. -/
theorem bitEval_div (R : F.RootOf α) (T : F.Tables m poly) (ha : a.toNat ≤ F.n.toNat) (hb0 : b ≠ 0)
    (hb : b.toNat ≤ F.n.toNat) :
    ∃ q, F.div a b = .ok q ∧ q.toNat ≤ F.n.toNat ∧ bitEval α q.toNat * bitEval α b.toNat = bitEval α a.toNat := by
  by_cases ha0 : a = 0
  · rw [ha0]
    exact ⟨0, F.div_zero_left b, Nat.zero_le _, by simp⟩
  refine ⟨_, T.div_of_ne_zero ha0 b, T.pow_le _, ?_⟩
  have hlog := T.log_le b
  calc bitEval α (F.pow ((F.log a).toNat + F.n.toNat - (F.log b).toNat)).toNat * bitEval α b.toNat
      = α ^ ((F.log a).toNat + F.n.toNat - (F.log b).toNat + (F.log b).toNat) := by
        rw [R.pow, R.bitEval_of_ne_zero T hb0 hb, pow_add]
    _ = α ^ (F.log a).toNat * α ^ F.n.toNat := by rw [Nat.sub_add_cancel (by omega), pow_add]
    _ = bitEval α a.toNat := by rw [R.order, mul_one, R.bitEval_of_ne_zero T ha0 ha]

end GField.RootOf

/-- Settles O23: the values at a root of the polynomial tell elements apart, and take the products of the tables to products and
XOR to the sum. -/
theorem tableMultiplicationIsAFieldMultiplication : Obligations.TableMultiplicationIsAFieldMultiplication := by
  intro F m poly T hm hp hp' a b c ha hb hc
  obtain ⟨α, R⟩ := T.exists_root hm ⟨hp, hp'⟩
  have hle (x y : Half) := T.mul_le x y
  have hmul {x y : Half} (hx : x.toNat ≤ F.n.toNat) (hy : y.toNat ≤ F.n.toNat) := R.bitEval_mul T hx hy
  have hxor {x y : Half} (hx : x.toNat ≤ F.n.toNat) (hy : y.toNat ≤ F.n.toNat) : (x ^^^ y).toNat ≤ F.n.toNat :=
    xor_le_two_pow_sub_one T.n_eq hx hy
  refine ⟨hle a b, F.mul_comm a b, ?assoc, T.one_mul hm ha, ?distrib, fun hb0 => ?cancel⟩
  case assoc =>
    refine R.bitEval_injective T (hle _ _) (hle _ _) ?_
    rw [hmul (hle a b) hc, hmul ha hb, hmul ha (hle b c), hmul hb hc, mul_assoc]
  case distrib =>
    refine R.bitEval_injective T (hle _ _) (hxor (hle _ _) (hle _ _)) ?_
    rw [hmul ha (hxor hb hc), BitVec.toNat_xor, BitVec.toNat_xor, bitEval_xor, bitEval_xor, hmul ha hb, hmul ha hc, mul_add]
  case cancel =>
    obtain ⟨q, hq, hqle, e⟩ := R.bitEval_div T (hle a b) hb0 hb
    have hb1 : bitEval α b.toNat ≠ 0 := fun h => hb0 (R.zero b hb h)
    rw [hmul ha hb] at e
    rw [hq, R.bitEval_injective T hqle ha (mul_right_cancel₀ hb1 e)]

end Sys2Proof.Machine

namespace Sys2Proof.Machine

/-! ### The shared form of the field operations (R180 to R185, R326) -/

theorem State.inField_iff {s : State} {v : Word} : s.inField v = true ↔ v.toNat ≤ s.n := decide_eq_true_iff

theorem State.inField_false {s : State} {v : Word} (h : s.n < v.toNat) : s.inField v = false := decide_eq_false (by omega)

theorem State.inField_both {s : State} {v w : Word} (hv : v.toNat ≤ s.n) (hw : w.toNat ≤ s.n) :
    (s.inField v && s.inField w) = true := by
  rw [inField_iff.mpr hv, inField_iff.mpr hw]
  rfl

theorem State.inField_not_both {s : State} {v w : Word} (h : s.n < v.toNat ∨ s.n < w.toNat) :
    (s.inField v && s.inField w) = false := by
  rcases h with h | h
  · rw [inField_false h, Bool.false_and]
  · rw [inField_false h, Bool.and_false]

theorem State.checkDomain_of_configured {s : State} (hc : s.configured) (ok : Bool) :
    s.checkDomain ok = .ok (if ok then none else some .domain) := checkConfigured_of_configured hc.1 hc.2

theorem exec_of_check_none {i : Instr} {s t : State} (hc : Instr.check i s = .ok none) (hb : Instr.body i s = .ok t) :
    exec i s = .next (complete .noError t) := (exec_eq_command i s).trans (command_of_ok hc hb)

section
variable {i : Instr} {s t : State} {ok : Bool} (hi : Instr.check i s = s.checkDomain ok)
include hi

theorem exec_of_not_valid (hv : s.status.cfgValid = false) : exec i s = .next (complete .notConfigured s) :=
  exec_of_check_some (hi.trans (checkConfigured_of_not_valid hv))

theorem exec_outside_domain (hc : s.configured) (hok : ok = false) : exec i s = .next (complete .domain s) :=
  exec_of_check_some (by rw [hi, State.checkDomain_of_configured hc, hok]; rfl)

theorem exec_in_domain (hc : s.configured) (hok : ok = true) (hb : Instr.body i s = .ok t) :
    exec i s = .next (complete .noError t) :=
  exec_of_check_none (by rw [hi, State.checkDomain_of_configured hc, hok]; rfl) hb

end

/-! ### Operands as elements (R180 to R185) -/

section
variable {s : State} {v : Word} (h : v.toNat ≤ s.n)
include h

/-- An operand up to `n` fits the 16 bits of an element. -/
theorem operand_toNat : (v.setWidth 16).toNat = v.toNat := by
  have hn : s.n < 2 ^ 16 := s.active.actN.isLt
  rw [BitVec.toNat_setWidth, Nat.mod_eq_of_lt (by omega)]

theorem operand_setWidth : (v.setWidth 16).setWidth 32 = v := by
  apply BitVec.eq_of_toNat_eq
  rw [BitVec.toNat_setWidth, operand_toNat h, Nat.mod_eq_of_lt v.isLt]

theorem operand_ne_zero (h0 : v ≠ 0) : v.setWidth 16 ≠ 0 := by
  intro e
  have := operand_setWidth h
  rw [e] at this
  exact h0 this.symm

theorem field_alpha_operand : s.field.alpha (v.setWidth 16) = s.mem.tableEntry .alphaTo v.toNat :=
  congrArg (s.mem.tableEntry .alphaTo) (operand_toNat h)

theorem field_log_operand : s.field.log (v.setWidth 16) = s.mem.tableEntry .indexOf v.toNat :=
  congrArg (s.mem.tableEntry .indexOf) (operand_toNat h)

end

theorem State.configured.n_pos {s : State} (hc : s.configured) : 0 < s.n := by
  have := usable_nroots hc.2
  omega

theorem State.configured.modn_toNat {s : State} (hc : s.configured) (x : Nat) : (s.field.modn x).toNat = x % s.n :=
  s.field.modn_toNat x hc.n_pos

theorem State.configured.field_pow {s : State} (hc : s.configured) (x : Nat) :
    s.field.pow x = s.mem.tableEntry .alphaTo (x % s.n) :=
  congrArg (s.mem.tableEntry .alphaTo) (hc.modn_toNat x)

/-- Under the invariant a configured state has the tables of its committed polynomial. -/
theorem State.Inv.tables_of_configured {s : State} (h : s.Inv) (hc : s.configured) :
    s.field.Tables s.active.actM.toNat s.active.actPoly.toNat ∧ 2 ≤ s.active.actM.toNat :=
  ⟨h.tables hc.1, actM_ge h hc.1⟩

/-! ### The six operations -/

section
variable {s : State} {r : Word} (hc : s.configured)
include hc

theorem exec_fldAlog (ha : s.opa.toNat ≤ s.n) (hr : (s.field.alpha (s.opa.setWidth 16)).setWidth 32 = r) :
    exec .fldAlog s = .next (complete .noError { s with res := r }) :=
  hr ▸ exec_in_domain rfl hc (State.inField_iff.mpr ha) rfl

theorem exec_fldLog (ha : s.opa.toNat ≤ s.n) (hr : (s.field.log (s.opa.setWidth 16)).setWidth 32 = r) :
    exec .fldLog s = .next (complete .noError { s with res := r }) :=
  hr ▸ exec_in_domain rfl hc (State.inField_iff.mpr ha) rfl

theorem exec_fldModn (hr : (s.field.modn s.opa.toNat).setWidth 32 = r) :
    exec .fldModn s = .next (complete .noError { s with res := r }) :=
  hr ▸ exec_in_domain rfl hc rfl rfl

variable (ha : s.opa.toNat ≤ s.n) (hb : s.opb.toNat ≤ s.n)
include ha hb

theorem exec_fldAdd (hr : s.opa ^^^ s.opb = r) : exec .fldAdd s = .next (complete .noError { s with res := r }) :=
  hr ▸ exec_in_domain rfl hc (State.inField_both ha hb) rfl

theorem exec_fldMul (hr : (s.field.mul (s.opa.setWidth 16) (s.opb.setWidth 16)).setWidth 32 = r) :
    exec .fldMul s = .next (complete .noError { s with res := r }) :=
  hr ▸ exec_in_domain rfl hc (State.inField_both ha hb) rfl

theorem exec_fldDiv {q : Half} (h0 : s.opb ≠ 0) (hq : s.field.div (s.opa.setWidth 16) (s.opb.setWidth 16) = .ok q) :
    exec .fldDiv s = .next (complete .noError { s with res := q.setWidth 32 }) := by
  have hok : (s.inField s.opa && s.inField s.opb && s.opb != 0) = true := by
    rwa [State.inField_both ha hb, Bool.true_and, bne_iff_ne]
  have hbody : Instr.body .fldDiv s = .ok (s.setRes (q.setWidth 32)) := by simp only [Instr.body, hq]
  exact exec_in_domain rfl hc hok hbody

end

/-- Settles O18: an operand up to `n` is an index or an element, and the tables end at `ALPHA_TO[A0] = 0`, `INDEX_OF[0] = A0`. -/
theorem fldAlogAndLogReadTheTables : Obligations.FldAlogAndLogReadTheTables := by
  intro s
  refine ⟨fun hv => ⟨exec_of_not_valid rfl hv, exec_of_not_valid rfl hv⟩, fun hc ha => ?domain, fun hc ha => ?lookup,
    fun hI hc => ?corners⟩
  case domain =>
    exact ⟨exec_outside_domain rfl hc (State.inField_false ha), exec_outside_domain rfl hc (State.inField_false ha)⟩
  case lookup =>
    exact ⟨exec_fldAlog hc ha (by rw [field_alpha_operand ha]), exec_fldLog hc ha (by rw [field_log_operand ha])⟩
  case corners =>
    obtain ⟨T, hm⟩ := hI.tables_of_configured hc
    have hn : 2 < s.n := T.n_pos hm
    refine ⟨fun ha => ?_, fun ha => ?_, fun ha => ?_⟩
    · have hop : s.opa.setWidth 16 = s.field.n := BitVec.eq_of_toNat_eq ((operand_toNat ha.le).trans ha)
      exact exec_fldAlog hc ha.le (by rw [hop, T.alpha_a0]; rfl)
    · have hle : s.opa.toNat ≤ s.n := by rw [ha]; exact Nat.zero_le _
      have hop : s.opa.setWidth 16 = (0 : Half) := congrArg (BitVec.setWidth 16) ha
      exact ⟨exec_fldAlog hc hle (by rw [hop, T.alpha_zero hm]; rfl), exec_fldLog hc hle (by rw [hop, T.log_zero]; rfl)⟩
    · have hle : s.opa.toNat ≤ s.n := by rw [ha]; exact hn.le.trans' one_le_two
      have hop : s.opa.setWidth 16 = (1 : Half) := congrArg (BitVec.setWidth 16) ha
      exact exec_fldLog hc hle (by rw [hop, T.log_one hm]; rfl)

/-- Settles O19: the domain of FLD_MODN is every word, and a remainder fits the 16 bits of `modn`. -/
theorem fldModnReducesEveryWord : Obligations.FldModnReducesEveryWord := fun s =>
  ⟨exec_of_not_valid rfl, fun hc => exec_fldModn hc (by rw [← hc.modn_toNat, BitVec.ofNat_toNat])⟩

/-- Settles O20: the operands of a committed field are the numbers below `2^m`, which XOR does not leave. -/
theorem fldAddIsExclusiveOr : Obligations.FldAddIsExclusiveOr := by
  intro s
  refine ⟨exec_of_not_valid rfl, fun hc h => exec_outside_domain rfl hc (State.inField_not_both h),
    fun hc ha hb => ⟨exec_fldAdd hc ha hb rfl, fun h => ?same, fun h => ?zero, fun h => xor_le_two_pow_sub_one h.n_eq ha hb⟩⟩
  case same => exact exec_fldAdd hc ha hb (by rw [h, BitVec.xor_self]; rfl)
  case zero => exact exec_fldAdd hc ha hb (by rw [h]; exact BitVec.xor_zero)

/-- Settles O21: the product of the operands as elements, with 1 as its unit, does not depend on their order. -/
theorem fldMulMultipliesThroughTheTables : Obligations.FldMulMultipliesThroughTheTables := by
  intro s
  refine ⟨exec_of_not_valid rfl, fun hc h => exec_outside_domain rfl hc (State.inField_not_both h), fun hc ha hb => ?_⟩
  refine ⟨fun h => ?zero, fun ha0 hb0 => ?table, fun hI h1 => ?unit, _, exec_fldMul hc ha hb rfl, ?comm⟩
  case zero =>
    have hop : s.opa.setWidth 16 = (0 : Half) ∨ s.opb.setWidth 16 = (0 : Half) :=
      h.imp (congrArg (BitVec.setWidth 16)) (congrArg (BitVec.setWidth 16))
    exact exec_fldMul hc ha hb (by rw [s.field.mul_of_zero hop]; rfl)
  case table =>
    refine exec_fldMul hc ha hb ?_
    rw [s.field.mul_of_ne_zero (operand_ne_zero ha ha0) (operand_ne_zero hb hb0), hc.field_pow, field_log_operand ha,
      field_log_operand hb]
  case unit =>
    obtain ⟨T, hm⟩ := hI.tables_of_configured hc
    have hop : s.opa.setWidth 16 = (1 : Half) := congrArg (BitVec.setWidth 16) h1
    exact exec_fldMul hc ha hb (by rw [hop, T.one_mul hm ((operand_toNat hb).trans_le hb), operand_setWidth hb])
  case comm =>
    exact exec_fldMul (s := { s with opa := s.opb, opb := s.opa }) hc hb ha
      (congrArg (BitVec.setWidth 32) (s.field.mul_comm _ _))

/-- Settles O22: under the invariant the exponent of a quotient is not negative, so the division of the operands as elements
answers. -/
theorem fldDivDividesThroughTheTables : Obligations.FldDivDividesThroughTheTables := by
  intro s
  refine ⟨exec_of_not_valid rfl, fun hc h => exec_outside_domain rfl hc ?domain, fun hI hc ha hb hb0 => ?_⟩
  case domain =>
    rcases or_assoc.mpr h with h | h
    · rw [State.inField_not_both h, Bool.false_and]
    · rw [h, bne_self_eq_false, Bool.and_false]
  obtain ⟨T, hm⟩ := hI.tables_of_configured hc
  refine ⟨fun ha0 => ?zero, fun ha0 => ?table, fun hab => ?self⟩
  case zero =>
    have hop : s.opa.setWidth 16 = (0 : Half) := congrArg (BitVec.setWidth 16) ha0
    exact exec_fldDiv hc ha hb hb0 (by rw [hop, s.field.div_zero_left])
  case table =>
    have hq := T.div_of_ne_zero (operand_ne_zero ha ha0) (s.opb.setWidth 16)
    rw [hc.field_pow, field_log_operand ha, field_log_operand hb] at hq
    exact exec_fldDiv hc ha hb hb0 hq
  case self =>
    exact exec_fldDiv hc ha hb hb0 (by rw [hab, T.div_self hm (operand_ne_zero hb hb0)])

end Sys2Proof.Machine

namespace Sys2Proof.Machine

/-! ### ENCODE (R200, R204) -/

theorem encodeCheck_of_fits {s : State} (hc : s.configured) (hlen : s.len.toNat + s.nroots ≤ s.n) :
    encodeCheck s = .ok none := by
  rw [encodeCheck, checkConfigured_of_configured hc.1 hc.2, State.lenFits_of_le hlen]
  rfl

/-- The parity of the effective message in DATA (R200, R202). -/
def State.parityOfData (s : State) : List Half :=
  encodeParity s.field s.genpolyList s.nroots (s.blockSymbols.take s.len.toNat)

theorem State.parityOfData_length {s : State} (hc : s.configured) : s.parityOfData.length = s.nroots :=
  encodeParity_length _ _ (usable_nroots hc.2).1 _

/-- The state that ENCODE leaves. -/
def State.encoded (s : State) : State := complete .noError (s.setMem (s.mem.putHalves .par 0 s.parityOfData))

theorem exec_encode {s : State} (hc : s.configured) (hlen : s.len.toNat + s.nroots ≤ s.n)
    (hdata : s.mem.written .data s.len.toNat) : exec .encode s = .next s.encoded :=
  exec_of_check_none (encodeCheck_of_fits hc hlen) (encodeBody_eq_ok.mpr ⟨_, State.message_of_written hdata, rfl⟩)

/-- A run of 16-bit entries from entry 0 on leaves the bytes that they do not store. -/
theorem Memory.read_putHalves_of_not_runByte (m : Memory) {f : RegFile} (hf : f.wide = false) {vs : List Half} {a : Nat}
    (h : ¬runByte f vs.length a) : (m.putHalves f 0 vs).read a = m.read a := by
  refine m.read_putHalves_outside f 0 vs fun k hk => ?_
  rw [Nat.zero_add]
  have hbyte : ¬entryByte f k a := fun hb => h ⟨k, hk, hb⟩
  simp only [entryByte, hf, Bool.false_eq_true, if_false] at hbyte
  omega

/-- Settles O24: the check passes, the message is read whole, and the body writes the parity to PAR. -/
theorem encodeWritesTheParityAndNothingElse : Obligations.EncodeWritesTheParityAndNothingElse := by
  intro s hc hlen hdata
  have hpar := State.parityOfData_length hc
  have hnr := s.nroots_lt
  refine ⟨s.encoded, exec_encode hc hlen hdata, ?_, fun j hj => ?_, hpar, fun a ha => ?_⟩
  · simp [State.encoded, complete, State.setMem]
  · rw [← hpar] at hj
    exact (s.mem.half_putHalves_zero .par hj (by omega)).trans (List.getElem?_eq_getElem hj).symm
  · rw [← hpar] at ha
    exact s.mem.read_putHalves_of_not_runByte rfl ha

end Sys2Proof.Machine

namespace Sys2Proof.Machine

open Finset

/-! ### Entries of a list -/

theorem nth_of_length_le {l : List Half} {i : Nat} (h : l.length ≤ i) : nth l i = 0 := by
  rw [nth, List.getD_eq_default _ _ h]

theorem nth_le {l : List Half} {n : Nat} (h : ∀ c ∈ l, c.toNat ≤ n) (i : Nat) : (nth l i).toNat ≤ n := by
  by_cases hi : i < l.length
  · exact h _ (nth_mem hi)
  · rw [nth_of_length_le (by omega)]
    exact Nat.zero_le _

theorem nth_replicate_zero (k i : Nat) : nth (List.replicate k 0) i = 0 := by
  by_cases h : i < k
  · rw [nth_of_lt (by rwa [List.length_replicate]), List.getElem_replicate]
  · exact nth_of_length_le (by rw [List.length_replicate]; omega)

theorem nth_append_of_lt {l r : List Half} {i : Nat} (h : i < l.length) : nth (l ++ r) i = nth l i :=
  List.getD_append _ _ _ _ h

theorem nth_concat {l : List Half} {a : Half} {i : Nat} (h : l.length = i) : nth (l ++ [a]) i = a := by
  rw [nth, List.getD_append_right _ _ _ _ h.le, h, Nat.sub_self]
  rfl

/-! ### The value of a block at a root (R220, R224) -/

section
variable {K : Type} [Field K]

@[simp] theorem bitEval_toNat_zero (α : K) : bitEval α (0 : Half).toNat = 0 := bitEval_zero α

@[simp] theorem bitEval_toNat_one (α : K) : bitEval α (1 : Half).toNat = 1 := bitEval_one α

/-- The value at `y` of the polynomial whose coefficients are the symbols of a block, the last one being the constant (R94). -/
noncomputable def blockEval (α y : K) (block : List Half) : K := block.foldl (fun v c => v * y + bitEval α c.toNat) 0

@[simp] theorem blockEval_nil (α y : K) : blockEval α y [] = 0 := rfl

@[simp] theorem blockEval_concat (α y : K) (block : List Half) (c : Half) :
    blockEval α y (block ++ [c]) = blockEval α y block * y + bitEval α c.toNat := by
  rw [blockEval, List.foldl_append]
  rfl

theorem blockEval_append (α y : K) (block tail : List Half) :
    blockEval α y (block ++ tail) = blockEval α y block * y ^ tail.length + blockEval α y tail := by
  induction tail using List.reverseRecOn with
  | nil => simp
  | append_singleton tail c ih =>
    rw [← List.append_assoc, blockEval_concat, blockEval_concat, ih, List.length_append, List.length_singleton, pow_succ]
    ring

/-- The value as a sum over the entries of the block. -/
theorem blockEval_eq_sum (α y : K) (block : List Half) :
    blockEval α y block = ∑ k ∈ range block.length, bitEval α (nth block k).toNat * y ^ (block.length - 1 - k) := by
  induction block with
  | nil => simp
  | cons c block ih =>
    rw [← List.singleton_append, blockEval_append, ih, List.singleton_append, List.length_cons, sum_range_succ', add_comm]
    congr 1
    · refine sum_congr rfl fun k _ => ?_
      rw [nth_cons_succ, show block.length + 1 - 1 - (k + 1) = block.length - 1 - k by omega]
    · simp [blockEval]

/-- A shift by one moves the first symbol out of the block (R201). -/
theorem blockEval_mul (α y : K) (block : List Half) : blockEval α y block * y =
    ∑ k ∈ range block.length, bitEval α (nth block (k + 1)).toNat * y ^ (block.length - 1 - k) +
      bitEval α (nth block 0).toNat * y ^ block.length := by
  calc blockEval α y block * y
      = ∑ k ∈ range (block.length + 1), bitEval α (nth block k).toNat * y ^ (block.length - k) := by
        rw [blockEval_eq_sum, sum_mul, sum_range_succ, nth_of_length_le le_rfl, bitEval_toNat_zero, zero_mul, add_zero]
        refine sum_congr rfl fun k hk => ?_
        have := mem_range.mp hk
        rw [mul_assoc, ← pow_succ, show block.length - 1 - k + 1 = block.length - k by omega]
    _ = _ := by
        rw [sum_range_succ']
        simp only [Nat.sub_sub, Nat.add_comm 1, Nat.sub_zero]

variable {F : GField} {m poly : Nat} {α : K}

/-- An element times a power of `α`, through the tables. -/
theorem GField.RootOf.bitEval_pow_log_add (R : F.RootOf α) (T : F.Tables m poly) {a : Half} (h0 : a ≠ 0)
    (ha : a.toNat ≤ F.n.toNat) (x : Nat) : bitEval α (F.pow ((F.log a).toNat + x)).toNat = bitEval α a.toNat * α ^ x := by
  rw [R.pow, pow_add, R.bitEval_of_ne_zero T h0 ha]

theorem syndromeStep_le (T : F.Tables m poly) (x : Nat) (acc : Half) {c : Half} (hc : c.toNat ≤ F.n.toNat) :
    (syndromeStep F x acc c).toNat ≤ F.n.toNat := by
  unfold syndromeStep
  split
  · exact hc
  · exact xor_le_two_pow_sub_one T.n_eq hc (T.pow_le _)

theorem bitEval_syndromeStep [CharP K 2] (R : F.RootOf α) (T : F.Tables m poly) (x : Nat) {acc : Half}
    (ha : acc.toNat ≤ F.n.toNat) (c : Half) :
    bitEval α (syndromeStep F x acc c).toNat = bitEval α acc.toNat * α ^ x + bitEval α c.toNat := by
  unfold syndromeStep
  split
  · next h0 => simp [h0]
  · next h0 => rw [BitVec.toNat_xor, bitEval_xor, R.bitEval_pow_log_add T h0 ha, add_comm]

theorem syndrome_concat (F : GField) (x : Nat) (block : List Half) (c : Half) :
    syndrome F x (block ++ [c]) = syndromeStep F x (syndrome F x block) c := by
  rw [syndrome, List.foldl_append]
  rfl

/-- The syndrome of a block of elements is the element that stands for the block's value at `α^x` (R224). -/
theorem syndrome_value [CharP K 2] (R : F.RootOf α) (T : F.Tables m poly) (x : Nat) {block : List Half}
    (h : ∀ c ∈ block, c.toNat ≤ F.n.toNat) :
    (syndrome F x block).toNat ≤ F.n.toNat ∧ bitEval α (syndrome F x block).toNat = blockEval α (α ^ x) block := by
  induction block using List.reverseRecOn with
  | nil => exact ⟨Nat.zero_le _, bitEval_zero α⟩
  | append_singleton block c ih =>
    obtain ⟨hle, heval⟩ := ih fun d hd => h d (List.mem_append_left _ hd)
    rw [syndrome_concat, blockEval_concat, bitEval_syndromeStep R T x hle, heval]
    exact ⟨syndromeStep_le T x _ (h c (List.mem_append_right _ (List.mem_singleton_self c))), rfl⟩

/-! ### The generator polynomial (R147) -/

/-- The value at `y` of the polynomial with the coefficients `g[0..]` in element form. -/
noncomputable def coeffEval (α y : K) (g : List Half) : K := ∑ j ∈ range g.length, bitEval α (nth g j).toNat * y ^ j

/-- What step `i` of `build_genpoly` finds: a monic polynomial of degree `i` over the elements, with a constant coefficient that
is not 0 (R147). -/
structure GenpolyAt (F : GField) (g : List Half) (i : Nat) : Prop where
  elements : ∀ j, (nth g j).toNat ≤ F.n.toNat
  constant : nth g 0 ≠ 0
  leading  : nth g i = 1
  above    : ∀ j, i < j → nth g j = 0

/-- An entry of a step's polynomial times `x + α^root`: the product's terms are those of one accumulation step of a syndrome. -/
theorem nth_genpolyStep (fcr prim : Nat) {g : List Half} {i : Nat} (G : GenpolyAt F g i) {j : Nat} (hj : j < g.length) :
    nth (genpolyStep F fcr prim g i) j = syndromeStep F (fcr * prim + i * prim) (nth g j) (nth (0 :: g) j) := by
  rw [genpolyStep, nth_map_range hj]
  cases j with
  | zero =>
    rw [if_pos rfl, syndromeStep, if_neg G.constant, nth_cons_zero]
    exact BitVec.zero_xor.symm
  | succ j =>
    rw [if_neg (Nat.succ_ne_zero j), nth_cons_succ, Nat.add_sub_cancel, syndromeStep]
    rcases lt_trichotomy j i with h | rfl | h
    · rw [if_pos (by omega), ite_not]
    · rw [if_neg (by omega), if_pos rfl, if_pos (G.above _ (by omega)), G.leading]
    · rw [if_neg (by omega), if_neg (by omega), G.above _ (by omega), if_pos rfl, G.above _ h]

/-- The polynomial after a step is that before it times `x + α^root` (R147). -/
theorem coeffEval_genpolyStep [CharP K 2] (R : F.RootOf α) (T : F.Tables m poly) (fcr prim : Nat) {g : List Half} {i : Nat}
    (G : GenpolyAt F g i) (hi : i + 1 < g.length) (y : K) :
    coeffEval α y (genpolyStep F fcr prim g i) = coeffEval α y g * (y + α ^ (fcr * prim + i * prim)) := by
  have term (j : Nat) (hj : j ∈ range g.length) : bitEval α (nth (genpolyStep F fcr prim g i) j).toNat * y ^ j =
      bitEval α (nth (0 :: g) j).toNat * y ^ j +
        bitEval α (nth g j).toNat * y ^ j * α ^ (fcr * prim + i * prim) := by
    rw [nth_genpolyStep fcr prim G (mem_range.mp hj), bitEval_syndromeStep R T _ (G.elements j)]
    ring
  have shift : ∑ j ∈ range g.length, bitEval α (nth (0 :: g) j).toNat * y ^ j = coeffEval α y g * y := by
    obtain ⟨k, hk⟩ : ∃ k, g.length = k + 1 := ⟨g.length - 1, by omega⟩
    rw [coeffEval, hk, sum_range_succ', sum_range_succ _ k, G.above k (by omega), nth_cons_zero]
    simp only [nth_cons_succ, bitEval_toNat_zero, zero_mul, add_zero, sum_mul, pow_succ, mul_assoc]
  rw [coeffEval, genpolyStep_length, sum_congr rfl term, sum_add_distrib, shift, ← sum_mul, ← coeffEval]
  ring

theorem GenpolyAt.step (T : F.Tables m poly) (hm : 2 ≤ m) (fcr prim : Nat) {g : List Half} {i : Nat} (G : GenpolyAt F g i)
    (hi : i + 1 < g.length) : GenpolyAt F (genpolyStep F fcr prim g i) (i + 1) := by
  constructor
  case elements =>
    refine nth_le fun c hc => ?_
    obtain ⟨j, hj, rfl⟩ := List.getElem_of_mem hc
    rw [genpolyStep_length] at hj
    rw [← nth_of_lt, nth_genpolyStep fcr prim G hj]
    refine syndromeStep_le T _ _ ?_
    cases j with
    | zero => exact Nat.zero_le _
    | succ j => exact G.elements j
  case constant =>
    rw [nth_genpolyStep_zero F fcr prim i (by omega)]
    exact T.pow_ne_zero hm _
  case leading => exact nth_genpolyStep_leading F fcr prim hi
  case above =>
    intro j hj
    by_cases hlen : j < g.length
    · obtain ⟨j, rfl⟩ : ∃ k, j = k + 1 := ⟨j - 1, by omega⟩
      rw [nth_genpolyStep fcr prim G hlen, G.above _ (by omega), nth_cons_succ, G.above _ (by omega)]
      rfl
    · exact nth_of_length_le (by rw [genpolyStep_length]; omega)

/-- The polynomial that `build_genpoly` starts from. -/
theorem genpolyAt_start (T : F.Tables m poly) (hm : 2 ≤ m) (nroots : Nat) :
    GenpolyAt F (1 :: List.replicate nroots 0) 0 := by
  have zeros (j : Nat) (hj : 0 < j) : nth ((1 : Half) :: List.replicate nroots 0) j = 0 := by
    obtain ⟨j, rfl⟩ : ∃ k, j = k + 1 := ⟨j - 1, by omega⟩
    exact nth_replicate_zero nroots j
  have hn := T.n_pos hm
  refine ⟨fun j => ?_, show (1 : Half) ≠ 0 by decide, rfl, zeros⟩
  rcases Nat.eq_zero_or_pos j with rfl | hj
  · show 1 ≤ F.n.toNat
    omega
  · rw [zeros j hj]
    exact Nat.zero_le _

/-- After `k` steps the polynomial is monic of degree `k` and vanishes at the first `k` roots (R147). -/
theorem genpolySteps_spec [CharP K 2] (R : F.RootOf α) (T : F.Tables m poly) (hm : 2 ≤ m) (nroots fcr prim : Nat) {k : Nat}
    (hk : k ≤ nroots) : ∃ g : List Half,
      (List.range k).foldl (genpolyStep F fcr prim) (1 :: List.replicate nroots 0) = g ∧ g.length = nroots + 1 ∧
      GenpolyAt F g k ∧ ∀ i < k, coeffEval α (α ^ (fcr * prim + i * prim)) g = 0 := by
  induction k with
  | zero => exact ⟨_, rfl, by simp, genpolyAt_start T hm nroots, nofun⟩
  | succ k ih =>
    obtain ⟨g, hg, hlen, G, hroots⟩ := ih (by omega)
    refine ⟨genpolyStep F fcr prim g k, ?_, ?_, G.step T hm fcr prim (by omega), fun i hi => ?_⟩
    · rw [List.range_succ, List.foldl_append, hg]
      rfl
    · rw [genpolyStep_length, hlen]
    · rw [coeffEval_genpolyStep R T fcr prim G (by omega)]
      rcases Nat.lt_succ_iff_lt_or_eq.mp hi with h | rfl
      · rw [hroots i h, zero_mul]
      · rw [CharTwo.add_self_eq_zero, mul_zero]

/-- A polynomial of degree `k` with `k` roots in geometric progression lacks no coefficient: if one were 0, the other `k` would
solve a homogeneous Vandermonde system. -/
theorem coeff_ne_zero_of_geometric_roots {k : Nat} {a b : Fin (k + 1) → K} (hb : Function.Injective b)
    (hlast : a (Fin.last k) ≠ 0) (h : ∀ i : Fin k, ∑ j, a j * b j ^ (i : Nat) = 0) (p : Fin (k + 1)) : a p ≠ 0 := by
  intro hp
  have hv : (fun j : Fin k => a (p.succAbove j)) = 0 := by
    refine Matrix.eq_zero_of_forall_pow_sum_mul_pow_eq_zero (f := fun j => b (p.succAbove j))
      (hb.comp Fin.succAbove_right_injective) fun i => ?_
    have := h i
    rwa [Fin.sum_univ_succAbove _ p, hp, zero_mul, zero_add] at this
  obtain ⟨j, hj⟩ := Fin.exists_succAbove_eq (x := Fin.last k) (y := p) fun e => hlast (e ▸ hp)
  exact hlast (hj ▸ congrFun hv j)

/-- The generator polynomial lacks no coefficient, since its roots are consecutive powers of `α^prim`, whose first `nroots + 1`
powers are different. So no entry of GENPOLY up to `nroots` is `A0`, for which the LFSR does not look (R200). -/
theorem GenpolyAt.coeff_ne_zero [CharP K 2] (R : F.RootOf α) (T : F.Tables m poly) (hm : 2 ≤ m) {nroots fcr prim : Nat}
    {g : List Half} (G : GenpolyAt F g nroots) (hlen : g.length = nroots + 1) (hnroots : nroots < F.n.toNat)
    (hprim : Nat.gcd prim F.n.toNat = 1) (hroots : ∀ i < nroots, coeffEval α (α ^ ((fcr + i) * prim)) g = 0) {p : Nat}
    (hp : p ≤ nroots) : nth g p ≠ 0 := by
  intro h0
  have hα : α ≠ 0 := R.ne_zero (by omega)
  have hinj : Function.Injective fun j : Fin (nroots + 1) => α ^ (prim * j) := by
    intro j j' e
    have hmod := (R.pow_injective T hm e).cancel_left_of_coprime (by rwa [Nat.gcd_comm])
    exact Fin.ext (hmod.eq_of_lt_of_lt (by omega) (by omega))
  refine coeff_ne_zero_of_geometric_roots (a := fun j => bitEval α (nth g j).toNat * α ^ (fcr * prim * j)) hinj ?last
    (fun i => ?roots) ⟨p, by omega⟩ ?coeff
  case last =>
    rw [Fin.val_last, G.leading, bitEval_toNat_one, one_mul]
    exact pow_ne_zero _ hα
  case roots =>
    rw [← hroots i i.isLt, coeffEval, hlen, Fin.sum_univ_eq_sum_range
      (fun j => bitEval α (nth g j).toNat * α ^ (fcr * prim * j) * (α ^ (prim * j)) ^ (i : Nat))]
    refine sum_congr rfl fun j _ => ?_
    rw [mul_assoc, ← pow_mul, ← pow_mul, ← pow_add, show fcr * prim * j + prim * j * i = (fcr + i) * prim * j by ring]
  case coeff => simp only [h0, bitEval_toNat_zero, zero_mul]

/-- The generator polynomial has elements as coefficients, none of them 0, and vanishes at its `nroots` roots (R147). -/
theorem genpolyElements_spec [CharP K 2] (R : F.RootOf α) (T : F.Tables m poly) (hm : 2 ≤ m) {nroots fcr prim : Nat}
    (hnroots : nroots < F.n.toNat) (hprim : Nat.gcd prim F.n.toNat = 1) :
    GenpolyAt F (genpolyElements F nroots fcr prim) nroots ∧
      (∀ i < nroots, coeffEval α (α ^ ((fcr + i) * prim)) (genpolyElements F nroots fcr prim) = 0) ∧
      ∀ j ≤ nroots, nth (genpolyElements F nroots fcr prim) j ≠ 0 := by
  obtain ⟨g, hg, hlen, G, hroots⟩ := genpolySteps_spec R T hm nroots fcr prim le_rfl
  simp only [← add_mul] at hroots
  rw [genpolyElements, hg]
  exact ⟨G, hroots, fun p hp => G.coeff_ne_zero R T hm hlen hnroots hprim hroots hp⟩

/-! ### The LFSR (R200, R201) -/

/-- A turn of the LFSR moves each slot up and adds the feedback times a coefficient of the generator (R200, R201). -/
theorem nth_encodeStep (T : F.Tables m poly) (g : List Half) {par : List Half} {c : Half}
    (hfb : (c ^^^ nth par 0).toNat ≤ F.n.toNat) {k : Nat} (hk : k < par.length) :
    nth (encodeStep F g par c) k =
      syndromeStep F (nth g (par.length - 1 - k)).toNat (c ^^^ nth par 0) (nth par (k + 1)) := by
  have hsentinel := T.log_eq_sentinel hfb
  rw [encodeStep, syndromeStep]
  simp only [ne_eq, hsentinel, ite_not]
  rcases Nat.lt_or_eq_of_le (Nat.le_sub_one_of_lt hk) with h | rfl
  · rw [nth_append_of_lt (by rwa [List.length_map, List.length_range]), nth_map_range h, Nat.sub_sub, Nat.add_comm 1]
  · rw [nth_concat (by rw [List.length_map, List.length_range]), Nat.sub_self,
      nth_of_length_le (l := par) (i := par.length - 1 + 1) (by omega)]
    split
    · rfl
    · exact BitVec.zero_xor.symm

/-- What the LFSR needs of GENPOLY: with each entry up to `nroots` read as the index of a coefficient that is not 0, as the LFSR
reads it, the polynomial is monic and vanishes at `y` (R39, R147, R200). -/
def GenpolyRoot (α y : K) (nroots : Nat) (g : List Half) : Prop :=
  nth g nroots = 0 ∧ ∑ j ∈ range (nroots + 1), α ^ (nth g j).toNat * y ^ j = 0

/-- In characteristic 2 the lower coefficients of the generator add up to the leading term at a root. -/
theorem GenpolyRoot.sum_taps [CharP K 2] {y : K} {nroots : Nat} {g : List Half} (hg : GenpolyRoot α y nroots g) :
    ∑ k ∈ range nroots, α ^ (nth g (nroots - 1 - k)).toNat * y ^ (nroots - 1 - k) = y ^ nroots := by
  obtain ⟨hlead, hroot⟩ := hg
  rw [sum_range_reflect (fun j => α ^ (nth g j).toNat * y ^ j)]
  rw [sum_range_succ, hlead] at hroot
  simpa using CharTwo.add_eq_zero.mp hroot

theorem encodeStep_le (T : F.Tables m poly) (g : List Half) {par : List Half} {c : Half}
    (hpar : ∀ p ∈ par, p.toNat ≤ F.n.toNat) (hc : c.toNat ≤ F.n.toNat) (hlen : 1 ≤ par.length) :
    ∀ p ∈ encodeStep F g par c, p.toNat ≤ F.n.toNat := by
  intro p hp
  obtain ⟨k, hk, rfl⟩ := List.getElem_of_mem hp
  rw [encodeStep_length F g par c hlen] at hk
  rw [← nth_of_lt, nth_encodeStep T g (xor_le_two_pow_sub_one T.n_eq hc (nth_le hpar 0)) hk]
  exact syndromeStep_le T _ _ (nth_le hpar _)

/-- At a root of the generator, a turn of the LFSR multiplies the parity's value by `y` and adds `c · y^nroots`: reduced modulo
the generator, the message polynomial has taken one more symbol. -/
theorem blockEval_encodeStep [CharP K 2] (R : F.RootOf α) (T : F.Tables m poly) {y : K} {g par : List Half} {c : Half}
    (hg : GenpolyRoot α y par.length g) (hpar : ∀ p ∈ par, p.toNat ≤ F.n.toNat) (hc : c.toNat ≤ F.n.toNat)
    (hlen : 1 ≤ par.length) :
    blockEval α y (encodeStep F g par c) = blockEval α y par * y + bitEval α c.toNat * y ^ par.length := by
  have hfb : (c ^^^ nth par 0).toNat ≤ F.n.toNat := xor_le_two_pow_sub_one T.n_eq hc (nth_le hpar 0)
  have term (k : Nat) (hk : k ∈ range par.length) :
      bitEval α (nth (encodeStep F g par c) k).toNat * y ^ (par.length - 1 - k) =
        bitEval α (nth par (k + 1)).toNat * y ^ (par.length - 1 - k) + (bitEval α c.toNat + bitEval α (nth par 0).toNat) *
          (α ^ (nth g (par.length - 1 - k)).toNat * y ^ (par.length - 1 - k)) := by
    rw [nth_encodeStep T g hfb (mem_range.mp hk), bitEval_syndromeStep R T _ hfb, BitVec.toNat_xor, bitEval_xor]
    ring
  rw [blockEval_eq_sum, encodeStep_length F g par c hlen, sum_congr rfl term, sum_add_distrib, ← mul_sum, hg.sum_taps,
    blockEval_mul]
  ring

theorem encodeParity_concat (F : GField) (g : List Half) (nroots : Nat) (msg : List Half) (c : Half) :
    encodeParity F g nroots (msg ++ [c]) = encodeStep F g (encodeParity F g nroots msg) c := by
  rw [encodeParity, List.foldl_append]
  rfl

theorem encodeParity_le (T : F.Tables m poly) (g : List Half) {nroots : Nat} (hnroots : 1 ≤ nroots) {msg : List Half}
    (hmsg : ∀ c ∈ msg, c.toNat ≤ F.n.toNat) : ∀ p ∈ encodeParity F g nroots msg, p.toNat ≤ F.n.toNat := by
  induction msg using List.reverseRecOn with
  | nil =>
    intro p hp
    rw [List.eq_of_mem_replicate hp]
    exact Nat.zero_le _
  | append_singleton msg c ih =>
    rw [encodeParity_concat]
    exact encodeStep_le T g (ih fun d hd => hmsg d (List.mem_append_left _ hd))
      (hmsg c (List.mem_append_right _ (List.mem_singleton_self c))) (by rwa [encodeParity_length F g hnroots])

/-- At a root of the generator the parity has the value of the message polynomial times `y^nroots`. -/
theorem blockEval_encodeParity [CharP K 2] (R : F.RootOf α) (T : F.Tables m poly) {y : K} {g : List Half} {nroots : Nat}
    (hnroots : 1 ≤ nroots) (hg : GenpolyRoot α y nroots g) {msg : List Half} (hmsg : ∀ c ∈ msg, c.toNat ≤ F.n.toNat) :
    blockEval α y (encodeParity F g nroots msg) = blockEval α y msg * y ^ nroots := by
  induction msg using List.reverseRecOn with
  | nil =>
    rw [blockEval_eq_sum, blockEval_nil, zero_mul]
    refine sum_eq_zero fun k _ => ?_
    rw [show nth (encodeParity F g nroots []) k = 0 from nth_replicate_zero nroots k, bitEval_toNat_zero, zero_mul]
  | append_singleton msg c ih =>
    have hmsg' : ∀ d ∈ msg, d.toNat ≤ F.n.toNat := fun d hd => hmsg d (List.mem_append_left _ hd)
    have hlen := encodeParity_length F g hnroots msg
    rw [encodeParity_concat, blockEval_encodeStep R T (by rwa [hlen]) (encodeParity_le T g hnroots hmsg')
      (hmsg c (List.mem_append_right _ (List.mem_singleton_self c))) (by rwa [hlen]), ih hmsg', hlen, blockEval_concat]
    ring

/-- The message and its parity have the value 0 at a root of the generator, and so the syndrome 0 (R203). -/
theorem syndrome_encodeParity [CharP K 2] (R : F.RootOf α) (T : F.Tables m poly) {x : Nat} {g : List Half} {nroots : Nat}
    (hnroots : 1 ≤ nroots) (hg : GenpolyRoot α (α ^ x) nroots g) {msg : List Half} (hmsg : ∀ c ∈ msg, c.toNat ≤ F.n.toNat) :
    syndrome F x (msg ++ encodeParity F g nroots msg) = 0 := by
  have hblock : ∀ c ∈ msg ++ encodeParity F g nroots msg, c.toNat ≤ F.n.toNat := fun c hc =>
    (List.mem_append.mp hc).elim (hmsg c) (encodeParity_le T g hnroots hmsg c)
  obtain ⟨hle, heval⟩ := syndrome_value R T x hblock
  refine R.zero _ hle ?_
  rw [heval, blockEval_append, blockEval_encodeParity R T hnroots hg hmsg, encodeParity_length F g hnroots,
    CharTwo.add_self_eq_zero]

/-- GENPOLY as CONFIG fills it meets what the LFSR asks of it, at each of the `nroots` roots (R147). -/
theorem genpolyRoot_of_elements [CharP K 2] (R : F.RootOf α) (T : F.Tables m poly) (hm : 2 ≤ m) {nroots fcr prim : Nat}
    (hnroots : nroots < F.n.toNat) (hprim : Nat.gcd prim F.n.toNat = 1) {i : Nat} (hi : i < nroots) :
    GenpolyRoot α (α ^ ((fcr + i) * prim)) nroots ((genpolyElements F nroots fcr prim).map F.log) := by
  obtain ⟨G, hroots, hne⟩ := genpolyElements_spec R T hm (fcr := fcr) hnroots hprim
  have hlen := genpolyElements_length F nroots fcr prim
  refine ⟨?_, ?_⟩
  · rw [nth_map (by omega), G.leading, T.log_one hm]
  · rw [← hroots i hi, coeffEval, hlen]
    refine sum_congr rfl fun j hj => ?_
    have := mem_range.mp hj
    rw [nth_map (by omega), R.bitEval_of_ne_zero T (hne j (by omega)) (G.elements j)]

end

/-- With GENPOLY as CONFIG fills it, every syndrome of a message with its parity is 0 (R203). -/
theorem syndrome_encoded {F : GField} {m poly : Nat} (T : F.Tables m poly) (hm : 2 ≤ m)
    (hp : 2 ^ m ≤ poly ∧ poly < 2 ^ (m + 1)) {nroots fcr prim : Nat} (h1 : 1 ≤ nroots) (hnroots : nroots < F.n.toNat)
    (hprim : Nat.gcd prim F.n.toNat = 1) {msg : List Half} (hmsg : ∀ c ∈ msg, c.toNat ≤ F.n.toNat) {i : Nat} (hi : i < nroots) :
    syndrome F ((fcr + i) * prim)
      (msg ++ encodeParity F ((genpolyElements F nroots fcr prim).map F.log) nroots msg) = 0 := by
  obtain ⟨α, R⟩ := T.exists_root hm hp
  exact syndrome_encodeParity R T h1 (genpolyRoot_of_elements R T hm hnroots hprim hi) hmsg

end Sys2Proof.Machine

namespace Sys2Proof.Machine

/-! ### A configured codec (R140, R147, R148) -/

/-- What the encoder and DEC_SYN use of a codec that CONFIG has built: the committed configuration, its tables and its generator
polynomial (R140). -/
structure State.Codec (s : State) : Prop where
  valid     : s.status.cfgValid = true
  committed : s.active.Committed
  tables    : s.field.Tables s.active.actM.toNat s.active.actPoly.toNat
  genpoly   : s.genpolyList = (genpolyElements s.field s.nroots s.fcr s.prim).map s.field.log

theorem configBody_codec {s t : State} (hc : configCheck s = .ok none) (hb : configBody s = .ok t) : t.Codec := by
  obtain ⟨hcom, T⟩ := configBody_tables hc hb
  obtain ⟨-, hst, -⟩ := configBody_ok hb
  refine ⟨by rw [hst], hcom, T, List.ext_getElem ?_ fun i hi _ => ?_⟩
  · rw [List.length_map, genpolyElements_length, State.genpolyList, List.length_map, List.length_range]
  · have hi : i < t.nroots + 1 := by rwa [State.genpolyList, List.length_map, List.length_range] at hi
    have hlen := genpolyElements_length t.field t.nroots t.fcr t.prim
    have hentry : t.genpolyList[i] = t.genpoly i := by simp [State.genpolyList]
    rw [hentry, configBody_genpoly hb (Nat.le_of_lt_succ hi), nth_of_lt (by omega), List.getElem_map]

/-- Writes to the buffers and the working files leave GENPOLY (R88). -/
theorem State.genpolyList_congr {s t : State} (ha : t.active = s.active) (k : s.mem.Kept t.mem) :
    t.genpolyList = s.genpolyList := by
  have hnr : t.nroots = s.nroots := congrArg (fun a => a.actNroots.toNat) ha
  have hlt := s.nroots_lt
  rw [State.genpolyList, State.genpolyList, hnr]
  refine List.map_congr_left fun i hi => ?_
  have := List.mem_range.mp hi
  rw [State.genpoly, State.genpoly, ha, k.tableEntry rfl (by omega)]

/-- A codec stays one under writes to the buffers and the working files (R140). -/
theorem State.Codec.congr {s t : State} (h : s.Codec) (hv : t.status.cfgValid = true) (ha : t.active = s.active)
    (k : s.mem.Kept t.mem) : t.Codec := by
  have hf : t.field = s.field := State.field_congr ha k
  refine ⟨hv, ha ▸ h.committed, hf ▸ ha ▸ h.tables, ?_⟩
  rw [State.genpolyList_congr ha k, h.genpoly, hf, State.nroots, State.fcr, State.prim, State.nroots, State.fcr, State.prim, ha]

theorem State.Codec.configured {s : State} (h : s.Codec) : s.configured := ⟨h.valid, h.committed.usable⟩

/-! ### The block that ENCODE leaves (R202, R203) -/

theorem and_two_pow_sub_one_of_le {m n : Nat} {x y : Half} (hy : y.toNat = n) (hn : n = 2 ^ m - 1) (hx : x.toNat ≤ n) :
    x &&& y = x := by
  have hpos := Nat.two_pow_pos m
  apply BitVec.eq_of_toNat_eq
  rw [BitVec.toNat_and, hy, hn, Nat.and_two_pow_sub_one_eq_mod, Nat.mod_eq_of_lt (by omega)]

theorem State.take_blockSymbols (s : State) : s.blockSymbols.take s.len.toNat =
    (s.halves .data s.len.toNat).map fun d => (d &&& s.active.actN) ^^^ (s.invmask &&& s.active.actN) := by
  simp [State.blockSymbols]

/-- The symbols of the effective message are elements (R59, R202). -/
theorem State.Codec.message_le {s : State} (h : s.Codec) : ∀ c ∈ s.blockSymbols.take s.len.toNat, c.toNat ≤ s.field.n.toNat := by
  intro c hc
  rw [State.take_blockSymbols] at hc
  obtain ⟨d, -, rfl⟩ := List.mem_map.mp hc
  have and_le (x : Half) : (x &&& s.active.actN).toNat ≤ s.active.actN.toNat := by
    rw [BitVec.toNat_and]
    exact Nat.and_le_right
  exact xor_le_two_pow_sub_one h.committed.n_eq (and_le d) (and_le s.invmask)

theorem State.encoded_data {s : State} (hc : s.configured) : Memory.SameFile .data s.mem s.encoded.mem :=
  s.mem.sameFile_putHalves _ (by rw [State.parityOfData_length hc]; exact s.nroots_lt.le) (by decide)

/-- After ENCODE the block is the effective message, followed by its parity (R94, R202). -/
theorem State.Codec.encoded_blockSymbols {s : State} (h : s.Codec) :
    s.encoded.blockSymbols = s.blockSymbols.take s.len.toNat ++ s.parityOfData := by
  have hc := h.configured
  have hdata : s.encoded.halves .data s.len.toNat = s.halves .data s.len.toNat :=
    State.halves_congr (State.encoded_data hc) s.len.isLt.le
  have hpar : s.encoded.halves .par s.nroots = s.parityOfData :=
    State.halves_putHalves rfl (State.parityOfData_length hc) s.nroots_lt.le
  have hmask : s.parityOfData.map (fun p => p &&& s.active.actN) = s.parityOfData :=
    (List.map_congr_left fun p hp => and_two_pow_sub_one_of_le rfl h.committed.n_eq
      (encodeParity_le h.tables _ (usable_nroots hc.2).1 h.message_le p hp)).trans (List.map_id _)
  rw [State.take_blockSymbols, ← hdata, ← hmask, ← hpar]
  rfl

/-- Every syndrome of an encoded block is 0 (R203). -/
theorem State.Codec.encoded_syndrome {s : State} (h : s.Codec) {i : Nat} (hi : i < s.nroots) :
    syndrome s.encoded.field ((s.fcr + i) * s.prim) s.encoded.blockSymbols = 0 := by
  have hf : s.encoded.field = s.field := State.field_congr rfl (s.mem.kept_putHalves rfl 0 _)
  have C := h.committed
  rw [hf, h.encoded_blockSymbols, State.parityOfData, h.genpoly]
  exact syndrome_encoded h.tables C.m_range.1 C.poly_degree C.nroots_range.1 C.nroots_range.2.1 C.prim_range.2.2 h.message_le hi

/-! ### A clean block (R220, R290) -/

theorem orAll_eq_zero {l : List Half} (h : ∀ a ∈ l, a = 0) : orAll l = 0 := by
  induction l with
  | nil => rfl
  | cons a l ih =>
    rw [h a List.mem_cons_self]
    exact ih fun b hb => h b (List.mem_cons_of_mem a hb)

theorem decSynCheck_of_ready {s : State} {e : Bool} (h : s.BlockReady e) : decSynCheck e s = .ok none := by
  rw [decSynCheck, checkConfigured_of_configured h.configured.1 h.configured.2, if_pos (State.lenFits_of_le h.len_fits),
    State.checkErasures_none.mpr h.erasures]

/-- Without the flag E no erasure is looked at (R222). -/
theorem erasuresGood_without_flag (s : State) (len : Nat) : s.ErasuresGood (s.effectiveErasures false) len :=
  ⟨Nat.zero_le _, nofun⟩

/-- DEC_SYN on a block whose syndromes are all 0 finds it clean (R220). -/
theorem decSynBody_of_clean {s : State} {block : List Half} (e c : Bool) (hb : s.block s.len.toNat s.mask = .ok block)
    (hs : ∀ i < s.nroots, syndrome s.field ((s.fcr + i) * s.prim) block = 0) :
    ∃ t, decSynBody e c s = .ok t ∧ t.scalars.synError = 0 ∧ t.result = 0 ∧ t.status.dstage = .idle := by
  have hor : orAll (syndromes s.field s.nroots s.fcr s.prim block) = 0 := orAll_eq_zero fun a ha => by
    obtain ⟨i, hi, rfl⟩ := List.mem_map.mp ha
    exact hs i (List.mem_range.mp hi)
  rw [decSynBody, hb]
  simp only [hor, if_true]
  exact ⟨_, rfl, rfl, rfl, rfl⟩

/-- DECODE of a clean block ends with its DEC_SYN part (R290). -/
theorem decodeBody_of_idle {policy : Config.PadRootPolicy} {e c : Bool} {s t : State} (h : decSynBody e c s = .ok t)
    (hd : t.status.dstage = .idle) : decodeBody policy e c s = .ok t := by
  rw [decodeBody, h]
  exact if_pos hd

/-- ENCODE leaves a block that DEC_SYN and DECODE can run on (R365). -/
theorem State.Codec.encoded_ready {s : State} (h : s.Codec) (hlen : s.len.toNat + s.nroots ≤ s.n)
    (hdata : s.mem.written .data s.len.toNat) : s.encoded.BlockReady false where
  configured   := h.configured
  len_fits     := hlen
  erasures     := erasuresGood_without_flag _ _
  data_written := (s.mem.kept_putHalves rfl 0 _).written hdata
  par_written  := s.mem.written_putHalves rfl (State.parityOfData_length h.configured) s.nroots_lt.le

/-- DEC_SYN and DECODE of the block that ENCODE leaves find it clean (R203). -/
theorem State.Codec.decode_encoded {s : State} (h : s.Codec) (hlen : s.len.toNat + s.nroots ≤ s.n)
    (hdata : s.mem.written .data s.len.toNat) (c : Bool) :
    ∃ u, exec (.decSyn false c) s.encoded = .next u ∧ exec (.decode false c) s.encoded = .next u ∧
      u.status.errcode = .noError ∧ u.scalars.synError = 0 ∧ u.result = 0 ∧ u.status.dstage = .idle := by
  have ready := h.encoded_ready hlen hdata
  have hcheck : decSynCheck false s.encoded = .ok none := decSynCheck_of_ready ready
  obtain ⟨u, hu, hsyn, hres, hidle⟩ := decSynBody_of_clean false c
    (State.block_of_written ready.data_written ready.par_written) fun i hi => h.encoded_syndrome hi
  exact ⟨complete .noError u, exec_of_check_none hcheck hu, exec_of_check_none hcheck (decodeBody_of_idle hu hidle), rfl, hsyn,
    hres, hidle⟩

/-- Settles O25: CONFIG has left a codec, which the staging of a message keeps; its generator divides what ENCODE leaves, so every
syndrome is 0. -/
theorem encodedBlockIsClean : Obligations.EncodedBlockIsClean := by
  intro r s len invmask data c hconfig herr hdata hlen
  obtain ⟨hc, v, hv, rfl⟩ := execConfig_success hconfig herr
  have codec : (complete .noError v).Codec := (configBody_codec hc hv).congr (configBody_codec hc hv).valid rfl (.refl _)
  have hkept := v.mem.kept_putHalves (f := .data) rfl 0 data
  have staged := codec.congr (t := { complete .noError v with
    len := len, invmask := invmask, mem := v.mem.putHalves .data 0 data }) codec.valid rfl hkept
  have hwritten := v.mem.written_putHalves (f := .data) rfl hdata len.isLt.le
  obtain ⟨u, hsyn, hdec, hclean⟩ := staged.decode_encoded hlen hwritten c
  exact ⟨_, u, exec_encode staged.configured hlen hwritten, rfl, hsyn, hdec, hclean⟩

end Sys2Proof.Machine

namespace Sys2Proof.Machine

/-! ### The check of the erasure vector (R222, R326) -/

/-- The vector of length `ne` is too long, or its first bad entry is a position outside a block with `len` message symbols (R222). -/
def State.ErasuresBad (s : State) (ne len : Nat) : Prop :=
  s.nroots < ne ∨ ∃ k < ne, s.ErasuresGood k len ∧
    ∃ w : Word, s.mem.word (entryAddr .eras k) = some w ∧ (w.toInt < 0 ∨ len + s.nroots ≤ w.toInt)

/-- The loop of `erasures_valid` passes over the good entries and ends at the first bad one (R222). -/
theorem State.ErasuresBad.erasuresValid {s : State} {ne len : Nat} (h : s.ErasuresBad ne len) :
    s.erasuresValid ne len = .ok false := by
  unfold State.erasuresValid
  split
  · rfl
  · next hne =>
    obtain ⟨k, hk, hgood, w, hw, hbad⟩ := h.resolve_left hne
    obtain ⟨l, hl⟩ := range_eq_append_cons hk
    have hpassed : s.erasuresInBlock len (List.range k) = .ok true :=
      State.erasuresInBlock_true.mpr fun j hj => hgood.2 j (List.mem_range.mp hj)
    rw [hl, erasuresInBlock_append hpassed, State.erasuresInBlock, State.erasure_eq_ok.mpr ⟨w, hw, rfl⟩]
    exact if_pos hbad

theorem State.ErasuresBad.checkErasures {s : State} {ne len : Nat} (h : s.ErasuresBad ne len) :
    s.checkErasures ne len = .ok (some .erasure) := by
  rw [State.checkErasures, h.erasuresValid]

/-- Without the flag E the checks of DEC_SYN and DECODE never raise ERASURE (R222). -/
theorem decSynCheck_without_flag (s : State) : decSynCheck false s ≠ .ok (some .erasure) := by
  have hnone : s.checkErasures (s.effectiveErasures false) s.len.toNat = .ok none :=
    State.checkErasures_none.mpr (erasuresGood_without_flag s _)
  rw [decSynCheck, hnone]
  rcases checkConfigured_cases s (if s.lenFits then .ok none else .ok (some .length)) with ⟨_, h⟩ | ⟨_, _, h⟩ | ⟨_, _, h⟩
  · simp [h]
  · simp [h]
  · rw [h]
    cases s.lenFits <;> simp

/-- A command completes with a code other than NONE only if its checks raise that code. -/
theorem exec_errcode {i : Instr} {s t : State} {c : ErrCode} (h : exec i s = .next t) (ht : t.status.errcode = c)
    (hc : c ≠ .noError) : Instr.check i s = .ok (some c) := by
  rcases exec_next h with ⟨d, hd, rfl⟩ | ⟨-, u, -, rfl⟩
  · rw [hd]
    exact congrArg (fun c => Except.ok (some c)) ht
  · exact absurd ht.symm hc

/-- Settles O10: the loop over the vector ends at its first bad entry, and without E it has no entry to look at. -/
theorem invalidErasureVectorRaisesErasure : Obligations.InvalidErasureVectorRaisesErasure := by
  refine ⟨fun s c hs hlen hbad => ?_, fun s hs hd hbad => ?_, fun s t c h he => ?_, fun s t c h he => ?_⟩
  · have hc : decSynCheck true s = .ok (some .erasure) := by
      rw [decSynCheck, checkConfigured_of_configured hs.1 hs.2, if_pos (State.lenFits_of_le hlen)]
      exact State.ErasuresBad.checkErasures hbad
    exact ⟨exec_of_check_some hc, exec_of_check_some hc⟩
  · refine exec_of_check_some ?_
    exact (checkStage_of_stage hs.1 hs.2 hd).trans (State.ErasuresBad.checkErasures hbad)
  · exact decSynCheck_without_flag s (exec_errcode h he (by decide))
  · exact decSynCheck_without_flag s (exec_errcode h he (by decide))

/-! ### DEC_SYN (R220) -/

/-- The state that DEC_SYN leaves for the block `block`, before its completion (R220). -/
def State.synWritten (s : State) (e c : Bool) (block : List Half) : State :=
  let syn := syndromes s.field s.nroots s.fcr s.prim block
  { s with
    latches := s.latched e c
    scalars := { s.scalars with synError := orAll syn }
    result := if orAll syn = 0 then 0 else s.result
    mem := s.mem.putHalves .s 0 (syn.map s.field.log)
    status := { s.status with dstage := if orAll syn = 0 then .idle else .syn } }

theorem decSynBody_of_block {e c : Bool} {s : State} {block : List Half} (h : s.block s.len.toNat s.mask = .ok block) :
    decSynBody e c s = .ok (s.synWritten e c block) := by
  rw [decSynBody, h]
  simp only [State.synWritten]
  split <;> rfl

/-- The latches as R220 lists them. -/
theorem latched_eq (s : State) (e c : Bool) : s.latched e c =
    { dLen := s.len, dPad := BitVec.ofNat 16 (s.n - s.nroots - s.len.toNat)
      dNoEras := if e then s.noEras else 0
      dFlags := BitVec.ofNat 2 ((if c then 2 else 0) + if e then 1 else 0)
      dInvmask := s.invmask &&& s.active.actN } := by
  cases e <;> cases c <;> simp [State.latched, State.pad, State.effectiveErasures, State.mask]

/-- Settles O26: the checks pass, the block is read whole, and S holds the syndromes in index form. -/
theorem decSynComputesTheSyndromes : Obligations.DecSynComputesTheSyndromes := by
  intro s e c hs
  have hbody := decSynBody_of_block (e := e) (c := c) (State.block_of_written hs.data_written hs.par_written)
  have hlen : ((syndromes s.field s.nroots s.fcr s.prim s.blockSymbols).map s.field.log).length = s.nroots := by
    rw [List.length_map, syndromes_length]
  have hnr := s.nroots_lt
  refine ⟨complete .noError (s.synWritten e c s.blockSymbols), exec_of_check_none (decSynCheck_of_ready hs) hbody, ?_, rfl,
    fun i hi => ?_, fun a ha => ?_⟩
  · simp [complete, State.synWritten, latched_eq]
  · refine (s.mem.half_putHalves_zero .s (by omega) (by omega)).trans ?_
    simp [syndromes]
  · rw [← hlen] at ha
    exact s.mem.read_putHalves_of_not_runByte rfl ha

/-! ### DEC_ERAS (R230, R231) -/

/-- The exponent of a valid position: the argument of `modn` is not negative, since the position lies in the block (R173, R231). -/
theorem erasureExponent_toNat {s : State} {k : Nat} {w : Word} {u : Half} (hn : 0 < s.n)
    (hw : s.mem.word (entryAddr .eras k) = some w) (h0 : 0 ≤ w.toInt) (hlt : s.latches.dPad.toNat + w.toInt < s.n)
    (hu : s.erasureExponent k = .ok u) : u.toNat = s.prim * (s.n - 1 - (s.latches.dPad.toNat + w.toNat)) % s.n := by
  have hnat : w.toInt = w.toNat := by
    have hlt := w.isLt
    have hcond := BitVec.toInt_eq_toNat_cond w
    split at hcond <;> omega
  have harg : (s.prim * (s.n - 1 - (s.latches.dPad.toNat + w.toInt)) : Int) =
      (s.prim * (s.n - 1 - (s.latches.dPad.toNat + w.toNat)) : Nat) := by
    rw [hnat, Nat.cast_mul]
    congr 1
    omega
  rw [State.erasureExponent, State.erasure_eq_ok.mpr ⟨w, hw, rfl⟩] at hu
  simp only [harg, s.field.modnInt_of_nonneg (Int.natCast_nonneg _), Int.toNat_natCast, Except.ok.injEq] at hu
  rw [← hu]
  exact s.field.modn_toNat _ hn

/-- Turn `k` of `mapE` gives entry `k` of its answer. -/
theorem mapE_getElem {α β : Type} {f : α → Except Fault β} {l : List α} {r : List β} (h : mapE f l = .ok r) {k : Nat}
    (hk : k < r.length) : f (l[k]'(mapE_length h ▸ hk)) = .ok r[k] :=
  (List.forall₂_iff_get.mp (mapE_eq_ok.mp h)).2 k _ hk

/-- Settles O28: the vector is good against the latched geometry, so every exponent is answered and LAMBDA takes the locator. -/
theorem decErasSeedsTheLocator : Obligations.DecErasSeedsTheLocator := by
  intro s hinv hd hE
  have D := hinv.decode (by simp [hd])
  have hgeo := D.geometry
  have hc := hinv.configured D.valid
  obtain ⟨t, ht⟩ := decErasBody_answers hinv hd hE
  obtain ⟨us, hus, hst⟩ := decErasBody_eq_ok.mp ht
  have hcheck : decErasCheck s = .ok none :=
    (checkStage_of_stage hc.1 hc.2 hd).trans (State.checkErasures_none.mpr hE)
  have hlen := erasureLocator_length s.field s.nroots us
  have hnr := s.nroots_lt
  refine ⟨complete .noError t, us, exec_of_check_none hcheck ht, ?_, ?_, fun k hk w hw => ?_, fun j hj => ?_, hlen,
    fun a ha => ?_⟩
  · simp [complete, hst, State.setMem, State.setStage]
  · exact (mapE_length hus).trans List.length_range
  · have hget := mapE_getElem hus hk
    rw [List.getElem_range] at hget
    obtain ⟨w', hw', h0, hlt⟩ := hE.2 k (by rwa [mapE_length hus, List.length_range] at hk)
    obtain rfl : w = w' := Option.some.inj (hw.symm.trans hw')
    exact erasureExponent_toNat hc.n_pos hw h0 (by omega) hget
  · rw [hst, List.getElem?_eq_getElem (by omega)]
    exact s.mem.half_putHalves_zero .lambda (by omega) (by omega)
  · rw [hst]
    rw [← hlen] at ha
    exact s.mem.read_putHalves_of_not_runByte rfl ha

/-! ### The steps of DEC_BM (R240) -/

/-- An invariant of a loop over `a + 1, a + 2, …` that speaks of how far the loop has come. -/
theorem foldE_range'_invariant {σ : Type} {f : σ → Nat → Except Fault σ} (P : Nat → σ → Prop) {a len : Nat} {x y : σ}
    (h : foldE f x (List.range' (a + 1) len) = .ok y) (hx : P a x)
    (step : ∀ r x y, a ≤ r → r < a + len → P r x → f x (r + 1) = .ok y → P (r + 1) y) : P (a + len) y := by
  induction len generalizing a x with
  | zero =>
    obtain rfl : x = y := Except.ok.inj h
    exact hx
  | succ len ih =>
    rw [List.range'_succ, foldE] at h
    split at h
    · cases h
    · next z hz =>
      rw [show a + (len + 1) = a + 1 + len by omega]
      exact ih h (step a x z le_rfl (by omega) hx hz) fun r x y h1 h2 => step r x y (by omega) (by omega)

/-- Everything a step of DEC_BM can do: shift B, or correct Λ and shift B, or correct Λ, lengthen the register and take a new B. -/
theorem bmStep_cases {F : GField} {syn : List Half} {ne r : Nat} {v w : BmVars} (h : bmStep F syn ne v r = .ok w) :
    (F.log (discrepancy F syn v.lam r) = F.n ∧ w = { v with b := shiftB F v.b }) ∨
    (F.log (discrepancy F syn v.lam r) ≠ F.n ∧ r + ne - 1 < 2 * v.el ∧
      w = { v with lam := bmT F v (F.log (discrepancy F syn v.lam r)), b := shiftB F v.b }) ∨
    (F.log (discrepancy F syn v.lam r) ≠ F.n ∧ 2 * v.el ≤ r + ne - 1 ∧
      ∃ b, bmNewB F v.lam (F.log (discrepancy F syn v.lam r)) = .ok b ∧
        w = { lam := bmT F v (F.log (discrepancy F syn v.lam r)), b := b, el := r + ne - v.el }) := by
  unfold bmStep at h
  simp only at h
  split at h
  · exact .inl ⟨‹_›, (Except.ok.inj h).symm⟩
  · split at h
    · split at h
      · cases h
      · next b hb => exact .inr (.inr ⟨‹_›, ‹_›, b, hb, (Except.ok.inj h).symm⟩)
    · exact .inr (.inl ⟨‹_›, by omega, (Except.ok.inj h).symm⟩)

/-- The register's length stays between `ne` and the number of the step (R240, R241). -/
theorem bmLoop_el {F : GField} {syn : List Half} {ne nroots : Nat} {v w : BmVars} (hne : ne ≤ nroots) (hel : v.el = ne)
    (h : bmLoop F syn ne nroots v = .ok w) : ne ≤ w.el ∧ w.el ≤ nroots := by
  have := foldE_range'_invariant (fun r v => ne ≤ v.el ∧ v.el ≤ r) h (by omega) fun r x y _ _ hx hy => by
    rcases bmStep_cases hy with ⟨-, rfl⟩ | ⟨-, -, rfl⟩ | ⟨-, -, b, -, rfl⟩ <;> simp only <;> omega
  rwa [Nat.add_sub_cancel' hne] at this

/-- What DEC_BM finds in a state that meets the invariant: Λ and the syndromes written, and the loop's answer. -/
theorem decBmBody_of_inv {s : State} (h : s.Inv) (hd : s.status.dstage = .eras) :
    ∃ v deg, bmLoop s.field (s.halves .s s.nroots) s.latches.dNoEras.toNat s.nroots
        { lam := s.locator, b := s.locator.map s.field.log, el := s.latches.dNoEras.toNat } = .ok v ∧
      v.Shape (s.nroots + 1) ∧ degree? s.field (v.lam.map s.field.log) = some deg ∧
      decBmBody s = .ok (((s.setScalars
          { s.scalars with degLambda := BitVec.ofNat 16 deg, el := BitVec.ofNat 16 v.el }).setMem
        ((s.mem.putHalves .lambda 0 (v.lam.map s.field.log)).putHalves .b 0 v.b)).setStage .bm) := by
  have D := h.decode (by simp [hd])
  obtain ⟨t, ht⟩ := decBmBody_answers h hd
  obtain ⟨lam, syn, v, deg, hlam, hsyn, hv, hdeg, rfl⟩ := decBmBody_eq_ok.mp ht
  obtain rfl : lam = s.locator := (Memory.written_of_getHalves rfl hlam).2
  obtain rfl : syn = s.halves .s s.nroots := (Memory.written_of_getHalves rfl hsyn).2
  have hone : nth s.locator 0 = 1 := by
    rw [State.locator, State.halves, nth_map_range (by omega), D.lam_one hd]
    rfl
  refine ⟨v, deg, hv, bmLoop_shape (by omega) ⟨s.locator_length, ?_, hone⟩ hv, hdeg, ht⟩
  rw [List.length_map, s.locator_length]

/-- Settles O30: the loop answers, keeps the shape of its variables and the bounds of `el`, and LAMBDA and B take its answer. -/
theorem decBmRunsTheIteration : Obligations.DecBmRunsTheIteration := by
  intro s hinv hd
  have D := hinv.decode (by simp [hd])
  have hc := hinv.configured D.valid
  have hnr := s.nroots_lt
  obtain ⟨v, deg, hv, ⟨hlam, hb, hone⟩, hdeg, ht⟩ := decBmBody_of_inv hinv hd
  obtain ⟨hel, hel'⟩ := bmLoop_el D.erasures rfl hv
  obtain ⟨hdeg1, hdeg2, hdeg3⟩ := degree?_eq_some hdeg
  have hlogs : (v.lam.map s.field.log).length = s.nroots + 1 := by rw [List.length_map, hlam]
  have hdegNat : (BitVec.ofNat 16 deg).toNat = deg := toNat_ofNat_half (by omega)
  rw [hlogs] at hdeg1 hdeg3
  refine ⟨complete .noError _, v, exec_of_check_none (checkStage_of_stage hc.1 hc.2 hd) ht, hv, ?_, fun j hj => ⟨?_, ?_⟩, hlam, hb,
    hone, hel, hel', ?_, ?_, fun j hj hj' => ?_, fun a ha ha' => ?_⟩
  · simp [complete, State.setMem, State.setStage, State.setScalars]
  · rw [List.getElem?_eq_getElem (by omega)]
    exact (Memory.half_putHalves_outside _ _ (by omega) (by omega) (.inl (by decide))).trans
      (s.mem.half_putHalves_zero .lambda (by omega) (by omega))
  · rw [List.getElem?_eq_getElem (by omega)]
    exact Memory.half_putHalves_zero _ .b (by omega) (by omega)
  · exact hdegNat.le.trans (Nat.le_of_lt_succ hdeg1)
  · show s.field.log (nth v.lam (BitVec.ofNat 16 deg).toNat) ≠ s.field.n
    rw [hdegNat]
    exact (nth_map (by omega)).symm.trans_ne hdeg2
  · exact (nth_map (by omega)).symm.trans (hdeg3 j (hdegNat ▸ hj') (by omega))
  · rw [← hlogs] at ha
    rw [← hb] at ha'
    exact (Memory.read_putHalves_of_not_runByte _ rfl ha').trans (s.mem.read_putHalves_of_not_runByte rfl ha)

end Sys2Proof.Machine

namespace Sys2Proof.Machine

open Finset Polynomial

/-! ### Lists of elements as polynomials (R224, R230, R261) -/

section
variable {K : Type} [Field K]

/-- The polynomial with the coefficients `c[0..]` in element form. -/
noncomputable def elementPoly (α : K) (c : List Half) : K[X] := ∑ j ∈ range c.length, C (bitEval α (nth c j).toNat) * X ^ j

@[simp] theorem elementPoly_coeff (α : K) (c : List Half) (k : Nat) :
    (elementPoly α c).coeff k = bitEval α (nth c k).toNat := by
  rw [elementPoly, finsetSum_coeff]
  simp only [coeff_C_mul_X_pow]
  rw [sum_ite_eq]
  split
  · rfl
  · next hk => rw [nth_of_length_le (by simpa using hk), bitEval_toNat_zero]

theorem elementPoly_eval (α y : K) (c : List Half) :
    (elementPoly α c).eval y = ∑ j ∈ range c.length, bitEval α (nth c j).toNat * y ^ j := by
  simp only [elementPoly, eval_finsetSum, eval_C_mul, eval_pow, eval_X]

/-- A block read from its last symbol on lists the coefficients of its polynomial from the constant on (R94). -/
theorem elementPoly_reverse_eval (α y : K) (block : List Half) :
    (elementPoly α block.reverse).eval y = blockEval α y block := by
  rw [elementPoly_eval, blockEval_eq_sum, List.length_reverse, ← sum_range_reflect]
  refine sum_congr rfl fun k hk => ?_
  have hk := mem_range.mp hk
  rw [nth_of_lt (by rw [List.length_reverse]; omega), nth_of_lt hk, List.getElem_reverse]
  simp only [show block.length - 1 - (block.length - 1 - k) = k by omega]

variable {F : GField} {m poly : Nat} {α : K}

/-- Beyond its list a polynomial in index form has no coefficient. -/
theorem indexPoly_coeff_of_le (F : GField) (α : K) {lam : List Half} {k : Nat} (hk : lam.length ≤ k) :
    (indexPoly F α lam).coeff k = 0 := by
  rw [indexPoly, finsetSum_coeff]
  refine sum_eq_zero fun j hj => ?_
  have hj := mem_range.mp hj
  rw [coeff_C_mul_X_pow, if_neg (by omega)]

/-- The logarithm of an element stands for the element. -/
theorem indexEval_log (R : F.RootOf α) (T : F.Tables m poly) {a : Half} (ha : a.toNat ≤ F.n.toNat) :
    indexEval F α (F.log a) = bitEval α a.toNat := by
  by_cases h0 : a = 0
  · rw [h0, T.log_zero, indexEval, if_pos rfl, bitEval_toNat_zero]
  · rw [indexEval, if_neg (mt (T.log_eq_sentinel ha).mp h0), R.bitEval_of_ne_zero T h0 ha]

/-- The two forms of a coefficient list stand for one polynomial (R261). -/
theorem indexPoly_map_log (R : F.RootOf α) (T : F.Tables m poly) {c : List Half} (hc : ∀ a ∈ c, a.toNat ≤ F.n.toNat) :
    indexPoly F α (c.map F.log) = elementPoly α c := by
  rw [indexPoly, elementPoly, List.length_map]
  refine sum_congr rfl fun j hj => ?_
  rw [nth_map (mem_range.mp hj), indexEval_log R T (nth_le hc j)]

/-- A sum of elements is an element. -/
theorem xorSum_le (T : F.Tables m poly) {l : List Half} (h : ∀ a ∈ l, a.toNat ≤ F.n.toNat) : (xorSum l).toNat ≤ F.n.toNat := by
  induction l with
  | nil => exact Nat.zero_le _
  | cons a l ih =>
    rw [xorSum_cons]
    exact xor_le_two_pow_sub_one T.n_eq (h a List.mem_cons_self) (ih fun b hb => h b (List.mem_cons_of_mem a hb))

/-- A sum of powers of `α`, some of them left out, is an element. -/
theorem xorSum_pow_le (T : F.Tables m poly) {l : List Nat} (P : Nat → Prop) [DecidablePred P] (f : Nat → Nat) :
    (xorSum (l.map fun i => if P i then F.pow (f i) else 0)).toNat ≤ F.n.toNat := by
  refine xorSum_le T fun a ha => ?_
  obtain ⟨i, -, rfl⟩ := List.mem_map.mp ha
  split
  · exact T.pow_le _
  · exact Nat.zero_le _

theorem evalAt_le (T : F.Tables m poly) (c : List Half) (x : Nat) : (evalAt F c x).toNat ≤ F.n.toNat := by
  simp only [evalAt, ← ite_not (nth c _ = 0)]
  exact xorSum_pow_le T _ _

theorem bitEval_evalAt [CharP K 2] (R : F.RootOf α) (T : F.Tables m poly) {c : List Half} (hc : ∀ a ∈ c, a.toNat ≤ F.n.toNat)
    (x : Nat) : bitEval α (evalAt F c x).toNat = (elementPoly α c).eval (α ^ x) := by
  rw [evalAt, bitEval_xorSum, elementPoly_eval]
  refine sum_congr rfl fun j _ => ?_
  split
  · next h0 => rw [h0, bitEval_toNat_zero, zero_mul]
  · next h0 => rw [R.bitEval_pow_log_add T h0 (nth_le hc j), Nat.mul_comm, pow_mul]

/-- A polynomial over the elements vanishes at `α^x` in the tables exactly when it does in the field of the root. -/
theorem evalAt_eq_zero_iff [CharP K 2] (R : F.RootOf α) (T : F.Tables m poly) {c : List Half}
    (hc : ∀ a ∈ c, a.toNat ≤ F.n.toNat) (x : Nat) : evalAt F c x = 0 ↔ (elementPoly α c).eval (α ^ x) = 0 := by
  rw [← bitEval_evalAt R T hc]
  exact ⟨fun h => by rw [h, bitEval_toNat_zero], R.zero _ (evalAt_le T c x)⟩

end

/-- Settles O27: both sides are elements that stand for the value of the block's polynomial at `α^x`. -/
theorem syndromeEvaluatesTheBlock : Obligations.SyndromeEvaluatesTheBlock := by
  intro F m poly T hm hp hp' x block hblock
  obtain ⟨α, R⟩ := T.exists_root hm ⟨hp, hp'⟩
  obtain ⟨hle, hvalue⟩ := syndrome_value R T x hblock
  refine R.bitEval_injective T hle (evalAt_le T _ x) ?_
  rw [hvalue, bitEval_evalAt R T fun a ha => hblock a (List.mem_reverse.mp ha), elementPoly_reverse_eval]

/-! ### The erasure locator (R230) -/

section
variable {K : Type} [Field K] {F : GField} {m poly : Nat} {α : K}

/-- What turn `k` of DEC_ERAS's loop finds: a polynomial of degree at most `k` over the elements (R230). -/
structure LocatorAt (F : GField) (lam : List Half) (k : Nat) : Prop where
  elements : ∀ l ∈ lam, l.toNat ≤ F.n.toNat
  above    : ∀ j, k < j → nth lam j = 0

/-- An entry after a turn: one accumulation step of a syndrome on the entry below it and the entry itself. -/
theorem nth_locatorStep (T : F.Tables m poly) {lam : List Half} {k : Nat} (L : LocatorAt F lam k) (u : Half) {j : Nat}
    (hj : j < lam.length) : nth (locatorStep F lam k u) j = syndromeStep F u.toNat (nth (0 :: lam) j) (nth lam j) := by
  rw [locatorStep, nth_map_range hj, syndromeStep]
  cases j with
  | zero => rfl
  | succ j =>
    have hlog := T.log_eq_sentinel (nth_le L.elements j)
    rw [nth_cons_succ, Nat.add_sub_cancel, Nat.add_comm u.toNat]
    by_cases h0 : nth lam j = 0
    · rw [if_neg fun h => h.2.2 (hlog.mpr h0), if_pos h0]
    · have hjk : j ≤ k := by
        by_contra hjk
        exact h0 (L.above j (by omega))
      rw [if_pos ⟨by omega, by omega, mt hlog.mp h0⟩, if_neg h0]

theorem LocatorAt.step (T : F.Tables m poly) {lam : List Half} {k : Nat} (L : LocatorAt F lam k) (u : Half) :
    LocatorAt F (locatorStep F lam k u) (k + 1) := by
  constructor
  case elements =>
    intro l hl
    obtain ⟨j, hj, rfl⟩ := List.getElem_of_mem hl
    rw [locatorStep_length] at hj
    rw [← nth_of_lt, nth_locatorStep T L u hj]
    exact syndromeStep_le T _ _ (nth_le L.elements j)
  case above =>
    intro j hj
    by_cases hlen : j < lam.length
    · obtain ⟨j, rfl⟩ : ∃ i, j = i + 1 := ⟨j - 1, by omega⟩
      rw [nth_locatorStep T L u hlen, nth_cons_succ, L.above j (by omega), L.above _ (by omega)]
      rfl
    · exact nth_of_length_le (by rw [locatorStep_length]; omega)

/-- A turn multiplies the locator by `1 + α^u·x` (R230). -/
theorem elementPoly_locatorStep [CharP K 2] (R : F.RootOf α) (T : F.Tables m poly) {lam : List Half} {k : Nat}
    (L : LocatorAt F lam k) (hk : k + 1 < lam.length) (u : Half) :
    elementPoly α (locatorStep F lam k u) = elementPoly α lam * (1 + C (α ^ u.toNat) * X) := by
  ext j
  have hshift : (elementPoly α lam * X).coeff j = bitEval α (nth (0 :: lam) j).toNat := by
    cases j with
    | zero => simp
    | succ j => rw [coeff_mul_X, elementPoly_coeff, nth_cons_succ]
  have hprod : (elementPoly α lam * (1 + C (α ^ u.toNat) * X)).coeff j =
      bitEval α (nth lam j).toNat + α ^ u.toNat * bitEval α (nth (0 :: lam) j).toNat := by
    rw [show elementPoly α lam * (1 + C (α ^ u.toNat) * X) =
      elementPoly α lam + C (α ^ u.toNat) * (elementPoly α lam * X) by ring, coeff_add, coeff_C_mul, hshift, elementPoly_coeff]
  rw [elementPoly_coeff, hprod]
  by_cases hj : j < lam.length
  · have hle : (nth (0 :: lam) j).toNat ≤ F.n.toNat := nth_le (fun a ha => by
      rcases List.mem_cons.mp ha with rfl | ha
      · exact Nat.zero_le _
      · exact L.elements a ha) j
    rw [nth_locatorStep T L u hj, bitEval_syndromeStep R T _ hle]
    ring
  · obtain ⟨i, rfl⟩ : ∃ i, j = i + 1 := ⟨j - 1, by omega⟩
    rw [nth_of_length_le (by rw [locatorStep_length]; omega), nth_cons_succ, L.above _ (by omega), L.above _ (by omega)]
    simp

/-- The loop multiplies by a factor for each exponent (R230). -/
theorem locatorLoop_spec [CharP K 2] (R : F.RootOf α) (T : F.Tables m poly) (us : List Half) {lam : List Half} {k : Nat}
    (L : LocatorAt F lam k) (hk : k + us.length < lam.length) :
    LocatorAt F (locatorLoop F lam k us) (k + us.length) ∧
      elementPoly α (locatorLoop F lam k us) =
        elementPoly α lam * (us.map fun u => 1 + C (α ^ u.toNat) * X).prod := by
  induction us generalizing lam k with
  | nil => exact ⟨L, by simp [locatorLoop]⟩
  | cons u us ih =>
    rw [List.length_cons] at hk
    obtain ⟨hL, hpoly⟩ := ih (L.step T u) (by rw [locatorStep_length]; omega)
    refine ⟨?_, ?_⟩
    · rwa [List.length_cons, Nat.add_comm us.length, ← Nat.add_assoc]
    · rw [locatorLoop, hpoly, elementPoly_locatorStep R T L (by omega), List.map_cons, List.prod_cons, mul_assoc]

/-- The locator that DEC_ERAS starts from. -/
theorem locatorAt_one (T : F.Tables m poly) (hm : 2 ≤ m) (nroots : Nat) : LocatorAt F (1 :: List.replicate nroots 0) 0 := by
  have hn := T.n_pos hm
  refine ⟨fun l hl => ?_, fun j hj => ?_⟩
  · rcases List.mem_cons.mp hl with rfl | hl
    · show 1 ≤ F.n.toNat
      omega
    · rw [List.eq_of_mem_replicate hl]
      exact Nat.zero_le _
  · obtain ⟨j, rfl⟩ : ∃ i, j = i + 1 := ⟨j - 1, by omega⟩
    exact nth_replicate_zero nroots j

/-- The first exponent's turn, which the rule writes out, is a turn like the others (R230). -/
theorem erasureLocator_eq_loop (T : F.Tables m poly) (hm : 2 ≤ m) {nroots : Nat} {us : List Half} (hlen : us.length ≤ nroots)
    (hus : ∀ u ∈ us, u.toNat < F.n.toNat) :
    erasureLocator F nroots us = locatorLoop F (1 :: List.replicate nroots 0) 0 us := by
  cases us with
  | nil => rfl
  | cons u us =>
    rw [List.length_cons] at hlen
    have hu : F.pow u.toNat = F.alpha u := by rw [GField.pow, F.modn_of_lt (hus u List.mem_cons_self)]
    have hfirst : (1 :: List.replicate nroots 0).set 1 (F.alpha u) = locatorStep F (1 :: List.replicate nroots 0) 0 u := by
      refine List.ext_getElem (by simp) fun j hj _ => ?_
      rw [List.length_set, List.length_cons, List.length_replicate] at hj
      rw [← nth_of_lt (l := locatorStep F _ 0 u), nth_locatorStep T (locatorAt_one T hm nroots) u (by simpa using hj),
        List.getElem_set]
      rcases j with - | - | j
      · rfl
      · rw [if_pos rfl, nth_cons_succ, nth_cons_zero, nth_cons_succ, nth_replicate_zero, syndromeStep, if_neg (by decide),
          T.log_one hm, ← hu]
        exact (congrArg F.pow (Nat.zero_add _)).symm.trans BitVec.zero_xor.symm
      · rw [if_neg (by omega), ← nth_of_lt, nth_cons_succ, nth_cons_succ, nth_cons_succ, nth_replicate_zero, nth_replicate_zero]
        rfl
    rw [erasureLocator, hfirst, locatorLoop]

/-- The erasure locator is the product of the factors `1 + α^u·x` (R230). -/
theorem erasureLocator_spec [CharP K 2] (R : F.RootOf α) (T : F.Tables m poly) (hm : 2 ≤ m) {nroots : Nat} {us : List Half}
    (hlen : us.length ≤ nroots) (hus : ∀ u ∈ us, u.toNat < F.n.toNat) :
    LocatorAt F (erasureLocator F nroots us) us.length ∧
      elementPoly α (erasureLocator F nroots us) = (us.map fun u => 1 + C (α ^ u.toNat) * X).prod := by
  have hone : elementPoly α (1 :: List.replicate nroots 0) = 1 := by
    ext j
    cases j with
    | zero => simp
    | succ j => rw [elementPoly_coeff, nth_cons_succ, nth_replicate_zero, bitEval_toNat_zero, coeff_one, if_neg (by omega)]
  obtain ⟨hL, hpoly⟩ := locatorLoop_spec R T us (locatorAt_one T hm nroots) (by simp; omega)
  rw [erasureLocator_eq_loop T hm hlen hus, hpoly, hone, one_mul]
  exact ⟨by rwa [Nat.zero_add] at hL, rfl⟩

end

/-- Settles O29: a product vanishes where a factor does, and `1 + α^(u+y)` is 0 where `α^(u+y)` is `α^0`. -/
theorem erasureLocatorVanishesAtTheErasures : Obligations.ErasureLocatorVanishesAtTheErasures := by
  intro F m poly T hm hp hp' nroots us hlen hus y
  obtain ⟨α, R⟩ := T.exists_root hm ⟨hp, hp'⟩
  obtain ⟨L, hpoly⟩ := erasureLocator_spec R T hm hlen hus
  have hfactor (u : Half) : 1 + α ^ u.toNat * α ^ y = 0 ↔ (u.toNat + y) % F.n.toNat = 0 := by
    rw [← pow_add, CharTwo.add_eq_zero, eq_comm, ← Nat.dvd_iff_mod_eq_zero, ← Nat.modEq_zero_iff_dvd]
    refine ⟨fun h => R.pow_injective T hm (by rw [h, pow_zero]), fun h => ?_⟩
    obtain ⟨k, hk⟩ := Nat.modEq_zero_iff_dvd.mp h
    rw [hk, pow_mul, R.order, one_pow]
  rw [evalAt_eq_zero_iff R T L.elements, hpoly, eval_list_prod, List.prod_eq_zero_iff]
  simp only [List.map_map, List.mem_map, Function.comp_apply, eval_add, eval_one, eval_C_mul, eval_X, hfactor]

end Sys2Proof.Machine

namespace Sys2Proof.Machine

open Finset Polynomial

/-! ### The Berlekamp–Massey iteration over polynomials (R240) -/

section
variable {K : Type} [Field K]

/-- What the iteration has achieved after step `r`, for the syndrome polynomial `S`, the first Λ `start`, and Λ and B as they
stand: `S·Λ` has no term at a degree from `el` to `r − 1`, and `S·x·B` none from `r + 1 + ne − el` to `r − 1`, so that adding a
multiple of `x·B` to Λ can cancel the term of `S·Λ` at degree `r`. B is scaled for that once Λ has been corrected; until then
`el = ne`, and the first correction takes a new B. -/
structure KeyEquation (S start Λ B : K[X]) (ne el r : Nat) : Prop where
  el_ge     : ne ≤ el
  el_le     : el ≤ r
  lam_degree : Λ.natDegree ≤ el
  b_degree  : B.natDegree + el ≤ r + ne
  lam_key   : ∀ i, el ≤ i → i < r → (S * Λ).coeff i = 0
  b_key     : ∀ i, r + ne < i + el → i < r → (S * (X * B)).coeff i = 0
  b_norm    : el = ne ∨ (S * (X * B)).coeff r = 1
  lam_dvd   : start ∣ Λ
  b_dvd     : start ∣ B

namespace KeyEquation

variable {S start Λ B : K[X]} {ne el r : Nat}

theorem initial {p : K[X]} (h : p.natDegree ≤ ne) : KeyEquation S p p p ne ne ne where
  el_ge := le_rfl
  el_le := le_rfl
  lam_degree := h
  b_degree := by omega
  lam_key := by omega
  b_key := by omega
  b_norm := .inl rfl
  lam_dvd := dvd_rfl
  b_dvd := dvd_rfl

theorem coeff_mul_X_mul_X_mul (k : Nat) : (S * (X * (X * B))).coeff (k + 1) = (S * (X * B)).coeff k := by
  rw [show S * (X * (X * B)) = S * (X * B) * X by ring, coeff_mul_X]

theorem shift_b_degree (h : KeyEquation S start Λ B ne el r) : (X * B).natDegree + el ≤ r + 1 + ne := by
  have := h.b_degree
  have := natDegree_mul_le (p := X) (q := B)
  have := natDegree_X_le (R := K)
  omega

/-- After a shift of B its first terms are still out of the way (R240). -/
theorem shift_b_key (h : KeyEquation S start Λ B ne el r) (i : Nat) (hi : r + 1 + ne < i + el) (hir : i < r + 1) :
    (S * (X * (X * B))).coeff i = 0 := by
  have := h.el_le
  obtain ⟨i, rfl⟩ : ∃ k, i = k + 1 := ⟨i - 1, by omega⟩
  rw [coeff_mul_X_mul_X_mul]
  exact h.b_key i (by omega) (by omega)

/-- A step without a discrepancy (R240). -/
theorem skip (h : KeyEquation S start Λ B ne el r) (hd : (S * Λ).coeff r = 0) :
    KeyEquation S start Λ (X * B) ne el (r + 1) where
  el_ge := h.el_ge
  el_le := h.el_le.trans (Nat.le_succ r)
  lam_degree := h.lam_degree
  b_degree := h.shift_b_degree
  lam_key i hi hir := by
    rcases Nat.lt_succ_iff_lt_or_eq.mp hir with hir | rfl
    · exact h.lam_key i hi hir
    · exact hd
  b_key := h.shift_b_key
  b_norm := h.b_norm.imp_right fun h => (coeff_mul_X_mul_X_mul r).trans h
  lam_dvd := h.lam_dvd
  b_dvd := h.b_dvd.mul_left X

theorem coeff_corrected (d : K) (i : Nat) :
    (S * (Λ + C d * (X * B))).coeff i = (S * Λ).coeff i + d * (S * (X * B)).coeff i := by
  rw [show S * (Λ + C d * (X * B)) = S * Λ + C d * (S * (X * B)) by ring, coeff_add, coeff_C_mul]

theorem corrected_natDegree (h : KeyEquation S start Λ B ne el r) (d : K) {k : Nat} (hk : el ≤ k) (hk' : r + 1 + ne ≤ k + el) :
    (Λ + C d * (X * B)).natDegree ≤ k := by
  have hb := h.shift_b_degree
  exact natDegree_add_le_of_degree_le (h.lam_degree.trans hk) ((natDegree_C_mul_le d _).trans (by omega))

theorem corrected_dvd (h : KeyEquation S start Λ B ne el r) (d : K) : start ∣ Λ + C d * (X * B) :=
  dvd_add h.lam_dvd ((h.b_dvd.mul_left X).mul_left _)

/-- A correction that the register is long enough for: the discrepancy cancels, and the terms below it are left (R240). -/
theorem correct [CharP K 2] (h : KeyEquation S start Λ B ne el r) (hel : r + ne < 2 * el) :
    KeyEquation S start (Λ + C ((S * Λ).coeff r) * (X * B)) (X * B) ne el (r + 1) where
  el_ge := h.el_ge
  el_le := h.el_le.trans (Nat.le_succ r)
  lam_degree := h.corrected_natDegree _ le_rfl (by omega)
  b_degree := h.shift_b_degree
  lam_key i hi hir := by
    rw [coeff_corrected]
    rcases Nat.lt_succ_iff_lt_or_eq.mp hir with hir | rfl
    · rw [h.lam_key i hi hir, h.b_key i (by omega) hir, mul_zero, add_zero]
    · have hnorm := h.b_norm.resolve_left (by have := h.el_le; omega)
      rw [hnorm, mul_one, CharTwo.add_self_eq_zero]
  b_key := h.shift_b_key
  b_norm := h.b_norm.imp_right fun h => (coeff_mul_X_mul_X_mul r).trans h
  lam_dvd := h.corrected_dvd _
  b_dvd := h.b_dvd.mul_left X

/-- A correction that lengthens the register: the old Λ, scaled to the discrepancy 1, is the new B (R240). -/
theorem lengthen [CharP K 2] (h : KeyEquation S start Λ B ne el r) (hd : (S * Λ).coeff r ≠ 0) (hel : 2 * el ≤ r + ne) :
    KeyEquation S start (Λ + C ((S * Λ).coeff r) * (X * B)) (C ((S * Λ).coeff r)⁻¹ * Λ) ne (r + 1 + ne - el) (r + 1) := by
  have hge := h.el_ge
  have hle := h.el_le
  have hb (i : Nat) : (S * (X * (C ((S * Λ).coeff r)⁻¹ * Λ))).coeff (i + 1) = ((S * Λ).coeff r)⁻¹ * (S * Λ).coeff i := by
    rw [show S * (X * (C ((S * Λ).coeff r)⁻¹ * Λ)) = C ((S * Λ).coeff r)⁻¹ * (S * Λ) * X by ring, coeff_mul_X, coeff_C_mul]
  constructor
  case el_ge => omega
  case el_le => omega
  case lam_degree => exact h.corrected_natDegree _ (by omega) (by omega)
  case b_degree =>
    have := (natDegree_C_mul_le ((S * Λ).coeff r)⁻¹ Λ).trans h.lam_degree
    omega
  case lam_key =>
    intro i hi hir
    rw [coeff_corrected]
    rcases Nat.lt_succ_iff_lt_or_eq.mp hir with hir | rfl
    · rw [h.lam_key i (by omega) hir, h.b_key i (by omega) hir, mul_zero, add_zero]
    · have hnorm := h.b_norm.resolve_left (by omega)
      rw [hnorm, mul_one, CharTwo.add_self_eq_zero]
  case b_key =>
    intro i hi hir
    obtain ⟨i, rfl⟩ : ∃ k, i = k + 1 := ⟨i - 1, by omega⟩
    rw [hb, h.lam_key i (by omega) (by omega), mul_zero]
  case b_norm => exact .inr ((hb r).trans (inv_mul_cancel₀ hd))
  case lam_dvd => exact h.corrected_dvd _
  case b_dvd => exact h.lam_dvd.mul_left _

end KeyEquation

end

/-! ### The variables of DEC_BM as polynomials (R240) -/

section
variable {K : Type} [Field K] {F : GField} {m poly : Nat} {α : K}

theorem omegaElement_le (T : F.Tables m poly) (syn lam : List Half) (i : Nat) : (omegaElement F syn lam i).toNat ≤ F.n.toNat :=
  xorSum_pow_le T _ _

/-- A product of two coefficients in index form, either of them possibly `A0`. -/
theorem bitEval_index_product (R : F.RootOf α) (x y : Half) :
    bitEval α (if x ≠ F.n ∧ y ≠ F.n then F.pow (x.toNat + y.toNat) else 0).toNat = indexEval F α x * indexEval F α y := by
  by_cases hx : x = F.n
  · rw [if_neg fun h => h.1 hx, indexEval, if_pos hx, zero_mul, bitEval_toNat_zero]
  by_cases hy : y = F.n
  · rw [if_neg fun h => h.2 hy, indexEval, indexEval, if_pos hy, mul_zero, bitEval_toNat_zero]
  rw [if_pos ⟨hx, hy⟩, R.pow, pow_add, indexEval, indexEval, if_neg hx, if_neg hy]

/-- A term of Ω is a coefficient of the product of the syndromes and Λ (R270). -/
theorem bitEval_omegaElement [CharP K 2] (R : F.RootOf α) {syn lam : List Half} {i : Nat} (hs : i < syn.length)
    (hl : i < lam.length) :
    bitEval α (omegaElement F syn lam i).toNat = (indexPoly F α syn * indexPoly F α lam).coeff i := by
  rw [omegaElement, bitEval_xorSum, mul_comm, coeff_mul, Nat.sum_antidiagonal_eq_sum_range_succ_mk]
  refine sum_congr rfl fun j hj => ?_
  have hj := mem_range.mp hj
  rw [bitEval_index_product R, indexPoly_coeff lam (by omega), indexPoly_coeff syn (by omega), mul_comm]

/-- The discrepancy of step `i + 1` is term `i` of Ω for the Λ of that step (R240, R270). -/
theorem discrepancy_eq_omegaElement (T : F.Tables m poly) (syn : List Half) {lam : List Half}
    (hlam : ∀ l ∈ lam, l.toNat ≤ F.n.toNat) {i : Nat} (hi : i < lam.length) :
    discrepancy F syn lam (i + 1) = omegaElement F syn (lam.map F.log) i := by
  refine congrArg xorSum (List.map_congr_left fun j hj => ?_)
  have hj := List.mem_range.mp hj
  have hlog := T.log_eq_sentinel (nth_le hlam j)
  rw [nth_map (by omega), show i + 1 - j - 1 = i - j by omega, Nat.add_comm (nth syn (i - j)).toNat]
  by_cases h0 : nth lam j = 0
  · rw [if_neg fun h => h.1 h0, if_neg fun h => h.2 (hlog.mpr h0)]
  · simp only [h0, mt hlog.mp h0, ne_eq, not_false_eq_true, true_and, and_true]

/-- `b ← x·b` loses no coefficient while B's degree leaves room (R240). -/
theorem indexPoly_shiftB {b : List Half} (h : (indexPoly F α b).natDegree + 1 < b.length) :
    indexPoly F α (shiftB F b) = X * indexPoly F α b := by
  have hlen := shiftB_length F b (by omega)
  ext j
  cases j with
  | zero => rw [indexPoly_coeff _ (by omega), coeff_X_mul_zero, shiftB, nth_cons_zero, indexEval, if_pos rfl]
  | succ j =>
    rw [coeff_X_mul]
    by_cases hj : j + 1 < b.length
    · rw [indexPoly_coeff _ (by omega), indexPoly_coeff _ (by omega), shiftB, nth_cons_succ,
        nth_of_lt (by rw [List.length_dropLast]; omega), List.getElem_dropLast, ← nth_of_lt]
    · rw [indexPoly_coeff_of_le F α (by omega), coeff_eq_zero_of_natDegree_lt (by omega)]

/-- The correction of Λ by `Δ·x·b` (R240). -/
theorem elementPoly_bmT [CharP K 2] (R : F.RootOf α) {v : BmVars} (hlen : v.b.length = v.lam.length)
    (h : (indexPoly F α v.b).natDegree + 1 < v.b.length) (delta : Half) :
    elementPoly α (bmT F v delta) = elementPoly α v.lam + C (α ^ delta.toNat) * (X * indexPoly F α v.b) := by
  ext j
  rw [coeff_add, coeff_C_mul, elementPoly_coeff, elementPoly_coeff]
  cases j with
  | zero => rw [coeff_X_mul_zero, mul_zero, add_zero, bmT, nth_map_range (by omega), if_pos rfl]
  | succ j =>
    rw [coeff_X_mul]
    by_cases hj : j + 1 < v.lam.length
    · rw [bmT, nth_map_range hj, if_neg (Nat.succ_ne_zero j), Nat.add_sub_cancel, BitVec.toNat_xor, bitEval_xor,
        indexPoly_coeff _ (by omega), indexEval]
      split
      · next hb => rw [R.pow, pow_add]
      · next hb => rw [if_pos (not_not.mp hb), mul_zero, bitEval_toNat_zero]
    · rw [nth_of_length_le (by rw [bmT_length]; omega), nth_of_length_le (by omega),
        coeff_eq_zero_of_natDegree_lt (by omega), bitEval_toNat_zero, mul_zero, add_zero]

theorem bmT_elements (T : F.Tables m poly) {v : BmVars} (h : ∀ l ∈ v.lam, l.toNat ≤ F.n.toNat) (delta : Half) :
    ∀ l ∈ bmT F v delta, l.toNat ≤ F.n.toNat := by
  intro l hl
  obtain ⟨i, -, rfl⟩ := List.mem_map.mp hl
  split
  · exact nth_le h 0
  · refine xor_le_two_pow_sub_one T.n_eq (nth_le h i) ?_
    split
    · exact T.pow_le _
    · exact Nat.zero_le _

/-- The new B is Λ divided by the discrepancy `α^delta` (R240). -/
theorem indexPoly_bmNewB (R : F.RootOf α) (T : F.Tables m poly) (hm : 2 ≤ m) {lam b : List Half} {delta : Half}
    (hlam : ∀ l ∈ lam, l.toNat ≤ F.n.toNat) (hdelta : delta.toNat ≤ F.n.toNat) (h : bmNewB F lam delta = .ok b) :
    indexPoly F α b = C (α ^ delta.toNat)⁻¹ * elementPoly α lam := by
  have hn := T.n_pos hm
  have hα := R.ne_zero (by omega)
  have hlen : b.length = lam.length := mapE_length h
  ext j
  rw [coeff_C_mul, elementPoly_coeff]
  by_cases hj : j < b.length
  · have hget := mapE_getElem h hj
    rw [← nth_of_lt, ← nth_of_lt] at hget
    have hle := T.log_le (nth lam j)
    rw [indexPoly_coeff b hj, indexEval]
    split at hget
    · next h0 => rw [← Except.ok.inj hget, if_pos rfl, h0, bitEval_toNat_zero, mul_zero]
    · next h0 =>
      rw [F.modnInt_of_nonneg (by omega),
        show ((F.log (nth lam j)).toNat - delta.toNat + F.n.toNat : Int).toNat =
          (F.log (nth lam j)).toNat + F.n.toNat - delta.toNat by omega] at hget
      rw [← Except.ok.inj hget, if_neg (F.modn_ne_sentinel _ (by omega)), F.modn_toNat _ (by omega),
        ← pow_eq_pow_mod _ R.order, R.bitEval_of_ne_zero T h0 (nth_le hlam j), eq_inv_mul_iff_mul_eq₀ (pow_ne_zero _ hα),
        ← pow_add, Nat.add_sub_cancel' (by omega), pow_add, R.order, mul_one]
  · rw [indexPoly_coeff_of_le F α (by omega), nth_of_length_le (by omega), bitEval_toNat_zero, mul_zero]

/-- What DEC_BM's loop keeps: its lists have room for the degrees that `KeyEquation` allows, and stand for Λ and B. -/
structure BmInvariant (F : GField) (α : K) (S start : K[X]) (ne nroots r : Nat) (v : BmVars) : Prop where
  lam_length : v.lam.length = nroots + 1
  b_length   : v.b.length = nroots + 1
  elements   : ∀ l ∈ v.lam, l.toNat ≤ F.n.toNat
  key        : KeyEquation S start (elementPoly α v.lam) (indexPoly F α v.b) ne v.el r

/-- The discrepancy of step `r + 1` is the coefficient at degree `r` of the product of the syndromes and Λ (R240). -/
theorem bitEval_discrepancy [CharP K 2] (R : F.RootOf α) (T : F.Tables m poly) {syn lam : List Half}
    (hlam : ∀ l ∈ lam, l.toNat ≤ F.n.toNat) {r : Nat} (hs : r < syn.length) (hl : r < lam.length) :
    (discrepancy F syn lam (r + 1)).toNat ≤ F.n.toNat ∧
      bitEval α (discrepancy F syn lam (r + 1)).toNat = (indexPoly F α syn * elementPoly α lam).coeff r := by
  rw [discrepancy_eq_omegaElement T syn hlam hl, bitEval_omegaElement R hs (by rwa [List.length_map]), indexPoly_map_log R T hlam]
  exact ⟨omegaElement_le T _ _ _, rfl⟩

/-- Each of the three things a step can do is a step of the iteration over polynomials. -/
theorem BmInvariant.step [CharP K 2] (R : F.RootOf α) (T : F.Tables m poly) (hm : 2 ≤ m) {syn : List Half} {start : K[X]}
    {ne nroots r : Nat} {v w : BmVars} (h : BmInvariant F α (indexPoly F α syn) start ne nroots r v)
    (hsyn : syn.length = nroots) (hr : r < nroots) (hw : bmStep F syn ne v (r + 1) = .ok w) :
    BmInvariant F α (indexPoly F α syn) start ne nroots (r + 1) w := by
  obtain ⟨hll, hbl, hle, key⟩ := h
  obtain ⟨hd, hcoeff⟩ := bitEval_discrepancy R T hle (r := r) (syn := syn) (by omega) (by omega)
  have hzero := T.log_eq_sentinel hd
  have hroom : (indexPoly F α v.b).natDegree + 1 < v.b.length := by
    have := key.el_ge
    have := key.b_degree
    omega
  have hshift : (shiftB F v.b).length = nroots + 1 := (shiftB_length F v.b (by omega)).trans hbl
  have hlam : ∀ delta, (bmT F v delta).length = nroots + 1 := fun delta => (bmT_length F v delta).trans hll
  have hdelta (h0 : F.log (discrepancy F syn v.lam (r + 1)) ≠ F.n) :
      α ^ (F.log (discrepancy F syn v.lam (r + 1))).toNat = (indexPoly F α syn * elementPoly α v.lam).coeff r := by
    rw [← hcoeff, R.bitEval_of_ne_zero T (mt hzero.mpr h0) hd]
  rcases bmStep_cases hw with ⟨h0, rfl⟩ | ⟨h0, hel, rfl⟩ | ⟨h0, hel, b, hb, rfl⟩
  case inl =>
    refine ⟨hll, hshift, hle, ?_⟩
    rw [indexPoly_shiftB hroom]
    exact key.skip (by rw [← hcoeff, hzero.mp h0, bitEval_toNat_zero])
  case inr.inl =>
    refine ⟨hlam _, hshift, bmT_elements T hle _, ?_⟩
    rw [indexPoly_shiftB hroom, elementPoly_bmT R (hbl.trans hll.symm) hroom, hdelta h0]
    exact key.correct (by omega)
  case inr.inr =>
    refine ⟨hlam _, (mapE_length hb).trans hll, bmT_elements T hle _, ?_⟩
    rw [indexPoly_bmNewB R T hm hle (T.log_le _) hb, elementPoly_bmT R (hbl.trans hll.symm) hroom, hdelta h0]
    exact key.lengthen (hdelta h0 ▸ pow_ne_zero _ (R.ne_zero (by have := T.n_pos hm; omega))) (by omega)

theorem bmLoop_keeps_invariant [CharP K 2] (R : F.RootOf α) (T : F.Tables m poly) (hm : 2 ≤ m) {syn : List Half} {start : K[X]}
    {ne nroots : Nat} {v w : BmVars} (hne : ne ≤ nroots) (h : BmInvariant F α (indexPoly F α syn) start ne nroots ne v)
    (hsyn : syn.length = nroots) (hw : bmLoop F syn ne nroots v = .ok w) :
    BmInvariant F α (indexPoly F α syn) start ne nroots nroots w := by
  have := foldE_range'_invariant (BmInvariant F α (indexPoly F α syn) start ne nroots) hw h
    fun r x y _ hr hx hy => hx.step R T hm hsyn (by omega) hy
  rwa [Nat.add_sub_cancel' hne] at this

/-- DEC_BM's loop starts with Λ in both forms (R240). -/
theorem bmInvariant_start (R : F.RootOf α) (T : F.Tables m poly) (S : K[X]) {lam : List Half} {ne nroots : Nat}
    (hlen : lam.length = nroots + 1) (hlam : ∀ l ∈ lam, l.toNat ≤ F.n.toNat) (hdeg : ∀ j, ne < j → nth lam j = 0) :
    BmInvariant F α S (elementPoly α lam) ne nroots ne { lam := lam, b := lam.map F.log, el := ne } := by
  refine ⟨hlen, by rwa [List.length_map], hlam, ?_⟩
  rw [indexPoly_map_log R T hlam]
  refine KeyEquation.initial (natDegree_le_iff_coeff_eq_zero.mpr fun j hj => ?_)
  rw [elementPoly_coeff, hdeg j hj, bitEval_toNat_zero]

end

/-- Settles O31: the loop runs the iteration over polynomials, whose degree bound, key equation and divisibility are the claims. -/
theorem berlekampMasseySolvesTheKeyEquation : Obligations.BerlekampMasseySolvesTheKeyEquation := by
  intro F m poly T hm hp hp' syn lam ne nroots hsyn hlen hne _ hlam _ hdeg
  obtain ⟨α, R⟩ := T.exists_root hm ⟨hp, hp'⟩
  obtain ⟨v, hv⟩ := bmLoop_answers T syn ne nroots { lam := lam, b := lam.map F.log, el := ne }
  have hdeg (j : Nat) (hj : ne < j) : nth lam j = 0 := by
    by_cases hj' : j ≤ nroots
    · exact hdeg j hj hj'
    · exact nth_of_length_le (by omega)
  obtain ⟨hvl, -, hvle, key⟩ := bmLoop_keeps_invariant R T hm hne (bmInvariant_start R T _ hlen hlam hdeg) hsyn hv
  refine ⟨v, hv, fun j hj => R.zero _ (nth_le hvle j) ?_, fun i hi hir => R.zero _ (omegaElement_le T _ _ i) ?_, fun y hy => ?_⟩
  · rw [← elementPoly_coeff]
    exact natDegree_le_iff_coeff_eq_zero.mp key.lam_degree j hj
  · rw [bitEval_omegaElement R (by omega) (by rw [List.length_map]; omega), indexPoly_map_log R T hvle]
    exact key.lam_key i hi hir
  · rw [evalAt_eq_zero_iff R T hlam] at hy
    rw [evalAt_eq_zero_iff R T hvle]
    exact eval_eq_zero_of_dvd_of_eval_eq_zero key.lam_dvd hy

end Sys2Proof.Machine

namespace Sys2Proof.Machine

/-! ### DEC_CHIEN (R260 to R262) -/

/-- Settles O33: the loop appends the roots it meets with their positions, until there are `deg` of them. -/
theorem chienFindsExactlyTheRoots : Obligations.ChienFindsExactlyTheRoots :=
  fun _ _ _ _ hdeg hd hi hi' h0 ha habove => chienSearch_eq hdeg hd hi hi' h0 ha habove

theorem toNat_half_eq_zero_iff {x : Half} : x.toNat = 0 ↔ x = 0 := (BitVec.toNat_eq (y := 0)).symm

/-- The three cases of R262 under FAIL. -/
theorem uncorrectable_iff {deg pad : Nat} {found : List (Half × Half)} :
    uncorrectable Config.padRootPolicy deg pad found = true ↔
      deg = 0 ∨ found.length ≠ deg ∨ ∃ p ∈ found, p.2.toNat < pad := by
  simp [uncorrectable, Config.padRootPolicy, or_assoc]

/-- What DEC_CHIEN leaves in a state that meets the invariant (R260, R262). -/
theorem decChienBody_of_inv {s : State} (h : s.Inv) (hd : s.status.dstage = .bm) :
    decChienBody Config.padRootPolicy s = .ok
      (if uncorrectable Config.padRootPolicy s.scalars.degLambda.toNat s.latches.dPad.toNat (s.chienFound s.locator) then
        ((s.chienWritten s.locator).setResult 0xFFFFFFFF).setStage .idle
      else (s.chienWritten s.locator).setStage .chien) := by
  have D := h.decode (by simp [hd])
  exact decChienBody_eq_ok.mpr ⟨(D.locator (.inl hd)).degree, s.locator,
    Memory.getHalves_of_written rfl (D.lam_written (by simp [hd])), rfl⟩

/-- ROOT and LOC hold the pairs that the search found. -/
theorem chienWritten_entry (s : State) (lam : List Half) {j : Nat} (hj : j < (s.chienFound lam).length) :
    (s.chienWritten lam).mem.half (entryAddr .root j) = some (s.chienFound lam)[j].1 ∧
      (s.chienWritten lam).mem.half (entryAddr .loc j) = some (s.chienFound lam)[j].2 := by
  have hlt := s.chienFound_length_lt lam
  have hfst : ((s.chienFound lam).map Prod.fst).length = (s.chienFound lam).length := List.length_map _
  have hsnd : ((s.chienFound lam).map Prod.snd).length = (s.chienFound lam).length := List.length_map _
  constructor
  · refine (Memory.sameFile_putHalves _ _ (by omega) (by decide) j (by omega)).trans ?_
    rw [s.mem.half_putHalves_zero .root (by omega) (by omega), List.getElem_map]
  · refine (Memory.half_putHalves_zero _ .loc (by omega) (by omega)).trans ?_
    rw [List.getElem_map]

/-- Every byte that ROOT and LOC do not store for a pair found is left. -/
theorem chienWritten_read (s : State) (lam : List Half) {a : Nat} (hr : ¬runByte .root (s.chienFound lam).length a)
    (hl : ¬runByte .loc (s.chienFound lam).length a) : (s.chienWritten lam).mem.read a = s.mem.read a :=
  (Memory.read_putHalves_of_not_runByte _ rfl (by rwa [List.length_map])).trans
    (s.mem.read_putHalves_of_not_runByte rfl (by rwa [List.length_map]))

/-- Settles O32: the body answers under the invariant; the cases of R262 decide between its two outcomes. -/
theorem decChienLocatesOrGivesUp : Obligations.DecChienLocatesOrGivesUp := by
  intro s h hd
  have D := h.decode (by simp [hd])
  have hc := h.configured D.valid
  have hexec := exec_of_check_none (i := .decChien) (checkStage_of_stage hc.1 hc.2 hd) (decChienBody_of_inv h hd)
  have hcases := uncorrectable_iff (deg := s.scalars.degLambda.toNat) (pad := s.latches.dPad.toNat)
    (found := s.chienFound s.locator)
  rw [toNat_half_eq_zero_iff] at hcases
  refine ⟨_, s.chienFound s.locator, hexec, ?_, chienFound_length_le h D.valid (D.locator (.inl hd)), fun j hj => ?_,
    fun a hr hl => ?_, ?_⟩
  · simp only [State.chienFound, toNat_half_eq_zero_iff]
  · obtain ⟨hroot, hloc⟩ := chienWritten_entry s s.locator hj
    rw [List.getElem?_eq_getElem hj]
    split <;> exact ⟨hroot, hloc⟩
  · have hread := chienWritten_read s s.locator hr hl
    split <;> exact hread
  · by_cases hu : uncorrectable Config.padRootPolicy s.scalars.degLambda.toNat s.latches.dPad.toNat (s.chienFound s.locator)
    · rw [if_pos (hcases.mp hu), if_pos hu]
      simp [complete, State.chienWritten, State.setMem, State.setScalars, State.setResult, State.setStage]
    · rw [if_neg (mt hcases.mpr hu), if_neg hu]
      simp [complete, State.chienWritten, State.setMem, State.setScalars, State.setStage]

/-! ### DEC_FORNEY (R270, R271) -/

/-- Settles O35: a locator with as many roots as its degree has no double root. -/
theorem denominatorNeverVanishes : Obligations.DenominatorNeverVanishes :=
  fun _ _ _ T hm hp hp' _ _ _ _ hlen hdeg hdeg' _ hlead habove hcount hnodup hroots _ hr =>
    forneyDen_ne_zero T hm ⟨hp, hp'⟩ hlen hdeg hdeg' hlead habove hcount hnodup hroots hr

/-- The evaluator that DEC_FORNEY computes (R270). -/
def State.evaluator (s : State) : List Half :=
  omegaList s.field (s.halves .s s.nroots) s.locator s.scalars.degLambda.toNat

/-- The magnitude that DEC_FORNEY computes for the located root `j` (R270). -/
def State.magnitude (s : State) (j : Nat) : Except Fault Word :=
  forneyMag s.field s.evaluator s.locator s.scalars.degLambda.toNat s.nroots s.fcr s.latches.dPad.toNat
    (nth s.roots j).toNat (nth s.positions j).toNat

/-- What DEC_FORNEY finds in a state that meets the invariant: a magnitude for each located root (R270, R271). -/
theorem decForneyBody_of_inv {s : State} (h : s.Inv) (hd : s.status.dstage = .chien) :
    ∃ mags, mapE s.magnitude (List.range s.scalars.nrootsFound.toNat) = .ok mags ∧
      decForneyBody s = .ok (((s.setScalars
          { s.scalars with degOmega := BitVec.ofNat 16 (s.scalars.degLambda.toNat - 1) }).setMem
        ((s.mem.putHalves .omega 0 s.evaluator).putWords .mag 0 mags)).setStage .forney) := by
  obtain ⟨t, ht⟩ := decForneyBody_answers h hd
  obtain ⟨-, syn, lam, roots, locs, mags, hsyn, hlam, hroots, hlocs, hmags, rfl⟩ := decForneyBody_eq_ok.mp ht
  obtain rfl : syn = s.halves .s s.nroots := (Memory.written_of_getHalves rfl hsyn).2
  obtain rfl : lam = s.locator := (Memory.written_of_getHalves rfl hlam).2
  obtain rfl : roots = s.roots := (Memory.written_of_getHalves rfl hroots).2
  obtain rfl : locs = s.positions := (Memory.written_of_getHalves rfl hlocs).2
  exact ⟨mags, hmags, ht⟩

/-- Settles O34: the body answers under the invariant, and OMEGA and MAG take what it computed. -/
theorem decForneyComputesTheMagnitudes : Obligations.DecForneyComputesTheMagnitudes := by
  intro s h hd
  have D := h.decode (by simp [hd])
  have hc := h.configured D.valid
  have hdeg := (D.locator (.inr (.inl hd))).degree
  have hpos := (D.located (.inl hd)).count.1
  have hnr := s.nroots_lt
  have hcount := s.scalars.nrootsFound.isLt
  obtain ⟨mags, hmags, hbody⟩ := decForneyBody_of_inv h hd
  have hol : s.evaluator.length = s.scalars.degLambda.toNat := omegaList_length _ _ _ _
  have hml : mags.length = s.scalars.nrootsFound.toNat := by simpa using mapE_length hmags
  refine ⟨_, exec_of_check_none (i := .decForney) (checkStage_of_stage hc.1 hc.2 hd) hbody, ?_, fun i hi => ?_, fun j hj => ?_,
    fun a ho hm => ?_⟩
  · have hdo : BitVec.ofNat 16 (s.scalars.degLambda.toNat - 1) = s.scalars.degLambda - 1 := by
      apply BitVec.eq_of_toNat_eq
      rw [toNat_ofNat_half (by omega), BitVec.toNat_sub_of_le (show (1 : Half).toNat ≤ _ from hpos)]
      rfl
    simp [complete, State.setMem, State.setScalars, State.setStage, hdo]
  · refine (Memory.sameFile_putWords _ _ (by omega) (by decide) i (by omega)).trans ?_
    rw [s.mem.half_putHalves_zero .omega (by omega) (by omega)]
    simp [State.evaluator, omegaList]
  · refine ⟨mags[j], Memory.word_putWords_zero _ .mag (by omega) (by omega), ?_⟩
    have hget := mapE_getElem hmags (hml ▸ hj)
    rwa [List.getElem_range] at hget
  · exact (Memory.read_putWords_of_not_runByte _ rfl (by rwa [hml])).trans
      (s.mem.read_putHalves_of_not_runByte rfl (by rwa [hol]))

end Sys2Proof.Machine

namespace Sys2Proof.Machine

/-! ### DECODE as its stages in order (R290) -/

theorem decSynBody_eq_ok {e c : Bool} {s t : State} : decSynBody e c s = .ok t ↔
    ∃ block, s.block s.len.toNat s.mask = .ok block ∧ t = s.synWritten e c block := by
  cases hb : s.block s.len.toNat s.mask with
  | error f => simp [decSynBody, hb]
  | ok block => simp [decSynBody_of_block hb, eq_comm]

/-- DECODE of a dirty block goes on with what its search leaves (R290). -/
theorem decodeBody_of_dirty {policy : Config.PadRootPolicy} {e c : Bool} {s s1 s2 s3 s4 : State}
    (h1 : decSynBody e c s = .ok s1) (hd : s1.status.dstage = .syn) (h2 : decErasBody s1 = .ok s2)
    (h3 : decBmBody s2 = .ok s3) (h4 : decChienBody policy s3 = .ok s4) :
    decodeBody policy e c s = decodeCorrect s4 := by
  simp [decodeBody, h1, decodeLocate, hd, h2, h3, h4]

theorem decodeCorrect_of_idle {s : State} (hd : s.status.dstage = .idle) : decodeCorrect s = .ok s := if_pos hd

theorem decodeCorrect_of_chien {s s5 s6 : State} (hd : s.status.dstage = .chien) (h5 : decForneyBody s = .ok s5)
    (h6 : decApplyBody s5 = .ok s6) : decodeCorrect s = .ok s6 := by
  simp [decodeCorrect, hd, h5, h6]

/-- The search of a dirty block answers, each stage keeping the invariant that the next one needs (R271, R290). -/
theorem locate_answers {s : State} (h : s.Inv) (hd : s.status.dstage = .syn)
    (hE : s.ErasuresGood s.latches.dNoEras.toNat s.latches.dLen.toNat) :
    ∃ s2 s3 s4, decErasBody s = .ok s2 ∧ decBmBody s2 = .ok s3 ∧ decChienBody Config.padRootPolicy s3 = .ok s4 ∧ s4.Inv := by
  obtain ⟨s2, h2⟩ := decErasBody_answers h hd hE
  have I2 := decErasBody_keeps_inv h hd h2
  have hd2 := decErasBody_dstage h2
  obtain ⟨s3, h3⟩ := decBmBody_answers I2 hd2
  have I3 := decBmBody_keeps_inv I2 hd2 h3
  have hd3 := decBmBody_dstage h3
  obtain ⟨s4, h4⟩ := decChienBody_answers (policy := Config.padRootPolicy) I3 hd3
  exact ⟨s2, s3, s4, h2, h3, h4, decChienBody_keeps_inv I3 hd3 h4⟩

/-- What follows the search answers (R271, R290). -/
theorem decodeCorrect_answers {s : State} (h : s.Inv) (hd : s.status.dstage = .idle ∨ s.status.dstage = .chien) :
    ∃ t, decodeCorrect s = .ok t := by
  rcases hd with hd | hd
  · exact ⟨s, decodeCorrect_of_idle hd⟩
  · obtain ⟨s5, h5⟩ := decForneyBody_answers h hd
    obtain ⟨s6, h6⟩ := decApplyBody_answers (decForneyBody_keeps_inv h hd h5) (decForneyBody_dstage h5)
    exact ⟨s6, decodeCorrect_of_chien hd h5 h6⟩

/-- DECODE of a ready block answers, whatever its symbols are (R290). -/
theorem decodeBody_answers {s : State} {e : Bool} (c : Bool) (h : s.Inv) (hs : s.BlockReady e) :
    ∃ t, decodeBody Config.padRootPolicy e c s = .ok t := by
  have h1 := decSynBody_of_block (e := e) (c := c) (State.block_of_written hs.data_written hs.par_written)
  rcases decSynBody_dstage h1 with hd | hd
  · exact ⟨_, decodeBody_of_idle h1 hd⟩
  · have I1 := decSynBody_keeps_inv h (decSynCheck_of_ready hs) h1
    obtain ⟨s2, s3, s4, h2, h3, h4, I4⟩ := locate_answers I1 hd (decSynBody_erasuresGood hs.erasures h1)
    rw [decodeBody_of_dirty h1 hd h2 h3 h4]
    exact decodeCorrect_answers I4 (decChienBody_dstage h4)

/-- The stages after DEC_SYN leave the latches and RES (R44, R46). -/
theorem laterStage_latches {i : Instr} (hi : i ∈ laterStages) {s t : State} (h : Instr.body i s = .ok t) :
    t.latches = s.latches ∧ t.res = s.res := by
  simp only [laterStages, List.mem_cons, List.not_mem_nil, or_false] at hi
  rcases hi with rfl | rfl | rfl | rfl | rfl
  · obtain ⟨us, -, rfl⟩ := decErasBody_eq_ok.mp h
    exact ⟨rfl, rfl⟩
  · obtain ⟨lam, syn, v, deg, -, -, -, -, rfl⟩ := decBmBody_eq_ok.mp h
    exact ⟨rfl, rfl⟩
  · obtain ⟨lam, r, d, -, -, rfl⟩ := decChienBody_ok h
    exact ⟨rfl, rfl⟩
  · obtain ⟨-, syn, lam, roots, locs, mags, -, -, -, -, -, rfl⟩ := decForneyBody_eq_ok.mp h
    exact ⟨rfl, rfl⟩
  · obtain ⟨-, locs, mags, mem, -, -, -, rfl⟩ := decApplyBody_eq_ok.mp h
    exact ⟨rfl, rfl⟩

/-- DECODE leaves the latches that its DEC_SYN part writes, and RES. -/
theorem decodeBody_latches {e c : Bool} {s t : State} (h : decodeBody Config.padRootPolicy e c s = .ok t) :
    t.latches = s.latched e c ∧ t.res = s.res := by
  have stage {i : Instr} (hi : i ∈ laterStages) {u v : State} (hu : u.latches = s.latched e c ∧ u.res = s.res)
      (hb : Instr.body i u = .ok v) : v.latches = s.latched e c ∧ v.res = s.res :=
    let ⟨hl, hr⟩ := laterStage_latches hi hb
    ⟨hl.trans hu.1, hr.trans hu.2⟩
  obtain ⟨s1, h1, hrest⟩ := decodeBody_ok h
  have hs1 : s1.latches = s.latched e c ∧ s1.res = s.res := by
    obtain ⟨block, -, rfl⟩ := decSynBody_eq_ok.mp h1
    exact ⟨rfl, rfl⟩
  obtain ⟨-, rfl⟩ | ⟨-, s2, s3, s4, h2, h3, h4, hend⟩ := hrest
  · exact hs1
  · have hs4 := stage (i := .decChien) (by decide)
      (stage (i := .decBm) (by decide) (stage (i := .decEras) (by decide) hs1 h2) h3) h4
    obtain ⟨-, rfl⟩ | ⟨-, s5, h5, h6⟩ := hend
    · exact hs4
    · exact stage (i := .decApply) (by decide) (stage (i := .decForney) (by decide) hs4 h5) h6

/-- A decode ends with RESULT −1, or with the count of a clean or a corrected block (R290). -/
theorem decodeBody_result {policy : Config.PadRootPolicy} {e c : Bool} {s t : State} (h : decodeBody policy e c s = .ok t) :
    t.result = 0xFFFFFFFF ∨ t.result.toNat ≤ s.nroots := by
  obtain ⟨s1, h1, ⟨hd, rfl⟩ | ⟨-, s2, s3, s4, h2, h3, h4, ⟨hd, rfl⟩ | ⟨-, s5, h5, h6⟩⟩⟩ := decodeBody_ok h
  case inl =>
    obtain ⟨block, -, rfl⟩ := decSynBody_eq_ok.mp h1
    right
    simp only [State.synWritten] at hd ⊢
    split at hd
    · rw [if_pos ‹_›]
      exact Nat.zero_le _
    · cases hd
  case inr.inl =>
    obtain ⟨-, lam, -, rfl⟩ := decChienBody_eq_ok.mp h4
    left
    split at hd
    · rw [if_pos ‹_›]
      rfl
    · cases hd
  case inr.inr =>
    have hactive : s5.active = s.active :=
      ((decSynBody_frame h1).trans ((decErasBody_frame h2).trans ((decBmBody_frame h3).trans
        ((decChienBody_frame h4).trans (decForneyBody_frame h5))))).active
    have hcount := (decApplyBody_eq_ok.mp h6).1
    right
    rw [decApplyBody_registers h6, BitVec.toNat_setWidth, Nat.mod_eq_of_lt (by omega), State.nroots, ← hactive]
    exact hcount

/-- Settles O37: the DEC_SYN part reads a ready block whole, and each later stage answers on what the one before it left. -/
theorem decodeOfAReadyBlockCompletes : Obligations.DecodeOfAReadyBlockCompletes := by
  intro s e c h hs
  obtain ⟨t, ht⟩ := decodeBody_answers c h hs
  obtain ⟨hlatches, hres⟩ := decodeBody_latches ht
  refine ⟨complete .noError t, exec_of_check_none (decSynCheck_of_ready hs) ht, ?_,
    decodeBody_result (t := t) ht⟩
  rw [(decodeBody_frame ht).rest, hlatches, hres, decodeBody_idle ht]
  simp [complete]

/-! ### The stages one command at a time (R291) -/

/-- A command that completes without an error has passed its checks and done its effect. -/
theorem exec_noError {i : Instr} {s t : State} (h : exec i s = .next t) (herr : t.status.errcode = .noError) :
    Instr.check i s = .ok none ∧ ∃ u, Instr.body i s = .ok u ∧ t = complete .noError u := by
  rcases exec_next h with ⟨c, hc, rfl⟩ | ⟨hc, u, hu, rfl⟩
  · exact absurd herr (check_some_ne_noError hc)
  · exact ⟨hc, u, hu, rfl⟩

theorem State.Frame.configured {s t : State} (h : s.Frame t) (hc : s.configured) : t.configured :=
  ⟨h.cfgValid.trans hc.1, h.active ▸ hc.2⟩

theorem complete_complete (s : State) : complete .noError (complete .noError s) = complete .noError s := by
  simp [complete]

/-- The completion of the stage before it does not change what a later stage does. -/
theorem body_of_completed {i : Instr} (hi : i ∈ laterStages) {s t : State} (h : Instr.body i (complete .noError s) = .ok t) :
    ∃ u, Instr.body i s = .ok u ∧ t = complete .noError u := by
  simp only [laterStages, List.mem_cons, List.not_mem_nil, or_false] at hi
  rcases hi with rfl | rfl | rfl | rfl | rfl
  · obtain ⟨us, hus, rfl⟩ := decErasBody_eq_ok.mp h
    exact ⟨_, decErasBody_eq_ok.mpr ⟨us, hus, rfl⟩, rfl⟩
  · obtain ⟨lam, syn, v, deg, h1, h2, h3, h4, rfl⟩ := decBmBody_eq_ok.mp h
    exact ⟨_, decBmBody_eq_ok.mpr ⟨lam, syn, v, deg, h1, h2, h3, h4, rfl⟩, rfl⟩
  · obtain ⟨hdeg, lam, hlam, rfl⟩ := decChienBody_eq_ok.mp h
    refine ⟨_, decChienBody_eq_ok.mpr ⟨hdeg, lam, hlam, rfl⟩, ?_⟩
    rw [apply_ite (complete .noError)]
    rfl
  · obtain ⟨hb, syn, lam, roots, locs, mags, h1, h2, h3, h4, h5, rfl⟩ := decForneyBody_eq_ok.mp h
    exact ⟨_, decForneyBody_eq_ok.mpr ⟨hb, syn, lam, roots, locs, mags, h1, h2, h3, h4, h5, rfl⟩, rfl⟩
  · obtain ⟨hc, locs, mags, mem, h1, h2, h3, rfl⟩ := decApplyBody_eq_ok.mp h
    exact ⟨_, decApplyBody_eq_ok.mpr ⟨hc, locs, mags, mem, h1, h2, h3, rfl⟩, rfl⟩

theorem laterStage_frame {i : Instr} (hi : i ∈ laterStages) {s t : State} (h : Instr.body i s = .ok t) : s.Frame t :=
  body_frame (by rintro rfl; exact absurd hi (by decide)) (by rintro rfl; exact absurd hi (by decide)) h

/-- A stage command on the completed state of the stage before it has the effect that DECODE's own stage has (R290, R291). -/
theorem stage_of_completed {i : Instr} (hi : i ∈ laterStages) {s t : State} (hc : s.configured)
    (hcheck : Instr.check i (complete .noError s) = .ok none) (h : exec i (complete .noError s) = .next t) :
    ∃ u, Instr.body i s = .ok u ∧ t = complete .noError u ∧ u.configured := by
  rcases exec_next h with ⟨c, hc', -⟩ | ⟨-, v, hv, rfl⟩
  · rw [hcheck] at hc'
    cases hc'
  · obtain ⟨u, hu, rfl⟩ := body_of_completed hi hv
    exact ⟨u, hu, complete_complete u, (laterStage_frame hi hu).configured hc⟩

/-- Settles O39: DECODE passes the checks of DEC_SYN, each stage command does what DECODE's own stage does, and the last
completion is DECODE's. -/
theorem stagedDecodeEqualsDecode : Obligations.StagedDecodeEqualsDecode := by
  intro s t1 e c hsyn herr1
  obtain ⟨hcheck, s1, h1, rfl⟩ := exec_noError hsyn herr1
  have hc1 := (decSynBody_frame h1).configured (decSynCheck_none hcheck).1
  refine ⟨fun hd => exec_of_check_none hcheck (decodeBody_of_idle h1 hd), fun t2 t3 t4 heras herr2 hbm hchien hd1 => ?_⟩
  obtain ⟨s2, h2, rfl, hc2⟩ := stage_of_completed (i := .decEras) (by decide) hc1 (exec_noError heras herr2).1 heras
  obtain ⟨s3, h3, rfl, hc3⟩ := stage_of_completed (i := .decBm) (by decide) hc2
    (checkStage_of_stage hc2.1 hc2.2 (decErasBody_dstage (t := s2) h2)) hbm
  obtain ⟨s4, h4, rfl, hc4⟩ := stage_of_completed (i := .decChien) (by decide) hc3
    (checkStage_of_stage hc3.1 hc3.2 (decBmBody_dstage (t := s3) h3)) hchien
  have hbody := decodeBody_of_dirty h1 hd1 h2 h3 h4
  refine ⟨fun hd4 => exec_of_check_none hcheck (hbody.trans (decodeCorrect_of_idle hd4)), fun t5 t6 hforney happly hd4 => ?_⟩
  obtain ⟨s5, h5, rfl, hc5⟩ := stage_of_completed (i := .decForney) (by decide) hc4
    (checkStage_of_stage hc4.1 hc4.2 hd4) hforney
  obtain ⟨s6, h6, rfl, -⟩ := stage_of_completed (i := .decApply) (by decide) hc5
    (checkStage_of_stage hc5.1 hc5.2 (decForneyBody_dstage (t := s5) h5)) happly
  exact exec_of_check_none hcheck (hbody.trans (decodeCorrect_of_chien hd4 h5 h6))

end Sys2Proof.Machine

namespace Sys2Proof.Machine

open Finset Polynomial

/-! ### An error pattern as polynomials (R261, R271, R292)

A pattern is a set `P` of positions, with a locator `x p` and a weight `z p` at each position: the syndromes are the sums of
`z p · (x p)^i`. -/

section
variable {K : Type} [Field K]

/-- The locator of the positions in `P`: the product of the factors `1 − x(p)·X` (R230, R261). -/
noncomputable def locatorPoly (x : Nat → K) (P : Finset Nat) : K[X] := ∏ p ∈ P, (1 - C (x p) * X)

/-- The evaluator of the pattern (R271). -/
noncomputable def evaluatorPoly (x z : Nat → K) (P : Finset Nat) : K[X] := ∑ p ∈ P, C (z p) * locatorPoly x (P.erase p)

/-- The first `n` syndromes of the pattern, as coefficients. -/
noncomputable def syndromePoly (x z : Nat → K) (P : Finset Nat) (n : Nat) : K[X] :=
  ∑ p ∈ P, C (z p) * ∑ i ∈ range n, (C (x p) * X) ^ i

variable {x z : Nat → K} {P : Finset Nat} {p : Nat}

theorem locatorPoly_eval (y : K) : (locatorPoly x P).eval y = ∏ p ∈ P, (1 - x p * y) := by
  simp [locatorPoly, eval_prod]

@[simp] theorem locatorPoly_coeff_zero : (locatorPoly x P).coeff 0 = 1 := by
  simp [coeff_zero_eq_eval_zero, locatorPoly_eval]

theorem locatorPoly_ne_zero : locatorPoly x P ≠ 0 := fun h => by
  have := locatorPoly_coeff_zero (x := x) (P := P)
  simp [h] at this

theorem locatorPoly_eval_eq_zero {y : K} : (locatorPoly x P).eval y = 0 ↔ ∃ p ∈ P, x p * y = 1 := by
  simp only [locatorPoly_eval, prod_eq_zero_iff, sub_eq_zero, eq_comm (a := (1 : K))]

theorem locatorPoly_erase (hp : p ∈ P) : locatorPoly x P = (1 - C (x p) * X) * locatorPoly x (P.erase p) :=
  (mul_prod_erase P _ hp).symm

theorem natDegree_linear_factor (a : K) : (1 - C a * X : K[X]).natDegree ≤ 1 :=
  (natDegree_sub_le _ _).trans (by simpa using natDegree_C_mul_X_pow_le a 1)

theorem locatorPoly_natDegree_le : (locatorPoly x P).natDegree ≤ P.card :=
  (natDegree_prod_le _ _).trans ((sum_le_sum fun p _ => natDegree_linear_factor (x p)).trans (by simp))

theorem locatorPoly_natDegree (hx : ∀ p ∈ P, x p ≠ 0) : (locatorPoly x P).natDegree = P.card := by
  have factor (p : Nat) (hp : p ∈ P) : (1 - C (x p) * X : K[X]).natDegree = 1 := by
    rw [show (1 - C (x p) * X : K[X]) = C (-x p) * X + C 1 by simp; ring]
    exact natDegree_linear (neg_ne_zero.mpr (hx p hp))
  rw [locatorPoly, natDegree_prod _ _ fun p hp h => by simpa [h] using factor p hp, sum_congr rfl factor]
  simp

/-- A product of a polynomial of degree at most `a` and one of degree less than `b`. -/
theorem coeff_mul_of_degrees {f g : K[X]} {a b i : Nat} (hf : f.natDegree ≤ a) (hg : ∀ j, b ≤ j → g.coeff j = 0)
    (hi : a + b ≤ i) : (f * g).coeff i = 0 := by
  rw [coeff_mul]
  refine sum_eq_zero fun ⟨j, k⟩ hjk => ?_
  have hjk : j + k = i := mem_antidiagonal.mp hjk
  by_cases hj : a < j
  · rw [coeff_eq_zero_of_natDegree_lt (by omega), zero_mul]
  · rw [hg k (by omega), mul_zero]

/-- The evaluator's degree is less than the number of positions (R271). -/
theorem evaluatorPoly_coeff_of_le {i : Nat} (hi : P.card ≤ i) : (evaluatorPoly x z P).coeff i = 0 := by
  rw [evaluatorPoly, finsetSum_coeff]
  refine sum_eq_zero fun p hp => ?_
  have hdeg := locatorPoly_natDegree_le (x := x) (P := P.erase p)
  have hcard := card_erase_lt_of_mem hp
  rw [coeff_C_mul, coeff_eq_zero_of_natDegree_lt (by omega), mul_zero]

/-- At the root of a position only that position's term is left (R271). -/
theorem evaluatorPoly_eval (hp : p ∈ P) {y : K} (hy : x p * y = 1) :
    (evaluatorPoly x z P).eval y = z p * (locatorPoly x (P.erase p)).eval y := by
  rw [evaluatorPoly, eval_finsetSum, sum_eq_single_of_mem p hp]
  · rw [eval_C_mul]
  · intro q _ hqp
    rw [eval_C_mul, locatorPoly_eval_eq_zero.mpr ⟨p, mem_erase.mpr ⟨hqp.symm, hp⟩, hy⟩, mul_zero]

/-- The derivative of the locator at the root of a position (R271). -/
theorem locatorPoly_derivative_eval (hp : p ∈ P) {y : K} (hy : x p * y = 1) :
    (derivative (locatorPoly x P)).eval y = -x p * (locatorPoly x (P.erase p)).eval y := by
  rw [locatorPoly_erase hp, derivative_mul]
  simp [hy]

/-- The other positions' factors do not vanish at the root of a position. -/
theorem locatorPoly_erase_eval_ne_zero (hinj : Set.InjOn x P) (hp : p ∈ P) {y : K} (hy : x p * y = 1) :
    (locatorPoly x (P.erase p)).eval y ≠ 0 := by
  intro h
  obtain ⟨q, hq, hqy⟩ := locatorPoly_eval_eq_zero.mp h
  have hy0 : y ≠ 0 := right_ne_zero_of_mul_eq_one hy
  exact ne_of_mem_erase hq (hinj (mem_of_mem_erase hq) hp (mul_right_cancel₀ hy0 (hqy.trans hy.symm)))

theorem syndromePoly_coeff {n i : Nat} (hi : i < n) : (syndromePoly x z P n).coeff i = ∑ p ∈ P, z p * x p ^ i := by
  rw [syndromePoly, finsetSum_coeff]
  refine sum_congr rfl fun p _ => ?_
  rw [coeff_C_mul, finsetSum_coeff]
  simp only [mul_pow, ← map_pow, coeff_C_mul, coeff_X_pow, mul_ite, mul_one, mul_zero]
  rw [sum_ite_eq, if_pos (mem_range.mpr hi)]

/-- The key equation: up to degree `n` the product of the syndromes and the locator is the evaluator (R271). -/
theorem syndromePoly_mul_locatorPoly (n : Nat) :
    X ^ n ∣ syndromePoly x z P n * locatorPoly x P - evaluatorPoly x z P := by
  rw [syndromePoly, evaluatorPoly, sum_mul, ← sum_sub_distrib]
  refine dvd_sum fun p hp => ⟨-(C (z p) * C (x p) ^ n * locatorPoly x (P.erase p)), ?_⟩
  have hgeom := mul_neg_geom_sum (C (x p) * X) n
  rw [locatorPoly_erase hp]
  linear_combination C (z p) * locatorPoly x (P.erase p) * hgeom

/-- Any polynomial with the pattern's syndromes as its first `n` coefficients satisfies the key equation. -/
theorem key_equation_of_coeff {S : K[X]} {n : Nat} (h : ∀ i < n, S.coeff i = ∑ p ∈ P, z p * x p ^ i) :
    X ^ n ∣ S * locatorPoly x P - evaluatorPoly x z P := by
  have hdiff : X ^ n ∣ S - syndromePoly x z P n :=
    X_pow_dvd_iff.mpr fun i hi => by rw [coeff_sub, h i hi, syndromePoly_coeff hi, sub_self]
  convert dvd_add (hdiff.mul_right (locatorPoly x P)) (syndromePoly_mul_locatorPoly (x := x) (z := z) (P := P) n) using 1
  ring

/-- Fewer than `n + 1` positions whose syndromes are all 0 have weight 0 (R292). -/
theorem weight_eq_zero_of_syndromes {n : Nat} (hx : ∀ p ∈ P, x p ≠ 0) (hinj : Set.InjOn x P) (hn : P.card ≤ n)
    (h : ∀ i < n, ∑ p ∈ P, z p * x p ^ i = 0) (hp : p ∈ P) : z p = 0 := by
  have hkey : X ^ n ∣ 0 * locatorPoly x P - evaluatorPoly x z P := key_equation_of_coeff fun i hi => by rw [coeff_zero, h i hi]
  have hzero : evaluatorPoly x z P = 0 := by
    ext i
    by_cases hi : i < n
    · simpa using X_pow_dvd_iff.mp hkey i hi
    · exact evaluatorPoly_coeff_of_le (by omega)
  have heval := evaluatorPoly_eval (z := z) hp (mul_inv_cancel₀ (hx p hp))
  rw [hzero, eval_zero] at heval
  exact (mul_eq_zero.mp heval.symm).resolve_right (locatorPoly_erase_eval_ne_zero hinj hp (mul_inv_cancel₀ (hx p hp)))

/-! ### The iteration finds the locator (R240, R292) -/

variable {E : Finset Nat} {S Λ B M : K[X]} {n el r : Nat}

theorem locatorPoly_mul_sdiff (hE : E ⊆ P) : locatorPoly x (P \ E) * locatorPoly x E = locatorPoly x P := prod_sdiff hE

/-- Up to degree `n`, the evaluator scaled by a cofactor is the product of the syndromes and the Λ of that cofactor, scaled by the
locator of the errors that are no erasures. -/
theorem cofactor_evaluator (hE : E ⊆ P) (hS : X ^ n ∣ S * locatorPoly x P - evaluatorPoly x z P) (M : K[X]) :
    X ^ n ∣ M * evaluatorPoly x z P - locatorPoly x (P \ E) * (S * (locatorPoly x E * M)) := by
  have := (hS.mul_left M).neg_right
  convert this using 1
  rw [← locatorPoly_mul_sdiff (x := x) hE]
  ring

/-- The cofactor of a Λ of degree at most `el` leaves room for the erasures. -/
theorem cofactor_natDegree (hx : ∀ p ∈ E, x p ≠ 0) (hM : M ≠ 0) (hdeg : (locatorPoly x E * M).natDegree ≤ el) :
    M.natDegree + E.card ≤ el := by
  rw [natDegree_mul locatorPoly_ne_zero hM, locatorPoly_natDegree hx] at hdeg
  omega

theorem cofactor_evaluator_coeff (hdeg : M.natDegree + E.card ≤ el) {i : Nat} (hE : E ⊆ P) (hi : el + (P \ E).card ≤ i) :
    (M * evaluatorPoly x z P).coeff i = 0 := by
  have hcard := card_sdiff_add_card_eq_card hE
  exact coeff_mul_of_degrees le_rfl (fun j hj => evaluatorPoly_coeff_of_le hj) (by omega)

/-- A discrepancy shows up before `el` and the number of errors that are no erasures are used up, so a register that is
lengthened there does not outgrow the locator (R240). -/
theorem KeyEquation.lt_of_discrepancy (h : KeyEquation S (locatorPoly x E) Λ B E.card el r) (hE : E ⊆ P)
    (hx : ∀ p ∈ P, x p ≠ 0) (hS : X ^ n ∣ S * locatorPoly x P - evaluatorPoly x z P) (hr : r < n)
    (hd : (S * Λ).coeff r ≠ 0) : r < el + (P \ E).card := by
  by_contra hle
  obtain ⟨M, rfl⟩ := h.lam_dvd
  have hM : M ≠ 0 := by
    rintro rfl
    simp at hd
  have hdeg := cofactor_natDegree (fun p hp => hx p (hE hp)) hM h.lam_degree
  have hcoeff := X_pow_dvd_iff.mp (cofactor_evaluator hE hS M) r hr
  rw [coeff_sub, cofactor_evaluator_coeff hdeg hE (by omega), zero_sub, neg_eq_zero, coeff_mul,
    sum_eq_single_of_mem (0, r) (by simp)] at hcoeff
  · rw [locatorPoly_coeff_zero, one_mul] at hcoeff
    exact hd hcoeff
  · rintro ⟨a, b⟩ hab hne
    have hab := mem_antidiagonal.mp hab
    have hb : b < r := by
      simp only [ne_eq, Prod.mk.injEq] at hab hne ⊢
      omega
    by_cases ha : (P \ E).card < a
    · rw [coeff_eq_zero_of_natDegree_lt (locatorPoly_natDegree_le.trans_lt ha), zero_mul]
    · rw [h.lam_key b (by simp only at hab; omega) hb, mul_zero]

/-- A polynomial of degree at most that of the locator, with the constant coefficient 1 and the locator's roots, is the locator. -/
theorem eq_locatorPoly_of_roots (hx : ∀ p ∈ P, x p ≠ 0) (hinj : Set.InjOn x P) (hdeg : Λ.natDegree ≤ P.card)
    (hone : Λ.coeff 0 = 1) (hroot : ∀ p ∈ P, Λ.eval (x p)⁻¹ = 0) : Λ = locatorPoly x P := by
  classical
  have hnodes : (insert 0 (P.image fun p => (x p)⁻¹)).card = P.card + 1 := by
    rw [card_insert_of_notMem, card_image_of_injOn fun p hp q hq e => hinj hp hq (inv_injective e)]
    simpa using hx
  refine eq_of_degree_sub_lt_of_eval_finset_eq (insert 0 (P.image fun p => (x p)⁻¹)) ?_ fun y hy => ?_
  · rw [hnodes]
    refine (degree_le_of_natDegree_le (n := P.card) ?_).trans_lt (by exact_mod_cast Nat.lt_succ_self _)
    exact (natDegree_sub_le_of_le hdeg locatorPoly_natDegree_le).trans (max_self _).le
  · rcases mem_insert.mp hy with rfl | hy
    · rw [← coeff_zero_eq_eval_zero, ← coeff_zero_eq_eval_zero, hone, locatorPoly_coeff_zero]
    · obtain ⟨p, hp, rfl⟩ := mem_image.mp hy
      rw [hroot p hp, locatorPoly_eval_eq_zero.mpr ⟨p, hp, mul_inv_cancel₀ (hx p hp)⟩]

/-- A polynomial without terms from `k` up to degree `n` is a polynomial of degree less than `k`, up to degree `n`. -/
theorem exists_low_part {Q : K[X]} {k : Nat} (h : ∀ i, k ≤ i → i < n → Q.coeff i = 0) :
    ∃ W : K[X], X ^ n ∣ Q - W ∧ ∀ i, k ≤ i → W.coeff i = 0 := by
  refine ⟨PowerSeries.trunc k (Q : PowerSeries K), X_pow_dvd_iff.mpr fun i hi => ?_, fun i hi => ?_⟩
  · rw [coeff_sub, PowerSeries.coeff_trunc, coeff_coe]
    split
    · exact sub_self _
    · rw [h i (by omega) hi, sub_zero]
  · rw [PowerSeries.coeff_trunc, if_neg (by omega)]

/-- Within the correction capability the congruence between a cofactor's evaluator and its Λ's is an equation, since both sides
have degree less than `n` (R292). -/
theorem cofactor_evaluator_eq (hE : E ⊆ P) (hS : X ^ n ∣ S * locatorPoly x P - evaluatorPoly x z P)
    (hdeg : M.natDegree + E.card ≤ el) (hkey : ∀ i, el ≤ i → i < n → (S * (locatorPoly x E * M)).coeff i = 0)
    (hroom : el + (P \ E).card ≤ n) : ∃ W, M * evaluatorPoly x z P = locatorPoly x (P \ E) * W := by
  obtain ⟨W, hW, hWdeg⟩ := exists_low_part hkey
  have hdvd : X ^ n ∣ M * evaluatorPoly x z P - locatorPoly x (P \ E) * W := by
    convert dvd_add (cofactor_evaluator hE hS M) (hW.mul_left (locatorPoly x (P \ E))) using 1
    ring
  refine ⟨W, ?_⟩
  ext i
  by_cases hi : i < n
  · have := X_pow_dvd_iff.mp hdvd i hi
    rwa [coeff_sub, sub_eq_zero] at this
  · rw [cofactor_evaluator_coeff hdeg hE (by omega), coeff_mul_of_degrees locatorPoly_natDegree_le hWdeg (by omega)]

/-- Within the correction capability the iteration ends with the locator of the pattern: the errors that are no erasures have
weights that are not 0, so the cofactor vanishes at their roots (R292). -/
theorem KeyEquation.eq_locatorPoly (h : KeyEquation S (locatorPoly x E) Λ B E.card el n) (hE : E ⊆ P)
    (hx : ∀ p ∈ P, x p ≠ 0) (hinj : Set.InjOn x P) (hz : ∀ p ∈ P \ E, z p ≠ 0)
    (hS : X ^ n ∣ S * locatorPoly x P - evaluatorPoly x z P) (hone : Λ.coeff 0 = 1) (hel : el ≤ P.card)
    (hcap : 2 * (P \ E).card + E.card ≤ n) : Λ = locatorPoly x P := by
  have hcard := card_sdiff_add_card_eq_card hE
  refine eq_locatorPoly_of_roots hx hinj (h.lam_degree.trans hel) hone fun p hp => ?_
  obtain ⟨M, rfl⟩ := h.lam_dvd
  have hM : M ≠ 0 := by
    rintro rfl
    simp at hone
  have hy := mul_inv_cancel₀ (hx p hp)
  rw [eval_mul]
  by_cases hpE : p ∈ E
  · rw [locatorPoly_eval_eq_zero.mpr ⟨p, hpE, hy⟩, zero_mul]
  · have hpU : p ∈ P \ E := mem_sdiff.mpr ⟨hp, hpE⟩
    obtain ⟨W, hW⟩ := cofactor_evaluator_eq hE hS (cofactor_natDegree (fun p hp => hx p (hE hp)) hM h.lam_degree) h.lam_key
      (by omega)
    have heval := congrArg (eval (x p)⁻¹) hW
    rw [eval_mul, eval_mul, locatorPoly_eval_eq_zero.mpr ⟨p, hpU, hy⟩, zero_mul, evaluatorPoly_eval hp hy] at heval
    rw [(mul_eq_zero.mp heval).resolve_right (mul_ne_zero (hz p hpU) (locatorPoly_erase_eval_ne_zero hinj hp hy)), mul_zero]

end

end Sys2Proof.Machine

namespace Sys2Proof.Machine

open Finset Polynomial

section
variable {K : Type} [Field K] [CharP K 2] {F : GField} {m poly : Nat} {α : K} {x z : Nat → K} {P E : Finset Nat}

/-! ### DEC_BM within the correction capability (R240, R292) -/

/-- A step never makes the register longer than the locator of the pattern (R240). -/
theorem BmInvariant.step_el_le (R : F.RootOf α) (T : F.Tables m poly) {syn : List Half} {nroots r : Nat} {v w : BmVars}
    (h : BmInvariant F α (indexPoly F α syn) (locatorPoly x E) E.card nroots r v) (hsyn : syn.length = nroots) (hr : r < nroots)
    (hE : E ⊆ P) (hx : ∀ p ∈ P, x p ≠ 0) (hS : X ^ nroots ∣ indexPoly F α syn * locatorPoly x P - evaluatorPoly x z P)
    (hel : v.el ≤ P.card) (hw : bmStep F syn E.card v (r + 1) = .ok w) : w.el ≤ P.card := by
  have hlam := h.lam_length
  have hcard := card_sdiff_add_card_eq_card hE
  obtain ⟨hd, hcoeff⟩ := bitEval_discrepancy R T h.elements (r := r) (syn := syn) (by omega) (by omega)
  rcases bmStep_cases hw with ⟨-, rfl⟩ | ⟨-, -, rfl⟩ | ⟨h0, -, b, -, rfl⟩
  · exact hel
  · exact hel
  · have hne : (indexPoly F α syn * elementPoly α v.lam).coeff r ≠ 0 := by
      rw [← hcoeff]
      exact fun e => h0 ((T.log_eq_sentinel hd).mpr (R.zero _ hd e))
    have := h.key.lt_of_discrepancy hE hx hS hr hne
    show r + 1 + E.card - v.el ≤ P.card
    omega

/-- From the locator of the erasures DEC_BM's loop comes to the locator of the pattern (R292). -/
theorem bmLoop_finds_locator (R : F.RootOf α) (T : F.Tables m poly) (hm : 2 ≤ m) {syn lam : List Half} {nroots : Nat}
    {w : BmVars} (hsyn : syn.length = nroots) (hlen : lam.length = nroots + 1) (L : LocatorAt F lam E.card)
    (hone : nth lam 0 = 1) (hstart : elementPoly α lam = locatorPoly x E) (hE : E ⊆ P) (hx : ∀ p ∈ P, x p ≠ 0)
    (hinj : Set.InjOn x P) (hz : ∀ p ∈ P \ E, z p ≠ 0)
    (hS : X ^ nroots ∣ indexPoly F α syn * locatorPoly x P - evaluatorPoly x z P)
    (hcap : 2 * (P \ E).card + E.card ≤ nroots)
    (hw : bmLoop F syn E.card nroots { lam := lam, b := lam.map F.log, el := E.card } = .ok w) :
    indexPoly F α (w.lam.map F.log) = locatorPoly x P := by
  have start := bmInvariant_start R T (indexPoly F α syn) hlen L.elements L.above
  rw [hstart] at start
  have hloop := foldE_range'_invariant
    (fun r v => BmInvariant F α (indexPoly F α syn) (locatorPoly x E) E.card nroots r v ∧ v.el ≤ P.card) hw
    ⟨start, card_le_card hE⟩ fun r v w _ hr hv hw =>
      ⟨hv.1.step R T hm hsyn (by omega) hw, hv.1.step_el_le R T hsyn (by omega) hE hx hS hv.2 hw⟩
  rw [Nat.add_sub_cancel' (by omega)] at hloop
  obtain ⟨⟨-, -, hle, key⟩, hel⟩ := hloop
  obtain ⟨-, -, hw0⟩ := bmLoop_shape (k := nroots + 1) (by omega) ⟨hlen, by rwa [List.length_map], hone⟩ hw
  rw [indexPoly_map_log R T hle]
  exact key.eq_locatorPoly hE hx hinj hz hS (by rw [elementPoly_coeff, hw0, bitEval_toNat_one]) hel hcap

/-! ### The positions of the roots (R231, R261) -/

theorem GField.RootOf.pow_eq_one_iff (R : F.RootOf α) (T : F.Tables m poly) (hm : 2 ≤ m) {a : Nat} :
    α ^ a = 1 ↔ a ≡ 0 [MOD F.n.toNat] := by
  refine ⟨fun h => R.pow_injective T hm (by rw [h, pow_zero]), fun h => ?_⟩
  rw [pow_eq_pow_mod a R.order, h, Nat.zero_mod, pow_zero]

/-- The exponent that belongs to the position of step `i` (R261). -/
theorem position_mul_prim {iprim prim : Nat} (hn : 1 < F.n.toNat) (hinv : iprim * prim % F.n.toNat = 1) (i : Nat) :
    ((F.modn (i * iprim + F.n.toNat - 1)).toNat + 1) * prim ≡ i [MOD F.n.toNat] := by
  have hloc : (F.modn (i * iprim + F.n.toNat - 1)).toNat + 1 ≡ i * iprim [MOD F.n.toNat] := by
    calc (F.modn (i * iprim + F.n.toNat - 1)).toNat + 1
        ≡ i * iprim + F.n.toNat - 1 + 1 [MOD F.n.toNat] := by
          rw [F.modn_toNat _ (by omega)]
          exact (Nat.mod_modEq _ _).add_right 1
      _ = i * iprim + F.n.toNat := by omega
      _ ≡ i * iprim [MOD F.n.toNat] := Nat.add_modEq_right
  calc ((F.modn (i * iprim + F.n.toNat - 1)).toNat + 1) * prim
      ≡ i * iprim * prim [MOD F.n.toNat] := hloc.mul_right prim
    _ = i * (iprim * prim) := Nat.mul_assoc _ _ _
    _ ≡ i * 1 [MOD F.n.toNat] := Nat.ModEq.mul_left i (by rw [Nat.ModEq, hinv, Nat.mod_eq_of_lt hn])
    _ = i := Nat.mul_one i

/-- The steps of the search that have the position `q` (R261). -/
theorem position_eq_iff {iprim prim q : Nat} (hn : 1 < F.n.toNat) (hinv : iprim * prim % F.n.toNat = 1)
    (hprim : Nat.gcd prim F.n.toNat = 1) (hq : q < F.n.toNat) (i : Nat) :
    (F.modn (i * iprim + F.n.toNat - 1)).toNat = q ↔ i ≡ (q + 1) * prim [MOD F.n.toNat] := by
  have hloc := position_mul_prim (F := F) hn hinv i
  constructor
  · rintro rfl
    exact hloc.symm
  · intro h
    have hcancel := (hloc.trans h).cancel_right_of_coprime (by rwa [Nat.gcd_comm])
    exact (Nat.ModEq.add_right_cancel' 1 hcancel).eq_of_lt_of_lt (F.modn_lt _ (by omega)) hq

/-- Every position is that of one of the steps of the search (R261). -/
theorem exists_step_of_position {iprim prim q : Nat} (hn : 1 < F.n.toNat) (hinv : iprim * prim % F.n.toNat = 1)
    (hprim : Nat.gcd prim F.n.toNat = 1) (hq : q < F.n.toNat) :
    ∃ i, 1 ≤ i ∧ i ≤ F.n.toNat ∧ (F.modn (i * iprim + F.n.toNat - 1)).toNat = q := by
  have hmod := Nat.mod_lt ((q + 1) * prim + (F.n.toNat - 1)) (show 0 < F.n.toNat by omega)
  refine ⟨((q + 1) * prim + (F.n.toNat - 1)) % F.n.toNat + 1, by omega, by omega, ?_⟩
  rw [position_eq_iff hn hinv hprim hq]
  calc ((q + 1) * prim + (F.n.toNat - 1)) % F.n.toNat + 1
      ≡ (q + 1) * prim + (F.n.toNat - 1) + 1 [MOD F.n.toNat] := (Nat.mod_modEq _ _).add_right 1
    _ = (q + 1) * prim + F.n.toNat := by omega
    _ ≡ (q + 1) * prim [MOD F.n.toNat] := Nat.add_modEq_right

/-- What a symbol at the full-block position `q` is multiplied by in the syndromes at `α^prim` (R224, R231). -/
noncomputable def positionPower (F : GField) (α : K) (prim q : Nat) : K := α ^ (prim * (F.n.toNat - 1 - q))

omit [CharP K 2] in
theorem positionPower_ne_zero (R : F.RootOf α) (hn : 0 < F.n.toNat) (prim q : Nat) : positionPower F α prim q ≠ 0 :=
  pow_ne_zero _ (R.ne_zero hn)

/-- `α^i` is the root of the locator of the full-block position `q` exactly when the position of step `i` is `q` (R261). -/
theorem root_iff_position (R : F.RootOf α) (T : F.Tables m poly) (hm : 2 ≤ m) {iprim prim q : Nat}
    (hinv : iprim * prim % F.n.toNat = 1) (hprim : Nat.gcd prim F.n.toNat = 1) (hq : q < F.n.toNat) (i : Nat) :
    positionPower F α prim q * α ^ i = 1 ↔ (F.modn (i * iprim + F.n.toNat - 1)).toNat = q := by
  have hn := T.n_pos hm
  have hfull : prim * (F.n.toNat - 1 - q) + (q + 1) * prim ≡ 0 [MOD F.n.toNat] := by
    rw [Nat.mul_comm (q + 1), ← Nat.mul_add, show F.n.toNat - 1 - q + (q + 1) = F.n.toNat by omega]
    exact Nat.modEq_zero_iff_dvd.mpr (Nat.dvd_mul_left _ _)
  rw [position_eq_iff (by omega) hinv hprim hq, positionPower, ← pow_add, R.pow_eq_one_iff T hm]
  exact ⟨fun h => Nat.ModEq.add_left_cancel' _ (h.trans hfull.symm), fun h => (h.add_left _).trans hfull⟩

/-- Different positions have different powers (R231). -/
theorem positionPower_injective (R : F.RootOf α) (T : F.Tables m poly) (hm : 2 ≤ m) {prim p q : Nat}
    (hprim : Nat.gcd prim F.n.toNat = 1) (hp : p < F.n.toNat) (hq : q < F.n.toNat)
    (h : positionPower F α prim p = positionPower F α prim q) : p = q := by
  have hcancel := (R.pow_injective T hm h).cancel_left_of_coprime (by rwa [Nat.gcd_comm])
  have := hcancel.eq_of_lt_of_lt (by omega) (by omega)
  omega

/-! ### DEC_CHIEN within the correction capability (R260, R292)

The positions of `P` are those of the shortened block: `pad` is added for the full block. -/

section
variable {iprim prim pad : Nat} {lam : List Half} (R : F.RootOf α) (T : F.Tables m poly) (hm : 2 ≤ m)
  (hinv : iprim * prim % F.n.toNat = 1) (hprim : Nat.gcd prim F.n.toNat = 1) (hP : ∀ p ∈ P, pad + p < F.n.toNat)
  (hlam : indexPoly F α lam = locatorPoly (fun p => positionPower F α prim (pad + p)) P)
include R T hm hinv hprim hP hlam

/-- The steps at which the locator vanishes are those whose position belongs to the pattern. -/
theorem evalIndexAt_eq_zero_iff_position (i : Nat) :
    evalIndexAt F lam i = 0 ↔ ∃ p ∈ P, (F.modn (i * iprim + F.n.toNat - 1)).toNat = pad + p := by
  have hvalue := bitEval_evalIndexAt R lam i
  have hzero : evalIndexAt F lam i = 0 ↔ (indexPoly F α lam).eval (α ^ i) = 0 := by
    rw [← hvalue]
    refine ⟨fun h => by rw [h, bitEval_toNat_zero], R.zero _ ?_⟩
    simp only [evalIndexAt, ← ite_not (nth lam _ = F.n)]
    exact xorSum_pow_le T _ _
  rw [hzero, hlam, locatorPoly_eval_eq_zero]
  exact exists_congr fun p => and_congr_right fun hp => root_iff_position R T hm hinv hprim (hP p hp) i

/-- Each root that the search finds is that of a position of the pattern. -/
theorem rootsFrom_located {r : Half × Half} (hr : r ∈ rootsFrom F iprim lam 1 F.n.toNat) :
    ∃ p ∈ P, r.2.toNat = pad + p ∧ positionPower F α prim (pad + p) * α ^ r.1.toNat = 1 := by
  obtain ⟨i, -, hi, h0, rfl⟩ := mem_rootsFrom hr
  obtain ⟨p, hp, hpos⟩ := (evalIndexAt_eq_zero_iff_position R T hm hinv hprim hP hlam i).mp h0
  rw [toNat_ofNat_half (hi.trans_lt F.n.isLt)]
  exact ⟨p, hp, hpos, (root_iff_position R T hm hinv hprim (hP p hp) i).mpr hpos⟩

/-- The search meets every position of the pattern. -/
theorem rootsFrom_covers {p : Nat} (hp : p ∈ P) : ∃ r ∈ rootsFrom F iprim lam 1 F.n.toNat, r.2.toNat = pad + p := by
  have hn := T.n_pos hm
  obtain ⟨i, h1, hi, hpos⟩ := exists_step_of_position (by omega) hinv hprim (hP p hp)
  have h0 := (evalIndexAt_eq_zero_iff_position R T hm hinv hprim hP hlam i).mpr ⟨p, hp, hpos⟩
  refine ⟨(BitVec.ofNat 16 i, F.modn (i * iprim + F.n.toNat - 1)), ?_, hpos⟩
  simp only [rootsFrom, List.mem_map, List.mem_filter, List.mem_range'_1, beq_iff_eq]
  exact ⟨i, ⟨⟨h1, by omega⟩, h0⟩, rfl⟩

/-- The search finds as many roots as the pattern has positions. -/
theorem rootsFrom_length : (rootsFrom F iprim lam 1 F.n.toNat).length = P.card := by
  have hn := T.n_pos hm
  have hnd := (rootsFrom_positions_nodup (lam := lam) (by omega) hinv).map fun _ _ => BitVec.eq_of_toNat_eq
  have himage : (((rootsFrom F iprim lam 1 F.n.toNat).map Prod.snd).map BitVec.toNat).toFinset = P.image (pad + ·) := by
    ext q
    simp only [List.mem_toFinset, List.mem_map, mem_image, exists_exists_and_eq_and]
    constructor
    · rintro ⟨r, hr, rfl⟩
      obtain ⟨p, hp, hpos, -⟩ := rootsFrom_located R T hm hinv hprim hP hlam hr
      exact ⟨p, hp, hpos.symm⟩
    · rintro ⟨p, hp, rfl⟩
      exact rootsFrom_covers R T hm hinv hprim hP hlam hp
  have hcard := List.toFinset_card_of_nodup hnd
  rw [himage, card_image_of_injective _ (add_right_injective pad)] at hcard
  simpa using hcard.symm

end

/-! ### DEC_FORNEY within the correction capability (R270, R292) -/

/-- Ω is the evaluator of the pattern (R270). -/
theorem indexPoly_omegaList (R : F.RootOf α) (T : F.Tables m poly) {syn lam : List Half} {nroots : Nat}
    (hsyn : P.card ≤ syn.length) (hlen : P.card ≤ lam.length) (hcard : P.card ≤ nroots)
    (hlam : indexPoly F α lam = locatorPoly x P)
    (hS : X ^ nroots ∣ indexPoly F α syn * locatorPoly x P - evaluatorPoly x z P) :
    indexPoly F α (omegaList F syn lam P.card) = evaluatorPoly x z P := by
  ext i
  by_cases hi : i < P.card
  · have hcoeff := X_pow_dvd_iff.mp hS i (by omega)
    rw [coeff_sub, sub_eq_zero] at hcoeff
    rw [indexPoly_coeff _ (by rwa [omegaList_length]), omegaList, nth_map_range hi, indexEval_log R T (omegaElement_le T _ _ _),
      bitEval_omegaElement R (by omega) (by omega), hlam, hcoeff]
  · rw [indexPoly_coeff_of_le F α (by rw [omegaList_length]; omega), evaluatorPoly_coeff_of_le (by omega)]

theorem forneyNum1_eq_evalIndexAt (F : GField) (omega : List Half) (root : Nat) :
    forneyNum1 F omega root = evalIndexAt F omega root := by
  simp only [forneyNum1, evalIndexAt, ite_not, ne_eq]

/-- What an entry of MAG adds to its symbol (R58, R280). -/
def appliedPattern (mag : Word) : Half := if magApply mag then magCor mag else 0

theorem appliedPattern_zero : appliedPattern 0 = 0 := by decide

/-- The APPLY flag over a magnitude, as DEC_FORNEY stores them (R58). -/
theorem appliedPattern_of_flagged (v : Half) : appliedPattern (BitVec.ofNat 32 (2 ^ 31 + v.toNat)) = v := by
  have hv := v.isLt
  have happly : magApply (BitVec.ofNat 32 (2 ^ 31 + v.toNat)) = true := by
    rw [magApply, BitVec.getLsbD_ofNat, Nat.testBit_two_pow_add_eq, Nat.testBit_lt_two_pow (by omega)]
    rfl
  rw [appliedPattern, if_pos happly]
  apply BitVec.eq_of_toNat_eq
  rw [magCor, BitVec.toNat_setWidth, BitVec.toNat_ofNat]
  omega

omit [CharP K 2] in
/-- Forney's quotient: with `num1 = z·δ` and `den = x·δ` at the root of a position, the magnitude is the error there (R271). -/
theorem forney_quotient {v zp xp ev δ : K} {fcr root k : Nat} (hδ : δ ≠ 0) (hx : xp * α ^ root = 1)
    (hzp : zp = ev * xp ^ fcr) (hk : α ^ k * α ^ root = α ^ (root * fcr)) (hv : v * (xp * δ) = zp * δ * α ^ k) : v = ev := by
  have hcancel : v * xp = zp * α ^ k := mul_right_cancel₀ hδ (by linear_combination hv)
  have hunit : xp ^ fcr * α ^ (root * fcr) = 1 := by rw [pow_mul, ← mul_pow, hx, one_pow]
  linear_combination -v * hx + α ^ root * hcancel + α ^ k * α ^ root * hzp + ev * xp ^ fcr * hk + ev * hunit

/-- A magnitude is the error at its position: DEC_FORNEY's quotient of `num1`, `α^(root·(fcr−1))` and `den` (R270, R292). -/
theorem forneyMag_value (R : F.RootOf α) (T : F.Tables m poly) (hm : 2 ≤ m) {omega lam : List Half}
    {deg nroots fcr pad root loc p : Nat} {ev : Half} (hlen : lam.length = nroots + 1) (hdeg : 1 ≤ deg) (hdeg' : deg ≤ nroots)
    (habove : ∀ j, deg < j → j ≤ nroots → nth lam j = F.n) (homega : indexPoly F α omega = evaluatorPoly x z P)
    (hlam : indexPoly F α lam = locatorPoly x P) (hinj : Set.InjOn x P) (hp : p ∈ P) (hroot : x p * α ^ root = 1)
    (hz : z p = bitEval α ev.toNat * x p ^ fcr) (hev : ev.toNat ≤ F.n.toNat) (hle : root ≤ F.n.toNat) (hpad : pad ≤ loc) :
    ∃ w, forneyMag F omega lam deg nroots fcr pad root loc = .ok w ∧ appliedPattern w = ev := by
  have hother := locatorPoly_erase_eval_ne_zero hinj hp hroot
  have hnum : bitEval α (forneyNum1 F omega root).toNat = z p * (locatorPoly x (P.erase p)).eval (α ^ root) := by
    rw [forneyNum1_eq_evalIndexAt, bitEval_evalIndexAt R, homega, evaluatorPoly_eval hp hroot]
  have hden : bitEval α (forneyDen F lam deg nroots root).toNat = x p * (locatorPoly x (P.erase p)).eval (α ^ root) := by
    rw [bitEval_forneyDen R hlen hdeg hdeg' habove, hlam, locatorPoly_derivative_eval hp hroot, CharTwo.neg_eq]
  have hx : x p ≠ 0 := left_ne_zero_of_mul_eq_one hroot
  have hnumle : (forneyNum1 F omega root).toNat ≤ F.n.toNat := xorSum_pow_le T _ _
  have hdenle : (forneyDen F lam deg nroots root).toNat ≤ F.n.toNat := xorSum_pow_le T _ _
  have hden0 : forneyDen F lam deg nroots root ≠ 0 := by
    intro h0
    rw [h0, bitEval_toNat_zero] at hden
    exact mul_ne_zero hx hother hden.symm
  obtain ⟨k, hk, hkroot⟩ : ∃ k : Nat, (root * (fcr - 1) + F.n.toNat : Int) = k ∧ k + root = root * fcr + F.n.toNat := by
    refine ⟨root * fcr + F.n.toNat - root, ?_, by omega⟩
    rw [Nat.cast_sub (by omega)]
    push_cast
    ring
  have hkα : α ^ k * α ^ root = α ^ (root * fcr) := by rw [← pow_add, hkroot, pow_add, R.order, mul_one]
  rw [forneyMag]
  simp only [hk, F.modnInt_of_nonneg (Int.natCast_nonneg k), Int.toNat_natCast, if_neg hden0, if_pos hpad]
  split
  · next h0 =>
    rw [h0, bitEval_toNat_zero, hz] at hnum
    have hev0 : bitEval α ev.toNat = 0 :=
      (mul_eq_zero.mp ((mul_eq_zero.mp hnum.symm).resolve_right hother)).resolve_right (pow_ne_zero _ hx)
    exact ⟨0, rfl, appliedPattern_zero.trans (R.zero _ hev hev0).symm⟩
  · next h0 =>
    have hlog := T.log_le (forneyDen F lam deg nroots root)
    have hmod := F.modn_lt k (by have := T.n_pos hm; omega)
    obtain ⟨i, hi, hiden⟩ : ∃ i : Nat, ((F.log (forneyNum1 F omega root)).toNat + (F.modn k).toNat + F.n.toNat -
        (F.log (forneyDen F lam deg nroots root)).toNat : Int) = i ∧ i + (F.log (forneyDen F lam deg nroots root)).toNat =
          (F.log (forneyNum1 F omega root)).toNat + (F.modn k).toNat + F.n.toNat :=
      ⟨(F.log (forneyNum1 F omega root)).toNat + (F.modn k).toNat + F.n.toNat -
        (F.log (forneyDen F lam deg nroots root)).toNat, by omega, by omega⟩
    rw [T.log_alpha _ hmod, hi, F.modnInt_of_nonneg (Int.natCast_nonneg i), Int.toNat_natCast]
    refine ⟨_, rfl, (appliedPattern_of_flagged _).trans (R.bitEval_injective T (T.pow_le i) hev ?_)⟩
    refine forney_quotient hother hroot hz hkα ?_
    rw [← hden, ← hnum, R.bitEval_of_ne_zero T h0 hnumle, R.bitEval_of_ne_zero T hden0 hdenle, ← GField.pow, R.pow, ← pow_add,
      hiden, pow_add, pow_add, R.order, mul_one, F.modn_toNat _ (by omega), ← pow_eq_pow_mod k R.order]

end

end Sys2Proof.Machine

namespace Sys2Proof.Machine

open Finset Polynomial

/-! ### A received block against the block sent (R292) -/

/-- What R292 asks of a block `sent` of the code, the block received and its erasures. -/
structure State.Correctable (s : State) (e : Bool) (sent : List Half) : Prop where
  inv        : s.Inv
  ready      : s.BlockReady e
  length     : sent.length = s.len.toNat + s.nroots
  elements   : ∀ x ∈ sent, x.toNat ≤ s.n
  codeword   : ∀ i < s.nroots, evalAt s.field sent.reverse ((s.fcr + i) * s.prim) = 0
  distinct   : (s.erasedPositions e).Nodup
  capability : 2 * s.unmarkedErrors e sent + s.effectiveErasures e ≤ s.nroots

/-- What was added to the symbol at the shortened-block position `p`. -/
def State.errorAt (s : State) (sent : List Half) (p : Nat) : Half := nth s.blockSymbols p ^^^ nth sent p

/-- The erasures as a set of positions. -/
def State.erasureSet (s : State) (e : Bool) : Finset Nat := (s.erasedPositions e).toFinset

/-- The positions that a decode within the correction capability locates: the erasures and the errors (R282, R292). -/
def State.pattern (s : State) (e : Bool) (sent : List Half) : Finset Nat :=
  s.erasureSet e ∪ (s.wrongPositions sent).toFinset

theorem State.blockSymbols_length (s : State) : s.blockSymbols.length = s.len.toNat + s.nroots := by
  simp [State.blockSymbols]

theorem State.mem_wrongPositions {s : State} {sent : List Half} {p : Nat} :
    p ∈ s.wrongPositions sent ↔ p < sent.length ∧ s.errorAt sent p ≠ 0 := by
  rw [State.wrongPositions, List.mem_filter, List.mem_range, bne_iff_ne]
  exact and_congr_right fun _ => not_congr BitVec.xor_eq_zero_iff.symm

theorem State.wrongPositions_nodup (s : State) (sent : List Half) : (s.wrongPositions sent).Nodup :=
  List.nodup_range.filter _

theorem State.errorAt_ne_zero {s : State} {e : Bool} {sent : List Half} {p : Nat} (hp : p ∈ s.pattern e sent \ s.erasureSet e) :
    s.errorAt sent p ≠ 0 := by
  obtain ⟨hp, hpE⟩ := mem_sdiff.mp hp
  have hwrong := (mem_union.mp hp).resolve_left hpE
  exact (State.mem_wrongPositions.mp (List.mem_toFinset.mp hwrong)).2

/-- The errors that are no erasures are counted by `unmarkedErrors`. -/
theorem State.pattern_sdiff_card (s : State) (e : Bool) (sent : List Half) :
    (s.pattern e sent \ s.erasureSet e).card = s.unmarkedErrors e sent := by
  have hset : s.pattern e sent \ s.erasureSet e =
      ((s.wrongPositions sent).filter fun p => !(s.erasedPositions e).contains p).toFinset := by
    ext p
    simp only [State.pattern, State.erasureSet, union_sdiff_left, mem_sdiff, List.mem_toFinset, List.mem_filter,
      List.contains_eq_mem, Bool.not_eq_true', decide_eq_false_iff_not]
  rw [hset, List.toFinset_card_of_nodup ((s.wrongPositions_nodup sent).filter _), State.unmarkedErrors]

namespace State.Correctable

variable {s : State} {e : Bool} {sent : List Half}

theorem valid (H : s.Correctable e sent) : s.status.cfgValid = true := H.ready.configured.1

theorem committed (H : s.Correctable e sent) : s.active.Committed := H.inv.committed H.valid

theorem tables (H : s.Correctable e sent) : s.field.Tables s.active.actM.toNat s.active.actPoly.toNat := H.inv.tables H.valid

theorem m_ge (H : s.Correctable e sent) : 2 ≤ s.active.actM.toNat := H.committed.m_range.1

theorem blockSymbols_le (H : s.Correctable e sent) : ∀ c ∈ s.blockSymbols, c.toNat ≤ s.n := by
  have and_le (x : Half) : (x &&& s.active.actN).toNat ≤ s.active.actN.toNat := by
    rw [BitVec.toNat_and]
    exact Nat.and_le_right
  intro c hc
  rcases List.mem_append.mp hc with hc | hc <;> obtain ⟨d, -, rfl⟩ := List.mem_map.mp hc
  · exact xor_le_two_pow_sub_one H.committed.n_eq (and_le d) (and_le s.invmask)
  · exact and_le d

theorem errorAt_le (H : s.Correctable e sent) (p : Nat) : (s.errorAt sent p).toNat ≤ s.n :=
  xor_le_two_pow_sub_one H.committed.n_eq (nth_le H.blockSymbols_le p) (nth_le H.elements p)

theorem erasureSet_card (H : s.Correctable e sent) : (s.erasureSet e).card = s.effectiveErasures e := by
  rw [State.erasureSet, List.toFinset_card_of_nodup H.distinct, State.erasedPositions, List.length_map, List.length_range]

/-- A valid erasure position is one of the block, and its word is not negative (R222). -/
theorem erasure_word (H : s.Correctable e sent) {k : Nat} (hk : k < s.effectiveErasures e) :
    ∃ w : Word, s.mem.word (entryAddr .eras k) = some w ∧ w.toInt = w.toNat ∧ w.toNat < s.len.toNat + s.nroots := by
  obtain ⟨w, hw, h0, hlt⟩ := H.ready.erasures.2 k hk
  have hnat : w.toInt = w.toNat := by
    have hlt := w.isLt
    have hcond := BitVec.toInt_eq_toNat_cond w
    split at hcond <;> omega
  exact ⟨w, hw, hnat, by omega⟩

/-- The positions of the pattern are those of the block. -/
theorem pattern_lt (H : s.Correctable e sent) {p : Nat} (hp : p ∈ s.pattern e sent) : p < s.len.toNat + s.nroots := by
  rcases mem_union.mp hp with hp | hp
  · obtain ⟨k, hk, rfl⟩ := List.mem_map.mp (List.mem_toFinset.mp hp)
    obtain ⟨w, hw, -, hlt⟩ := H.erasure_word (List.mem_range.mp hk)
    rwa [hw]
  · rw [← H.length]
    exact (State.mem_wrongPositions.mp (List.mem_toFinset.mp hp)).1

theorem pad_add (H : s.Correctable e sent) : s.pad + (s.len.toNat + s.nroots) = s.n := by
  have := H.ready.len_fits
  rw [State.pad]
  omega

theorem pad_add_lt (H : s.Correctable e sent) {p : Nat} (hp : p ∈ s.pattern e sent) : s.pad + p < s.field.n.toNat := by
  have := H.pattern_lt hp
  have := H.pad_add
  show s.pad + p < s.n
  omega

/-- Outside the pattern nothing was added. -/
theorem errorAt_of_notMem (H : s.Correctable e sent) {p : Nat} (hp : p ∉ s.pattern e sent) : s.errorAt sent p = 0 := by
  by_contra h0
  by_cases hlt : p < sent.length
  · exact hp (mem_union_right _ (List.mem_toFinset.mpr (State.mem_wrongPositions.mpr ⟨hlt, h0⟩)))
  · rw [State.errorAt, nth_of_length_le (by rw [s.blockSymbols_length, ← H.length]; omega), nth_of_length_le (by omega)] at h0
    exact h0 rfl

theorem pattern_card (H : s.Correctable e sent) :
    (s.pattern e sent).card = s.unmarkedErrors e sent + s.effectiveErasures e := by
  have hcard := card_sdiff_add_card_eq_card (show s.erasureSet e ⊆ s.pattern e sent from subset_union_left)
  rw [← hcard, s.pattern_sdiff_card, H.erasureSet_card]

theorem pattern_card_le (H : s.Correctable e sent) : (s.pattern e sent).card ≤ s.nroots := by
  have := H.capability
  rw [H.pattern_card]
  omega

end State.Correctable

/-! ### The syndromes of a received block (R220, R224) -/

section
variable {K : Type} [Field K]

/-- The power of `α` for the shortened-block position `p` (R231). -/
noncomputable def State.power (s : State) (α : K) (p : Nat) : K := positionPower s.field α s.prim (s.pad + p)

/-- The weight of position `p` in the syndromes: the error there, times the power of the first root (R224). -/
noncomputable def State.weight (s : State) (α : K) (sent : List Half) (p : Nat) : K :=
  bitEval α (s.errorAt sent p).toNat * s.power α p ^ s.fcr

/-- The syndromes in index form, as S holds them (R220). -/
def State.indexSyndromes (s : State) : List Half := (syndromes s.field s.nroots s.fcr s.prim s.blockSymbols).map s.field.log

theorem State.indexSyndromes_length (s : State) : s.indexSyndromes.length = s.nroots := by
  rw [State.indexSyndromes, List.length_map, syndromes_length]

variable {s : State} {e : Bool} {sent : List Half} {α : K}

namespace State.Correctable

/-- The power of a position, in the shortened block (R231). -/
theorem power_eq (H : s.Correctable e sent) (p : Nat) : s.power α p = α ^ (s.prim * (s.len.toNat + s.nroots - 1 - p)) := by
  have hpad := H.pad_add
  rw [State.power, positionPower, show s.field.n.toNat - 1 - (s.pad + p) = s.len.toNat + s.nroots - 1 - p by
    show s.n - 1 - (s.pad + p) = _
    omega]

theorem power_ne_zero (H : s.Correctable e sent) (R : s.field.RootOf α) (p : Nat) : s.power α p ≠ 0 :=
  positionPower_ne_zero R (by have := H.tables.n_pos H.m_ge; omega) _ _

theorem power_injOn [CharP K 2] (H : s.Correctable e sent) (R : s.field.RootOf α) :
    Set.InjOn (s.power α) (s.pattern e sent) := fun p hp q hq h => by
  have := positionPower_injective R H.tables H.m_ge H.committed.prim_range.2.2 (H.pad_add_lt hp) (H.pad_add_lt hq) h
  omega

theorem weight_ne_zero (H : s.Correctable e sent) (R : s.field.RootOf α) {p : Nat}
    (hp : p ∈ s.pattern e sent \ s.erasureSet e) : s.weight α sent p ≠ 0 :=
  mul_ne_zero (fun h => State.errorAt_ne_zero hp (R.zero _ (H.errorAt_le p) h)) (pow_ne_zero _ (H.power_ne_zero R p))

/-- A block of the code adds nothing to a syndrome, so a syndrome is the sum over the pattern (R203, R224). -/
theorem syndrome_eq_sum [CharP K 2] (H : s.Correctable e sent) (R : s.field.RootOf α) {i : Nat} (hi : i < s.nroots) :
    bitEval α (syndrome s.field ((s.fcr + i) * s.prim) s.blockSymbols).toNat =
      ∑ p ∈ s.pattern e sent, s.weight α sent p * s.power α p ^ i := by
  have T := H.tables
  have hsent : blockEval α (α ^ ((s.fcr + i) * s.prim)) sent = 0 := by
    rw [← elementPoly_reverse_eval]
    exact (evalAt_eq_zero_iff R T (fun a ha => H.elements a (List.mem_reverse.mp ha)) _).mp (H.codeword i hi)
  have hterm (p : Nat) : s.weight α sent p * s.power α p ^ i =
      bitEval α (s.errorAt sent p).toNat * (α ^ ((s.fcr + i) * s.prim)) ^ (s.len.toNat + s.nroots - 1 - p) := by
    rw [State.weight, mul_assoc, ← pow_add, H.power_eq, ← pow_mul, ← pow_mul]
    ring_nf
  have hsub : s.pattern e sent ⊆ range (s.len.toNat + s.nroots) := fun p hp => mem_range.mpr (H.pattern_lt hp)
  simp only [hterm]
  calc bitEval α (syndrome s.field ((s.fcr + i) * s.prim) s.blockSymbols).toNat
      = blockEval α (α ^ ((s.fcr + i) * s.prim)) s.blockSymbols + blockEval α (α ^ ((s.fcr + i) * s.prim)) sent := by
        rw [(syndrome_value R T _ H.blockSymbols_le).2, hsent, add_zero]
    _ = ∑ p ∈ range (s.len.toNat + s.nroots),
          bitEval α (s.errorAt sent p).toNat * (α ^ ((s.fcr + i) * s.prim)) ^ (s.len.toNat + s.nroots - 1 - p) := by
        rw [blockEval_eq_sum, blockEval_eq_sum, s.blockSymbols_length, H.length, ← sum_add_distrib]
        refine sum_congr rfl fun p _ => ?_
        rw [State.errorAt, BitVec.toNat_xor, bitEval_xor]
        exact (add_mul _ _ _).symm
    _ = _ := by
        refine (sum_subset hsub fun p _ hp => ?_).symm
        rw [H.errorAt_of_notMem hp, bitEval_toNat_zero, zero_mul]

theorem syndrome_le [CharP K 2] (H : s.Correctable e sent) (R : s.field.RootOf α) (i : Nat) :
    (syndrome s.field ((s.fcr + i) * s.prim) s.blockSymbols).toNat ≤ s.n :=
  (syndrome_value R H.tables _ H.blockSymbols_le).1

/-- The key equation of the pattern, for the syndromes as S holds them (R271). -/
theorem key_equation [CharP K 2] (H : s.Correctable e sent) (R : s.field.RootOf α) :
    X ^ s.nroots ∣ indexPoly s.field α s.indexSyndromes * locatorPoly (s.power α) (s.pattern e sent) -
      evaluatorPoly (s.power α) (s.weight α sent) (s.pattern e sent) := by
  refine key_equation_of_coeff fun i hi => ?_
  have hlen := s.indexSyndromes_length
  rw [indexPoly_coeff _ (by omega), State.indexSyndromes, nth_map (by rwa [syndromes_length]), syndromes, nth_map_range hi,
    indexEval_log R H.tables (H.syndrome_le R i), H.syndrome_eq_sum R hi]

/-- A block within the correction capability whose syndromes are all 0 is the block sent (R292). -/
theorem errorAt_eq_zero_of_clean [CharP K 2] (H : s.Correctable e sent) (R : s.field.RootOf α)
    (h : ∀ i < s.nroots, syndrome s.field ((s.fcr + i) * s.prim) s.blockSymbols = 0) (p : Nat) : s.errorAt sent p = 0 := by
  by_cases hp : p ∈ s.pattern e sent
  · have hweight := weight_eq_zero_of_syndromes (z := s.weight α sent) (fun p _ => H.power_ne_zero R p) (H.power_injOn R)
      H.pattern_card_le (fun i hi => by rw [← H.syndrome_eq_sum R hi, h i hi, bitEval_toNat_zero]) hp
    exact R.zero _ (H.errorAt_le p) ((mul_eq_zero.mp hweight).resolve_right (pow_ne_zero _ (H.power_ne_zero R p)))
  · exact H.errorAt_of_notMem hp

/-- A block without errors has no syndrome but 0 (R203). -/
theorem syndrome_eq_zero [CharP K 2] (H : s.Correctable e sent) (R : s.field.RootOf α) (h : ∀ p, s.errorAt sent p = 0) {i : Nat}
    (hi : i < s.nroots) : syndrome s.field ((s.fcr + i) * s.prim) s.blockSymbols = 0 := by
  refine R.zero _ (H.syndrome_le R i) ?_
  rw [H.syndrome_eq_sum R hi]
  exact sum_eq_zero fun p _ => by rw [State.weight, h p, bitEval_toNat_zero, zero_mul, zero_mul]

end State.Correctable

end

/-- Two blocks of one length that differ nowhere are equal. -/
theorem eq_of_forall_nth {l r : List Half} (hlen : l.length = r.length) (h : ∀ p < l.length, nth l p = nth r p) : l = r :=
  List.ext_getElem hlen fun p hp hp' => by rw [← nth_of_lt, ← nth_of_lt, h p hp]

end Sys2Proof.Machine

namespace Sys2Proof.Machine

open Finset Polynomial

/-! ### A clean block (R220) -/

theorem foldl_or_eq_zero {l : List Half} {x : Half} : l.foldl (· ||| ·) x = 0 ↔ x = 0 ∧ ∀ a ∈ l, a = 0 := by
  induction l generalizing x with
  | nil => simp
  | cons a l ih =>
    rw [List.foldl_cons, ih, List.forall_mem_cons, ← and_assoc]
    exact and_congr_left' BitVec.or_eq_zero_iff

/-- DEC_SYN finds a block clean exactly when all its syndromes are 0 (R220). -/
theorem synWritten_idle_iff {s : State} {e c : Bool} {block : List Half} :
    (s.synWritten e c block).status.dstage = .idle ↔ ∀ i < s.nroots, syndrome s.field ((s.fcr + i) * s.prim) block = 0 := by
  have hor : orAll (syndromes s.field s.nroots s.fcr s.prim block) = 0 ↔
      ∀ i < s.nroots, syndrome s.field ((s.fcr + i) * s.prim) block = 0 := by
    rw [orAll, foldl_or_eq_zero, syndromes]
    simp
  rw [← hor]
  simp [State.synWritten]

/-- An entry of the files below the working files stays with the bytes there. -/
theorem Memory.SameOutsideWork.entry {m m' : Memory} (h : m.SameOutsideWork m') {f : RegFile} (hf : f.base + 0x40000 ≤ 0x200000)
    {i : Nat} (hi : i < 65536) : Memory.SameEntry f i m m' := fun b hb => h _ (.inl (by unfold entryAddr; omega))

/-! ### The stages up to DEC_FORNEY (R44, R46, R90) -/

/-- `u` is a state of the decode of the block of `s` before DEC_APPLY: the configuration and the latches stand, S holds the
syndromes, and only working files have been written. -/
structure State.Decoding (s : State) (e c : Bool) (u : State) : Prop where
  inv       : u.Inv
  active    : u.active = s.active
  latches   : u.latches = s.latched e c
  field     : u.field = s.field
  outside   : s.mem.SameOutsideWork u.mem
  syndromes : u.halves .s s.nroots = s.indexSyndromes

namespace State.Decoding

variable {s u v : State} {e c : Bool}

theorem n_eq (D : s.Decoding e c u) : u.n = s.n := congrArg (fun a => a.actN.toNat) D.active

theorem nroots_eq (D : s.Decoding e c u) : u.nroots = s.nroots := congrArg (fun a => a.actNroots.toNat) D.active

theorem fcr_eq (D : s.Decoding e c u) : u.fcr = s.fcr := congrArg (fun a => a.actFcr.toNat) D.active

theorem prim_eq (D : s.Decoding e c u) : u.prim = s.prim := congrArg (fun a => a.actPrim.toNat) D.active

theorem pad_eq (D : s.Decoding e c u) : u.latches.dPad.toNat = s.pad := by
  rw [D.latches, latched_dPad, State.pad]

theorem noEras_eq (D : s.Decoding e c u) : u.latches.dNoEras.toNat = s.effectiveErasures e := by
  rw [D.latches]
  exact toNat_ofNat_half (s.effectiveErasures_lt e)

theorem advance (D : s.Decoding e c u) (I : v.Inv) (fr : u.Frame v) (sf : u.StageFrame v)
    (hs : Memory.SameFile .s u.mem v.mem) : s.Decoding e c v where
  inv       := I
  active    := fr.active.trans D.active
  latches   := sf.latches.trans D.latches
  field     := fr.field.trans D.field
  outside   := D.outside.trans sf.outside
  syndromes := (State.halves_congr hs s.nroots_lt.le).trans D.syndromes

end State.Decoding

section
variable {s u v : State} {e c : Bool} {sent : List Half} {K : Type} [Field K] [CharP K 2] {α : K}

theorem State.Correctable.decoding_syn (H : s.Correctable e sent) (c : Bool) :
    s.Decoding e c (s.synWritten e c s.blockSymbols) := by
  have h1 := decSynBody_of_block (e := e) (c := c) (State.block_of_written H.ready.data_written H.ready.par_written)
  exact ⟨decSynBody_keeps_inv H.inv (decSynCheck_of_ready H.ready) h1, rfl, rfl, (decSynBody_frame h1).field,
    decSynBody_outside h1, State.halves_putHalves rfl s.indexSyndromes_length s.nroots_lt.le⟩

/-! ### DEC_ERAS (R230) -/

theorem State.Decoding.eras (D : s.Decoding e c u) (hd : u.status.dstage = .syn) (h : decErasBody u = .ok v) :
    s.Decoding e c v := by
  refine D.advance (decErasBody_keeps_inv D.inv hd h) (decErasBody_frame h) (decErasBody_stageFrame h) ?_
  obtain ⟨us, -, rfl⟩ := decErasBody_eq_ok.mp h
  exact u.mem.sameFile_putHalves _ (by rw [erasureLocator_length]; exact u.nroots_lt) (by decide)

/-- The exponents of DEC_ERAS are those of the erasure positions (R231). -/
theorem State.Correctable.erasure_exponents (H : s.Correctable e sent) (D : s.Decoding e c u) {us : List Half}
    (hus : mapE u.erasureExponent (List.range u.latches.dNoEras.toNat) = .ok us) :
    us.map BitVec.toNat = (s.erasedPositions e).map fun p => s.prim * (s.n - 1 - (s.pad + p)) % s.n := by
  have hcount := s.effectiveErasures_lt e
  have hpad := H.pad_add
  rw [D.noEras_eq] at hus
  have hlen : us.length = s.effectiveErasures e := (mapE_length hus).trans List.length_range
  refine List.ext_getElem (by simp [State.erasedPositions, hlen]) fun k hk _ => ?_
  rw [List.length_map] at hk
  obtain ⟨w, hw, hint, hlt⟩ := H.erasure_word (hlen ▸ hk)
  have hget := mapE_getElem hus hk
  rw [List.getElem_range] at hget
  have hu := erasureExponent_toNat (s := u) (by rw [D.n_eq]; omega)
    ((D.outside.entry (f := .eras) (by decide) (by omega)).word.trans hw) (by omega) (by rw [D.pad_eq, D.n_eq]; omega) hget
  rw [D.prim_eq, D.n_eq, D.pad_eq] at hu
  simp [State.erasedPositions, hu, hw]

/-- DEC_ERAS leaves the locator of the erasures in LAMBDA (R230). -/
theorem State.Correctable.erasureLocator_eq (H : s.Correctable e sent) (R : s.field.RootOf α) (D : s.Decoding e c u)
    (h : decErasBody u = .ok v) :
    LocatorAt s.field v.locator (s.erasureSet e).card ∧
      elementPoly α v.locator = locatorPoly (s.power α) (s.erasureSet e) := by
  have hn := H.tables.n_pos H.m_ge
  have hlenE : (s.erasedPositions e).length = s.effectiveErasures e := by simp [State.erasedPositions]
  obtain ⟨us, hus, rfl⟩ := decErasBody_eq_ok.mp h
  have hexp := H.erasure_exponents D hus
  have hlen : us.length = s.effectiveErasures e := by simpa [hlenE] using congrArg List.length hexp
  have hlt : ∀ a ∈ us, a.toNat < s.field.n.toNat := fun a ha => by
    obtain ⟨p, -, hp⟩ := List.mem_map.mp (hexp ▸ List.mem_map_of_mem ha)
    rw [← hp]
    exact Nat.mod_lt _ (show 0 < s.field.n.toNat by omega)
  obtain ⟨hL, hpoly⟩ := erasureLocator_spec R H.tables H.m_ge (hlen ▸ H.ready.erasures.1) hlt
  have hloc : ((u.setMem (u.mem.putHalves .lambda 0 (erasureLocator u.field u.nroots us))).setStage .eras).locator =
      erasureLocator s.field s.nroots us := by
    rw [D.field, D.nroots_eq]
    exact (congrArg _ (congrArg (· + 1) D.nroots_eq)).trans
      (State.halves_putHalves rfl (erasureLocator_length _ _ _) s.nroots_lt)
  rw [hloc]
  refine ⟨by rwa [H.erasureSet_card, ← hlen], ?_⟩
  have hfactor : us.map (fun a => 1 + C (α ^ a.toNat) * X) = (s.erasedPositions e).map fun p => 1 - C (s.power α p) * X := by
    have := congrArg (List.map fun k : Nat => (1 + C (α ^ k) * X : K[X])) hexp
    rw [List.map_map, List.map_map] at this
    refine this.trans (List.map_congr_left fun p _ => ?_)
    rw [CharTwo.sub_eq_add, Function.comp_apply, State.power, positionPower]
    exact congrArg (fun y => 1 + C y * X) (pow_eq_pow_mod _ R.order).symm
  rw [hpoly, hfactor, locatorPoly, State.erasureSet, List.prod_toFinset _ H.distinct]

/-! ### DEC_BM (R240) -/

/-- DEC_ERAS has left the constant coefficient 1. -/
theorem State.Inv.nth_locator_zero (I : u.Inv) (hd : u.status.dstage = .eras) : nth u.locator 0 = 1 := by
  rw [State.locator, State.halves, nth_map_range (Nat.succ_pos _), (I.decode (by simp [hd])).lam_one hd]
  rfl

/-- DEC_BM runs its loop on LAMBDA and S, and stores lists of the length of LAMBDA (R240). -/
theorem decBmBody_loop (I : u.Inv) (hd : u.status.dstage = .eras) (h : decBmBody u = .ok v) :
    ∃ w, bmLoop u.field (u.halves .s u.nroots) u.latches.dNoEras.toNat u.nroots
        { lam := u.locator, b := u.locator.map u.field.log, el := u.latches.dNoEras.toNat } = .ok w ∧
      w.lam.length = u.nroots + 1 ∧ w.b.length = u.nroots + 1 ∧ v.active = u.active ∧
      v.mem = (u.mem.putHalves .lambda 0 (w.lam.map u.field.log)).putHalves .b 0 w.b := by
  obtain ⟨lam, syn, w, deg, hlam, hsyn, hw, -, rfl⟩ := decBmBody_eq_ok.mp h
  obtain rfl : lam = u.locator := (Memory.written_of_getHalves rfl hlam).2
  obtain rfl : syn = u.halves .s u.nroots := (Memory.written_of_getHalves rfl hsyn).2
  have hlen : u.locator.length = u.nroots + 1 := State.halves_length _ _ _
  obtain ⟨hl, hb, -⟩ := bmLoop_shape (Nat.succ_pos _) ⟨hlen, by rwa [List.length_map], I.nth_locator_zero hd⟩ hw
  exact ⟨w, hw, hl, hb, rfl, rfl⟩

theorem State.Decoding.bm (D : s.Decoding e c u) (hd : u.status.dstage = .eras) (h : decBmBody u = .ok v) :
    s.Decoding e c v := by
  have hnr := u.nroots_lt
  refine D.advance (decBmBody_keeps_inv D.inv hd h) (decBmBody_frame h)
    (decBmBody_stageFrame ((D.inv.decode (by simp [hd])).lam_one hd) h) ?_
  obtain ⟨w, -, hl, hb, -, hmem⟩ := decBmBody_loop D.inv hd h
  rw [hmem]
  exact (Memory.sameFile_putHalves _ _ (by rw [List.length_map]; omega) (by decide)).trans
    (Memory.sameFile_putHalves _ _ (by omega) (by decide))

/-- LAMBDA after DEC_BM is the Λ of its loop in index form (R240). -/
theorem decBmBody_locator (I : u.Inv) (hd : u.status.dstage = .eras) (h : decBmBody u = .ok v) :
    ∃ w, bmLoop u.field (u.halves .s u.nroots) u.latches.dNoEras.toNat u.nroots
        { lam := u.locator, b := u.locator.map u.field.log, el := u.latches.dNoEras.toNat } = .ok w ∧
      v.locator = w.lam.map u.field.log := by
  have hnr := u.nroots_lt
  obtain ⟨w, hw, hl, hb, hact, hmem⟩ := decBmBody_loop I hd h
  have hsame : Memory.SameFile .lambda (u.mem.putHalves .lambda 0 (w.lam.map u.field.log)) v.mem := by
    rw [hmem]
    exact Memory.sameFile_putHalves _ _ (by omega) (by decide)
  refine ⟨w, hw, ?_⟩
  rw [State.locator, show v.nroots = u.nroots by rw [State.nroots, hact]; rfl,
    State.halves_congr (s := u.setMem (u.mem.putHalves .lambda 0 (w.lam.map u.field.log))) hsame hnr]
  exact State.halves_putHalves rfl (by rwa [List.length_map]) hnr

/-- Within the correction capability DEC_BM leaves the locator of the pattern in LAMBDA (R292). -/
theorem State.Correctable.locator_eq (H : s.Correctable e sent) (R : s.field.RootOf α) (D : s.Decoding e c u)
    (hd : u.status.dstage = .eras) (hL : LocatorAt s.field u.locator (s.erasureSet e).card)
    (hpoly : elementPoly α u.locator = locatorPoly (s.power α) (s.erasureSet e)) (h : decBmBody u = .ok v) :
    indexPoly s.field α v.locator = locatorPoly (s.power α) (s.pattern e sent) := by
  have hcap := H.capability
  obtain ⟨w, hw, hloc⟩ := decBmBody_locator D.inv hd h
  rw [D.field, D.nroots_eq, D.noEras_eq, ← H.erasureSet_card, D.syndromes] at hw
  rw [hloc, D.field]
  exact bmLoop_finds_locator R H.tables H.m_ge s.indexSyndromes_length (by rw [State.locator, State.halves_length, D.nroots_eq])
    hL (D.inv.nth_locator_zero hd) hpoly subset_union_left (fun p _ => H.power_ne_zero R p) (H.power_injOn R)
    (fun p hp => H.weight_ne_zero R hp) (H.key_equation R) (by rw [s.pattern_sdiff_card, H.erasureSet_card]; exact hcap) hw

/-! ### DEC_CHIEN (R260 to R262) -/

omit [CharP K 2] in
/-- The degree in DEG_LAMBDA is that of the polynomial (R250). -/
theorem State.LocatorDone.natDegree (L : u.LocatorDone) (hα : α ≠ 0) :
    (indexPoly u.field α u.locator).natDegree = u.scalars.degLambda.toNat := by
  have hlen : u.locator.length = u.nroots + 1 := State.halves_length _ _ _
  have hdeg := L.degree
  refine natDegree_eq_of_le_of_coeff_ne_zero (natDegree_le_iff_coeff_eq_zero.mpr fun j hj => ?_) ?_
  · by_cases hj' : j < u.locator.length
    · rw [indexPoly_coeff _ hj']
      exact if_pos (L.above j hj (by omega))
    · exact indexPoly_coeff_of_le _ _ (by omega)
  · rw [indexPoly_coeff _ (by omega)]
    exact (if_neg L.leading).trans_ne (pow_ne_zero _ hα)

/-- DEC_CHIEN has located every position of the pattern, and nothing else (R260, R261). -/
structure State.PatternLocated (s : State) (α : K) (P : Finset Nat) (u : State) : Prop where
  locator : indexPoly s.field α u.locator = locatorPoly (s.power α) P
  degree  : u.scalars.degLambda.toNat = P.card
  count   : u.scalars.nrootsFound.toNat = P.card
  located : ∀ j < P.card, ∃ p ∈ P, (nth u.positions j).toNat = s.pad + p ∧ s.power α p * α ^ (nth u.roots j).toNat = 1
  covers  : ∀ p ∈ P, ∃ j < P.card, (nth u.positions j).toNat = s.pad + p

/-- The entries of ROOT and LOC after DEC_CHIEN. -/
theorem nth_chienWritten (u : State) (lam : List Half) {j : Nat} (hj : j < (u.chienFound lam).length) :
    nth (u.chienWritten lam).roots j = (u.chienFound lam)[j].1 ∧
      nth (u.chienWritten lam).positions j = (u.chienFound lam)[j].2 := by
  have hcount : (u.chienWritten lam).scalars.nrootsFound.toNat = (u.chienFound lam).length :=
    toNat_ofNat_half (u.chienFound_length_lt lam)
  obtain ⟨hroot, hpos⟩ := chienWritten_entry u lam hj
  constructor
  · rw [State.roots, State.halves, nth_map_range (by omega), hroot, Option.getD_some]
  · rw [State.positions, State.halves, nth_map_range (by omega), hpos, Option.getD_some]

section
variable (H : s.Correctable e sent) (R : s.field.RootOf α) (D : s.Decoding e c u) (hd : u.status.dstage = .bm)
  (hlam : indexPoly s.field α u.locator = locatorPoly (s.power α) (s.pattern e sent))
include H R D hd hlam

omit [CharP K 2] in
theorem degLambda_eq_pattern_card : u.scalars.degLambda.toNat = (s.pattern e sent).card := by
  have L := (D.inv.decode (by simp [hd])).locator (.inl hd)
  have hα := R.ne_zero (by have := H.tables.n_pos H.m_ge; omega)
  rw [← L.natDegree hα, D.field, hlam, locatorPoly_natDegree fun p _ => H.power_ne_zero R p]

/-- With the locator of the pattern in LAMBDA the search finds all the steps whose position belongs to the pattern. -/
theorem chienFound_pattern :
    (u.chienFound u.locator).length = (s.pattern e sent).card ∧
    (∀ r ∈ u.chienFound u.locator,
      ∃ p ∈ s.pattern e sent, r.2.toNat = s.pad + p ∧ s.power α p * α ^ r.1.toNat = 1) ∧
    ∀ p ∈ s.pattern e sent, ∃ r ∈ u.chienFound u.locator, r.2.toNat = s.pad + p := by
  have C := H.committed
  have inDec := D.inv.decode (by simp [hd])
  have hlength := rootsFrom_length R H.tables H.m_ge C.iprim_inv C.prim_range.2.2 (fun p => H.pad_add_lt (p := p)) hlam
  have hfound : u.chienFound u.locator = rootsFrom s.field s.active.iprim.toNat u.locator 1 s.field.n.toNat := by
    rw [chienFound_eq D.inv inDec.valid (inDec.locator (.inl hd)), degLambda_eq_pattern_card H R D hd hlam, D.field, D.active,
      D.n_eq]
    exact List.take_of_length_le hlength.le
  rw [hfound]
  exact ⟨hlength,
    fun r hr => rootsFrom_located R H.tables H.m_ge C.iprim_inv C.prim_range.2.2 (fun p => H.pad_add_lt (p := p)) hlam hr,
    fun p hp => rootsFrom_covers R H.tables H.m_ge C.iprim_inv C.prim_range.2.2 (fun p => H.pad_add_lt (p := p)) hlam hp⟩

/-- DEC_CHIEN of a dirty block within the correction capability goes on, with every position located (R262, R292). -/
theorem decChienBody_of_correctable (hne : (s.pattern e sent).Nonempty) :
    ∃ v, decChienBody Config.padRootPolicy u = .ok v ∧ v.status.dstage = .chien ∧ s.Decoding e c v ∧
      s.PatternLocated α (s.pattern e sent) v := by
  have inDec := D.inv.decode (by simp [hd])
  have hdeg := degLambda_eq_pattern_card H R D hd hlam
  obtain ⟨hlen, hloc, hcov⟩ := chienFound_pattern H R D hd hlam
  have hbody := decChienBody_of_inv D.inv hd
  have hgoes : ¬uncorrectable Config.padRootPolicy u.scalars.degLambda.toNat u.latches.dPad.toNat (u.chienFound u.locator) := by
    rw [uncorrectable_iff, hdeg, hlen, D.pad_eq]
    rintro (h0 | h0 | ⟨r, hr, hlt⟩)
    · exact hne.card_pos.ne' h0
    · exact h0 rfl
    · obtain ⟨p, -, hpos, -⟩ := hloc r hr
      omega
  rw [if_neg hgoes] at hbody
  refine ⟨_, hbody, rfl, D.advance (decChienBody_keeps_inv D.inv hd hbody) (decChienBody_frame hbody)
    (decChienBody_stageFrame hbody) (decChienBody_sameFile D.inv hd hbody (by decide) (by decide)), ?_⟩
  constructor
  case locator =>
    have hsame := decChienBody_sameFile D.inv hd hbody (f := .lambda) (by decide) (by decide)
    exact (congrArg _ (State.halves_congr hsame u.nroots_lt)).trans hlam
  case degree => exact hdeg
  case count => exact (toNat_ofNat_half (u.chienFound_length_lt _)).trans hlen
  case located =>
    intro j hj
    obtain ⟨hroot, hpos⟩ := nth_chienWritten u u.locator (hlen.symm ▸ hj)
    obtain ⟨p, hp, hp1, hp2⟩ := hloc _ (List.getElem_mem (hlen.symm ▸ hj))
    exact ⟨p, hp, (congrArg BitVec.toNat hpos).trans hp1, hroot ▸ hp2⟩
  case covers =>
    intro p hp
    obtain ⟨r, hr, hrp⟩ := hcov p hp
    obtain ⟨j, hj, rfl⟩ := List.getElem_of_mem hr
    exact ⟨j, hlen ▸ hj, (congrArg BitVec.toNat (nth_chienWritten u u.locator hj).2).trans hrp⟩

end

/-! ### DEC_FORNEY (R270) -/

/-- LOC and MAG list the positions of the pattern with the errors there (R58, R280). -/
structure State.PatternMagnitudes (s : State) (sent : List Half) (P : Finset Nat) (u : State) : Prop where
  count   : u.scalars.nrootsFound.toNat = P.card
  apart   : u.positions.Nodup
  entries : ∀ j < P.card, ∃ (loc : Half) (mag : Word) (p : Nat), u.mem.half (entryAddr .loc j) = some loc ∧
    u.mem.word (entryAddr .mag j) = some mag ∧ p ∈ P ∧ loc.toNat = s.pad + p ∧ appliedPattern mag = s.errorAt sent p
  covers  : ∀ p ∈ P, ∃ j < P.card, ∃ loc : Half, u.mem.half (entryAddr .loc j) = some loc ∧ loc.toNat = s.pad + p

section
variable (H : s.Correctable e sent) (R : s.field.RootOf α) (D : s.Decoding e c u) (hd : u.status.dstage = .chien)
  (L : s.PatternLocated α (s.pattern e sent) u)
include H R D L

/-- DEC_FORNEY's Ω is the evaluator of the pattern (R270). -/
theorem indexPoly_evaluator : indexPoly s.field α u.evaluator =
    evaluatorPoly (s.power α) (s.weight α sent) (s.pattern e sent) := by
  have hcard := H.pattern_card_le
  rw [State.evaluator, D.field, D.nroots_eq, D.syndromes, L.degree]
  refine indexPoly_omegaList R H.tables (by rwa [s.indexSyndromes_length]) ?_ hcard L.locator (H.key_equation R)
  rw [State.locator, State.halves_length, D.nroots_eq]
  omega

include hd

/-- The magnitude of a located root is the error at its position (R292). -/
theorem magnitude_eq_errorAt {j p : Nat} (hj : j < (s.pattern e sent).card) (hp : p ∈ s.pattern e sent)
    (hpos : (nth u.positions j).toNat = s.pad + p) (hroot : s.power α p * α ^ (nth u.roots j).toNat = 1) :
    ∃ w, u.magnitude j = .ok w ∧ appliedPattern w = s.errorAt sent p := by
  have inDec := D.inv.decode (by simp [hd])
  have hLoc := inDec.locator (.inr (.inl hd))
  have hAll := inDec.located (.inl hd)
  obtain ⟨-, hle, -, -⟩ := hAll.nth_eq (L.count.symm ▸ hj)
  have habove := hLoc.above
  rw [L.degree, D.nroots_eq, D.active] at habove
  rw [D.n_eq] at hle
  rw [State.magnitude, D.field, L.degree, D.nroots_eq, D.fcr_eq, D.pad_eq]
  exact forneyMag_value R H.tables H.m_ge (by rw [State.locator, State.halves_length, D.nroots_eq]) (card_pos.mpr ⟨p, hp⟩)
    H.pattern_card_le habove (indexPoly_evaluator H R D L) L.locator (H.power_injOn R) hp hroot rfl (H.errorAt_le p) hle
    (by omega)

/-- DEC_FORNEY computes the error at every position of the pattern (R292). -/
theorem decForneyBody_of_correctable : ∃ v, decForneyBody u = .ok v ∧ v.status.dstage = .forney ∧ s.Decoding e c v ∧
    s.PatternMagnitudes sent (s.pattern e sent) v := by
  have hAll := (D.inv.decode (by simp [hd])).located (.inl hd)
  have hnr := u.nroots_lt
  have hcard := H.pattern_card_le
  have hnrs := D.nroots_eq
  obtain ⟨mags, hmags, hbody⟩ := decForneyBody_of_inv D.inv hd
  have hol : u.evaluator.length = (s.pattern e sent).card := (omegaList_length _ _ _ _).trans L.degree
  have hml : mags.length = (s.pattern e sent).card := by
    rw [mapE_length hmags, List.length_range, L.count]
  have same (f : RegFile) (h1 : .omega ≠ f) (h2 : .mag ≠ f) :
      Memory.SameFile f u.mem ((u.mem.putHalves .omega 0 u.evaluator).putWords .mag 0 mags) :=
    (Memory.sameFile_putHalves _ _ (by omega) h1).trans (Memory.sameFile_putWords _ _ (by omega) h2)
  have hloc (j : Nat) (hj : j < (s.pattern e sent).card) :
      ((u.mem.putHalves .omega 0 u.evaluator).putWords .mag 0 mags).half (entryAddr .loc j) = some (nth u.positions j) := by
    obtain ⟨root, loc, -, hl, -⟩ := hAll.entries j (L.count.symm ▸ hj)
    rw [same .loc (by decide) (by decide) j (by omega), State.positions, State.halves, nth_map_range (L.count.symm ▸ hj), hl]
    rfl
  refine ⟨_, hbody, rfl, D.advance (decForneyBody_keeps_inv D.inv hd hbody) (decForneyBody_frame hbody)
    (decForneyBody_stageFrame hbody) (same .s (by decide) (by decide)), ?_⟩
  constructor
  case count => exact L.count
  case apart => exact (((decForneyBody_keeps_inv D.inv hd hbody).decode (by simp)).located (.inr rfl)).apart
  case entries =>
    intro j hj
    obtain ⟨p, hp, hpos, hroot⟩ := L.located j hj
    obtain ⟨w, hw, happ⟩ := magnitude_eq_errorAt H R D hd L hj hp hpos hroot
    have hget := mapE_getElem hmags (hml.symm ▸ hj)
    rw [List.getElem_range, hw, Except.ok.injEq] at hget
    exact ⟨nth u.positions j, w, p, hloc j hj,
      hget ▸ Memory.word_putWords_zero _ .mag (hml.symm ▸ hj) (by omega), hp, hpos, happ⟩
  case covers =>
    intro p hp
    obtain ⟨j, hj, hpos⟩ := L.covers p hp
    exact ⟨j, hj, _, hloc j hj, hpos⟩

end

/-! ### DEC_APPLY (R280) -/

/-- DEC_APPLY adds to every symbol of the block the error at its position. -/
theorem decApplyBody_symbol (H : s.Correctable e sent)
    (M : s.PatternMagnitudes sent (s.pattern e sent) u) (h : decApplyBody u = .ok v) {p i : Nat} {f : RegFile} (hi : i < 65536)
    (hsym : symbolAt u.n u.nroots u.latches.dPad.toNat (s.pad + p) = .ok (f, i)) :
    v.mem.half (entryAddr f i) = (u.mem.half (entryAddr f i)).map (· ^^^ s.errorAt sent p) := by
  have hcount := M.count
  by_cases hhit : ∃ j < (s.pattern e sent).card, ∃ (loc : Half) (mag : Word), u.mem.half (entryAddr .loc j) = some loc ∧
      u.mem.word (entryAddr .mag j) = some mag ∧ loc.toNat = s.pad + p ∧ magApply mag = true
  · obtain ⟨j, hj, loc, mag, hloc, hmag, hpos, happ⟩ := hhit
    obtain ⟨loc', mag', hloc', hmag', A⟩ := decApplyBody_applied h M.apart (hcount.symm ▸ hj)
    obtain ⟨loc'', mag'', q, hloc'', hmag'', -, hq, hval⟩ := M.entries j hj
    obtain rfl : loc' = loc := Option.some.inj (hloc'.symm.trans hloc)
    obtain rfl : loc'' = loc' := Option.some.inj (hloc''.symm.trans hloc')
    obtain rfl : mag' = mag := Option.some.inj (hmag'.symm.trans hmag)
    obtain rfl : mag'' = mag' := Option.some.inj (hmag''.symm.trans hmag')
    obtain rfl : q = p := by omega
    rw [A.symbol happ f i (hpos ▸ hsym), ← hval, appliedPattern, if_pos happ]
  · have hzero : s.errorAt sent p = 0 := by
      by_cases hp : p ∈ s.pattern e sent
      · obtain ⟨j, hj, loc, hloc, hpos⟩ := M.covers p hp
        obtain ⟨loc', mag, q, hloc', hmag, -, hq, hval⟩ := M.entries j hj
        obtain rfl : loc' = loc := Option.some.inj (hloc'.symm.trans hloc)
        obtain rfl : q = p := by omega
        rw [← hval, appliedPattern, if_neg fun happ => hhit ⟨j, hj, loc', mag, hloc, hmag, hpos, happ⟩]
      · exact H.errorAt_of_notMem hp
    have hfile := symbolAt_file hsym
    have hsame : Memory.SameEntry f i u.mem v.mem := fun b hb => by
      refine decApplyBody_read h ⟨fun j hj loc mag g k hloc hmag happ hs => ?_, fun _ => ?_, fun _ => ?_⟩
      · refine not_entryByte_of_ne (symbolAt_index_lt hs) hi hb ?_
        by_contra hsame
        obtain ⟨rfl, rfl⟩ : g = f ∧ k = i := by tauto
        exact hhit ⟨j, hcount ▸ hj, loc, mag, hloc, hmag, symbolAt_injective hs hsym, happ⟩
      all_goals
        rintro ⟨k, hk, hbyte⟩
        refine not_entryByte_of_ne (by omega) hi hb (.inl ?_) hbyte
        rcases hfile with rfl | rfl <;> decide
    rw [hsame.half, hzero]
    simp

theorem nth_blockSymbols_data {p : Nat} (hp : p < s.len.toNat) : nth s.blockSymbols p =
    ((s.mem.half (entryAddr .data p)).getD 0 &&& s.active.actN) ^^^ (s.invmask &&& s.active.actN) := by
  rw [State.blockSymbols, nth_append_of_lt (by simpa using hp), nth_map (by simpa using hp), State.halves, nth_map_range hp]

theorem nth_blockSymbols_par {j : Nat} (hj : j < s.nroots) :
    nth s.blockSymbols (s.len.toNat + j) = (s.mem.half (entryAddr .par j)).getD 0 &&& s.active.actN := by
  rw [State.blockSymbols, nth, List.getD_append_right _ _ _ _ (by simp)]
  simp [State.halves, hj]

/-- A correction that is an element goes through the mask of an entry's stored bits (R59, R280). -/
theorem and_xor_of_le {d x n : Half} (h : x &&& n = x) : (d ^^^ x) &&& n = (d &&& n) ^^^ x := by
  refine BitVec.eq_of_toNat_eq ?_
  rw [BitVec.toNat_and, BitVec.toNat_xor, Nat.and_xor_distrib_right, BitVec.toNat_xor, BitVec.toNat_and,
    ← BitVec.toNat_and x, h]

/-- DEC_APPLY leaves the block sent (R292). -/
theorem decApplyBody_blockSymbols (H : s.Correctable e sent) (D : s.Decoding e c u)
    (M : s.PatternMagnitudes sent (s.pattern e sent) u) (h : decApplyBody u = .ok v) (fr : s.Frame v) :
    v.blockSymbols = sent := by
  have hlenv : v.len = s.len := by rw [fr.rest]
  have hmaskv : v.invmask = s.invmask := by rw [fr.rest]
  have hnrv : v.nroots = s.nroots := congrArg (fun a => a.actNroots.toNat) fr.active
  have hpad := H.pad_add
  have hn : s.n < 65536 := s.active.actN.isLt
  have hmask (p : Nat) : s.errorAt sent p &&& s.active.actN = s.errorAt sent p :=
    and_two_pow_sub_one_of_le rfl H.committed.n_eq (H.errorAt_le p)
  have corrected {f : RegFile} {i p : Nat} (hf : f.base + 0x40000 ≤ 0x200000) (hw : f.wide = false) (hi : i < 65536)
      (hwritten : s.mem.entryWritten f i) (hsym : symbolAt s.n s.nroots s.pad (s.pad + p) = .ok (f, i)) :
      (v.mem.half (entryAddr f i)).getD 0 &&& s.active.actN =
        ((s.mem.half (entryAddr f i)).getD 0 &&& s.active.actN) ^^^ s.errorAt sent p := by
    obtain ⟨d, hd⟩ := (Memory.entryWritten_narrow hw).mp hwritten
    rw [decApplyBody_symbol H M h hi (by rwa [D.n_eq, D.nroots_eq, D.pad_eq]), (D.outside.entry hf hi).half, hd]
    exact and_xor_of_le (hmask p)
  have hstep (p : Nat) (hp : p < s.len.toNat + s.nroots) :
      nth v.blockSymbols p = nth s.blockSymbols p ^^^ s.errorAt sent p := by
    by_cases hpd : p < s.len.toNat
    · have hsym := symbolAt_data (n := s.n) (nroots := s.nroots) (pad := s.pad) (pos := s.pad + p) (by omega) (by omega)
      rw [Nat.add_sub_cancel_left] at hsym
      rw [nth_blockSymbols_data (by rwa [hlenv]), nth_blockSymbols_data hpd, fr.active, hmaskv,
        corrected (by decide) rfl (by omega) (H.ready.data_written p hpd) hsym, BitVec.xor_assoc,
        BitVec.xor_comm (s.errorAt sent p), ← BitVec.xor_assoc]
    · obtain ⟨j, rfl⟩ : ∃ j, p = s.len.toNat + j := ⟨p - s.len.toNat, by omega⟩
      have hsym := symbolAt_par (n := s.n) (nroots := s.nroots) (pad := s.pad) (pos := s.pad + (s.len.toNat + j))
        (by omega) (by omega) (by omega)
      rw [show s.pad + (s.len.toNat + j) - (s.n - s.nroots) = j by omega] at hsym
      have hpar := nth_blockSymbols_par (s := v) (j := j) (by omega)
      rw [hlenv] at hpar
      rw [hpar, nth_blockSymbols_par (by omega), fr.active,
        corrected (by decide) rfl (by omega) (H.ready.par_written j (by omega)) hsym]
  refine eq_of_forall_nth (by rw [v.blockSymbols_length, hlenv, hnrv, H.length]) fun p hp => ?_
  rw [v.blockSymbols_length, hlenv, hnrv] at hp
  rw [hstep p hp, State.errorAt, ← BitVec.xor_assoc, BitVec.xor_self, BitVec.zero_xor]

end

end Sys2Proof.Machine

namespace Sys2Proof.Machine

open Finset Polynomial

/-! ### DECODE within the correction capability (R292) -/

/-- The block is read from DATA and PAR alone. -/
theorem State.Frame.blockSymbols_eq {s t : State} (fr : s.Frame t) (hout : s.mem.SameOutsideWork t.mem) :
    t.blockSymbols = s.blockSymbols := by
  have hlen : t.len = s.len := by rw [fr.rest]
  have hmask : t.invmask = s.invmask := by rw [fr.rest]
  have hdata : t.halves .data s.len.toNat = s.halves .data s.len.toNat :=
    State.halves_congr (fun j hj => (hout.entry (by decide) hj).half) s.len.isLt.le
  have hpar : t.halves .par s.nroots = s.halves .par s.nroots :=
    State.halves_congr (fun j hj => (hout.entry (by decide) hj).half) s.nroots_lt.le
  rw [State.blockSymbols, State.nroots, fr.active, hlen, hmask, hdata, ← State.nroots, hpar]
  rfl

section
variable {s : State} {e : Bool} {sent : List Half} {K : Type} [Field K] [CharP K 2] {α : K}

theorem wrongPositions_eq_nil_iff (H : s.Correctable e sent) : s.wrongPositions sent = [] ↔ ∀ p, s.errorAt sent p = 0 := by
  rw [List.eq_nil_iff_forall_not_mem]
  refine forall_congr' fun p => ⟨fun h => ?_, fun h hp => (State.mem_wrongPositions.mp hp).2 h⟩
  by_contra h0
  refine h0 (H.errorAt_of_notMem fun hp => ?_)
  exact h (State.mem_wrongPositions.mpr ⟨H.length ▸ H.pattern_lt hp, h0⟩)

theorem blockSymbols_eq_sent (H : s.Correctable e sent) (h : ∀ p, s.errorAt sent p = 0) : s.blockSymbols = sent :=
  eq_of_forall_nth (by rw [s.blockSymbols_length, H.length]) fun p _ => BitVec.xor_eq_zero_iff.mp (h p)

/-- DECODE of the block sent leaves it. -/
theorem decodeBody_of_correct (H : s.Correctable e sent) (R : s.field.RootOf α) (c : Bool) (h : ∀ p, s.errorAt sent p = 0) :
    ∃ t, decodeBody Config.padRootPolicy e c s = .ok t ∧ t.blockSymbols = sent ∧ t.result.toNat = 0 := by
  obtain ⟨t, ht, -, hres, hidle⟩ := decSynBody_of_clean e c
    (State.block_of_written H.ready.data_written H.ready.par_written) fun i hi => H.syndrome_eq_zero R h hi
  refine ⟨t, decodeBody_of_idle ht hidle, ?_, by rw [hres]; rfl⟩
  rw [(decSynBody_frame ht).blockSymbols_eq (decSynBody_outside ht), blockSymbols_eq_sent H h]

/-- DECODE of a block with errors runs through its stages: each leaves what the pattern of errors and erasures predicts. -/
theorem decodeBody_of_errors (H : s.Correctable e sent) (R : s.field.RootOf α) (c : Bool) (h : ¬∀ p, s.errorAt sent p = 0) :
    ∃ t, decodeBody Config.padRootPolicy e c s = .ok t ∧ t.blockSymbols = sent ∧
      t.result.toNat = s.unmarkedErrors e sent + s.effectiveErasures e := by
  have hnonempty : (s.pattern e sent).Nonempty := by
    rw [nonempty_iff_ne_empty]
    exact fun hempty => h fun p => H.errorAt_of_notMem (hempty ▸ notMem_empty p)
  have h1 := decSynBody_of_block (e := e) (c := c) (State.block_of_written H.ready.data_written H.ready.par_written)
  have D1 := H.decoding_syn c
  have hd1 := (decSynBody_dstage h1).resolve_left fun hidle => h (H.errorAt_eq_zero_of_clean R (synWritten_idle_iff.mp hidle))
  obtain ⟨s2, h2⟩ := decErasBody_answers D1.inv hd1 (decSynBody_erasuresGood H.ready.erasures h1)
  have D2 := D1.eras hd1 h2
  have hd2 := decErasBody_dstage h2
  obtain ⟨hL, hpoly⟩ := H.erasureLocator_eq R D1 h2
  obtain ⟨s3, h3⟩ := decBmBody_answers D2.inv hd2
  have D3 := D2.bm hd2 h3
  obtain ⟨s4, h4, hd4, D4, located⟩ := decChienBody_of_correctable H R D3 (decBmBody_dstage h3)
    (H.locator_eq R D2 hd2 hL hpoly h3) hnonempty
  obtain ⟨s5, h5, hd5, D5, M⟩ := decForneyBody_of_correctable H R D4 hd4 located
  obtain ⟨s6, h6⟩ := decApplyBody_answers D5.inv hd5
  have hbody := (decodeBody_of_dirty h1 hd1 h2 h3 h4).trans (decodeCorrect_of_chien hd4 h5 h6)
  refine ⟨s6, hbody, decApplyBody_blockSymbols H D5 M h6 (decodeBody_frame hbody), ?_⟩
  have hcount := s5.scalars.nrootsFound.isLt
  rw [decApplyBody_registers h6, ← H.pattern_card, ← M.count]
  exact BitVec.toNat_setWidth_of_le (by decide)

end

/-- Settles O38: the errors and erasures are a pattern whose locator DEC_BM finds, whose positions DEC_CHIEN locates and whose
errors DEC_FORNEY computes, so DEC_APPLY takes each error away. -/
theorem decodeRestoresTheBlockSent : Obligations.DecodeRestoresTheBlockSent := by
  intro s e c sent hinv hready hlen hel hcode hnd hcap
  have H : s.Correctable e sent := ⟨hinv, hready, hlen, hel, hcode, hnd, hcap⟩
  obtain ⟨α, R⟩ := H.tables.exists_root H.m_ge H.committed.poly_degree
  have hexec {t : State} (ht : decodeBody Config.padRootPolicy e c s = .ok t) :
      exec (.decode e c) s = .next (complete .noError t) := exec_of_check_none (decSynCheck_of_ready hready) ht
  by_cases h0 : ∀ p, s.errorAt sent p = 0
  · obtain ⟨t, ht, hblock, hres⟩ := decodeBody_of_correct H R c h0
    refine ⟨_, hexec ht, rfl, hblock, ?_⟩
    rw [if_pos ((wrongPositions_eq_nil_iff H).mpr h0)]
    exact hres
  · obtain ⟨t, ht, hblock, hres⟩ := decodeBody_of_errors H R c h0
    refine ⟨_, hexec ht, rfl, hblock, ?_⟩
    rw [if_neg (mt (wrongPositions_eq_nil_iff H).mp h0)]
    exact hres

end Sys2Proof.Machine

namespace Sys2Proof.Machine

/-! ### The control commands (R300, R301) -/

/-- A completion without error sets DONE and clears BUSY; ERR stays as it was (R324). -/
theorem complete_noError (s : State) : complete .noError s =
    { s with status := { s.status with errcode := .noError, done := true, busy := false } } := by
  have herr : (s.status.err || ErrCode.noError != .noError) = s.status.err := Bool.or_false _
  rw [complete, herr]

/-- NOP has no checks, and its body is the identity (R300). -/
theorem exec_nop (s : State) : exec .nop s = .next (complete .noError s) := exec_of_check_none rfl rfl

/-- SOFT_RESET has no checks (R301). -/
theorem exec_softReset (s : State) : exec .softReset s = .next (complete .noError s.softReset) := exec_of_check_none rfl rfl

/-- Without a valid configuration every entry of a table reads 0 (R47). -/
theorem readTarget_table_of_unconfigured {s : State} (hv : s.status.cfgValid = false) {f : RegFile} (hf : f.isTable = true)
    (i : Nat) : s.readTarget (.entry f i) = .ok 0 := by
  rw [State.readTarget, State.readFile, if_pos hf, if_pos hv]

/-- No interrupt source asserts IRQ while IRQ_EN masks them all (R331). -/
theorem irq_of_masked {s : State} (h : s.irqEn = 0) : s.irq = false := by
  simp [State.irq, h]

/-- Settles O44: NOP is a completion without error over the state it found. -/
theorem nopOnlyCompletes : Obligations.NopOnlyCompletes := by
  intro s
  rw [exec_nop, complete_noError]

/-- Settles O45: SOFT_RESET completes over a state whose registers are those after reset, so IRQ_EN masks every source and,
with CFG_VALID at 0, the tables read 0. -/
theorem softResetClearsRegistersAndKeepsFiles : Obligations.SoftResetClearsRegistersAndKeepsFiles := by
  intro s
  have htables : ∀ f ∈ [RegFile.alphaTo, .indexOf, .genpoly], f.isTable = true := by decide
  exact ⟨_, exec_softReset s, rfl, rfl, rfl, rfl, rfl, rfl, rfl, rfl, rfl, rfl, rfl, rfl, rfl, rfl, rfl, rfl,
    irq_of_masked rfl, fun f hf => readTarget_table_of_unconfigured rfl (htables f hf)⟩

end Sys2Proof.Machine

namespace Sys2Proof.Machine

/-! ### The completion handshake (R324, R325) -/

/-- How the engine's turn ends: with an error over the state it found, or without one over what the command's body leaves. -/
theorem engineTurn_completes {s t : State} (h : engineTurn s = .next t) :
    (∃ c, c ≠ .noError ∧ t = complete c s) ∨
    ∃ i u, decode s.cmd = .ok i ∧ Instr.body i s = .ok u ∧ t = complete .noError u := by
  rcases engineTurn_next h with ⟨r, -, rfl⟩ | ⟨i, hi, he⟩
  · exact .inl ⟨.illegalCmd, by decide, rfl⟩
  · rcases exec_next he with ⟨c, hc, rfl⟩ | ⟨-, u, hu, rfl⟩
    · exact .inl ⟨c, check_some_ne_noError hc, rfl⟩
    · exact .inr ⟨i, u, hi, hu, rfl⟩

theorem complete_noError_err (s : State) : (complete .noError s).status.err = s.status.err := Bool.or_false _

/-- No body but that of SOFT_RESET writes ERR. -/
theorem body_err {i : Instr} (hr : i ≠ .softReset) {s t : State} (h : Instr.body i s = .ok t) :
    t.status.err = s.status.err := by
  by_cases hc : i = .config
  · subst hc
    exact Except.ok.inj h ▸ rfl
  · rw [(body_frame hc hr h).rest]

/-- The engine's turn keeps ERR at 1 unless the word is SOFT_RESET's (R324). -/
theorem engineTurn_keeps_err {s t : State} (h : engineTurn s = .next t) (hs : s.status.err = true)
    (hr : decode s.cmd ≠ .ok .softReset) : t.status.err = true := by
  rcases engineTurn_completes h with ⟨c, -, rfl⟩ | ⟨i, u, hi, hu, rfl⟩
  · simp [hs]
  · exact (complete_noError_err u).trans ((body_err (fun e => hr (e ▸ hi)) hu).trans hs)

/-! ### ERR in a turn of the host (R41, R360) -/

theorem writeReg_err_of_ne (s : State) (v : Word) {r : PortReg} (hr : r ≠ .status) :
    (s.writeReg v r).status.err = s.status.err := by
  cases r <;> simp [State.writeReg] at hr ⊢

/-- A host write to `STATUS` is its W1C write, whether BUSY is 0 or 1 (R364). -/
theorem portWrite_status {s : State} {off : BitVec 22} (v : Word) (h : portTarget off = .reg .status) :
    s.portWrite off v = { s with status := s.status.w1c v } := by
  cases hb : s.status.busy
  · rw [portWrite_idle hb, h]
    rfl
  · rw [portWrite_busy hb, h]
    rfl

theorem portWrite_err_of_ne (s : State) {off : BitVec 22} (v : Word) (h : portTarget off ≠ .reg .status) :
    (s.portWrite off v).status.err = s.status.err := by
  unfold State.portWrite
  cases ht : portTarget off with
  | unmapped => split <;> rfl
  | entry f i =>
    split
    · rfl
    · rw [State.writeTarget]
      split <;> rfl
  | reg r =>
    have hreg := writeReg_err_of_ne s v (r := r) fun e => h (e ▸ ht)
    split
    · rw [State.writeTargetBusy]
      split
      · exact hreg
      · rfl
    · exact hreg

/-- A host write clears ERR only as a W1C write with bit 2 set. -/
theorem portWrite_clears_err {s : State} {off : BitVec 22} {v : Word} (hs : s.status.err = true)
    (ht : (s.portWrite off v).status.err = false) : portTarget off = .reg .status ∧ v.getLsbD 2 = true := by
  by_cases h : portTarget off = .reg .status
  · refine ⟨h, ?_⟩
    rw [portWrite_status v h] at ht
    simpa [Status.w1c, hs] using ht
  · rw [portWrite_err_of_ne s v h, hs] at ht
    cases ht

/-- A turn of the host clears ERR only by a W1C write or the reset input. -/
theorem hostTurn_clears_err {s t : State} (h : hostTurn s = .next t) (hs : s.status.err = true) (ht : t.status.err = false) :
    (∃ off v rest, s.pending = .write off v :: rest ∧ portTarget off = .reg .status ∧ v.getLsbD 2 = true) ∨
    ∃ rest, s.pending = .reset :: rest := by
  have keeps (he : t.status.err = s.status.err) : False := by simp [he, hs] at ht
  rcases hostEvent_next (hostTurn_next.mp h) with ⟨-, rfl⟩ | ⟨off, rest, -, hr⟩ | ⟨off, v, rest, hw, rfl⟩ | ⟨rest, -, rfl⟩ |
    ⟨rest, hp, -⟩
  · exact (keeps rfl).elim
  · exact (keeps (by rw [portRead_next hr])).elim
  · exact .inl ⟨off, v, rest, hw, portWrite_clears_err (s := { s with pending := rest }) hs ht⟩
  · exact (keeps rfl).elim
  · exact .inr ⟨rest, hp⟩

/-- Settles O7: both ends of an engine's turn are completions, no body but SOFT_RESET's writes ERR, and of the host's events only a
W1C write and the reset input clear it. -/
theorem everyCommandCompletesItsHandshake : Obligations.EveryCommandCompletesItsHandshake := by
  refine ⟨fun s t hm h => ?_, fun s t h hs ht => ?_⟩
  · rw [step_of_engineMoves hm] at h
    rcases engineTurn_completes h with ⟨c, hc, rfl⟩ | ⟨i, u, hi, hu, rfl⟩
    · exact ⟨rfl, rfl, fun _ => by simp [hc], fun _ he => absurd he hc⟩
    · refine ⟨rfl, rfl, fun he => absurd rfl he, fun hr _ => ?_⟩
      exact (complete_noError_err u).trans (body_err (fun e => hr (e ▸ hi)) hu)
  · rcases step_cases s with ⟨hm, he⟩ | ⟨-, -, he⟩ | ⟨-, he⟩ <;> rw [he] at h
    · refine .inl ⟨hm, ?_⟩
      by_contra hr
      simp [engineTurn_keeps_err h hs hr] at ht
    · exact .inr (hostTurn_clears_err (s := s.tick) h hs ht)
    · exact .inr (hostTurn_clears_err h hs ht)

/-- Settles O8: a completion with a code is over the state the engine found. -/
theorem failedCommandChangesOnlyCompletionFields : Obligations.FailedCommandChangesOnlyCompletionFields := by
  intro s t hm h herr
  rw [step_of_engineMoves hm] at h
  rcases engineTurn_completes h with ⟨c, hc, rfl⟩ | ⟨i, u, -, -, rfl⟩
  · exact complete_of_ne_noError hc s
  · exact absurd rfl herr

/-! ### The order of the checks (R326) -/

/-- Every command but NOP, CONFIG and SOFT_RESET checks CFG_VALID first. -/
theorem check_of_not_valid {i : Instr} {s : State} (hnop : i ≠ .nop) (hconfig : i ≠ .config) (hreset : i ≠ .softReset)
    (hv : s.status.cfgValid = false) : Instr.check i s = .ok (some .notConfigured) := by
  cases i with
  | nop => exact absurd rfl hnop
  | config => exact absurd rfl hconfig
  | softReset => exact absurd rfl hreset
  | encode | decode | decSyn | decEras | decBm | decChien | decForney | decApply | fldAlog | fldLog | fldModn | fldAdd | fldMul
    | fldDiv => exact checkConfigured_of_not_valid hv

theorem checkStage_of_other_stage {need : DStage} {s : State} {k : Except Fault (Option ErrCode)} (hc : s.configured)
    (hd : s.status.dstage ≠ need) : checkStage need s k = .ok (some .sequence) :=
  (checkConfigured_of_configured hc.1 hc.2).trans (if_neg hd)

theorem State.lenFits_of_lt {s : State} (h : s.n < s.len.toNat + s.nroots) : s.lenFits = false := decide_eq_false (by omega)

theorem encodeCheck_of_too_long {s : State} (hc : s.configured) (h : s.n < s.len.toNat + s.nroots) :
    encodeCheck s = .ok (some .length) := by
  rw [encodeCheck, checkConfigured_of_configured hc.1 hc.2, State.lenFits_of_lt h]
  rfl

theorem decSynCheck_of_too_long {s : State} (e : Bool) (hc : s.configured) (h : s.n < s.len.toNat + s.nroots) :
    decSynCheck e s = .ok (some .length) := by
  rw [decSynCheck, checkConfigured_of_configured hc.1 hc.2, State.lenFits_of_lt h]
  rfl

/-- Settles O9: the check that fails first gives the code, whatever the checks after it would say. -/
theorem firstFailingCheckDecidesTheErrorCode : Obligations.FirstFailingCheckDecidesTheErrorCode := by
  refine ⟨fun i s hnop hconfig hreset hv => ?_, fun i need s hmem hc hd => ?_, fun s e c hc hlen => ?_⟩
  · exact exec_of_check_some (check_of_not_valid hnop hconfig hreset hv)
  · simp only [List.mem_cons, List.not_mem_nil, or_false, Prod.mk.injEq] at hmem
    rcases hmem with ⟨rfl, rfl⟩ | ⟨rfl, rfl⟩ | ⟨rfl, rfl⟩ | ⟨rfl, rfl⟩ | ⟨rfl, rfl⟩ <;>
      exact exec_of_check_some (checkStage_of_other_stage hc hd)
  · have hsyn := decSynCheck_of_too_long e hc hlen
    exact ⟨exec_of_check_some (encodeCheck_of_too_long hc hlen), exec_of_check_some hsyn, exec_of_check_some hsyn⟩

/-! ### The interrupt output (R330, R331) -/

theorem irq_iff (s : State) : s.irq = true ↔
    (s.status.done = true ∧ s.irqEn.getLsbD 0 = true) ∨ (s.status.err = true ∧ s.irqEn.getLsbD 1 = true) ∨
      (s.status.werr = true ∧ s.irqEn.getLsbD 2 = true) := by
  simp only [State.irq, Bool.or_eq_true, Bool.and_eq_true, or_assoc]

/-- Every command completes with DONE set (R324). -/
theorem exec_done {i : Instr} {s t : State} (h : exec i s = .next t) : t.status.done = true := by
  rcases exec_next h with ⟨c, -, rfl⟩ | ⟨-, u, -, rfl⟩ <;> rfl

/-- No command but SOFT_RESET writes IRQ_EN. -/
theorem exec_irqEn {i : Instr} (hr : i ≠ .softReset) {s t : State} (h : exec i s = .next t) : t.irqEn = s.irqEn := by
  obtain ⟨-, -, hregs, -⟩ := onlyConfigAndSoftResetChangeTheConfiguration i s t h
  obtain ⟨-, hirq, -⟩ := hregs hr
  exact hirq

/-- Settles O56: a completion sets DONE and keeps IRQ_EN, so DONE with DONE_IE asserts IRQ. -/
theorem irqFollowsStatusAndEnables : Obligations.IrqFollowsStatusAndEnables :=
  ⟨irq_iff, fun _ _ t h hr hen => (irq_iff t).mpr (.inl ⟨exec_done h, (exec_irqEn hr h).symm ▸ hen⟩)⟩

end Sys2Proof.Machine

namespace Sys2Proof.Machine

/-! ### The state after reset (R361) -/

theorem configCheck_ne_notConfigured (s : State) : configCheck s ≠ .ok (some .notConfigured) := by
  unfold configCheck
  split
  · simp
  · split <;> simp

/-- NOP, CONFIG and SOFT_RESET do not check CFG_VALID. -/
theorem check_notConfigured {i : Instr} {s : State} (h : Instr.check i s = .ok (some .notConfigured)) :
    i ≠ .nop ∧ i ≠ .config ∧ i ≠ .softReset := by
  refine ⟨?_, ?_, ?_⟩ <;> rintro rfl
  · cases h
  · exact configCheck_ne_notConfigured s h
  · cases h

/-- Without a valid configuration the code NOT_CONFIGURED tells the commands that check CFG_VALID from the three that do not. -/
theorem exec_notConfigured_iff {i : Instr} {s t : State} (hv : s.status.cfgValid = false) (h : exec i s = .next t) :
    t.status.errcode = .notConfigured ↔ i ≠ .nop ∧ i ≠ .config ∧ i ≠ .softReset := by
  constructor
  · intro hcode
    exact check_notConfigured (exec_errcode h hcode (by decide))
  · rintro ⟨hnop, hconfig, hreset⟩
    rw [exec_of_check_some (check_of_not_valid hnop hconfig hreset hv)] at h
    obtain rfl : complete .notConfigured s = t := Host.Outcome.next.inj h
    rfl

/-- Settles O46: IRQ_EN masks every source, and CFG_VALID is 0. -/
theorem resetStateIsUnconfigured : Obligations.ResetStateIsUnconfigured :=
  ⟨rfl, rfl, irq_of_masked rfl, fun _ _ h => exec_notConfigured_iff rfl h⟩

/-! ### The reset input (R360) -/

theorem hostTurn_reset {s : State} {rest : List HostEvent} (hp : s.pending = .reset :: rest) :
    hostTurn s = .next { State.reset with pending := rest, rdata := s.rdata, draws := s.draws } := by
  rw [hostTurn, hostEvent, hp]
  rfl

/-- Settles O47: the host's turn takes the reset input, inside a BUSY window after the window's tick, which the reset forgets. -/
theorem resetInputRestoresTheResetState : Obligations.ResetInputRestoresTheResetState := by
  intro s rest hm hp
  rcases step_cases s with ⟨hm', -⟩ | ⟨-, -, hs⟩ | ⟨-, hs⟩
  · rw [hm] at hm'
    cases hm'
  · rw [hs]
    exact hostTurn_reset (s := s.tick) hp
  · rw [hs]
    exact hostTurn_reset hp

end Sys2Proof.Machine

namespace Sys2Proof.Machine

/-! ### A host access in a BUSY window (R364) -/

theorem PortReg.readableWhileBusy_iff (r : PortReg) :
    r.readableWhileBusy = true ↔ r ∈ [PortReg.id, .param, .cmd, .status, .irqEn] := by
  cases r <;> decide

/-- A host write in a BUSY window takes one of its turns. -/
theorem step_write_window {s : State} {off : BitVec 22} {v : Word} {rest : List HostEvent} (hb : s.status.busy = true)
    (hs : 0 < s.slack) (hp : s.pending = .write off v :: rest) :
    step s = .next ({ s.tick with pending := rest }.writeTargetBusy v (portTarget off)) := by
  rw [step_of_window hb hs, hostTurn, hostEvent, show s.tick.pending = .write off v :: rest from hp]
  simp only [portWrite_busy (s := { s.tick with pending := rest }) hb]

/-- A host read in a BUSY window takes one of its turns, and it never stops. -/
theorem step_read_window {s t : State} {off : BitVec 22} {rest : List HostEvent} (hb : s.status.busy = true)
    (hs : 0 < s.slack) (hp : s.pending = .read off :: rest) (ht : { s.tick with pending := rest }.portRead off = .ok t) :
    step s = .next t := by
  rw [step_of_window hb hs, hostTurn_next, hostEvent, show s.tick.pending = .read off :: rest from hp]
  exact ht

/-- A write that reaches a register or an entry, but neither STATUS nor IRQ_EN, is dropped with WERR. -/
theorem writeTargetBusy_dropped (s : State) (v : Word) {t : Target} (hstatus : t ≠ .reg .status) (hirq : t ≠ .reg .irqEn)
    (hmapped : t ≠ .unmapped) : s.writeTargetBusy v t = s.dropWrite := by
  cases t with
  | unmapped => exact absurd rfl hmapped
  | entry f i => rfl
  | reg r =>
    cases r
    case status => exact absurd rfl hstatus
    case irqEn => exact absurd rfl hirq
    all_goals rfl

theorem portRead_busy_register {s : State} {off : BitVec 22} {r : PortReg} (hb : s.status.busy = true)
    (hr : r ∈ [PortReg.id, .param, .cmd, .status, .irqEn]) (ht : portTarget off = .reg r) :
    s.portRead off = .ok (s.answer (s.readReg r)) := by
  rw [portRead_busy hb, ht]
  simp only [r.readableWhileBusy_iff.mpr hr, if_true]

theorem portRead_busy_unspecified {s : State} {off : BitVec 22} (hb : s.status.busy = true)
    (ht : ∀ r ∈ [PortReg.id, .param, .cmd, .status, .irqEn], portTarget off ≠ .reg r) :
    s.portRead off = .ok s.answerUnspecified := by
  rw [portRead_busy hb]
  cases htarget : portTarget off with
  | entry f i => rfl
  | unmapped => rfl
  | reg r =>
    have hr : ¬r.readableWhileBusy = true := fun hr => ht r (r.readableWhileBusy_iff.mp hr) htarget
    simp only [if_neg hr]

/-- A turn of the window changes no register. -/
theorem readReg_tick (s : State) (rest : List HostEvent) (r : PortReg) :
    { s.tick with pending := rest }.readReg r = s.readReg r := by
  cases r <;> rfl

/-- Settles O53: what the access reaches decides, after the window's tick. -/
theorem busyWindowFollowsItsRules : Obligations.BusyWindowFollowsItsRules := by
  refine fun s off rest hb hs => ⟨fun v hp => ?_, fun hp => ⟨fun r hr ht => ?_, fun ht => ?_⟩⟩
  · rw [step_write_window hb hs hp]
    refine ⟨fun ht => ?_, fun ht => ?_, fun hstatus hirq hmapped => ?_, fun ht => ?_⟩
    · rw [ht]
      rfl
    · rw [ht]
      rfl
    · rw [writeTargetBusy_dropped _ v hstatus hirq hmapped]
      rfl
    · rw [ht]
      rfl
  · have hread := step_read_window hb hs hp (portRead_busy_register hb hr ht)
    rwa [readReg_tick] at hread
  · exact step_read_window hb hs hp (portRead_busy_unspecified hb ht)

/-! ### The end of a BUSY window (R363) -/

/-- What the host's turns in a BUSY window can do while no reset is pending: the W1C bits, WERR, IRQ_EN and the host's own side
change, and no event is added. -/
structure State.WindowFrame (s t : State) : Prop where
  rest : t = { s with
    status := { s.status with done := t.status.done, err := t.status.err, werr := t.status.werr }
    irqEn := t.irqEn, pending := t.pending, rdata := t.rdata, slack := t.slack, draws := t.draws }
  pending : t.pending ⊆ s.pending

namespace State.WindowFrame

theorem refl (s : State) : s.WindowFrame s := ⟨rfl, List.Subset.refl _⟩

theorem trans {s t u : State} (h : s.WindowFrame t) (h' : t.WindowFrame u) : s.WindowFrame u :=
  ⟨h'.rest.trans (by rw [h.rest]), List.Subset.trans h'.pending h.pending⟩

theorem busy {s t : State} (h : s.WindowFrame t) : t.status.busy = s.status.busy := by rw [h.rest]

theorem no_reset {s t : State} (h : s.WindowFrame t) (hr : HostEvent.reset ∉ s.pending) : HostEvent.reset ∉ t.pending :=
  fun hmem => hr (h.pending hmem)

theorem tick (s : State) : s.WindowFrame s.tick := ⟨rfl, List.Subset.refl _⟩

/-- The next event is taken from those pending. -/
theorem next_event {s : State} {e : HostEvent} {rest : List HostEvent} (hp : s.pending = e :: rest) :
    s.WindowFrame { s with pending := rest } := ⟨rfl, hp ▸ List.subset_cons_self e rest⟩

end State.WindowFrame

theorem portRead_windowFrame {s t : State} {off : BitVec 22} (h : s.portRead off = .ok t) :
    s.WindowFrame t ∧ t.slack = s.slack := by
  rw [portRead_next h]
  exact ⟨⟨rfl, List.Subset.refl _⟩, rfl⟩

theorem portWrite_windowFrame {s : State} (hb : s.status.busy = true) (off : BitVec 22) (v : Word) :
    s.WindowFrame (s.portWrite off v) ∧ (s.portWrite off v).slack = s.slack := by
  rw [portWrite_busy hb, writeTargetBusy_eq]
  exact ⟨⟨rfl, List.Subset.refl _⟩, rfl⟩

/-- No event of the host but a reset leaves the frame of the window. -/
theorem hostEvent_windowFrame {s t : State} (hb : s.status.busy = true) (hr : HostEvent.reset ∉ s.pending)
    (h : hostEvent s = .ok t) : s.WindowFrame t ∧ t.slack = s.slack := by
  rcases hostEvent_next h with ⟨-, rfl⟩ | ⟨off, rest, hp, hread⟩ | ⟨off, v, rest, hp, rfl⟩ | ⟨rest, -, rfl⟩ | ⟨rest, hp, -⟩
  · exact ⟨.refl _, rfl⟩
  · obtain ⟨hframe, hslack⟩ := portRead_windowFrame hread
    exact ⟨.trans (.next_event hp) hframe, hslack⟩
  · obtain ⟨hframe, hslack⟩ := portWrite_windowFrame (s := { s with pending := rest }) hb off v
    exact ⟨.trans (.next_event hp) hframe, hslack⟩
  · rw [if_pos hb]
    exact ⟨⟨rfl, List.Subset.refl _⟩, rfl⟩
  · exact absurd (hp ▸ List.mem_cons_self) hr

/-- While BUSY is 1 the host's next event never stops the run: the reads that could are answered with a free value (R364). -/
theorem hostEvent_of_busy {s : State} (hb : s.status.busy = true) : ∃ t, hostEvent s = .ok t := by
  cases h : hostEvent s with
  | ok t => exact ⟨t, rfl⟩
  | error e =>
    obtain ⟨off, rest, -, hread⟩ := hostEvent_error h
    obtain ⟨hidle, -⟩ := portRead_error hread
    exact absurd (hb.symm.trans hidle) (by decide)

/-- A step in the window passes one of its turns. -/
theorem step_in_window {s : State} (hb : s.status.busy = true) (hs : 0 < s.slack) (hr : HostEvent.reset ∉ s.pending) :
    ∃ t, step s = .next t ∧ s.WindowFrame t ∧ t.slack = s.slack - 1 := by
  obtain ⟨t, ht⟩ := hostEvent_of_busy (s := s.tick) hb
  obtain ⟨hframe, hslack⟩ := hostEvent_windowFrame (s := s.tick) hb hr ht
  exact ⟨t, (step_of_window hb hs).trans (hostTurn_next.mpr ht), .trans (.tick s) hframe, hslack⟩

theorem run_succ_of_next {M : Host.Core} {k : Nat} {s t : M.State} (h : M.step s = .next t) : M.run (k + 1) s = M.run k t := by
  rw [Host.Core.run, h]

/-- After as many steps as the window has turns none is left. -/
theorem run_window (k : Nat) {s : State} (hk : s.slack = k) (hb : s.status.busy = true) (hr : HostEvent.reset ∉ s.pending) :
    ∃ u, Host.Core.run Sys2Proof.core k s = .next u ∧ s.WindowFrame u ∧ u.slack = 0 := by
  induction k generalizing s with
  | zero => exact ⟨s, rfl, .refl s, hk⟩
  | succ k ih =>
    obtain ⟨t, ht, hframe, hslack⟩ := step_in_window hb (by omega) hr
    obtain ⟨u, hu, hframe', hzero⟩ := ih (s := t) (by omega) (hframe.busy.trans hb) (hframe.no_reset hr)
    exact ⟨u, (run_succ_of_next (M := Sys2Proof.core) ht).trans hu, hframe.trans hframe', hzero⟩

/-- Settles O54, by induction on the turns of the window: each is a step within its frame. -/
theorem busyWindowReachesTheEngine : Obligations.BusyWindowReachesTheEngine := by
  intro s hb hr
  obtain ⟨u, hu, hframe, hzero⟩ := run_window s.slack rfl hb hr
  exact ⟨u, hu, (engineMoves_iff u).mpr ⟨hframe.busy.trans hb, hzero⟩, hzero ▸ hframe.rest⟩

end Sys2Proof.Machine
